-- ==== Sys2Proof/Word.lean ====
section
/-! DEFINITION. The words of the D9: bytes, words in memory, 64-bit registers, 96-bit instruction words,
57-bit virtual addresses, and the sorted tables that hold sparse data. -/

namespace Sys2Proof

/-- A byte of memory. -/
abbrev Byte := BitVec 8

/-- A word of memory and a vector register: 4 bytes (R2, R18). -/
abbrev W32 := BitVec 32

/-- A uniform register and a register pair (R18). -/
abbrev W64 := BitVec 64

/-- An instruction word (R3, R21). -/
abbrev W96 := BitVec 96

/-- A position of an order domain (R267). -/
abbrev Pos := BitVec 48

/-- A virtual address within a node (R21, R149). -/
abbrev VA := BitVec 57

/-- Sparse data by key: keys strictly rising. -/
abbrev Tab (α : Type) := List (Nat × α)

end Sys2Proof
end

