-- ==== Sys2Proof/Config.lean ====
section
/-! DEFINITION. What an implementation fixes and the manual's free values. A constant without a body has no
value that Lean can compute: a statement that names one holds whatever the value is. -/

namespace Sys2Proof.Config

/-- Free values of the memory system (log 7): the leaf entry by which a broken 64 KiB run translates (R151). The
arguments are the model's counter of free values, which every step advances, and the virtual address. -/
opaque brokenRun : Nat → Nat → BitVec 64

/-- The byte that STX.I32 stores for an operand outside the range of an I8 or U8 page, which the manual leaves open (log 8).
The arguments are whether the page is I8 and the operand: the same operand always stores the same byte (R1). -/
opaque narrowByte : Bool → BitVec 32 → BitVec 8

/-- SHA-384 of a byte list, most significant byte first in the result (R330, R333; log 13). -/
opaque sha384 : List (BitVec 8) → BitVec 384

/-- An ECDSA signature on brainpoolP384r1, `r` then `s`, by the device's identity key (R335; log 13). -/
opaque identitySign : BitVec 384 → BitVec 768

/-- Verification of an ECDSA signature on brainpoolP384r1: key, digest, signature (R330, R336; log 13). -/
opaque ecdsaVerify : List (BitVec 8) → BitVec 384 → BitVec 768 → Bool

/-- The hash of the Umelle signing key fused in the package (R330; log 13). -/
opaque fusedKeyHash : BitVec 384

/-- The fused minimum security version (R330; log 13). -/
opaque fusedMinVersion : Nat

/-- The firmware image in the module's flash at power-on (R330; log 13). -/
opaque flashImage : List (BitVec 8)

/-- The fields that the mask ROM reads from an image: its signing key, signature and security version. The
manual gives the image no layout (R330; log 13). -/
opaque imageKey : List (BitVec 8) → List (BitVec 8)
opaque imageSignature : List (BitVec 8) → BitVec 768
opaque imageVersion : List (BitVec 8) → Nat

/-- What the loader makes of a code object, whose section and kernel tables the manual gives no layout (R343, R345; log
27): the bytes that it places behind the descriptor table in read-only memory (.text and .const), the bytes of .data and
the size of .bss, given the place of the read-only sections and that of the writable ones; the first 56 bytes of the
descriptor of a kernel; and the object's handle. The first argument of a handle is the model's counter of free values. -/
opaque objectImage : List (BitVec 8) → BitVec 57 → BitVec 57 → List (BitVec 8)
opaque objectData : List (BitVec 8) → BitVec 57 → BitVec 57 → List (BitVec 8)
opaque objectBss : List (BitVec 8) → Nat
opaque objectKernel : List (BitVec 8) → BitVec 57 → Nat → BitVec 448
opaque objectHandle : Nat → List (BitVec 8) → BitVec 64

/-- The routine that an emulation library index names for a feature bit, 0 for none; the manual gives the index no layout
(R345; log 27). The arguments are the model's counter of free values, the address of the index and the bit. -/
opaque libraryRoutine : Nat → BitVec 64 → Nat → BitVec 64

end Sys2Proof.Config
end

