-- ==== Sys2Proof/Syntax.lean ====
section
/-! DEFINITION. The instructions and the machine's other steps: one constructor of Instr for each row of
spec/opcode_table.json, with the operand kinds, modifiers and arguments each of them carries. -/

namespace Sys2Proof

/-- Operand types (R30); the two reserved codes have no constructor. -/
inductive Ty where
  | none | i32 | u32 | i64 | u64 | i16x2 | u8x4 | f32 | f64 | f16 | bf16 | f16x2 | bf16x2 | b8
  deriving DecidableEq, Repr

/-- Operands by their 11-bit codes (R18, R37); the reserved codes 1760 to 2046 have no constructor. -/
inductive Opd where
  | v (n : Fin 1536) | s (n : Fin 128) | p (n : Fin 8) | disp (n : Fin 8)
  | q (n : Fin 32) | spec (n : Fin 48) | zero
  deriving DecidableEq, Repr

/-- Operand b of an instruction with an immediate form (R32, R69). -/
inductive Src where
  | reg (o : Opd) | imm (w : W32)
  deriving DecidableEq, Repr

/-- Operand b of the forms with a 16-bit immediate (R237, R253). -/
inductive Src16 where
  | reg (o : Opd) | imm (w : BitVec 16)
  deriving DecidableEq, Repr

/-- The guard and the hints of a word (R27 to R29). -/
structure Hd where
  neg : Bool
  gp : Fin 8
  slotB : Bool
  reuse : Bool
  last : Bool
  yieldAfter : Bool
  deriving DecidableEq, Repr

/-- Integer conditions (R70). -/
inductive Cond where
  | eq | ne | lt | le | gt | ge
  deriving DecidableEq, Repr

/-- Floating-point conditions (R107). -/
inductive FCond where
  | eq | ne | lt | le | gt | ge | un | ord
  deriving DecidableEq, Repr

/-- Rounding modes (R31). -/
inductive Rm where
  | rne | rtz | rup | rdn | rna | srh
  deriving DecidableEq, Repr

/-- Scopes (R33). -/
inductive Scope where
  | flock | fold | die | package | system
  deriving DecidableEq, Repr

/-- Memory orders (R33). -/
inductive Order where
  | plain | acq | rel | acqrel
  deriving DecidableEq, Repr

/-- Access sizes (R33). -/
inductive Size where
  | b8 | b16 | b32 | b64 | b128
  deriving DecidableEq, Repr

/-- The memory layout AM (R33). -/
structure Am where
  scope : Scope
  strm : Bool
  order : Order
  size : Size
  off : W32
  deriving DecidableEq, Repr

/-- The lexical layout AL (R34); scale code k scales by 2^k. -/
structure Al where
  level : Fin 8
  scale : Fin 4
  size : Size
  order : Order
  off : BitVec 24
  deriving DecidableEq, Repr

/-- STX's layout (R166). -/
structure Ax where
  scope : Scope
  sat : Bool
  order : Order
  rm : Rm
  off : W32
  deriving DecidableEq, Repr

/-- Atomic operations (R257). -/
inductive Aop where
  | add | min | max | and | or | xor | exch | inc | dec
  deriving DecidableEq, Repr

/-- The atomic layout AT (R253). -/
structure At where
  scope : Scope
  aop : Aop
  order : Order
  off : W32
  deriving DecidableEq, Repr

/-- BRA's condition with its uniform operand (R136). -/
inductive BraCond where
  | always | nz (a : Opd) | z (a : Opd)
  deriving DecidableEq, Repr

/-- CALL's target: an AB offset or a register (R136). -/
inductive CallTgt where
  | label (off : W32) | reg (a : Opd)
  deriving DecidableEq, Repr

/-- VOTE's modes (R144). -/
inductive VoteMode where
  | any | all | ballot | count
  deriving DecidableEq, Repr

/-- SHFL's modes (R85). -/
inductive ShflMode where
  | idx | up | down | xor
  deriving DecidableEq, Repr

/-- VEXT's source widths (R69). -/
inductive ExtW where
  | w8 | w16 | w32
  deriving DecidableEq, Repr

/-- PMOV's directions (R84). -/
inductive PDir where
  | toS | toP
  deriving DecidableEq, Repr

/-- Copy modes (R162). -/
inductive CpyMode where
  | d1 | d2 | fill | gather
  deriving DecidableEq, Repr

/-- CFLUSH's modes (R166). -/
inductive FlushMode where
  | wb | inv | wbinv
  deriving DecidableEq, Repr

/-- The three classes of TBEGIN, with the key operand of class O (R282). -/
inductive TClass where
  | v | e | o (b : Opd)
  deriving DecidableEq, Repr

/-- BAR's count operand (R253): none, an S register or an immediate. -/
inductive BarCnt where
  | none | reg (b : Opd) | imm (n : BitVec 16)
  deriving DecidableEq, Repr

/-- HARRIVE's byte count (R253): absent without TX. -/
inductive TxCnt where
  | none | tx (b : Src16)
  deriving DecidableEq, Repr

/-- The context or core operand of SYSR and SYSW (R309): absent when C = 0. -/
inductive CtxOpd where
  | own | other (b : Opd)
  deriving DecidableEq, Repr

/-- The scalar b operand of a pair (R41). -/
inductive PairB where
  | reg (n : Fin 128) | imm (i : BitVec 7)
  deriving DecidableEq, Repr

/-- The vector half's operation (R41): a group-2 op or a group-4 op. -/
inductive PairOp where
  | g2 (op : Fin 32) | g4 (op : Fin 13)
  deriving DecidableEq, Repr

/-- The clause header's fields (R23). -/
structure ClauseHdr where
  len : BitVec 4
  wait : BitVec 12
  slotA : BitVec 4
  slotB : BitVec 4
  heavy : BitVec 4
  yield : BitVec 2
  tag : BitVec 16
  deriving DecidableEq, Repr

/-- Homes of the abstract machine (R243): a slice of a die, a host link, or a base die's atomic unit. -/
inductive Home where
  | slice (die : Nat) (n : Nat) | link (n : Nat) | base (stack : Nat)
  deriving DecidableEq, Repr

/-- Links that can leave service (R362). -/
inductive Link where
  | host (n : Nat) | port (n : Nat)
  deriving DecidableEq, Repr

/-- Registers of the host's window (R4, R319, R320, R329, R333, R338, R342, R352, R355, R370). -/
inductive HostReg where
  | ctxPad (ctx : Nat)
  | qBase (q : Nat) | qSize (q : Nat) | qCtl (q : Nat) | qResv (q : Nat) | qVec (q : Nat)
  | padMin (p : Nat) | padMax (p : Nat) | padShare (p : Nat)
  | ctxReg (ctx : Nat) (num : Nat)
  | coreReg (core : Nat) (num : Nat)
  | evjBase (ctx : Nat) | evjSize (ctx : Nat) | evjHead (ctx : Nat) | evjVec (ctx : Nat)
  | dirtyEn (ctx : Nat) | dirtyBase (ctx : Nat) | dirtySize (ctx : Nat) | dirtyHead (ctx : Nat)
  | hdmBase | hdmSize | hdmCtl
  | pwrCap | cejStatus | svcStat
  | hashEn (fn : Nat) | hashList (fn : Nat) (l : List (BitVec 384)) | numVfs | localNode | nodeRoute (n : Nat)
  | ctxCmd | ctxStat | qDoor (q : Nat) | qHead (q : Nat) | qStat (q : Nat) | qImport (q : Nat) | qExport (q : Nat)
  | evjTail (ctx : Nat) | evjLost (ctx : Nat) | dirtyTail (ctx : Nat) | dirtyLost (ctx : Nat)
  | padDeliv (p : Nat) | padCores (p : Nat) | padTokens (p : Nat) | padFlags (p : Nat)
  | pwrNow | tempMax | pkgInfo | biasStat | collapseList (i : Nat)
  | cejBase | cejSize | cejHead | cejTail | cejAck | cejAkeyHash (word : Fin 6)
  deriving DecidableEq, Repr

/-- A peer's request (R361) and a peer's answer (R362). -/
inductive PeerOp where
  | load (addr : VA) (n : Nat)
  | store (addr : VA) (bytes : List Byte)
  | atom (addr : VA) (n : Nat) (ty : Ty) (aop : Aop) (b : W64)
  | cas (addr : VA) (n : Nat) (cmp : W64) (b : W64)
  deriving DecidableEq, Repr

inductive PeerAnswer where
  | data (v : List Byte) | ack | refused
  deriving DecidableEq, Repr

/-- An acknowledgement read by the device (R337). -/
structure CejAck where
  seq : BitVec 40
  chain : BitVec 192
  sig : BitVec 768
  deriving DecidableEq, Repr

/-- How the training of the HBM ends (R372): a stack fails, or all are trained and firmware reserves the place of the bias table
(R356). -/
inductive Training where
  | failed (stack : Fin 12)
  | trained (biasTable : Nat)
  deriving DecidableEq, Repr

/-- One constructor for each row of the opcode table. The words of groups 0x0 to 0xB and the pair come first,
then the steps of the machine's other agents, whose arguments name the choice each of them makes. -/
inductive Instr where
  -- group 0x0 (R136)
  | nop (h : Hd)
  | bra (h : Hd) (c : BraCond) (off : W32)
  | brx (h : Hd) (a : Opd)
  | call (h : Hd) (d : Opd) (t : CallTgt)
  | ret (h : Hd) (a : Opd)
  | exit (h : Hd)
  | cvg (h : Hd) (a : Opd)
  | cvgset (h : Hd) (d : Opd)
  | elect (h : Hd) (d a : Opd)
  | vote (h : Hd) (m : VoteMode) (d a : Opd) (neg : Bool)
  | reorder (h : Hd) (a base : Opd) (count : BitVec 11)
  | yield (h : Hd)
  | waitf (h : Hd) (mask : BitVec 12)
  -- group 0x1 (R73)
  | smov (h : Hd) (t : Ty) (d : Opd) (b : Src)
  | sadd (h : Hd) (t : Ty) (d a : Opd) (b : Src)
  | ssub (h : Hd) (t : Ty) (d a : Opd) (b : Src)
  | smul (h : Hd) (t : Ty) (d a : Opd) (b : Src)
  | smulh (h : Hd) (t : Ty) (d a : Opd) (b : Src)
  | sdiv (h : Hd) (t : Ty) (d a : Opd) (b : Src)
  | srem (h : Hd) (t : Ty) (d a : Opd) (b : Src)
  | sand (h : Hd) (t : Ty) (d a : Opd) (b : Src)
  | sor (h : Hd) (t : Ty) (d a : Opd) (b : Src)
  | sxor (h : Hd) (t : Ty) (d a : Opd) (b : Src)
  | snot (h : Hd) (t : Ty) (d a : Opd)
  | sshl (h : Hd) (t : Ty) (d a : Opd) (b : Src)
  | sshr (h : Hd) (t : Ty) (d a : Opd) (b : Src)
  | ssar (h : Hd) (t : Ty) (d a : Opd) (b : Src)
  | smin (h : Hd) (t : Ty) (d a : Opd) (b : Src)
  | smax (h : Hd) (t : Ty) (d a : Opd) (b : Src)
  | scmp (h : Hd) (t : Ty) (c : Cond) (d a : Opd) (b : Src)
  | ssel (h : Hd) (t : Ty) (d a : Opd) (b : Src) (c : Fin 128) (neg : Bool)
  | sclz (h : Hd) (t : Ty) (d a : Opd)
  | spopc (h : Hd) (t : Ty) (d a : Opd)
  | sbfx (h : Hd) (t : Ty) (d a : Opd) (b : Src)
  | sbfi (h : Hd) (t : Ty) (d a : Opd) (b : Src)
  | slea (h : Hd) (t : Ty) (d a : Opd) (b : Src) (sh : BitVec 6)
  -- group 0x2 (R77)
  | vmov (h : Hd) (t : Ty) (d : Opd) (b : Src)
  | vadd (h : Hd) (t : Ty) (d a : Opd) (b : Src) (sat : Bool)
  | vsub (h : Hd) (t : Ty) (d a : Opd) (b : Src) (sat : Bool)
  | vmul (h : Hd) (t : Ty) (d a : Opd) (b : Src)
  | vmulh (h : Hd) (t : Ty) (d a : Opd) (b : Src)
  | vmad (h : Hd) (t : Ty) (d a b c : Opd)
  | vmadw (h : Hd) (t : Ty) (d a b c : Opd)
  | vdiv (h : Hd) (t : Ty) (d a : Opd) (b : Src)
  | vrem (h : Hd) (t : Ty) (d a : Opd) (b : Src)
  | vand (h : Hd) (t : Ty) (d a : Opd) (b : Src)
  | vor (h : Hd) (t : Ty) (d a : Opd) (b : Src)
  | vxor (h : Hd) (t : Ty) (d a : Opd) (b : Src)
  | vnot (h : Hd) (t : Ty) (d a : Opd)
  | vshl (h : Hd) (t : Ty) (d a : Opd) (b : Src)
  | vshr (h : Hd) (t : Ty) (d a : Opd) (b : Src)
  | vsar (h : Hd) (t : Ty) (d a : Opd) (b : Src)
  | vmin (h : Hd) (t : Ty) (d a : Opd) (b : Src)
  | vmax (h : Hd) (t : Ty) (d a : Opd) (b : Src)
  | vabs (h : Hd) (t : Ty) (d a : Opd) (sat : Bool)
  | vneg (h : Hd) (t : Ty) (d a : Opd) (sat : Bool)
  | vaddc (h : Hd) (t : Ty) (d a : Opd) (b : Src) (ciEn : Bool) (ci co : Fin 8)
  | vsubb (h : Hd) (t : Ty) (d a : Opd) (b : Src) (ciEn : Bool) (ci co : Fin 8)
  | vcmp (h : Hd) (t : Ty) (c : Cond) (d a : Opd) (b : Src)
  | vsel (h : Hd) (t : Ty) (d a : Opd) (b : Src) (p : Fin 8) (neg : Bool)
  | vclz (h : Hd) (t : Ty) (d a : Opd)
  | vpopc (h : Hd) (t : Ty) (d a : Opd)
  | vbfx (h : Hd) (t : Ty) (d a : Opd) (b : Src)
  | vbfi (h : Hd) (t : Ty) (d a : Opd) (b : Src)
  | vprmb (h : Hd) (d a b : Opd) (sel : BitVec 16)
  | vlea (h : Hd) (t : Ty) (d a : Opd) (b : Src) (sh : BitVec 3)
  | vext (h : Hd) (t : Ty) (d a : Opd) (w : ExtW)
  | vdp4 (h : Hd) (t : Ty) (d a : Opd) (b : Src) (sat : Bool)
  -- group 0x3 (R83)
  | pand (h : Hd) (d a b : Opd) (na nb : Bool)
  | por (h : Hd) (d a b : Opd) (na nb : Bool)
  | pxor (h : Hd) (d a b : Opd) (na nb : Bool)
  | pnot (h : Hd) (d a : Opd)
  | pmov (h : Hd) (dir : PDir) (d a : Opd)
  | shfl (h : Hd) (t : Ty) (m : ShflMode) (d a : Opd) (b : Src) (pv : Fin 8)
  | vtos (h : Hd) (t : Ty) (d a : Opd) (b : Src)
  | stov (h : Hd) (t : Ty) (d a : Opd) (hi : Bool)
  | vspec (h : Hd) (d a : Opd)
  | sspec (h : Hd) (d a : Opd)
  -- group 0x4 (R104)
  | vfadd (h : Hd) (t : Ty) (d a : Opd) (b : Src) (rm : Rm) (sat : Bool)
  | vfsub (h : Hd) (t : Ty) (d a : Opd) (b : Src) (rm : Rm) (sat : Bool)
  | vfmul (h : Hd) (t : Ty) (d a : Opd) (b : Src) (rm : Rm) (sat : Bool)
  | vfma (h : Hd) (t : Ty) (d a b c : Opd) (rm : Rm) (sat : Bool)
  | vfmin (h : Hd) (t : Ty) (d a : Opd) (b : Src)
  | vfmax (h : Hd) (t : Ty) (d a : Opd) (b : Src)
  | vfcmp (h : Hd) (t : Ty) (c : FCond) (d a : Opd) (b : Src)
  | vfabs (h : Hd) (t : Ty) (d a : Opd)
  | vfneg (h : Hd) (t : Ty) (d a : Opd)
  | vfclass (h : Hd) (t : Ty) (nar : BitVec 6) (d a : Opd)
  | vfdot (h : Hd) (t : Ty) (nar : BitVec 6) (d a b : Opd) (rm : Rm) (sat : Bool)
  | vfred (h : Hd) (t : Ty) (d a : Opd) (rm : Rm)
  | vfscale (h : Hd) (t : Ty) (d a : Opd) (b : Src) (rm : Rm) (sat : Bool)
  -- group 0x5 (R111, R112)
  | vfdiv (h : Hd) (t : Ty) (d a b : Opd) (rm : Rm) (sat : Bool)
  | vfsqrt (h : Hd) (t : Ty) (d a : Opd) (rm : Rm) (sat : Bool)
  | vfrcp (h : Hd) (t : Ty) (d a : Opd) (rm : Rm) (sat : Bool)
  | vfrsqrt (h : Hd) (t : Ty) (d a : Opd) (rm : Rm) (sat : Bool)
  | vfexp2 (h : Hd) (t : Ty) (d a : Opd) (rm : Rm) (sat : Bool)
  | vflog2 (h : Hd) (t : Ty) (d a : Opd) (rm : Rm) (sat : Bool)
  | vfsinpi (h : Hd) (t : Ty) (d a : Opd) (rm : Rm) (sat : Bool)
  | vfcospi (h : Hd) (t : Ty) (d a : Opd) (rm : Rm) (sat : Bool)
  | vftanh (h : Hd) (t : Ty) (d a : Opd) (rm : Rm) (sat : Bool)
  | vcvt (h : Hd) (dt st : Ty) (nar : BitVec 6) (d a : Opd) (rm : Rm) (sat : Bool)
  | vpack8 (h : Hd) (nar : BitVec 6) (st : Ty) (d a b : Opd) (rm : Rm) (sat : Bool)
  | vunpk8 (h : Hd) (dt : Ty) (nar : BitVec 6) (d a : Opd) (rm : Rm) (sat : Bool)
  | vfrnd (h : Hd) (t : Ty) (d a : Opd) (rm : Rm)
  | vqscale (h : Hd) (nar : BitVec 6) (d a b : Opd) (rm : Rm) (sat : Bool)
  -- group 0x6 (R166)
  | ld (h : Hd) (sgn : Bool) (d a : Opd) (m : Am)
  | st (h : Hd) (a b : Opd) (m : Am)
  | ldl (h : Hd) (sgn : Bool) (d a : Opd) (m : Al)
  | stl (h : Hd) (a b : Opd) (m : Al)
  | lds (h : Hd) (sgn : Bool) (d a : Opd) (m : Am)
  | sts (h : Hd) (a b : Opd) (m : Am)
  | ldc (h : Hd) (sgn : Bool) (d a : Opd) (m : Am)
  | ldx (h : Hd) (t : Ty) (d a : Opd) (m : Am)
  | stx (h : Hd) (t : Ty) (a b : Opd) (m : Ax)
  | pref (h : Hd) (a : Opd) (l2 : Bool) (off : W32)
  | bpf (h : Hd) (a b : Opd) (die : Fin 4) (bar : Option (BitVec 20))
  | cflush (h : Hd) (a b : Opd) (m : FlushMode)
  | xlat (h : Hd) (d a : Opd) (off : W32)
  | cbinit (h : Hd) (d a : Opd) (buf : Fin 16) (count : BitVec 9)
  | cbwait (h : Hd) (d : Opd) (buf : Fin 16)
  | cbrel (h : Hd) (buf : Fin 16)
  | cbacq (h : Hd) (d : Opd) (buf : Fin 16)
  | cbpub (h : Hd) (buf : Fin 16)
  -- group 0x7 (R209)
  | launch (h : Hd) (d a b : Opd) (pp : Fin 8)
  | lwait (h : Hd) (d : Opd) (b : Src)
  | dchk (h : Hd) (d : Opd) (level : Fin 8)
  | tdom (h : Hd) (d : Opd)
  | rgrow (h : Hd) (d : Opd) (n : BitVec 5)
  | salloc (h : Hd) (d : Opd) (b : Src)
  | sfree (h : Hd) (b : Src)
  | tsplit (h : Hd) (d : Opd)
  | take (h : Hd) (a : Opd) (off : W32)
  | srel (h : Hd)
  -- group 0x8 (R166, R237)
  | qpush (h : Hd) (d a : Opd)
  | qpop (h : Hd) (d a : Opd)
  | mxcmd (h : Hd) (a : Opd)
  | mxcommit (h : Hd) (d : Opd) (report : Bool)
  | mxwait (h : Hd) (b : Src16)
  | mxtab (h : Hd) (a : Opd) (slot : Fin 4)
  | cpy (h : Hd) (m : CpyMode) (a : Opd) (engine : Fin 8)
  -- group 0x9 (R253)
  | fence (h : Hd) (o : Order) (scope : Scope)
  | atom (h : Hd) (t : Ty) (d a b : Opd) (m : At)
  | acas (h : Hd) (t : Ty) (d a b : Opd) (scope : Scope) (pp : Fin 8) (o : Order) (off : W32)
  | red (h : Hd) (t : Ty) (a b : Opd) (m : At)
  | hinit (h : Hd) (a : Opd) (b : Src16) (off : BitVec 20)
  | harrive (h : Hd) (d a : Opd) (b : TxCnt) (off : BitVec 20)
  | hdrop (h : Hd) (a : Opd) (off : BitVec 20)
  | hwait (h : Hd) (a : Opd) (b : Src16) (off : BitVec 20)
  | bar (h : Hd) (b : BarCnt) (id : Fin 4)
  | monitor (h : Hd) (a : Opd) (m : Am)
  | mwait (h : Hd) (d b : Opd)
  | tstamp (h : Hd) (d : Opd)
  -- group 0xA (R282)
  | tbegin (h : Hd) (c : TClass) (off : W32)
  | tend (h : Hd)
  | tabort (h : Hd) (v : BitVec 8)
  | tstat (h : Hd) (d : Opd) (clr : Bool)
  | tnarrow (h : Hd) (a b : Opd)
  | tposG (h : Hd) (d : Opd)
  | tposF (h : Hd) (d : Opd)
  | tposB (h : Hd) (d : Opd)
  | tposVac (h : Hd) (b : Src)
  -- group 0xB (R309)
  | trap (h : Hd) (code : BitVec 16)
  | tret (h : Hd)
  | tretSkip (h : Hd)
  | tretTo (h : Hd) (a : Opd)
  | sysr (h : Hd) (d : Opd) (reg : BitVec 12) (b : CtxOpd)
  | sysw (h : Hd) (reg : BitVec 12) (a : Opd) (b : CtxOpd)
  | beacon (h : Hd) (b : Src)
  | bflipDev (h : Hd) (a : Opd)
  | bflipHost (h : Hd) (a : Opd)
  | evmark (h : Hd) (a : Opd) (code : BitVec 16)
  | haltf (h : Hd) (code : BitVec 16)
  -- group 0xF (R41)
  | pair (h : Hd) (sop : Fin 23) (vop : PairOp) (sd sa : Fin 128) (sb : PairB) (vd va vb : Opd) (t : Ty)
  -- the ends of a prologue, read by the front end of a die (R326, R327)
  | prologueGo (die : Fin 4)
  | prologueCancel (die : Fin 4)
  | prologueRepeat (die : Fin 4) (n : BitVec 16)
  -- the clause header (R23, R24)
  | clauseStart (c : ClauseHdr)
  -- the steps of the other agents
  | swapPoint (core : Nat)
  | loadPerform (fold flock ix : Nat)
  | storeDrain (fold flock : Nat) (scr : Bool)
  | ownershipRequest (core line : Nat)
  | regApply (home : Home)
  | ownershipApply (home : Home)
  | invApply (src dst : Nat)
  | atomicPerform (fold flock : Nat)
  | lineWriteback (core line : Nat)
  | sfuResult (fold flock ix : Nat)
  | copyStart (die engine : Nat)
  | copyComplete (die engine ix : Nat)
  | bpfComplete (fold flock ix : Nat)
  | cflushComplete (fold flock ix : Nat)
  | matrixEntryStart (core : Nat)
  | matrixStepComplete (core : Nat)
  | tableLoadComplete (core : Nat)
  | lateFpthr (fold flock lane : Nat)
  | fpevWindowClear (ctx : Nat)
  | regroup (fold : Nat) (role : Fin 4)
  | foldRetire (fold : Nat)
  | foldPlacement (fold core : Nat)
  | gridStart (grid : Nat) (frame : VA)
  | gridReport (grid : Nat)
  | penMove (queue : Nat)
  | stageRelease (fold : Nat)
  | taskTimeExhaust (fold : Nat)
  | taskSplit (fold : Nat)
  | taskCommit (fold : Nat)
  | wdAnswer (grid : Nat)
  | frontierUpdate (core ctx : Nat) (f : Pos)
  | tentativeEntryApply (fold flock lane : Nat)
  | narrowingMessage (ix : Nat)
  | vCommit (fold flock lane : Nat)
  | eCommit (fold flock lane : Nat)
  | oCommit (ctx : Nat)
  | barrierUpdateApply (fold off : Nat)
  | monitorWake (fold flock : Nat)
  | preempt (fold : Nat)
  | priorityPreempt (fold : Nat)
  | foldSave (fold : Nat)
  | foldRestore (fold core : Nat)
  | wdogExpire (fold : Nat)
  | foldcmdResume (ctx : Nat) (image : VA)
  | foldcmdKill (ctx : Nat) (image : VA)
  | foldcmdRerun (ctx : Nat) (image : VA)
  | qdoor (queue : Nat)
  | packetTake (queue : Nat)
  | packetLaunch (queue ix : Nat)
  | packetSignal (queue ix : Nat)
  | packetWait (queue ix : Nat)
  | waitPoll (queue ix : Nat)
  | packetTlbinv (queue ix : Nat)
  | packetLoad (queue ix : Nat) (place : VA × VA)
  | packetNop (queue ix : Nat)
  | queueEnable (queue : Nat) (v : W32)
  | qstatErrClear (queue : Nat)
  | qexport (queue : Nat) (addr : VA)
  | qimport (queue : Nat) (addr : VA)
  | contextCreate (ctx owner : Nat)
  | contextDestroy (ctx : Nat)
  | odwWrite (ctx : Nat) (v : W64)
  | fpevLimitWrite (ctx num : Nat) (v : W32)
  | dirtyEnable (ctx : Nat)
  | hdmEnable
  | registerWrite (r : HostReg) (v : W64)
  | cejEvent (src code : BitVec 16) (loc syn : W64)
  | cejCoalesceExpire (ix : Nat)
  | cejAck (addr : W64) (a : CejAck)
  | evqDrain (core : Nat)
  | paddockRebalance (core pad : Nat)
  | grantRecompute (predicted : BitVec 12) (grant : BitVec 4) (floors : Vector (BitVec 12) 9) (power : BitVec 12)
  | thermalThrottle (die : Fin 4) (temp : BitVec 8)
  | thermalRecover (die : Fin 4) (temp : BitVec 8) (grant : BitVec 4 × BitVec 12)
  | thermalTrip (die : Fin 4) (temp : BitVec 8)
  | moduleReset
  | recovery (image : List Byte)
  | attestationRequest (nonce : BitVec 256)
  | cejAkeyInstall (key : List Byte) (sig : BitVec 768)
  | fullServiceTransition (training : Training)
  | linkLoss (l : Link)
  | linkRetrain (l : Link)
  | requestTimeout (ix : Nat)
  | flitRetry (port : Fin 18) (syn : W64)
  | peerRequest (port : Fin 18) (node : BitVec 7) (tag : BitVec 16) (ctx : Nat) (op : PeerOp)
  | hostRead (pa n : Nat)
  | hostReadOwn (line : Nat)
  | hostWrite (pa : Nat) (bytes : List Byte)
  | hostWriteback (line : Nat) (data : List Byte)
  | snoopResponse (line : Nat) (data : List Byte)
  | hostSnoop (line : Nat)
  | bflipComplete (block : Nat)
  | replicaCollapse (page : Nat)
  | memorySideStoreApply (stack : Nat)
  | peerResponse (ix : Nat) (a : PeerAnswer)
  | hostOwnershipGrant (line : Nat) (data : List Byte)
  | launchComplete (fold flock ix : Nat)
  | xlatComplete (fold flock ix : Nat)
  | enginePageFault (die engine ix : Nat)
  deriving DecidableEq, Repr

end Sys2Proof
end

