-- ==== Sys2Proof/Machine/State.lean ====
section
/-! DEFINITION. The state of the package: threads, flocks, folds, grids, cores, dies, contexts, queues, paddocks,
the memory machine of R242, the platform, and the plain data that says which agent moves next. -/

namespace Sys2Proof.Machine

open Sys2Proof

/-! ## Threads -/

/-- Parked state (R120): none, parked at CVG with a token, or parked at REORDER with a key and a range. -/
inductive Park where
  | none | cvg (tok : W64) | reorder (key : W32) (base count : Nat)
  deriving DecidableEq, Repr

/-- Trap state (R292). `rpc` and `rhdr` are the resume PC and its clause header; `npc` and `nhdr` are NextWord of
the instruction at TPC and its clause header, where TRET.SKIP continues (R293, R311); `late` marks a late FPTHR
(R376). -/
structure TrapSt where
  mode : Bool
  tcause : W32
  tpc : W64
  npc : VA
  nhdr : VA
  rpc : VA
  rhdr : VA
  late : Bool
  deriving DecidableEq, Repr

/-- Region state of a thread (R266): BLO, BHI, TPOS, the fields of TSTATUS, the abort target, `doomIn` (the
thread became doomed inside a clause, R272) and the number of its region in the region table. -/
structure RegSt where
  blo : W64
  bhi : W64
  tpos : W64
  user : BitVec 8
  code : BitVec 4
  count : BitVec 8
  doom : Bool
  cls : BitVec 2
  pend : Bool
  live : Bool
  target : VA
  doomIn : Bool
  rid : Nat
  deriving DecidableEq, Repr

/-- A late FPTHR that is due (R376): its class and the address of the instruction. -/
structure Late where
  cls : Nat
  pc : VA
  deriving DecidableEq, Repr

/-- A thread (R14, R120). Bit n of `preds` is Pn; P0 reads true whatever bit 0 holds (R18). `via` is the transfer
instruction that gave the thread its PC, for the halt record of a target that is no clause header (R46). -/
structure Thread where
  tid : Nat
  pc : VA
  hdr : VA
  via : Option VA := none
  preds : BitVec 8
  exited : Bool
  park : Park
  trap : TrapSt
  reg : RegSt
  lates : List Late
  deriving DecidableEq, Repr

/-! ## Memory accesses under way -/

/-- Where an access goes: device memory with the page's CMODE and log2 size, host memory, a peer, the fold's scratchpad, or
bytes that need no access (R149, R150, R152, R157). -/
inductive Place where
  | dev (pa : Nat) (cmode : BitVec 2) (size : Nat)
  | host (pa : Nat)
  | peer (node : BitVec 7) (va : VA)
  | scratch (off : Nat)
  | imm (bs : List Byte)
  deriving DecidableEq, Repr

/-- What an entry of the store FIFO does when it is performed (R245, R257); `storeX` also writes the scale byte of a
block, at its physical address (R169). -/
inductive Act where
  | store
  | storeX (pa : Nat) (b : Byte)
  | atom (t : Ty) (op : Aop) (d : Opd)
  | red (t : Ty) (op : Aop)
  | cas (t : Ty) (cmp : List Byte) (d : Opd) (p : Fin 8)
  deriving DecidableEq, Repr

/-- An entry of the store FIFO, of a flock's scratchpad stores, or a tentative entry not yet applied (R242,
R270). `op` is the number of its instruction; `rid` names the region it belongs to, if any; `sent` says that a
request for it is under way at a port or base die, `ts` is the time stamp of the access (R251), and `strm` its streaming
policy (R157). -/
structure FEntry where
  op : Nat
  lane : Nat
  place : Place
  data : List Byte
  act : Act
  order : Order
  scope : Scope
  task : Bool
  rid : Option Nat
  va : W64
  pc : VA
  sent : Bool
  ts : W64 := 0
  strm : Bool := false
  deriving DecidableEq, Repr

/-- What a load writes when its data return (R167, R169). The bytes of LDC may go on at a second place, on another page, and
bytes beyond the section read zero (R149). -/
inductive LKind where
  | raw (sgn : Bool) (size : Size) (d : Opd)
  | const (sgn : Bool) (size : Size) (d : Opd) (tail : Place) (m : Nat)
  | elem (t : Ty) (fmt : BitVec 6) (scale : Option Nat) (d : Opd)
  | watch
  deriving DecidableEq, Repr

/-- An entry of the load set (R242). `sent` marks a read that waits for a peer, and `ts` is the time at which it issued (R362). -/
structure LEntry where
  op : Nat
  lane : Nat
  place : Place
  n : Nat
  kind : LKind
  task : Bool
  rid : Option Nat
  strm : Bool
  va : W64
  pc : VA
  sent : Bool
  ts : W64 := 0
  deriving DecidableEq, Repr

/-- Where an instruction's result waits until it is written: SFU results, LAUNCH ids and predicates, XLAT values
(R111, R173, R210). -/
structure PendW where
  lane : Nat
  val : W64
  pred : Option Bool
  deriving DecidableEq, Repr

/-- The kinds of a long-latency instruction under way. -/
inductive OpKind where
  | load | store | atom
  | sfu (t : Ty) (d : Opd) (res : List PendW)
  | launch (d : Opd) (p : Fin 8) (res : List PendW)
  | xlat (d : Opd) (res : List PendW)
  | take (slot : Nat) | query
  | cflush (va : W64) (len : Nat) (m : FlushMode)
  | bpf (va : W64) (len : Nat) (die : Nat) (bar : Option Nat)
  | copy | matrix | table | flip
  deriving DecidableEq, Repr

/-- Numerical events raised for a lane (R99): bit x is class x; `rid` is the region that the lane was in (R1, log 35). -/
structure Ev where
  lane : Nat
  mask : BitVec 8
  rid : Option Nat := none
  deriving DecidableEq, Repr

/-- A long-latency instruction under way (R26): its number, the flag it counted on, its address, the parts still
to be performed, its acquire action (R248) and the numerical events gathered so far (R101). -/
structure LOp where
  id : Nat
  flag : Option (Fin 12)
  pc : VA
  hdr : VA
  left : Nat
  kind : OpKind
  acq : Option Scope
  evs : List Ev
  deriving DecidableEq, Repr

/-! ## Flocks -/

/-- The issue group inside a clause (R121): its lanes in ascending thread index, the fields of the clause header that issue
needs, the tokens the clause holds, whether it holds the F64 token, and the words fetched when the clause started
(R21). -/
structure Group where
  lanes : List Nat
  started : Bool
  len : Nat
  slotA : BitVec 4
  slotB : BitVec 4
  heavy : Nat
  yield : BitVec 2
  tok : Nat
  f64 : Bool
  words : List W96 := []
  deriving DecidableEq, Repr

/-- What a held group waits for (R24, R26, R123, R129, R161, R165, R207, R222, R230, R244, R259, R262, R284): room in a
completion flag, FIFO entries, the flock's stores performed, a release, lock entries, room in a queue, a report or an
answer of the flock's, a slot of a circular buffer, a batch, a change of a barrier object's GEN, tokens, a region with
nothing outstanding, the load of the monitored word. -/
inductive Wait where
  | flag (n : Fin 12)
  | fifo (n : Nat)
  | stores
  | release (sc : Scope)
  | locks (n : Nat)
  | engine (e : Nat)
  | mxq | wdq | evq
  | report | answer
  | slot (buf : Nat) | filled (buf : Nat) | idle (buf : Nat)
  | batch (id : Nat)
  | gen (off g : Nat)
  | tokens (n : Nat) (f64 : Bool)
  | quiet (rid : Nat)
  | monitored
  deriving DecidableEq, Repr

/-- What a waiting instruction has already done (R123): the flags it waits for, LWAIT's operand, the parameter block and the
index list read by a matrix step (R223, R232), its arrival at a barrier, the regions it ends, MWAIT's first load. `waits`
holds what any other held word waits for, and whether the word has issued. -/
inductive Hold where
  | none
  | flags (m : BitVec 12)
  | lwait (n : Nat)
  | mx (block : List Byte) (rows : List Nat)
  | bar
  | tend (rids : List Nat)
  | mwait (expected : W64) (woken : Bool)
  | waits (issued : Bool) (ws : List Wait)
  deriving DecidableEq, Repr

/-- A monitor register (R262): the place and the address watched, 4 or 8 bytes; `got` is the answer to MWAIT's load of a
peer's word, until MWAIT takes it. -/
structure Monitor where
  valid : Bool
  addr : W64
  place : Place
  n : Nat
  scope : Scope
  got : Option W64
  deriving DecidableEq, Repr

/-- A closed batch that is not complete (R230, R231). `seq` numbers the flock's batches without wrapping. -/
structure Batch where
  id : BitVec 16
  seq : Nat
  left : Nat
  count : Nat
  events : BitVec 8
  report : Bool
  deriving DecidableEq, Repr

/-- A flock's own fault (R297): cause, detail, faulting thread, NEST and HPC. -/
structure FlockFault where
  cause : BitVec 8
  detail : BitVec 16
  tid : Option Nat
  nest : Bool
  hpc : VA
  deriving DecidableEq, Repr

/-- Batch state of a flock (R230, R231). `seq` is the number of the open batch, which does not wrap as its id in `ctr` does. -/
structure BatchSt where
  ctr : BitVec 16
  seq : Nat
  openCount : Nat
  openLeft : Nat
  openEvents : BitVec 8
  closed : List Batch
  lost : Bool
  deriving DecidableEq, Repr

/-- A flock (R14, R120). Register n of lane l is entry 4096 * l + n of `vregs`; an unlisted register is zero. `sentIn` is the
number of words that the flock has dispatched in arithmetic cycle `sentCyc` (R296). `ex` keeps, while a word that has issued is
held, the lanes in which its guard was true at its dispatch (R28), and `bar` the fold barrier at which the group has arrived, with
whether it has been released (R261). -/
structure Flock where
  role : Nat
  valloc : Nat
  threads : Tab Thread
  vregs : Tab W32
  sregs : Tab W64
  flags : Tab Nat
  longs : BitVec 12
  group : Option Group
  serial : BitVec 16
  yielded : Bool
  fifo : List FEntry
  loads : List LEntry
  scr : List FEntry
  tent : List FEntry
  ops : List LOp
  hold : Hold
  ex : Option (List Nat) := none
  bar : Option (Nat × Bool) := none
  mon : Monitor
  batch : BatchSt
  skid : Nat
  sentCyc : Nat := 0
  sentIn : Nat := 0
  fault : Option FlockFault
  deriving DecidableEq, Repr

/-! ## Folds -/

/-- A fold barrier (R261): N, the count operand that fixed it, the arrivals, and the held flocks. -/
structure FBar where
  n : Nat
  operand : Nat
  arrived : Nat
  held : List Nat
  deriving DecidableEq, Repr

/-- What a flock does with a circular buffer (R165): a take is CBACQ's or a copy command's, and a wait is CBWAIT's. -/
inductive BufOp where
  | take | wait
  deriving DecidableEq, Repr

/-- An operation that waits at a circular buffer, with the cycle of its arrival (R165). -/
structure BufWait where
  cyc : Nat
  flock : Nat
  op : BufOp
  deriving DecidableEq, Repr

/-- A circular buffer held by a fold (R165): `taken` lists the slots taken and not yet published, oldest first;
a slot that a copy command took carries that command's number. `waits` are the operations that wait, in order of arrival, and
`lastOp` the cycle and the flock of the last operation applied. -/
structure CBuf where
  base : Nat
  slot : Nat
  count : Nat
  free : Nat
  filled : Nat
  prod : Nat
  cons : Nat
  taken : List (Nat × Option Nat)
  done : List Nat
  waits : List BufWait := []
  lastOp : Option (Nat × Nat) := none
  deriving DecidableEq, Repr

/-- Where a fold is (R133, R303): not yet placed, resident on a core in a slot, saved at its image, or gone. -/
inductive FPlace where
  | waiting | resident (core slot : Nat) | saved | gone
  deriving DecidableEq, Repr

/-- Why a fold stops (R301). -/
inductive Reason where
  | preempt | fault | wdog | exhaust | taskAbort
  deriving DecidableEq, Repr

/-- A stop under way or recorded in the image (R296, R301, R302); `stopped` says that the flocks had stopped before the
fault, so that none of them has a skid, and `cyc` is the arithmetic cycle in which the stop was raised (R295). -/
structure Halt where
  reason : Reason
  wdogBegan : Bool
  stopped : Bool
  cause : BitVec 8
  pflock : Option Nat
  faddr : W64
  savets : W64
  cyc : Nat := 0
  deriving DecidableEq, Repr

/-- A report in MXS (R231) and an answer in WDQ (R208), each belonging to a flock. -/
structure Owned where
  fold : Nat
  flock : Nat
  val : W64
  deriving DecidableEq, Repr

/-- A copy command in an engine's queue (R162, R164): its four words, the slot range it took, and, once started,
the bytes it has read. -/
structure CopyCmd where
  fold : Nat
  flock : Nat
  op : Nat
  tid : Nat
  core : Nat
  src : Nat
  ts : W64
  c0 : W64
  c1 : W64
  c2 : W64
  c3 : W64
  slot : Option (Nat × Nat)
  data : Option (List (Nat × List Byte))
  deriving DecidableEq, Repr

/-- An update on its way to a barrier object (R259): its offset, arrivals, leaves and byte delta; `src` is the flock
and the number of the HARRIVE or HDROP that made it (R365), none for an engine's. -/
structure BarUpd where
  src : Option (Nat × Nat)
  off : Nat
  arr : Nat
  leaves : Nat
  delta : Int
  deriving DecidableEq, Repr

/-- A fold (R14). `relPend` is a stage release waiting for the stores of its flock numbered below a bound (R197); `upds` are the
barrier updates of the present cycle (R259); `parked` are copy commands that a page fault ended, with their engines, to be run
again at a resume (R164); `mxs` and `wdq` are the reports and answers that a saved fold keeps (R303); `placed` numbers its last
placement and `since` is when it began to wait for one (R328); `image` and `imgSize` are its reservation in the save pool
(R300); `lost` says that the task must run again because a pending region of it was lost (R280); `since` and `endSrc` give a
finished task its place among the commits (R202, R251); `taskEvs` holds what the numerical events of a task have added to each
counter (entry x) and each window counter (entry 8 + x) since it was last cleared, which its discard takes back (R1). -/
structure Fold where
  grid : Nat
  ctx : Nat
  x : Nat
  y : Nat
  z : Nat
  stage : Nat
  isTask : Bool
  lo : W64
  hi : W64
  taskTime : Nat
  wdogTime : Nat
  place : FPlace
  active : Bool
  age : Nat
  q : Nat
  epoch : BitVec 8
  scratch : Tab Byte
  scrSize : Nat
  scrAdded : Nat
  bars : Tab FBar
  cbufs : Tab CBuf
  tables : Tab W32
  beacon : W64
  released : Bool
  relPend : Option (Nat × Nat)
  upds : List BarUpd
  parked : List (Nat × CopyCmd)
  mxs : List Owned
  wdq : List Owned
  placed : Nat
  since : W64
  image : Nat
  imgSize : Nat
  halt : Option Halt
  exhausted : Bool
  taskFin : Bool
  lost : Bool := false
  endSrc : Nat := 0
  taskEvs : Tab Nat := []
  flocks : Tab Flock
  deriving DecidableEq, Repr

/-! ## Grids and contexts -/

/-- The fields of a launch record (R186). -/
structure Record where
  kdesc : W64
  nx : Nat
  ny : Nat
  nz : Nat
  stages : Nat
  mode : BitVec 8
  tx : Nat
  ty : Nat
  tz : Nat
  pencap : Nat
  body : Nat
  scratch : Nat
  grain : Nat
  dlo : W64
  dhi : W64
  fan : Nat
  wbuf : Nat
  tallow : Nat
  rd : List W64
  wr : List W64
  deriving DecidableEq, Repr

/-- A kernel's role (R126, R346). -/
structure Role where
  code : Nat
  flocks : Nat
  regs : Nat
  deriving DecidableEq, Repr

/-- The fields of a kernel descriptor (R346). -/
structure KDesc where
  entry : VA
  constAddr : W64
  constLen : Nat
  tokens : Nat
  roles : List Role
  deriving DecidableEq, Repr

/-- Where a grid stands (R181, R192): in a pen, in a queue, started, or reported. -/
inductive GPhase where
  | penned | queued | started | reported
  deriving DecidableEq, Repr

/-- A query in a work distributor's input (R207, R208): who asked, from which source, when, and for what. -/
structure Query where
  fold : Nat
  flock : Nat
  op : Nat
  src : Nat
  ts : W64
  count : Bool
  slot : Option Nat
  deriving DecidableEq, Repr

/-- A frame's allocation (R179, R380): its address, its size and the physical pages found at start. -/
structure FrameA where
  addr : VA
  size : Nat
  pages : List (Nat × Nat)
  deriving DecidableEq, Repr

/-- A grid. `order` numbers its start (R328); `allDone` says that every fold has retired; `resv` is the reservation of a
CORES grid (R190): the stages and cores whose room it still keeps. -/
structure Grid where
  id : W64
  ctx : Nat
  queue : Nat
  packet : Option Nat
  parent : Option Nat
  record : Record
  sib : Nat
  ts : W64
  src : Nat
  kd : KDesc
  display : List W64
  level : Nat
  phase : GPhase
  frame : Option FrameA
  order : Nat
  firstStarted : Bool
  allDone : Bool
  wdNext : Nat
  queries : List Query
  base : Option Nat
  status : Nat
  committed : W64
  resv : Option (List (Nat × Nat))
  deriving DecidableEq, Repr

/-- Who translates (R154): a core, or another unit of a die. -/
inductive Agent where
  | core (c : Nat) | die (d : Nat)
  deriving DecidableEq, Repr

/-- A cached translation (R154): its context, the page's virtual base, its log2 size, the leaf entry and the entry's
physical address. -/
structure TlbE where
  ctx : Nat
  base : Nat
  size : Nat
  leaf : W64
  ent : Nat
  deriving DecidableEq, Repr

/-- The numerical-event registers of a context (R100). The counts are exact: FPEV_COUNT_x and FPEV_WIN_x saturate as they are
read, so that events which an abort takes back leave the count that R1 promises. `fired` marks the classes whose action was taken
in this window (R102), and `last` is the time of the last increment, with the highest source that counted then (R101). -/
structure Fpev where
  count : Tab Nat
  win : Tab Nat
  lim : Tab W32
  window : W64
  action : W32
  numctl : W32
  fired : BitVec 8
  last : Option (W64 × Nat) := none
  deriving DecidableEq, Repr

/-- An order domain (R267, R279): the frontier, the holding ORDER grid with its base, the open window (base, n),
the pending O regions and the vacated positions. -/
structure OrderDom where
  f : Nat
  holder : Option Nat
  base : Nat
  window : Option Nat
  pendO : List (Nat × Nat)
  vacated : List Nat
  deriving DecidableEq, Repr

/-- An event-journal ring (R338); `last` is the latest time stamp and source of an entry appended to it (R251). -/
structure Evj where
  base : W64
  size : W32
  head : W32
  tail : W32
  lost : W32
  vec : BitVec 11
  last : Option (W64 × Nat) := none
  deriving DecidableEq, Repr

/-- Dirty tracking (R342); `last` is the page of the previous entry. -/
structure Dirty where
  en : Bool
  base : W64
  size : W32
  head : W32
  tail : W32
  lost : W32
  last : Option Nat
  deriving DecidableEq, Repr

/-- A context (R319). -/
structure Ctx where
  live : Bool
  owner : Nat
  fpev : Fpev
  trapvec : W64
  feattab : W64
  wdogWindow : W64
  od : OrderDom
  ptroot : W64
  occSoft : W32
  fpoolBase : W64
  fpoolSize : W64
  saveBase : W64
  saveSize : W64
  mergeConflicts : W64
  evj : Evj
  dirty : Dirty
  pad : Nat
  gridNext : Nat
  deriving DecidableEq, Repr

/-! ## Cores and dies -/

/-- A core's view of a word (R242). -/
inductive VSt where
  | copy | registering | owned
  deriving DecidableEq, Repr

/-- A word of a view: its state, its value, the bytes of the value that are known, and the bytes that this core
has written under software management (R353). -/
structure VWord where
  st : VSt
  val : W32
  known : BitVec 4
  dirty : BitVec 4
  deriving DecidableEq, Repr

/-- The space of a lock entry (R159, R232). -/
inductive LSpace where
  | global | scratch (fold : Nat) | window (fold flock : Nat)
  deriving DecidableEq, Repr

/-- An entry of the range-lock table: bytes or registers [lo, hi), held by the command numbered `op`. -/
structure Lock where
  space : LSpace
  lo : Nat
  hi : Nat
  write : Bool
  op : Nat
  deriving DecidableEq, Repr

/-- A matrix entry (R222): a step with its parameter block and its index list as read at issue, or a table load. `events` and
`trapLane` are filled when it completes. -/
inductive MxWork where
  | step (block : List Byte) (rows : List Nat) (arrive : Option Nat) (s127 : W64)
  | table (off slot : Nat)
  deriving DecidableEq, Repr

/-- An entry of a core's matrix queue (R222), with its flock's batch by id and by number (R230). -/
structure MxEntry where
  fold : Nat
  flock : Nat
  op : Nat
  tid : Nat
  batch : BitVec 16
  seq : Nat
  work : MxWork
  deriving DecidableEq, Repr

/-- An entry of EVQ (R161, R315) with the context and the grid of the pushing flock. -/
structure EvEnt where
  ctx : Nat
  grid : W64
  w0 : W64
  w1 : W64
  ts : W64
  deriving DecidableEq, Repr

/-- A waiting token request (R129): `n` is the clause's heavy field. -/
structure TokReq where
  fold : Nat
  flock : Nat
  n : Nat
  f64 : Bool
  deriving DecidableEq, Repr

/-- A core (R13). `f64n` counts the clauses that hold the core's F64 token (R132); `tlb` is its L1 TLB, oldest entry first
(R154); `l1` lists the lines of its L1 that `view` holds words of, least recently used first, each with its streaming policy
(R13, R157). -/
structure Core where
  pad : Option Nat
  marked : Option Nat
  view : Tab VWord
  locks : Tab Lock
  mxq : List MxEntry
  mxRun : Bool
  mxs : List Owned
  wdq : List Owned
  evq : List EvEnt
  grant : Nat
  held : Nat
  reqs : List TokReq
  f64n : Nat
  frontier : Tab Nat
  tlb : List TlbE
  l1 : List (Nat × Bool) := []
  deriving DecidableEq, Repr

/-- A scalar engine that has run a prologue to its last word (R326, R327): the registers, and that word. -/
structure Prologue where
  queue : Nat
  packet : Nat
  sregs : Tab W64
  pc : Nat
  executed : Nat
  word : W96
  deriving DecidableEq, Repr

/-- A die: its copy engines' queues, the prologue its front end runs, its thermal state, its shared TLB, oldest entry first,
the core whose EVQ its log engine drained last, and the number of the 50 µs period in which its paddock controller last marked a
core of a paddock (R8, R154, R326, R329, R338, R375). -/
structure Die where
  engines : Tab (List CopyCmd)
  prologue : Option Prologue
  temp : Nat
  throttled : Bool
  tlb : List TlbE
  evTurn : Nat
  moved : Nat
  deriving DecidableEq, Repr

/-! ## The memory system -/

/-- A message at a slice, a host link or a base die (R242, R245). -/
inductive MsgKind where
  /-- A REG message with the bytes of one word (M4). -/
  | reg (core : Nat) (word : Nat) (val : W32) (mask : BitVec 4)
  /-- An ownership request for a line (M5). -/
  | own (core : Nat) (line : Nat)
  /-- A store to a memory-side page (M4). -/
  | side (pa : Nat) (data : List Byte)
  /-- A deferred store or version of a task, with the page's CMODE and log2 size (R199). -/
  | version (fold : Nat) (pa : Nat) (cmode : BitVec 2) (size : Nat) (data : List Byte)
  deriving DecidableEq, Repr

/-- A message with the time stamp and source number of the access that caused it (R251), the instruction it
belongs to, the time at which it was sent, and the virtual address of a version (R362). -/
structure Msg where
  home : Home
  src : Nat
  ts : W64
  fold : Nat
  flock : Nat
  op : Nat
  kind : MsgKind
  sent : W64 := 0
  va : W64 := 0
  deriving DecidableEq, Repr

/-- An INV message for a line in the link FIFO from a die, or from host link n as source 4 + n, to a die
(R242). -/
structure Inv where
  src : Nat
  dst : Nat
  line : Nat
  deriving DecidableEq, Repr

/-- A grant in the RSP link FIFO from a home (as in `Inv`) to a die: the core that it makes the owner of a line (R242, R245). -/
structure Grant where
  src : Nat
  dst : Nat
  core : Nat
  line : Nat
  deriving DecidableEq, Repr

/-- A line's state for cores of other dies (R349): the core that owns it in M, and the dies of S. -/
structure Line where
  m : Option Nat
  s : BitVec 4
  deriving DecidableEq, Repr

/-- Who holds a version (R199, R270): a task, or a region. -/
inductive VOwner where
  | task (fold : Nat) | region (rid : Nat)
  deriving DecidableEq, Repr

/-- A version of bytes of one word (R199), with the CMODE and log2 size of its page. `rank` is its order of arrival. -/
structure Ver where
  owner : VOwner
  ctx : Nat
  rank : Nat
  word : Nat
  val : W32
  mask : BitVec 4
  cmode : BitVec 2 := 0
  size : Nat := 12
  deriving DecidableEq, Repr

/-- A pending RED of a task (R199): `rank` is the number of its instruction, which orders it with its thread. -/
structure PRed where
  fold : Nat
  flock : Nat
  ctx : Nat
  rank : Nat
  tid : Nat
  pa : Nat
  cmode : BitVec 2 := 0
  size : Nat := 12
  t : Ty
  op : Aop
  b : W64
  pc : VA
  hdr : VA
  deriving DecidableEq, Repr

/-- A task's deferred store, or its pending RED, to a peer's memory (R199): the home is the peer's, which learns of it at the
commit. -/
structure PVer where
  fold : Nat
  flock : Nat
  op : Nat
  rank : Nat
  tid : Nat
  node : BitVec 7
  va : VA
  data : List Byte
  red : Option (Ty × Aop)
  deriving DecidableEq, Repr

/-- A word that a region has read (R270, R278): the value, the lowest level among what its bytes came from (0 the committed
value, 1 a plain version of the region's task, k + 2 a version with key k), and the ranks of the versions that gave them. -/
structure Rd where
  word : Nat
  val : W32
  level : Nat
  ranks : List Nat
  deriving DecidableEq, Repr

/-- How far a region has come (R266, R277, R284). -/
inductive RPhase where
  | live | sealed | waitO | pending
  deriving DecidableEq, Repr

/-- A region that has begun and has not committed or aborted (R266 to R284): the words whose reads and writes have
issued (`touchR`, `touchW`), the reads performed at the homes (`reads`), the time stamp and source of its TBEGIN, then of
its TEND (R251, R273), and in `evs` what its numerical events have added to the counters, by the entries of a fold's `taskEvs`,
which its abort takes back (R1, log 35). -/
structure Region where
  ctx : Nat
  fold : Nat
  tid : Nat
  cls : BitVec 2
  key : Nat
  pos : Nat
  src : Nat
  ts : W64
  phase : RPhase
  reads : List Rd
  touchR : List Nat
  touchW : List Nat
  evs : Tab Nat := []
  deriving DecidableEq, Repr

/-- A narrowing message in flight (R276): the region, and BLO's new bound, or the position that BHI must stay below. `part` is the
tentative entry that waits for it: its fold, its flock and its instruction (R270). -/
structure Narrow where
  rid : Nat
  lower : Bool
  bound : Nat
  part : Option (Nat × Nat × Nat) := none
  deriving DecidableEq, Repr

/-- A value of a context's frontier on its way to a core, with the time stamp of the event that advanced it (R268). -/
structure FrontMsg where
  ctx : Nat
  core : Nat
  f : Nat
  ts : W64
  deriving DecidableEq, Repr

/-- A request at a Drove port that has no answer yet, and when it was first sent (R361, R362); it is known by its
flock, its instruction and its lane. Its flits carry the tag, and the address, operation and data (R360). `isLoad` marks a
request of the load set, and `ctx` is the context of a request that a task's commit sent. -/
structure PeerReq where
  fold : Nat
  flock : Nat
  op : Nat
  lane : Nat
  isLoad : Bool
  node : BitVec 7
  va : VA
  port : Nat
  ts : W64
  ctx : Nat := 0
  tag : BitVec 16 := 0
  what : PeerOp := .load 0 0
  deriving DecidableEq, Repr

/-- A BFLIP in progress on a 4 KiB block (R358, R359). -/
structure Flip where
  block : Nat
  toHost : Bool
  fold : Nat
  flock : Nat
  op : Nat
  src : Nat
  ts : W64
  done : List Nat
  begun : Bool
  deriving DecidableEq, Repr

/-- A line held in a die's L2, filled for a context, with the policy of its last access (R157, R158). -/
structure L2Line where
  die : Nat
  line : Nat
  ctx : Nat
  strm : Bool
  deriving DecidableEq, Repr

/-- A peer's request already applied (R361, R362): its node, its tag, what it asked for and the answer. -/
structure Served where
  node : BitVec 7
  tag : BitVec 16
  op : PeerOp
  answer : List Byte
  ok : Bool
  deriving DecidableEq, Repr

/-- What an access of a unit of the package waits for: the host's answer to a snoop of a line, or the end of a flip (R357 to
R359), or the collapse of a replicated page (R351), or the entries that the owner of a line first performs (R350), or its turn
behind another of the same time: a count of a context's events by a source, an entry of a context's journal by a source, that
source's place in an EVQ for that journal, or an operation of a flock on a circular buffer (R101, R165, R338). -/
inductive Awaited where
  | snoop (pa : Nat) (write : Bool)
  | collapse (pa size : Nat)
  | drain (line : Nat)
  | count (ctx src : Nat)
  | entry (ctx src : Nat)
  | push (ctx src : Nat)
  | buffer (fold buf flock : Nat)
  deriving DecidableEq, Repr

/-- The memory machine beside the home values (R242, R243, R349 to R362). `l2` lists the lines of every L2, least recently used
first; `collapse` and `collapsing` hold pages by number and log2 size; `need` is what the accesses of the step under way must
wait for, empty between steps; `owners` is the own-die registration, oldest first at each slice; `rsps` holds the RSP link FIFOs,
oldest first in each; `hostLines` holds 1 for S and 2 for M at the host; `hostAsk` lists the lines of host memory that atomics and
engines wait for, with the time of each request (R354, R362); a snoop is a line and whether it is BISnpInv. -/
structure MemSys where
  owners : List (Nat × Nat)
  lines : Tab Line
  msgs : List Msg
  invs : List Inv
  rsps : List Grant := []
  vers : List Ver
  reds : List PRed
  regions : Tab Region
  eWriters : Tab Nat
  narrow : List Narrow
  fronts : List FrontMsg := []
  l2 : List L2Line
  collapse : List (Nat × Nat)
  collapsing : List (Nat × Nat)
  biasHost : List Nat
  flips : List Flip
  hostLines : Tab Nat
  hostOwn : List Nat
  hostAsk : List (Nat × W64) := []
  snoops : List (Nat × Bool)
  peerReqs : List PeerReq
  served : List Served
  pvers : List PVer := []
  need : List Awaited := []
  deriving DecidableEq, Repr

/-! ## Queues, paddocks, platform -/

/-- A packet that the front end has taken (R321 to R323): `id` numbers it, `failed` and `refused` gather how its grids ended
(R324), and `dead` marks a packet that failed after it had started, until ERR is cleared (R325). -/
structure Packet where
  id : Nat
  slot : Nat
  bytes : List Byte
  started : Bool
  grid : Option Nat
  launches : Nat
  rep : Nat
  repMax : Option Nat
  failed : Bool
  refused : Bool
  dead : Bool
  deriving DecidableEq, Repr

/-- A queue (R320). -/
structure Queue where
  base : W64
  size : W32
  ctl : W32
  resv : W32
  head : Nat
  tag : Nat
  stat : W32
  vec : W32
  imported : Bool
  door : Bool
  packets : List Packet
  device : List Nat
  deriving DecidableEq, Repr

/-- A paddock (R329); `hist` holds PAD_DELIV at the last twenty-one multiples of 50 µs, oldest first; `turn` is, for each
priority, the queue whose fold was placed last (R328). -/
structure Paddock where
  min : W32
  max : W32
  share : W32
  deliv : W64
  hist : List W64
  tokens : Nat
  turn : Tab Nat
  deriving DecidableEq, Repr

/-- An event the log engine holds, with the times of the first and of the last repeat (R334), or a coalesced counter (R336). -/
structure CejHeld where
  src : BitVec 16
  code : BitVec 16
  loc : W64
  syn : W64
  ts : W64
  last : W64
  count : Nat
  deriving DecidableEq, Repr

structure CejCnt where
  src : BitVec 16
  code : BitVec 16
  count : W64
  first : W64
  last : W64
  deriving DecidableEq, Repr

/-- The Corrected-Error Journal's registers and the log engine's state (R333 to R337). -/
structure Cej where
  head : BitVec 40
  tail : BitVec 40
  ack : W64
  ackErr : Bool
  akey : List Byte
  held : List CejHeld
  counters : List CejCnt
  since : Nat
  deriving DecidableEq, Repr

/-- Firmware state (R330 to R332): the flash image (none: the image of Config), the measurements and the last
attestation report; `recovery` is set while the mask ROM waits for an image. -/
structure Firmware where
  flash : Option (List Byte)
  recovery : Bool
  secVersion : Nat
  measurements : List (BitVec 384)
  report : List Byte
  deriving DecidableEq, Repr

/-- The platform registers (R11, R319, R355, R360, R370). `svc` is SVC_STAT.STATE; `moving` is set while firmware moves the
package to full service (R372); `biasTab` is where firmware reserved the HBM of the bias table (R356); `cycles` counts
twentieths of an arithmetic cycle (R10). -/
structure Platform where
  ts : W64
  svc : Nat
  moving : Bool
  hbmErr : Bool
  trip : Bool
  pwrCap : W32
  pwrNow : W32
  tempMax : W32
  ctxErr : Bool
  ctxEcode : Nat
  hdmBase : W64
  hdmSize : W64
  hdmEn : Bool
  hashEn : Tab Bool
  hashes : Tab (List (BitVec 384))
  localNode : BitVec 7
  nodeRoute : Tab (BitVec 18)
  portsUp : BitVec 18
  linksUp : BitVec 2
  linkHome : Option Nat
  vfs : Nat
  cej : Cej
  fw : Firmware
  irqs : List (Nat × Nat)
  biasTab : Option Nat
  cycles : Nat
  deriving DecidableEq, Repr

/-! ## The state -/

/-- Who consumes data with an uncorrectable error (R298): the word that a flock would dispatch, in a lane, an entry of its load
set, the head of its store FIFO, the oldest tentative entry of a lane, a command in an engine's queue, or the entry that a core's
matrix engine runs. -/
inductive Consumer where
  | word (fold flock lane : Nat)
  | load (fold flock ix : Nat)
  | entry (fold flock : Nat)
  | tentative (fold flock lane : Nat)
  | command (die engine ix : Nat)
  | matrix (core : Nat)
  deriving DecidableEq, Repr

/-- What moves next (the model's own schedule, log 2): a flock issues, another agent takes a step, or the host through the
window of a function does (R4, R319), an error is consumed at a location (R298), a cached translation is dropped, a slice of an
L2 gives up a line for a fill of a context, the head of an RSP link FIFO is delivered (R242), time passes. -/
inductive Choice where
  | issue (fold flock : Nat)
  | event (i : Instr)
  | host (fn : Nat) (i : Instr)
  | uce (x : Consumer) (unit : BitVec 16) (loc : W64)
  | tlbDrop (ag : Agent) (ctx : Nat) (va : Nat)
  | l2Evict (die slice ctx : Nat)
  | rsp (src dst : Nat)
  | tick (n : Nat)
  deriving DecidableEq, Repr

structure State where
  mem : List Host.Cell
  ms : MemSys
  folds : Tab Fold
  grids : Tab Grid
  cores : Tab Core
  dies : Tab Die
  ctxs : Tab Ctx
  queues : Tab Queue
  pads : Tab Paddock
  plat : Platform
  sched : List Choice
  cur : Option (Nat × Nat)
  seq : Nat
  freeIx : Nat
  deriving DecidableEq, Repr

/-! ## Why a step stops -/

/-- The reasons a step stops with a fault. None of them is a fault of the manual: every trap and fault of R291 is
taken in the next state. -/
inductive Fault where
  /-- Raised by the meaning of an instruction word that is executed while no flock has an issue group. Safe: the
  machine has no such execution, and `step` never makes one. -/
  | noIssuer
  deriving DecidableEq, Repr

/-- The reasons a step is refused. -/
inductive Refusal where
  /-- Raised by an arm of `exec` whose instruction has no meaning yet. Safe: nothing can be proved of it. -/
  | notModelled (mnemonic : String)
  deriving DecidableEq, Repr

/-! ## Reset -/

/-- A core at reset (R128). -/
def Core.reset : Core :=
  { pad := none, marked := none, view := [], locks := [], mxq := [], mxRun := false, mxs := [], wdq := [],
    evq := [], grant := 8, held := 0, reqs := [], f64n := 0, frontier := [], tlb := [] }

def Die.reset : Die := { engines := [], prologue := none, temp := 0, throttled := false, tlb := [], evTurn := 0, moved := 0 }

/-- A queue at reset (R320); the tag takes 1 when EN is set (R321). -/
def Queue.reset : Queue :=
  { base := 0, size := 0, ctl := 0, resv := 0, head := 0, tag := 0, stat := 0, vec := 0, imported := false,
    door := false, packets := [], device := [] }

/-- A paddock at reset (R329). -/
def Paddock.reset : Paddock := { min := 3, max := 63, share := 0, deliv := 0, hist := [], tokens := 8, turn := [] }

/-- A context's registers at their Reset values (R100, R158, R178, R267, R308, R338, R342); the event journal's
are zero (DESIGN CHOICE, log 4). -/
def Ctx.reset : Ctx :=
  { live := false, owner := 0,
    fpev := { count := [], win := [], lim := [], window := 0, action := 0, numctl := 0, fired := 0 },
    trapvec := 0, feattab := 0, wdogWindow := 0x3B9ACA00,
    od := { f := 0, holder := none, base := 0, window := none, pendO := [], vacated := [] },
    ptroot := 0, occSoft := 0xFFFFFFFF, fpoolBase := 0, fpoolSize := 0, saveBase := 0, saveSize := 0,
    mergeConflicts := 0,
    evj := { base := 0, size := 0, head := 0, tail := 0, lost := 0, vec := 0 },
    dirty := { en := false, base := 0, size := 0, head := 0, tail := 0, lost := 0, last := none },
    pad := 0, gridNext := 1 }

def MemSys.reset : MemSys :=
  { owners := [], lines := [], msgs := [], invs := [], rsps := [], vers := [], reds := [], regions := [], eWriters := [],
    narrow := [], fronts := [], l2 := [], collapse := [], collapsing := [], biasHost := [], flips := [], hostLines := [],
    hostOwn := [], hostAsk := [], snoops := [], peerReqs := [], served := [], pvers := [], need := [] }

/-- The platform right after reset (R11, R337, R355, R370); links and ports are out of service until they train
(DESIGN CHOICE, log 4), LOCAL_NODE and NODE_ROUTE are zero (log 4). -/
def Platform.reset : Platform :=
  { ts := 0, svc := 0, moving := false, hbmErr := false, trip := false, pwrCap := 1800, pwrNow := 0, tempMax := 0,
    ctxErr := false, ctxEcode := 0, hdmBase := 0, hdmSize := 0, hdmEn := false, hashEn := [], hashes := [],
    localNode := 0, nodeRoute := [], portsUp := 0, linksUp := 0, linkHome := none, vfs := 0,
    cej := { head := 0, tail := 0, ack := 0, ackErr := false, akey := [], held := [], counters := [], since := 0 },
    fw := { flash := none, recovery := false, secVersion := 0, measurements := [], report := [] },
    irqs := [], biasTab := none, cycles := 0 }

/-- The machine right after module reset: no context exists (R319), every queue is disabled (R320), memory lists
nothing, and nothing is scheduled. -/
def State.reset : State :=
  { mem := [], ms := MemSys.reset, folds := [], grids := [], cores := [], dies := [], ctxs := [], queues := [],
    pads := [], plat := Platform.reset, sched := [], cur := none, seq := 1, freeIx := 0 }

end Sys2Proof.Machine
end

