-- ==== Sys2Proof/Machine/Base.lean ====
section
/-! DEFINITION. The named operations every other file uses: sorted tables, bytes of physical memory, fields of
words, and one accessor and one update for each kind of part of the state. -/

namespace Sys2Proof.Machine

open Sys2Proof

/-- The outcome of a meaning: every instruction has one, and a word executed while no flock issues is the model's own
fault. -/
abbrev Out := Host.Outcome State Fault Refusal

/-! ## Sorted tables -/

def tget? {α : Type} : Tab α → Nat → Option α
  | [], _ => none
  | (k, v) :: r, i => if i = k then some v else tget? r i

def tgetD {α : Type} (t : Tab α) (i : Nat) (d : α) : α := (tget? t i).getD d

def tput {α : Type} : Tab α → Nat → α → Tab α
  | [], i, x => [(i, x)]
  | (k, v) :: r, i, x =>
    if i = k then (i, x) :: r else if i < k then (i, x) :: (k, v) :: r else (k, v) :: tput r i x

def tdel {α : Type} (t : Tab α) (i : Nat) : Tab α := t.filter (fun e => e.1 != i)

/-- Writing the value an unlisted key reads as removes the entry, so equal tables are equal lists. -/
def tset {α : Type} [DecidableEq α] (t : Tab α) (i : Nat) (x d : α) : Tab α :=
  if x = d then tdel t i else tput t i x

def tmod {α : Type} (t : Tab α) (i : Nat) (g : α → α) : Tab α :=
  match tget? t i with
  | none => t
  | some x => tput t i (g x)

/-- The least key of a table at which a test holds. -/
def tfind? {α : Type} (p : Nat → α → Bool) (t : Tab α) : Option (Nat × α) := t.find? (fun e => p e.1 e.2)

/-- Keys strictly rising, all above a bound. -/
def tsortedFrom {α : Type} : Nat → Tab α → Bool
  | _, [] => true
  | lo, (k, _) :: r => decide (lo ≤ k) && tsortedFrom (k + 1) r

/-! ## Physical memory -/

/-- What a byte that nothing has written reads as (DESIGN CHOICE, log 1). -/
def memDefault : Byte := 0

def memByte (m : List Host.Cell) (a : Nat) : Byte := tgetD m a memDefault

def memSet (m : List Host.Cell) (a : Nat) (b : Byte) : List Host.Cell := tset m a b memDefault

/-- The canonical form of memory: addresses strictly rising and no entry equal to what an unlisted address reads
as. -/
def Memory.wf (m : List Host.Cell) : Bool := tsortedFrom 0 m && m.all (fun c => c.2 != memDefault)

def memBytes (m : List Host.Cell) (a n : Nat) : List Byte := (List.range n).map (fun i => memByte m (a + i))

def memPut (m : List Host.Cell) (a : Nat) : List Byte → List Host.Cell
  | [] => m
  | b :: r => memPut (memSet m a b) (a + 1) r

/-! ## Fields and bytes -/

/-- Bits [hi:lo] of a word, as a number. -/
def bits {w : Nat} (x : BitVec w) (hi lo : Nat) : Nat := (x.toNat >>> lo) % 2 ^ (hi + 1 - lo)

def nat64 (n : Nat) : W64 := BitVec.ofNat 64 n

def bitOf {w : Nat} (x : BitVec w) (i : Nat) : Bool := x.getLsbD i

/-- A little-endian byte list of a number (R3). -/
def leBytes (n : Nat) (x : Nat) : List Byte := (List.range n).map (fun i => BitVec.ofNat 8 (x >>> (8 * i)))

def ofLe : List Byte → Nat
  | [] => 0
  | b :: r => b.toNat + 256 * ofLe r

def bytesAt (l : List Byte) (off n : Nat) : Nat := ofLe ((l.drop off).take n)

/-- A signed offset added to an address of `w` bits. -/
def sext32 (w : Nat) (x : W32) : BitVec w := x.signExtend w

def clampSub (a b : Nat) : Nat := a - b

/-- ⌈a / b⌉. -/
def cdiv (a b : Nat) : Nat := if b = 0 then 0 else (a + b - 1) / b

/-- The byte of a word selected by a mask, else another word's byte. -/
def mergeBytes (mask : BitVec 4) (new old : W32) : W32 :=
  (List.range 4).foldl (fun acc i =>
    let src := if bitOf mask i then new else old
    acc ||| ((src >>> (8 * i)) &&& 0xFF#32) <<< (8 * i)) 0

/-! ## Parts of the state -/

def fold? (s : State) (f : Nat) : Option Fold := tget? s.folds f

def modFold (s : State) (f : Nat) (g : Fold → Fold) : State := { s with folds := tmod s.folds f g }

def flock? (s : State) (f k : Nat) : Option Flock := (fold? s f).bind (fun fo => tget? fo.flocks k)

def modFlock (s : State) (f k : Nat) (g : Flock → Flock) : State :=
  modFold s f (fun fo => { fo with flocks := tmod fo.flocks k g })

def thread? (s : State) (f k l : Nat) : Option Thread := (flock? s f k).bind (fun fl => tget? fl.threads l)

def modThread (s : State) (f k l : Nat) (g : Thread → Thread) : State :=
  modFlock s f k (fun fl => { fl with threads := tmod fl.threads l g })

def grid? (s : State) (g : Nat) : Option Grid := tget? s.grids g

def modGrid (s : State) (g : Nat) (h : Grid → Grid) : State := { s with grids := tmod s.grids g h }

/-- A core by die × 64 + number; a core never written is as at reset. -/
def coreAt (s : State) (c : Nat) : Core := tgetD s.cores c Core.reset

def modCore (s : State) (c : Nat) (g : Core → Core) : State := { s with cores := tput s.cores c (g (coreAt s c)) }

def die (s : State) (d : Nat) : Die := tgetD s.dies d Die.reset

def modDie (s : State) (d : Nat) (g : Die → Die) : State := { s with dies := tput s.dies d (g (die s d)) }

def ctx (s : State) (c : Nat) : Ctx := tgetD s.ctxs c Ctx.reset

def modCtx (s : State) (c : Nat) (g : Ctx → Ctx) : State := { s with ctxs := tput s.ctxs c (g (ctx s c)) }

def queue (s : State) (q : Nat) : Queue := tgetD s.queues q Queue.reset

/-- There are 4,096 queues (R320): no other number names one. -/
def modQueue (s : State) (q : Nat) (g : Queue → Queue) : State :=
  { s with queues := if q < 4096 then tput s.queues q (g (queue s q)) else s.queues }

def pad (s : State) (p : Nat) : Paddock := tgetD s.pads p Paddock.reset

/-- There are 64 paddocks (R329). -/
def modPad (s : State) (p : Nat) (g : Paddock → Paddock) : State :=
  { s with pads := if p < 64 then tput s.pads p (g (pad s p)) else s.pads }

def modMs (s : State) (g : MemSys → MemSys) : State := { s with ms := g s.ms }

def modPlat (s : State) (g : Platform → Platform) : State := { s with plat := g s.plat }

/-- The arithmetic cycle of the present time (R10). -/
def cycleNow (s : State) : Nat := s.plat.cycles / 20

/-- A fresh number: identifiers are never reused (log 2). -/
def fresh (s : State) : Nat × State := (s.seq, { s with seq := s.seq + 1 })

/-! ## Small facts of the parts -/

/-- The core a fold stands on. -/
def coreOf (fo : Fold) : Option Nat :=
  match fo.place with
  | .resident c _ => some c
  | _ => none

def dieOf (c : Nat) : Nat := c / 64

/-- The source number of a core (R12). -/
def coreSrc (c : Nat) : Nat := (c / 64) * 2 ^ 14 + c % 64

/-- The source number of unit `i` of a class on a die (R12). -/
def unitSrc (d cls i : Nat) : Nat := d * 2 ^ 14 + cls * 2 ^ 10 + i

/-- Resident folds of a core, by fold number. -/
def residents (s : State) (c : Nat) : Tab Fold := s.folds.filter (fun e => coreOf e.2 == some c)

/-- The lane of a thread of a fold, by its linear index (R14). -/
def laneOf? (fo : Fold) (tid : Nat) : Option (Nat × Nat) :=
  fo.flocks.findSome? (fun e => (e.2.threads.find? (fun t => t.2.tid == tid)).map (fun t => (e.1, t.1)))

/-- Reading a predicate; P0 reads true (R18). -/
def readP (t : Thread) (n : Fin 8) : Bool := n == 0 || bitOf t.preds n.val

/-- Writing a predicate; a write to P0 is discarded (R18, R68). -/
def setPred (t : Thread) (n : Fin 8) (v : Bool) : Thread :=
  if n = 0 then t
  else { t with preds := if v then t.preds ||| (1#8 <<< n.val) else t.preds &&& ~~~(1#8 <<< n.val) }

/-- The guard of a word in a thread (R28). -/
def guardTrue (t : Thread) (h : Hd) : Bool := xor (readP t h.gp) h.neg

/-- Where register n of lane l stands in a flock's table. -/
def vkey (n l : Nat) : Nat := 4096 * l + n

/-- A V register of a lane. -/
def vreg (fl : Flock) (n l : Nat) : W32 := tgetD fl.vregs (vkey n l) 0

def setVreg (fl : Flock) (n l : Nat) (x : W32) : Flock := { fl with vregs := tset fl.vregs (vkey n l) x 0 }

def sreg (fl : Flock) (n : Nat) : W64 := tgetD fl.sregs n 0

def setSreg (fl : Flock) (n : Nat) (x : W64) : Flock := { fl with sregs := tset fl.sregs n x 0 }

/-- A completion flag (R26). -/
def flagVal (fl : Flock) (n : Nat) : Nat := tgetD fl.flags n 0

/-- A flock's live threads: those that have not exited. -/
def liveLanes (fl : Flock) : List Nat := (fl.threads.filter (fun t => !t.2.exited)).map (·.1)

/-- Nothing holds the flock's group any more: what its word did is forgotten (R28, R123, R261). -/
def unhold (fl : Flock) : Flock := { fl with hold := .none, ex := none, bar := none }

/-- A byte of a fold's scratchpad; unlisted bytes are zero (R182). -/
def scrByte (fo : Fold) (a : Nat) : Byte := tgetD fo.scratch a 0

def scrBytes (fo : Fold) (a n : Nat) : List Byte := (List.range n).map (fun i => scrByte fo (a + i))

def scrPut (fo : Fold) (a : Nat) : List Byte → Fold
  | [] => fo
  | b :: r => scrPut { fo with scratch := tset fo.scratch a b 0 } (a + 1) r

/-- An empty fold barrier, monitor register and batch state, as at fold start (R182, R230, R261, R262). -/
def FBar.init : FBar := { n := 0, operand := 0, arrived := 0, held := [] }

def Monitor.init : Monitor := { valid := false, addr := 0, place := .imm [], n := 4, scope := .die, got := none }

def BatchSt.init : BatchSt :=
  { ctr := 0, seq := 0, openCount := 0, openLeft := 0, openEvents := 0, closed := [], lost := false }

def TrapSt.init : TrapSt :=
  { mode := false, tcause := 0, tpc := 0, npc := 0, nhdr := 0, rpc := 0, rhdr := 0, late := false }

def RegSt.init : RegSt :=
  { blo := 0, bhi := 0, tpos := 0, user := 0, code := 0, count := 0, doom := false, cls := 0, pend := false,
    live := false, target := 0, doomIn := false, rid := 0 }

/-- TSTATUS (R266). -/
def tstatus (r : RegSt) : W32 :=
  (r.user ++ 0#4 ++ r.code ++ r.count ++ 0#3 ++ BitVec.ofBool r.doom ++ r.cls ++ BitVec.ofBool r.pend
    ++ BitVec.ofBool r.live : BitVec 32)

end Sys2Proof.Machine
end

