-- ==== Sys2Proof/Machine/Coherence.lean ====
section
/-! DEFINITION. The homes of the memory machine (R9, R242 to R246, R348 to R354): where a word lives, its current
value, revoking owners, INV messages, writes at a home, and the abort of regions whose reads a change touches. -/

namespace Sys2Proof.Machine

open Sys2Proof

/-! ## Where a word lives -/

def dieBytes : Nat := 0x3000000000
def hostBase : Nat := 0x400000000000
def hostTop : Nat := 0x800000000000

def isHostPa (pa : Nat) : Bool := decide (hostBase ≤ pa ∧ pa < hostTop)

/-- The die that owns a device physical address (R9); host memory belongs to no die, written 4. -/
def homeDie (pa : Nat) : Nat := if isHostPa pa then 4 else pa / dieBytes

def sliceOf (pa : Nat) : Nat := ((pa % dieBytes) / 256) % 64

def stackOf (pa : Nat) : Nat := 3 * (pa / dieBytes) + ((pa % dieBytes) / 16384) % 3

/-- The host link that homes host memory (R354, R362). -/
def linkOf (s : State) (pa : Nat) : Nat :=
  match s.plat.linkHome with
  | some l => l
  | none => if s.plat.linksUp = 3 then (pa / 4096) % 2 else if bitOf s.plat.linksUp 0 then 0 else 1

/-- A replicated-read-only page that has been collapsed is handled as hardware-coherent (R351). -/
def effCmode (s : State) (pa : Nat) (cm : BitVec 2) : BitVec 2 :=
  if cm = 3 ∧ s.ms.collapse.any (fun e => pa / 2 ^ e.2 == e.1 * 4096 / 2 ^ e.2) then 0 else cm

/-- The home of a word (R243). -/
def homeOf (s : State) (pa : Nat) (cm : BitVec 2) : Home :=
  if isHostPa pa then .link (linkOf s pa)
  else if effCmode s pa cm = 2 then .base (stackOf pa)
  else .slice (homeDie pa) (sliceOf pa)

/-- The link FIFO that carries a home's INV messages: a die, or 4 + a host link (R242, R354). -/
def invSrc (s : State) (line : Nat) : Nat :=
  if isHostPa (128 * line) then 4 + linkOf s (128 * line) else homeDie (128 * line)

/-! ## Values -/

def memWord (s : State) (w : Nat) : W32 := BitVec.ofNat 32 (ofLe (memBytes s.mem (4 * w) 4))

def putWord (s : State) (w : Nat) (v : W32) : State :=
  { s with mem := memPut s.mem (4 * w) (leBytes 4 v.toNat) }

def lineSt (s : State) (line : Nat) : Line := tgetD s.ms.lines line { m := none, s := 0 }

def setLine (s : State) (line : Nat) (x : Line) : State :=
  modMs s (fun m => { m with lines := tset m.lines line x { m := none, s := 0 } })

/-- Whether a line's grant stands in an RSP link FIFO: the core it goes to does not own the line until it arrives (R242, R243). -/
def granted (s : State) (line : Nat) : Bool := s.ms.rsps.any (fun g => g.line == line)

/-- The core that owns a word: by registration on the home's die, or by its line in M (R243). -/
def ownerOf (s : State) (w : Nat) : Option Nat :=
  match s.ms.owners.find? (fun e => e.1 == w) with
  | some e => some e.2
  | none => if granted s (w / 32) then none else (lineSt s (w / 32)).m

def viewWord (s : State) (c w : Nat) : Option VWord := tget? (coreAt s c).view w

def setView (s : State) (c w : Nat) (v : VWord) : State :=
  modCore s c (fun co => { co with view := tput co.view w v })

def delView (s : State) (c w : Nat) : State := modCore s c (fun co => { co with view := tdel co.view w })

/-- The value a home returns: the owner's, else Mem(w) (R243, R245). -/
def homeVal (s : State) (w : Nat) : W32 :=
  match (ownerOf s w).bind (fun c => viewWord s c w) with
  | some v => mergeBytes v.known v.val (memWord s w)
  | none => memWord s w

def homeByte (s : State) (a : Nat) : Byte := (homeVal s (a / 4)).extractLsb' (8 * (a % 4)) 8

def homeBytes (s : State) (a n : Nat) : List Byte := (List.range n).map (fun i => homeByte s (a + i))

def homeNat (s : State) (a n : Nat) : Nat := ofLe (homeBytes s a n)

/-! ## Removing copies -/

/-- Removes every copy(v) that a test names; bytes written under software management stay until CFLUSH or a merge
flush (R244, R353). -/
def dropCopies (s : State) (p : Nat → Nat → Bool) : State :=
  { s with cores := s.cores.map (fun e =>
      (e.1, { e.2 with view := e.2.view.filter (fun v =>
        !(v.2.st == .copy && v.2.dirty == 0 && p e.1 v.1)) })) }

/-- M7: an INV removes the copies of its line from every view of a die (R245). -/
def applyInv (s : State) (dst line : Nat) : State :=
  dropCopies s (fun c w => dieOf c == dst && w / 32 == line)

/-- Applies every INV standing in the link FIFOs that a test admits into a die (R244). -/
def applyInvs (s : State) (dst : Nat) (p : Nat → Bool) : State :=
  let mine := s.ms.invs.filter (fun i => i.dst == dst && p i.src)
  let s := modMs s (fun m => { m with invs := m.invs.filter (fun i => !(i.dst == dst && p i.src)) })
  mine.foldl (fun s i => applyInv s dst i.line) s

/-- The acquire action of a core at a scope (R244). -/
def acquire (s : State) (c : Nat) (sc : Scope) : State :=
  match sc with
  | .flock | .fold => s
  | .die => dropCopies s (fun c' w => c' == c && homeDie (4 * w) == dieOf c)
  | .package =>
    applyInvs (dropCopies s (fun c' w => c' == c && homeDie (4 * w) == dieOf c)) (dieOf c) (fun x => decide (x < 4))
  | .system =>
    applyInvs (dropCopies s (fun c' w => c' == c && homeDie (4 * w) == dieOf c)) (dieOf c) (fun _ => true)

/-! ## Regions: abort -/

/-- A doomed thread is delivered to its abort target (R272). -/
def deliverThread (t : Thread) : Thread :=
  { t with pc := t.reg.target, hdr := t.reg.target, via := none,
           reg := { t.reg with doom := false, doomIn := false } }

/-- Whether a lane stands in its flock's group inside a clause (R272). -/
def inClause (fl : Flock) (l : Nat) : Bool :=
  match fl.group with
  | some g => g.started && g.lanes.contains l
  | none => false

/-- The state of a thread whose region aborts (R266, R272). Outside a clause the thread is delivered at once,
unless it is in trap mode. -/
def abortThread (within : Bool) (code : Nat) (t : Thread) : Thread :=
  let r := t.reg
  let t := { t with reg := { r with live := false, doom := true, doomIn := within,
                                    code := BitVec.ofNat 4 code,
                                    count := if r.count = 255 then 255 else r.count + 1 } }
  if within || t.trap.mode then t else deliverThread t

/-- Whether a lane is in trap mode. -/
def trapped (fl : Flock) (l : Nat) : Bool :=
  match tget? fl.threads l with
  | some t => t.trap.mode
  | none => false

/-- The token request of a flock ends (R129). -/
def dropReq (s : State) (c f k : Nat) : State :=
  modCore s c (fun co => { co with reqs := co.reqs.filter (fun r => !(r.fold == f && r.flock == k)) })

/-- A lane leaves the group of its flock. When no lane is left, the flock selects a group again. -/
def laneLeaves (l : Nat) (fl : Flock) : Flock :=
  match fl.group with
  | none => fl
  | some g =>
    if !g.lanes.contains l then fl
    else if (g.lanes.filter (· != l)).isEmpty then unhold { fl with group := none }
    else { fl with group := some { g with lanes := g.lanes.filter (· != l) } }

/-- A thread delivered while its group waits to start a clause has another PC than the group's, and leaves it (R121,
R272). When no thread is left, its token request ends (R129). -/
def leaveWaiting (s : State) (f k l : Nat) : State :=
  let s := modFlock s f k (laneLeaves l)
  match (flock? s f k).bind (·.group), (fold? s f).bind coreOf with
  | none, some c => dropReq s c f k
  | _, _ => s

/-- A pending region that is lost aborts its whole task (R280): the task stops and is run again. A stop for pre-emption becomes
this one. -/
def stopTask (s : State) (f : Nat) : State :=
  modFold s f (fun fo =>
    let h : Halt := { reason := .taskAbort, wdogBegan := false, stopped := true, cause := 0, pflock := none, faddr := 0, savets := 0 }
    { fo with lost := true
              halt := match fo.halt with
                | none => some h
                | some o => if o.reason = .preempt ∧ (coreOf fo).isSome then some h else some o })

/-- Counters of some events, less those of a table (R1; log 35). -/
def lessEvents (t u : Tab Nat) : Tab Nat := u.foldl (fun t e => tset t e.1 (tgetD t e.1 0 - e.2) 0) t

/-- The entries of a table from a key on, numbered from 0: what some events have added to FPEV_COUNT from 0, and to FPEV_WIN
from 8. -/
def entriesFrom (lo : Nat) (t : Tab Nat) : Tab Nat :=
  (t.filter (fun e => decide (lo ≤ e.1 ∧ e.1 < lo + 8))).map (fun e => (e.1 - lo, e.2))

/-- The counters of numerical events with some events taken back (R1; DEDUCED, log 35). -/
def Fpev.takeBack (p : Fpev) (t : Tab Nat) : Fpev :=
  { p with count := lessEvents p.count (entriesFrom 0 t), win := lessEvents p.win (entriesFrom 8 t) }

/-- The numerical events counted in a region that ends without a commit are taken back (R1; DEDUCED, log 35). -/
def takeBack (s : State) (r : Region) : State :=
  if r.evs = [] then s
  else modFold (modCtx s r.ctx (fun k => { k with fpev := k.fpev.takeBack r.evs })) r.fold (fun fo =>
    { fo with taskEvs := lessEvents fo.taskEvs r.evs })

/-- One region ends with Abort(region, code) of R272 and R281: its tentative entries are discarded, its events are taken back and
its thread is doomed. A region pending in a task takes its task with it (R280). -/
def abortOne (s : State) (rid code : Nat) : State :=
  match tget? s.ms.regions rid with
  | none => s
  | some r =>
    if r.phase = .pending then stopTask s r.fold
    else
      let s := modMs s (fun m =>
        { m with regions := tdel m.regions rid,
                 vers := m.vers.filter (fun v => v.owner != .region rid) })
      let s := takeBack s r
      let s := modCtx s r.ctx (fun c => { c with od := { c.od with pendO := c.od.pendO.filter (fun p => p.2 != rid) } })
      match (fold? s r.fold).bind (fun fo => (laneOf? fo r.tid)) with
      | none => s
      | some (k, l) =>
        match flock? s r.fold k with
        | none => s
        | some fl =>
          let s := modThread s r.fold k l (abortThread (inClause fl l) code)
          if inClause fl l || trapped fl l then s else leaveWaiting s r.fold k l

/-- The O regions that have read a version of a region (R278). -/
def readersOf (s : State) (rid : Nat) : List Nat :=
  let ranks := (s.ms.vers.filter (fun v => v.owner == .region rid)).map (·.rank)
  (s.ms.regions.filter (fun e => e.1 != rid && e.2.cls == 2 && e.2.reads.any (fun r => r.ranks.any ranks.contains))).map (·.1)

/-- A region aborts, and with EMPTY the O regions that have read the versions which it discards, and so on (R278). -/
def abortDeep : Nat → State → Nat → Nat → State
  | 0, s, _, _ => s
  | n + 1, s, rid, code =>
    let rs : List Nat := match tget? s.ms.regions rid with
      | some r => if r.phase = RPhase.pending then [] else readersOf s rid
      | none => []
    rs.foldl (fun s q => abortDeep n s q 1) (abortOne s rid code)

/-- Abort(region, code), with the readers that it takes with it (R272, R278, R281). -/
def abortRegion (s : State) (rid code : Nat) : State := abortDeep s.ms.regions.length s rid code

/-- Aborts with VALIDATE every region that a test names and that has read the word (R275). -/
def validate (s : State) (w : Nat) (p : Nat → Region → Bool) : State :=
  let hit := s.ms.regions.filter (fun e => p e.1 e.2 && e.2.reads.any (fun r => r.word == w))
  hit.foldl (fun s e => abortRegion s e.1 2) s

/-- Every region but one that is sealed: a plain change aborts V, E and O regions alike (R275). -/
def anyRegion (_ : Nat) (_ : Region) : Bool := true

/-! ## Revocation and INV messages -/

/-- The owner of one word gives it up: Mem takes the value and the owner keeps a copy (R245, M6). -/
def revokeOwn (s : State) (w c : Nat) : State :=
  let v := homeVal s w
  let s := putWord s w v
  let s := modMs s (fun m => { m with owners := m.owners.filter (fun e => e.1 != w) })
  setView s c w { st := .copy, val := v, known := 15, dirty := 0 }

/-- A grant that has not arrived is taken out of its FIFO, and its line belongs to no core (R242). -/
def cancelGrant (s : State) (line : Nat) : State :=
  setLine (modMs s (fun m => { m with rsps := m.rsps.filter (fun g => g.line != line) })) line
    { lineSt s line with m := none }

/-- A core of another die gives up a line in M (R349): every word is written back, the core keeps copies, and its
die joins S. A line whose grant has not arrived is only taken back. -/
def revokeLine (s : State) (line c : Nat) : State :=
  if granted s line then cancelGrant s line
  else
  let vals := (List.range 32).map (fun i => (32 * line + i, homeVal s (32 * line + i)))
  let s := vals.foldl (fun s e => setView (putWord s e.1 e.2) c e.1
    { st := .copy, val := e.2, known := 15, dirty := 0 }) s
  let ls := lineSt s line
  setLine s line { m := none, s := ls.s ||| (1#4 <<< dieOf c) }

/-- Revokes whoever owns a word, by registration or by its line. -/
def revoke (s : State) (w : Nat) : State :=
  match s.ms.owners.find? (fun e => e.1 == w) with
  | some e => revokeOwn s w e.2
  | none =>
    match (lineSt s (w / 32)).m with
    | some c => revokeLine s (w / 32) c
    | none => s

/-- Revokes every owner of a line. -/
def revokeAll (s : State) (line : Nat) : State :=
  (List.range 32).foldl (fun s i => revoke s (32 * line + i)) s

/-- Queues INV messages for a line to every die of S and leaves it in I (R245, R349). -/
def queueInvs (s : State) (line : Nat) : State :=
  let ls := lineSt s line
  let src := invSrc s line
  let s := (List.range 4).foldl (fun s d =>
    if bitOf ls.s d then modMs s (fun m => { m with invs := m.invs ++ [{ src := src, dst := d, line := line }] })
    else s) s
  setLine s line { ls with s := 0 }

/-- A write of some bytes of a word at its home by an engine, an atomic, a commit, the host or a peer (R250,
R256, R349): owners are revoked, INVs queued, and the regions a test names are validated when the value changes
(R275). -/
def homeWrite (s : State) (w : Nat) (mask : BitVec 4) (v : W32) (p : Nat → Region → Bool) : State :=
  let s := revoke s w
  let old := memWord s w
  let new := mergeBytes mask v old
  let s := putWord s w new
  let s := queueInvs s (w / 32)
  if new = old then s else validate s w p

/-- The words that a run of bytes touches: word, mask, value. -/
def splitWords (a : Nat) (bs : List Byte) : List (Nat × BitVec 4 × W32) :=
  if bs.isEmpty then []
  else
    (List.range ((a + bs.length - 1) / 4 - a / 4 + 1)).map (fun i =>
      let w := a / 4 + i
      let js := (List.range 4).filter (fun j => decide (a ≤ 4 * w + j ∧ 4 * w + j < a + bs.length))
      (w, js.foldl (fun m j => m ||| (1#4 <<< j)) 0,
       js.foldl (fun v j => v ||| ((bs.getD (4 * w + j - a) 0).setWidth 32 <<< (8 * j))) 0))

/-- Writes bytes at their homes, word by word. -/
def homeWriteBytes (s : State) (a : Nat) (bs : List Byte) (p : Nat → Region → Bool) : State :=
  (splitWords a bs).foldl (fun s e => homeWrite s e.1 e.2.1 e.2.2 p) s

/-- Removes every copy that a test names, whatever its core has written of it (R250, R351). -/
def dropAll (s : State) (p : Nat → Nat → Bool) : State :=
  { s with cores := s.cores.map (fun e =>
      (e.1, { e.2 with view := e.2.view.filter (fun v => !(v.2.st == .copy && p e.1 v.1)) })) }

/-- Removes every copy of the words of a byte range from every view (R250, R273, R351, R357). -/
def dropRange (s : State) (a n : Nat) : State :=
  dropAll s (fun _ w => decide (a < 4 * w + 4 ∧ 4 * w < a + n))

/-! ## Bias (R355 to R359) -/

/-- The reserved regions of the Corrected-Error Journal (R333, R373). -/
def cejRegion (pa : Nat) : Bool :=
  decide (0x2FFC000000 ≤ pa ∧ pa < 0x3000000000) || decide (0x3FC00000 ≤ pa ∧ pa < 0x40000000)

/-- Whether a device physical address lies in the range exposed to the host (R355), which holds no part of the Corrected-Error
Journal: the log engine alone writes it (R333). -/
def exposed (s : State) (pa : Nat) : Bool :=
  s.plat.hdmEn && !isHostPa pa && !cejRegion pa &&
    decide (s.plat.hdmBase.toNat ≤ pa ∧ pa < s.plat.hdmBase.toNat + s.plat.hdmSize.toNat)

/-- A BFLIP in progress on the block holds back device accesses (R358, R359). -/
def flipping (s : State) (pa : Nat) : Bool :=
  s.ms.flips.any (fun f => f.begun && f.block == pa / 4096)

def hostState (s : State) (line : Nat) : Nat := tgetD s.ms.hostLines line 0

def setHostState (s : State) (line x : Nat) : State :=
  modMs s (fun m => { m with hostLines := tset m.hostLines line x 0 })

/-- Asks the host for a line of its memory with ownership, unless that is under way (R354). -/
def askHost (s : State) (line : Nat) : State :=
  if s.ms.hostAsk.any (fun e => e.1 == line) then s
  else modMs s (fun m => { m with hostAsk := m.hostAsk ++ [(line, s.plat.ts)] })

/-- Sends a back-invalidate snoop for a line unless one is outstanding. -/
def sendSnoop (s : State) (line : Nat) (inv : Bool) : State :=
  if s.ms.snoops.any (fun e => e.1 == line) then s
  else modMs s (fun m => { m with snoops := m.snoops ++ [(line, inv)] })

/-- What a device access needs before it may be served at the home (R356 to R359): no flip in progress, and no
conflicting copy at the host. -/
def biasReady (s : State) (pa : Nat) (write : Bool) : Bool :=
  !flipping s pa &&
    (if write then hostState s (pa / 128) == 0 else hostState s (pa / 128) != 2)

/-- The snoop such an access sends when the host's copy stands in its way (R357). -/
def biasSnoop (s : State) (pa : Nat) (write : Bool) : State :=
  if flipping s pa then s
  else if biasReady s pa write then s
  else sendSnoop s (pa / 128) write

/-- A page is collapsed before its first write (R351): true when no collapse is needed, or the page is done. -/
def collapseReady (s : State) (pa : Nat) (cm : BitVec 2) : Bool := effCmode s pa cm != 3

/-- Requests the collapse of the page round an address (R351). -/
def askCollapse (s : State) (pa size : Nat) : State :=
  let e := (pa / 2 ^ size * 2 ^ size / 4096, size)
  if s.ms.collapsing.contains e then s
  else modMs s (fun m => { m with collapsing := m.collapsing ++ [e] })

/-! ## Accesses of units that wait (R351, R357 to R359) -/

/-- The step under way must wait for something. -/
def noteNeed (s : State) (x : Awaited) : State := modMs s (fun m => { m with need := m.need ++ [x] })

/-- An access to device memory at the home waits for a flip, or for the host's copy of the line (R357 to R359). -/
def needLine (s : State) (pa : Nat) (write : Bool) : State :=
  if biasReady s pa write then s else noteNeed s (.snoop pa write)

/-- The first addresses of a byte range in each line that it touches. -/
def rangeLines (pa n : Nat) : List Nat :=
  if n = 0 then [] else (List.range ((pa + n - 1) / 128 - pa / 128 + 1)).map (fun i => 128 * (pa / 128 + i))

def needRange (s : State) (pa n : Nat) (write : Bool) : State := (rangeLines pa n).foldl (fun s a => needLine s a write) s

/-- A write to a replicated page waits for its collapse (R351). -/
def needCollapse (s : State) (pa : Nat) (cm : BitVec 2) (size : Nat) : State :=
  if collapseReady s pa cm then s else noteNeed s (.collapse pa size)

/-- A write at the home to a line that a core owns waits until the core has performed the entries that stand ready for it
(R350). -/
def needDrain (s : State) (line : Nat) : State := if (lineSt s line).m.isNone then s else noteNeed s (.drain line)

/-- An operation that comes before one already applied at the same time waits for another time (R101, R165, R338). -/
def needTurn (s : State) (late : Bool) (x : Awaited) : State := if late then noteNeed s x else s

/-- Bytes written at their homes by a unit of the package (R250, R350, R357). -/
def unitPut (s : State) (pa : Nat) (bs : List Byte) : State :=
  let s := (rangeLines pa bs.length).foldl (fun s a => needDrain s (a / 128)) (needRange s pa bs.length true)
  homeWriteBytes s pa bs anyRegion

/-! ## The L2 (R157, R158) -/

/-- The lines of a slice: 16 MiB of 128 bytes (R8). -/
def sliceLines : Nat := 131072

/-- Lines of a context held in a die's L2 (R158). -/
def occCount (s : State) (c d : Nat) : Nat := (s.ms.l2.filter (fun e => e.ctx == c && e.die == d)).length

/-- The lines that a slice of a die holds, least recently used first. The spec gives no associativity: a slice is one set
(DESIGN CHOICE, log 44). -/
def l2Set (s : State) (d slice : Nat) : List L2Line :=
  s.ms.l2.filter (fun e => e.die == d && sliceOf (128 * e.line) == slice)

/-- The victim of a fill for a context, in the order of R158: a context above its soft limit gives up its own lines first. -/
def l2Victim (s : State) (d slice c : Nat) : Option L2Line :=
  let set := l2Set s d slice
  let own := if (ctx s c).occSoft.toNat < occCount s c d then set.filter (fun e => e.ctx == c) else []
  (own.find? (·.strm)).orElse fun _ => own.head?.orElse fun _ => (set.find? (·.strm)).orElse fun _ => set.head?

/-- A slice gives up its victim for a fill of a context. In reduced service the L2 is flat memory (R371). -/
def evictL2 (s : State) (d slice c : Nat) : State :=
  match if s.plat.svc = 2 then l2Victim s d slice c else none with
  | none => s
  | some v => modMs s (fun m => { m with l2 := m.l2.erase v })

/-- An access of a context brings a line into a die's L2, or uses it there: the line becomes the most recently used, with
the access's policy; a full slice first gives up a line (R157, R158). In reduced service the L2 is flat memory (R371). -/
def fillL2 (s : State) (d line c : Nat) (strm : Bool) : State :=
  if s.plat.svc ≠ 2 then s
  else match s.ms.l2.find? (fun e => e.die == d && e.line == line) with
  | some e => modMs s (fun m => { m with l2 := m.l2.erase e ++ [{ e with strm := strm }] })
  | none =>
    let slice := sliceOf (128 * line)
    let s := if sliceLines ≤ (l2Set s d slice).length then evictL2 s d slice c else s
    modMs s (fun m => { m with l2 := m.l2 ++ [{ die := d, line := line, ctx := c, strm := strm }] })

/-! ## The L1 (R13, R157) -/

/-- The lines of an L1: 256 KiB of 128 bytes (R13). -/
def l1Lines : Nat := 2048

/-- Whether a core holds a word of a line. -/
def holdsLine (co : Core) (line : Nat) : Bool := co.view.any (fun v => v.1 / 32 == line)

/-- Whether a core's L1 holds a line. -/
def inL1 (s : State) (c line : Nat) : Bool := (coreAt s c).l1.any (fun e => e.1 == line)

/-- Whether a core owns a line of another die or of host memory (R243). -/
def ownsLine (s : State) (c line : Nat) : Bool := (lineSt s line).m == some c && !granted s line

/-- A line with a registration on its way to its home stays in the L1: its words are the core's newest values (R243). -/
def busyLine (s : State) (c line : Nat) : Bool :=
  (coreAt s c).view.any (fun v => v.1 / 32 == line && v.2.st == .registering)
    || s.ms.msgs.any (fun m => match m.kind with
      | .reg c' w _ _ => c' == c && w / 32 == line
      | _ => false)

/-- What a core must write home to give up a line: 0 nothing, 1 words that it owns, 2 bytes that it has written under software
management. -/
def lineDebt (co : Core) (line : Nat) : Nat :=
  if co.view.any (fun v => v.1 / 32 == line && v.2.dirty != 0) then 2
  else if co.view.any (fun v => v.1 / 32 == line && v.2.st == .owned) then 1
  else 0

/-- The line that a full L1 gives up: of those that owe their home least a streaming one first, and of those the least recently
used (R157; DESIGN CHOICE, log 44). -/
def l1Victim (s : State) (c : Nat) : Option (Nat × Bool) :=
  let co := coreAt s c
  let pick := fun (k : Nat) (strm : Bool) =>
    co.l1.find? (fun e => (e.2 || !strm) && lineDebt co e.1 == k && !busyLine s c e.1)
  (List.range 3).findSome? (fun k => (pick k true).orElse fun _ => pick k false)

/-- The words of a line leave a core's view. -/
def dropLine (s : State) (c line : Nat) : State := (List.range 32).foldl (fun s i => delView s c (32 * line + i)) s

/-- A core evicts a line that it owns, and the line becomes I: the dies of S, its own among them when another of its cores has
read the line, are told (R349; DEDUCED, log 45). -/
def writeBackLine (s : State) (c line : Nat) : State :=
  let readers := (lineSt s line).s
  queueInvs (setLine (dropLine (revokeLine s line c) c line) line { m := none, s := readers }) line

/-- A word of a line that a core evicts: one that it has registered is written back (R349), and bytes written under software
management reach their home (DESIGN CHOICE, log 44). -/
def giveUpWord (s : State) (c w : Nat) : State :=
  match viewWord s c w with
  | none => s
  | some v =>
    if ownerOf s w = some c then delView (revokeOwn s w c) c w
    else delView (if v.dirty = 0 then s else homeWrite s w v.dirty v.val anyRegion) c w

/-- A core evicts a line: it writes back what it owes and holds no word of it. -/
def evictL1 (s : State) (c line : Nat) : State :=
  let s := if ownsLine s c line then writeBackLine s c line
    else (List.range 32).foldl (fun s i => giveUpWord s c (32 * line + i)) s
  modCore s c (fun co => { co with l1 := co.l1.filter (fun e => e.1 != line) })

/-- A full L1 first forgets the lines that it holds no word of, then gives up a line. -/
def roomL1 (s : State) (c : Nat) : State :=
  let s := if (coreAt s c).l1.length < l1Lines then s
    else modCore s c (fun co => { co with l1 := co.l1.filter (fun e => holdsLine co e.1) })
  if (coreAt s c).l1.length < l1Lines then s
  else match l1Victim s c with
    | some v => evictL1 s c v.1
    | none => s

/-- An access brings a line into a core's L1, or uses it there, with the access's policy (R157). An L1 all of whose lines must
stay takes no other line. -/
def fillL1 (s : State) (c line : Nat) (strm : Bool) : State :=
  let s := roomL1 (modCore s c (fun co => { co with l1 := co.l1.filter (fun e => e.1 != line) })) c
  if (coreAt s c).l1.length < l1Lines then modCore s c (fun co => { co with l1 := co.l1 ++ [(line, strm)] }) else s

/-- Whether a core's L1 can hold some lines at once: it holds them, has room, or can give up others. -/
def l1Fits (s : State) (c : Nat) (lines : List Nat) : Bool :=
  let co := coreAt s c
  let missing := (lines.eraseDups.filter (fun l => !inL1 s c l)).length
  decide (co.l1.length + missing ≤ l1Lines)
    || decide (co.l1.length + missing ≤ l1Lines + (co.l1.filter (fun e => !lines.contains e.1 && !busyLine s c e.1)).length)

/-! ## Copies fetched from the homes (R245, R349) -/

/-- Whether a core's die is told to the home as a holder of a copy (R349): another die's line, or host memory. -/
def foreign (c w : Nat) : Bool := isHostPa (4 * w) || homeDie (4 * w) != dieOf c

/-- The value a core's access sees: its view's known bytes over the home's value (M3). -/
def seenVal (s : State) (c w : Nat) (cm : BitVec 2) : W32 :=
  if cm = 2 then homeVal s w
  else match viewWord s c w with
    | some v => mergeBytes v.known v.val (homeVal s w)
    | none => homeVal s w

/-- The INV messages of one link FIFO to a die are applied in order, up to the last one of a line (M7, R242). -/
def popInvs (d line x : Nat) : Nat → State → State
  | 0, s => s
  | n + 1, s =>
    if s.ms.invs.any (fun i => i.dst == d && i.src == x && i.line == line) then
      match s.ms.invs.find? (fun i => i.dst == d && i.src == x) with
      | some i => popInvs d line x n (applyInv (modMs s (fun m => { m with invs := m.invs.erase i })) d i.line)
      | none => s
    else s

/-- INV messages of a line that stand on their way to a die reach it, after those before them in their link FIFO, before a fill
or a grant that the home sends now (R242, R245). -/
def lineInvs (s : State) (d line : Nat) : State :=
  if s.ms.invs.any (fun i => i.dst == d && i.line == line) then
    (List.range 6).foldl (fun s x => popInvs d line x s.ms.invs.length s) s
  else s

/-- A grant reaches its core behind the INV messages of its line that the home sent before it: the core owns every word of the
line (R242, R245). It waits while the core's L1 cannot hold the line. -/
def takeGrant (s : State) (g : Grant) : State :=
  let s := fillL1 (lineInvs s g.dst g.line) g.core g.line false
  if !inL1 s g.core g.line then s
  else
    let s := modMs s (fun m => { m with rsps := m.rsps.erase g })
    (List.range 32).foldl (fun s i =>
      setView s g.core (32 * g.line + i)
        { st := .owned, val := memWord s (32 * g.line + i), known := 15, dirty := 0 }) s

/-- The head of an RSP link FIFO is delivered (R242). -/
def takeRsp (s : State) (src dst : Nat) : State :=
  match s.ms.rsps.find? (fun g => g.src == src && g.dst == dst) with
  | some g => takeGrant s g
  | none => s

/-- An RSP link FIFO is delivered in order, as far as it goes (R242). -/
def takeRsps (src dst : Nat) : Nat → State → State
  | 0, s => s
  | n + 1, s => if s.ms.rsps.any (fun g => g.src == src && g.dst == dst) then takeRsps src dst n (takeRsp s src dst) else s

/-- The grant of a line that the home is about to take back arrives first, behind those before it in its FIFO (R242, R350). -/
def takeGrantOf (s : State) (line : Nat) : State :=
  match s.ms.rsps.find? (fun g => g.line == line) with
  | some g => takeRsps g.src g.dst
      ((s.ms.rsps.takeWhile (fun x => x.line != line)).filter (fun x => x.src == g.src && x.dst == g.dst)).length.succ s
  | none => s

/-- The data of a fill reach a core of another die behind the grants that stand in the same RSP link FIFO (R242). -/
def rspBefore (s : State) (c line : Nat) : State :=
  if s.ms.rsps.isEmpty then s else takeRsps (invSrc s line) (dieOf c) s.ms.rsps.length s

/-- A value fetched from the home is installed as copy(v), and its die joins S (R245, R349). A word being registered
stays as it is, and an L1 that cannot take the line takes no copy. -/
def install (s : State) (c w : Nat) (cm : BitVec 2) (cx : Nat) (strm : Bool) : State :=
  if cm = 2 then s
  else
    let s := lineInvs (rspBefore s c (w / 32)) (dieOf c) (w / 32)
    let s := fillL1 (fillL2 s (dieOf c) (w / 32) cx strm) c (w / 32) strm
    let x := viewWord s c w
    if !inL1 s c (w / 32) then s
    else
      let s := if x.all (fun x => x.st == .copy) then
          setView s c w { st := .copy, val := seenVal s c w cm, known := 15, dirty := (x.map (·.dirty)).getD 0 }
        else s
      if foreign c w && cm == 0 then
        let ls := lineSt s (w / 32)
        setLine s (w / 32) { ls with s := ls.s ||| (1#4 <<< dieOf c) }
      else s

/-- Every word of a line is fetched into a core's view (R170). -/
def installLine (s : State) (c line : Nat) (cm : BitVec 2) (cx : Nat) : State :=
  (List.range 32).foldl (fun s i => install s c (32 * line + i) (effCmode s (128 * line) cm) cx false) s

end Sys2Proof.Machine
end

