-- ==== Sys2Proof/Machine/Cej.lean ====
section
/-! DEFINITION. The Corrected-Error Journal (R333 to R337, R373): its region, its entries and chains, checkpoints,
coalescing, the full region's counters, acknowledgements and the archiving key. -/

namespace Sys2Proof.Machine

open Sys2Proof

/-- The region in use and its entries (R333, R337, R373). -/
def cejBase (s : State) : Nat := if s.plat.svc = 2 then 0x2FFC000000 else 0x3FC00000
def cejSize (s : State) : Nat := if s.plat.svc = 2 then 1048576 else 65536

def modCej (s : State) (g : Cej → Cej) : State := modPlat s (fun p => { p with cej := g p.cej })

def cejFull (s : State) : Bool := decide (cejSize s ≤ (s.plat.cej.tail - s.plat.cej.head).toNat)

/-- The physical address of the entry with a sequence number (R337). -/
def cejAt (s : State) (seq : Nat) : Nat := cejBase s + 64 * (seq % cejSize s)

/-- The bytes of a digest, most significant first. -/
def beBytes (n : Nat) (x : Nat) : List Byte := (leBytes n x).reverse

/-- The first 24 bytes of SHA-384 (R333). -/
def chainOf (bs : List Byte) : List Byte := (beBytes 48 (Config.sha384 bs).toNat).take 24

/-- Writes one entry at the tail; there is room for it (R333). -/
def cejPut (s : State) (ts : W64) (src kind code : Nat) (loc syn : W64) (count : Nat) : State :=
  let seq := s.plat.cej.tail.toNat
  let prev := if seq = 0 then List.replicate 64 0 else memBytes s.mem (cejAt s (seq - 1)) 64
  let body := leBytes 8 ts.toNat ++ leBytes 2 src ++ leBytes 2 kind ++ leBytes 2 code ++ leBytes 2 0
    ++ leBytes 8 loc.toNat ++ leBytes 8 syn.toNat ++ leBytes 5 seq ++ leBytes 3 count
  let s := { s with mem := memPut s.mem (cejAt s seq) (body ++ chainOf (prev ++ body)) }
  modCej s (fun c => { c with tail := c.tail + 1, since := if kind = 2 then c.since else c.since + 1 })

/-- The checkpoint of R335: six entries that carry the signature over the preceding entry. It waits for room for all
six (DEDUCED, log 20). -/
def cejCheckpoint (s : State) : State :=
  let c := s.plat.cej
  if c.since < 4096 ∨ cejSize s < (c.tail - c.head).toNat + 6 then s
  else
    let seq := c.tail.toNat - 1
    let chain := (memBytes s.mem (cejAt s seq) 64).drop 40
    let sig := beBytes 96 (Config.identitySign (Config.sha384 (leBytes 8 seq ++ chain))).toNat
    let word := fun i => BitVec.ofNat 64 (bytesAt sig (8 * i) 8)
    let s := (List.range 6).foldl (fun s i => cejPut s s.plat.ts (0xA * 1024) 2 i (word (2 * i)) (word (2 * i + 1)) 0) s
    modCej s (fun c => { c with since := 0 })

/-- Counts events while the region is full (R336). -/
def cejCount (s : State) (src code : BitVec 16) (n : Nat) (first last : W64) : State :=
  modCej s (fun c =>
    { c with counters :=
        if c.counters.any (fun k => k.src == src && k.code == code) then
          c.counters.map (fun k => if k.src == src && k.code == code
            then { k with count := k.count + BitVec.ofNat 64 n, last := last } else k)
        else c.counters ++ [{ src := src, code := code, count := BitVec.ofNat 64 n, first := first, last := last }] })

/-- Appends an entry that was held, or counts it when the region is full (R334, R336). -/
def cejAppend (s : State) (h : CejHeld) : State :=
  if cejFull s then cejCount s h.src h.code (h.count + 1) h.ts h.last
  else cejCheckpoint (cejPut s h.ts h.src.toNat 0 h.code.toNat h.loc h.syn h.count)

/-- Appends counters while space lasts (R336). -/
def cejFlush : Nat → State → State
  | 0, s => s
  | n + 1, s =>
    match s.plat.cej.counters with
    | [] => s
    | k :: r =>
      if cejFull s then s
      else
        let s := modCej s (fun c => { c with counters := r })
        cejFlush n (cejCheckpoint (cejPut s k.last k.src.toNat 1 k.code.toNat k.first k.count 0))

/-- An event reaches the log engine (R334): it joins the event its source holds, or ends that one's wait. -/
def cejRaise (s : State) (src code : BitVec 16) (loc syn : W64) : State :=
  let new : CejHeld := { src := src, code := code, loc := loc, syn := syn, ts := s.plat.ts, last := s.plat.ts, count := 0 }
  match s.plat.cej.held.find? (fun h => h.src == src) with
  | none => modCej s (fun c => { c with held := c.held ++ [new] })
  | some h =>
    if h.code = code ∧ h.loc = loc then
      let h' := { h with count := h.count + 1, last := s.plat.ts }
      if h'.count = 2 ^ 24 - 1 then
        cejAppend (modCej s (fun c => { c with held := c.held.filter (fun x => x.src != src) })) h'
      else modCej s (fun c => { c with held := c.held.map (fun x => if x.src == src then h' else x) })
    else
      modCej (cejAppend (modCej s (fun c => { c with held := c.held.filter (fun x => x.src != src) })) h)
        (fun c => { c with held := c.held ++ [new] })

/-- A request that ends in error, at a unit and an address (R334, R362). -/
def requestLost (s : State) (unit : Nat) (va : W64) : State := cejRaise s (BitVec.ofNat 16 unit) 0x0014 va 0

/-- The host link that an access to host memory is charged to while none is in service (R12). -/
def hostUnit (s : State) : Nat := unitSrc 0 0x8 (match s.plat.linkHome with | some l => l | none => 0)

/-- CEJ_EVENT: a unit reports an event (R298, R334). -/
def execCejEvent (src code : BitVec 16) (loc syn : W64) (s : State) : Out := .next (cejRaise s src code loc syn)

/-- Whether the log engine holds an event that comes before one (R11). -/
def cejBefore (s : State) (h : CejHeld) : Bool :=
  s.plat.cej.held.any (fun x => decide (x.ts.toNat < h.ts.toNat ∨ (x.ts = h.ts ∧ x.src.toNat < h.src.toNat)))

/-- CEJ_COALESCE_EXPIRE: the event held at position `ix` has been held for 1 ms and is appended, after those that come before it
(R11, R334). -/
def execCejCoalesceExpire (ix : Nat) (s : State) : Out :=
  match s.plat.cej.held[ix]? with
  | none => .next s
  | some h =>
    if (s.plat.ts - h.ts).toNat < 1000000 || cejBefore s h then .next s
    else .next (cejAppend (modCej s (fun c => { c with held := c.held.eraseIdx ix })) h)

/-- CEJ_ACK: the host writes the register and the device reads the acknowledgement (R336, R337). -/
def execCejAck (addr : W64) (a : CejAck) (s : State) : Out :=
  let s := modCej s (fun c => { c with ack := addr })
  let c := s.plat.cej
  let chain := beBytes 24 a.chain.toNat
  let entry := (memBytes s.mem (cejAt s a.seq.toNat) 64).drop 40
  let ok := !c.akey.isEmpty && decide ((a.seq - c.head).toNat < (c.tail - c.head).toNat) && entry == chain
    && Config.ecdsaVerify c.akey (Config.sha384 (leBytes 8 a.seq.toNat ++ chain)) a.sig
  if ok then
    let s := modCej s (fun c => { c with head := a.seq + 1 })
    .next (cejFlush s.plat.cej.counters.length (cejCheckpoint s))
  else .next (modCej s (fun c => { c with ackErr := true }))

/-- CEJ_AKEY_INSTALL: once, or signed by the installed key (R337). -/
def execCejAkeyInstall (key : List Byte) (sig : BitVec 768) (s : State) : Out :=
  let old := s.plat.cej.akey
  if old.isEmpty || Config.ecdsaVerify old (Config.sha384 key) sig then .next (modCej s (fun c => { c with akey := key }))
  else .next s

/-- The die that holds a Drove port (R7), and its source number (R12). -/
def portDie (n : Nat) : Nat := if n ≤ 2 then 0 else if n ≤ 7 then 1 else if n ≤ 12 then 2 else 3
def portSrc (n : Nat) : Nat := unitSrc (portDie n) 0x9 n

/-- FLIT_RETRY: a flit that failed its CRC was sent again (R334, R360). -/
def execFlitRetry (port : Fin 18) (syn : W64) (s : State) : Out :=
  .next (cejRaise s (BitVec.ofNat 16 (portSrc port.val)) 0x0005 (BitVec.ofNat 64 port.val) syn)

end Sys2Proof.Machine
end

