-- ==== Sys2Proof/Machine/Translate.lean ====
section
/-! DEFINITION. Virtual addresses (R151 to R154): the four-level walk, the cached translations, the A and DIRTY
bits, the permissions, and the format and geometry of a page (R155, R156). -/

namespace Sys2Proof.Machine

open Sys2Proof

/-- What an access needs of the leaf (R153). -/
inductive Acc where
  | load | store | atomic | fetch | any
  deriving DecidableEq, Repr

/-- A translated address: the physical address, the leaf and log2 of the page size. -/
structure Trans where
  pa : Nat
  leaf : W64
  size : Nat
  deriving DecidableEq, Repr

/-- Cause codes of translation faults (R291). -/
def causePage : Nat := 0x11
def causeProt : Nat := 0x12
def causeUce : Nat := 0x17

/-- The HBM that firmware reserves for the bias table: one bit for each 4 KiB of 768 GiB (R356). -/
def biasRegion (s : State) (pa : Nat) : Bool :=
  match s.plat.biasTab with
  | some b => decide (b ≤ pa ∧ pa < b + 25165824)
  | none => false

/-- Physical addresses that a page may map (R152, R333, R356, R371, R373). -/
def mappedPa (s : State) (pa : Nat) : Bool :=
  isHostPa pa ||
    (!cejRegion pa && !biasRegion s pa && decide (pa < (if s.plat.svc = 2 then 0xC000000000 else 0x40000000)))

/-! ## Fields of an entry (R152) -/

def leafFmt (e : W64) : BitVec 6 := e.extractLsb' 52 6
def leafGeom (e : W64) : BitVec 2 := e.extractLsb' 58 2
def leafCmode (e : W64) : BitVec 2 := e.extractLsb' 9 2
def leafAddr (e : W64) : Nat := bits e 47 12 * 4096

/-- A binary8 format code (R31, R92). -/
def isB8Code (f : BitVec 6) : Bool := bitOf f 5 && decide (bits f 2 0 ≠ 0)

def fmtOk (f : BitVec 6) : Bool := decide (f.toNat ≤ 6) || isB8Code f

/-- The checks of a leaf entry at a level (R152, R153), V aside. -/
def leafOk (level : Nat) (e : W64) : Bool :=
  decide (bits e 63 60 = 0) && decide (bits e 51 48 = 0) && !bitOf e 11 && fmtOk (leafFmt e)
    && decide (leafGeom e ≠ 3) && (decide (leafGeom e = 0) || isB8Code (leafFmt e))
    && (!bitOf e 5 || decide (level = 0)) && bitOf e 4

/-- The checks of a non-leaf entry (R152, R153). -/
def tableOk (e : W64) : Bool := decide (bits e 63 48 = 0) && decide (bits e 11 1 = 0)

/-- The walk's next entry address at a level (R151). -/
def entryPa (table va level : Nat) : Nat :=
  table + 8 * (if level = 3 then va / 2 ^ 39 else (va / 2 ^ (12 + 9 * level)) % 512)

/-- The sixteen entries around a level-0 entry, less A and DIRTY (R151). -/
def runEntries (s : State) (pa : Nat) : List Nat :=
  (List.range 16).map (fun i => homeNat s (pa / 128 * 128 + 8 * i) 8 &&& 0xFFFFFFFFFFFFFF3F)

/-- Whether the 64 KiB run around a level-0 entry breaks the rule of R151. -/
def runBroken (s : State) (pa : Nat) : Bool :=
  let es := runEntries s pa
  es.any (fun e => e.testBit 5) && !(es.all (fun e => e.testBit 5 && e == es.headD 0))

/-- A leaf found by the walk: the entry, log2 of the page size, and the entry's address. -/
abbrev Leaf := W64 × Nat × Nat

/-- The cause that stands for a wait: the access cannot be made before what it needs has come (`settleTo`). -/
def causeWait : Nat := 0

/-- Host memory while no host link is in service (R362). -/
def linkLost (s : State) (pa : Nat) : Bool := isHostPa pa && s.plat.linksUp == 0

/-- The walk from a level down (R151, R153); an error carries the address of the entry that ended it. An entry in host memory that
no link reaches is an access that ends in error (R362). -/
def walkFrom (s : State) (va : Nat) : Nat → Nat → Except (Nat × Nat) Leaf
  | level, table =>
    let pa := entryPa table va level
    if !mappedPa s pa then .error (causeProt, pa)
    else if linkLost s pa then .error (causeUce, pa)
    else if !biasReady s pa false then .error (causeWait, pa)
    else
      let e := BitVec.ofNat 64 (homeNat s pa 8)
      match level with
      | 0 =>
        let broken := runBroken s pa
        let e := if broken then Config.brokenRun s.freeIx va else e
        if !bitOf e 0 then .error (causePage, pa)
        else if !leafOk 0 e then .error (causeProt, pa)
        else .ok (e, if bitOf e 5 && !broken then 16 else 12, pa)
      | l + 1 =>
        if !bitOf e 0 then .error (causePage, pa)
        else if bitOf e 4 then
          if l + 1 = 3 then .error (causeProt, pa)
          else if !leafOk (l + 1) e then .error (causeProt, pa)
          else .ok (e, 12 + 9 * (l + 1), pa)
        else if !tableOk e then .error (causeProt, pa)
        else walkFrom s va l (leafAddr e)

def walk (s : State) (c va : Nat) : Except (Nat × Nat) Leaf :=
  walkFrom s va 3 (bits (ctx s c).ptroot 47 21 * 2 ^ 21)

/-- Sets bits of an entry at its home (R153). -/
def setEntryBits (s : State) (pa : Nat) (m : Nat) : State :=
  let e := homeNat s pa 8
  if e ||| m = e then s else unitPut s pa (leBytes 8 (e ||| m))

/-! ## The TLBs (R154) -/

def agDie : Agent → Nat
  | .core c => dieOf c
  | .die d => d

/-- The translations that a core, or a die, holds. -/
def agTlb (s : State) : Agent → List TlbE
  | .core c => (coreAt s c).tlb
  | .die d => (die s d).tlb

def modTlb (s : State) (ag : Agent) (g : List TlbE → List TlbE) : State :=
  match ag with
  | .core c => modCore s c (fun co => { co with tlb := g co.tlb })
  | .die d => modDie s d (fun x => { x with tlb := g x.tlb })

/-- 512 entries for a core, 16,384 for a die. -/
def tlbSize : Agent → Nat
  | .core _ => 512
  | .die _ => 16384

/-- A full TLB gives up its oldest entry (DESIGN CHOICE, log 44). -/
def addTlb (s : State) (ag : Agent) (e : TlbE) : State :=
  modTlb s ag (fun l => (if l.length < tlbSize ag then l else l.drop 1) ++ [e])

def covers (e : TlbE) (c va : Nat) : Bool := e.ctx == c && decide (e.base ≤ va ∧ va < e.base + 2 ^ e.size)

def tlbFind (s : State) (ag : Agent) (c va : Nat) : Option TlbE := (agTlb s ag).find? (fun e => covers e c va)

/-- The entry that the shared TLB of a die gives for an address: a cached one, else the leaf of a walk, which is cached and
gets A (R153, R154). -/
def dieLookup (s : State) (d c va : Nat) : State × Except Nat TlbE :=
  match tlbFind s (.die d) c va with
  | some e => (s, .ok e)
  | none =>
    match walk s c va with
    | .error (f, pa) =>
      (if f = causeWait then needLine s pa false
       else if f = causeUce then requestLost s (hostUnit s) (nat64 va) else s, .error f)
    | .ok (e, size, pa) =>
      let ent : TlbE := { ctx := c, base := va / 2 ^ size * 2 ^ size, size := size, leaf := e ||| 0x40, ent := pa }
      (addTlb (setEntryBits s pa 0x40) (.die d) ent, .ok ent)

/-- The entry for an address: a core's own, else its die's, which the core then holds too (R154). -/
def lookup (s : State) (ag : Agent) (c va : Nat) : State × Except Nat TlbE :=
  match ag with
  | .die d => dieLookup s d c va
  | .core k =>
    match tlbFind s ag c va with
    | some e => (s, .ok e)
    | none =>
      match dieLookup s (dieOf k) c va with
      | (s, .error f) => (s, .error f)
      | (s, .ok e) => (addTlb s ag e, .ok e)

def permits (a : Acc) (e : W64) : Bool :=
  match a with
  | .load => bitOf e 1
  | .store => bitOf e 2
  | .atomic => bitOf e 1 && bitOf e 2
  | .fetch => bitOf e 3
  | .any => true

/-- Marks the entry of an address DIRTY at the first write through it (R152). An entry that the TLBs have given up since the
translation is found again. -/
def markDirty (s : State) (ag : Agent) (c va : Nat) : State :=
  match lookup s ag c va with
  | (s, .error _) => s
  | (s, .ok e) =>
    if bitOf e.leaf 7 then s
    else
      let mark := fun (l : List TlbE) => l.map (fun t => if t == e then { t with leaf := t.leaf ||| 0x80 } else t)
      setEntryBits (modTlb (modTlb s ag mark) (.die (agDie ag)) mark) e.ent 0x80

/-- The physical address of an address in the page of an entry (R152). -/
def entryAddr (e : TlbE) (va : Nat) : Nat := leafAddr e.leaf / 2 ^ e.size * 2 ^ e.size + va % 2 ^ e.size

/-- Translation of an access by a context (R151 to R154, R356): the new state (a fill and A) and the address or the
cause. -/
def translate (s : State) (ag : Agent) (c va : Nat) (a : Acc) : State × Except Nat Trans :=
  match lookup s ag c va with
  | (s, .error f) => (s, .error f)
  | (s, .ok e) =>
    let pa := entryAddr e va
    if !mappedPa s pa then (s, .error causeProt)
    else if !permits a e.leaf then (s, .error causeProt)
    else if exposed s pa && leafCmode e.leaf != 0 then (s, .error causeProt)
    else (s, .ok { pa := pa, leaf := e.leaf, size := e.size })

/-- The place of a translated address (R149, R157). -/
def placeOf (t : Trans) : Place := if isHostPa t.pa then .host t.pa else .dev t.pa (leafCmode t.leaf) t.size

/-! ## Format and geometry (R155, R156) -/

def elemBytes (f : BitVec 6) : Nat :=
  if f = 1 then 8 else if f = 2 then 4 else if f = 3 ∨ f = 4 then 2 else 1

def blockLen (t : Trans) : Nat :=
  if leafGeom t.leaf = 1 then 16 else if leafGeom t.leaf = 2 then 32 else 0

/-- The number of blocks of a scaled page (R156). -/
def blockCount (t : Trans) : Nat := 2 ^ t.size / (blockLen t + 1) / 4 * 4

/-- The physical address of a block's scale byte, for an address of the element area (R156). -/
def scalePa (t : Trans) : Option Nat :=
  if blockLen t = 0 then none
  else
    let off := t.pa % 2 ^ t.size
    some (t.pa - off + blockCount t * blockLen t + off / blockLen t)

/-- Whether an address lies in the element area of its page (R156). -/
def inElements (t : Trans) : Bool :=
  decide (blockLen t = 0 ∨ t.pa % 2 ^ t.size < blockCount t * blockLen t)

/-- Bytes of a context's memory read by a unit of the package at the homes (R250, R357): none when an address does not
translate. -/
def readVirt (s : State) (ag : Agent) (c va n : Nat) : State × Except Nat (List Byte) :=
  (List.range n).foldl (fun (acc : State × Except Nat (List Byte)) i =>
    match acc.2 with
    | .error e => (acc.1, .error e)
    | .ok bs =>
      match translate acc.1 ag c ((va + i) % 2 ^ 57) .load with
      | (s, .error e) => (s, .error e)
      | (s, .ok t) =>
        if linkLost s t.pa then (s, .error causeProt)
        else (needLine s t.pa false, .ok (bs ++ [homeByte s t.pa]))) (s, .ok [])

/-- Bytes of a context's memory written by a unit of the package at the homes (R250, R351, R357). Every page is translated
before anything is written. -/
def writeVirt (s : State) (ag : Agent) (c va : Nat) (bs : List Byte) : State × Except Nat Unit :=
  let r := (List.range bs.length).foldl (fun (acc : State × Except Nat (List (Nat × Nat × Byte))) i =>
    match acc.2 with
    | .error e => (acc.1, .error e)
    | .ok ps =>
      let a := (va + i) % 2 ^ 57
      match translate acc.1 ag c a .store with
      | (s, .error e) => (s, .error e)
      | (s, .ok t) =>
        if linkLost s t.pa then (s, .error causeProt)
        else (needCollapse s t.pa (leafCmode t.leaf) t.size, .ok (ps ++ [(a, t.pa, bs.getD i 0)]))) (s, .ok [])
  match r with
  | (s, .error e) => (s, .error e)
  | (s, .ok ps) => (ps.foldl (fun s p => unitPut (markDirty s ag c p.1) p.2.1 [p.2.2]) s, .ok ())

end Sys2Proof.Machine
end

