-- ==== Sys2Proof/Machine/Journal.lean ====
section
/-! DEFINITION. The event journal of a context (R338), dirty tracking (R342) and interrupts raised to the host
(R324, R338). -/

namespace Sys2Proof.Machine

open Sys2Proof

/-- The unit that writes a context's journals, signals and images: its translations stand in the TLB of die 0 (DESIGN CHOICE,
log 44). -/
def front : Agent := .die 0

/-- Raises an MSI-X vector of a function (R324, R338). -/
def raiseIrq (s : State) (fn vec : Nat) : State := modPlat s (fun p => { p with irqs := p.irqs ++ [(fn, vec)] })

def satInc {w : Nat} (x : BitVec w) : BitVec w := if x = BitVec.allOnes w then x else x + 1

/-- Records the page of a signal-record or event-journal write (R342). -/
def dirtyRecord (s : State) (c va : Nat) : State :=
  let d := (ctx s c).dirty
  let page := va / 4096
  if !d.en || d.last = some page then s
  else if (d.tail - d.head).toNat ≥ 2 ^ bits d.size 4 0 then
    modCtx s c (fun x => { x with dirty := { d with lost := satInc d.lost } })
  else
    let a := bits d.base 56 12 * 4096 + 8 * (d.tail.toNat % 2 ^ bits d.size 4 0)
    let s := (writeVirt s front c a (leBytes 8 (page * 4096 + 1))).1
    modCtx s c (fun x => { x with dirty := { x.dirty with tail := d.tail + 1, last := some page } })

/-- Whether an entry stands in a context's journal that R251 puts after one. -/
def evjPast (s : State) (c : Nat) (ts : W64) (src : Nat) : Bool :=
  match (ctx s c).evj.last with
  | some (t, x) => decide (ts.toNat < t.toNat ∨ (ts = t ∧ src < x))
  | none => false

/-- Whether an entry that a unit appends now does not come next: one that R251 puts after it stands in the journal, or one that
R251 puts before it still stands in an EVQ (R251, R338). -/
def evjLate (s : State) (c src : Nat) : Bool :=
  evjPast s c s.plat.ts src || s.cores.any (fun co => co.2.evq.any (fun e => e.ctx == c &&
    decide (e.ts.toNat < s.plat.ts.toNat ∨ (e.ts = s.plat.ts ∧ coreSrc co.1 < src))))

/-- Notes an entry that is appended as the latest of its journal, if it is. -/
def evjNote (s : State) (c : Nat) (ts : W64) (src : Nat) : State :=
  if evjPast s c ts src then s
  else modCtx s c (fun x => { x with evj := { x.evj with last := some (ts, src) } })

/-- Appends an entry with a time stamp to a context's event journal (R338). A full ring, or one that does not translate (DESIGN
CHOICE, log 15), drops the entry and counts it in EVJ_LOST. -/
def evjAppendAt (s : State) (ts : W64) (c kind src code : Nat) (a b : W64) : State :=
  let s := evjNote s c ts src
  let e := (ctx s c).evj
  let lose := fun (s : State) => modCtx s c (fun x => { x with evj := { x.evj with lost := satInc x.evj.lost } })
  let s :=
    if e.size.toNat ≤ (e.tail - e.head).toNat then lose s
    else
      let va := (e.base.toNat + 32 * (e.tail.toNat % e.size.toNat)) % 2 ^ 57
      let w8 := kind % 256 + (src % 65536) * 2 ^ 16 + (code % 65536) * 2 ^ 32
      match writeVirt s front c va (leBytes 8 ts.toNat ++ leBytes 8 w8 ++ leBytes 8 a.toNat ++ leBytes 8 b.toNat) with
      | (s, .error _) => lose s
      | (s, .ok _) =>
        dirtyRecord (modCtx s c (fun x => { x with evj := { x.evj with tail := e.tail + 1 } })) c va
  if 5 ≤ kind ∧ kind ≤ 7 then raiseIrq s (ctx s c).owner e.vec.toNat else s

/-- An entry with the present time; the step that appends it waits while the entry does not come next (R251). -/
def evjAppend (s : State) (c kind src code : Nat) (a b : W64) : State :=
  evjAppendAt (if evjLate s c src then noteNeed s (.entry c src) else s) s.plat.ts c kind src code a b

end Sys2Proof.Machine
end

