-- ==== Sys2Proof/Machine/Flags.lean ====
section
/-! DEFINITION. Flags: the completion flags F0 to F11 of a flock and the long-latency instructions they count
(R26, R134), and the numerical events, their counters, limits and actions (R99 to R102, R376). -/

namespace Sys2Proof.Machine

open Sys2Proof

/-! ## Completion flags (R26) -/

/-- The flag of a word's selected slot, none when the slot is 15. -/
def slotFlag (g : Group) (h : Hd) : Option (Fin 12) :=
  let v := (if h.slotB then g.slotB else g.slotA).toNat
  if hv : v < 12 then some ⟨v, hv⟩ else none

def flagInc (fl : Flock) (n : Option (Fin 12)) : Flock :=
  match n with
  | none => fl
  | some n => { fl with flags := tset fl.flags n.val (flagVal fl n.val + 1) 0 }

/-- A flag drops by one; at zero its long mark clears (R26, R134). -/
def flagDec (fl : Flock) (n : Option (Fin 12)) : Flock :=
  match n with
  | none => fl
  | some n =>
    let v := flagVal fl n.val - 1
    { fl with flags := tset fl.flags n.val v 0,
              longs := if v = 0 then fl.longs &&& ~~~(1#12 <<< n.val) else fl.longs }

/-- Marks a flag long (R134). -/
def markLong (fl : Flock) (n : Option (Fin 12)) : Flock :=
  match n with
  | none => fl
  | some n => { fl with longs := fl.longs ||| (1#12 <<< n.val) }

/-- An instruction that would take a flag from 63 to 64 does not issue (R26). -/
def flagFull (fl : Flock) (g : Group) (h : Hd) : Bool :=
  match slotFlag g h with
  | some n => decide (63 ≤ flagVal fl n.val)
  | none => false

/-- The wait of a word for room in its flag. -/
def flagWait (g : Group) (h : Hd) : List Wait := (slotFlag g h).toList.map .flag

/-! ## Numerical events (R99 to R102) -/

def evINV : BitVec 8 := 0x01
def evDIVZ : BitVec 8 := 0x02
def evOVF : BitVec 8 := 0x04
def evUNF : BitVec 8 := 0x08
def evINEX : BitVec 8 := 0x10
def evNANGEN : BitVec 8 := 0x20
def evSATC : BitVec 8 := 0x40
def evFMTNAN : BitVec 8 := 0x80

/-- A count as a 32-bit counter that saturates shows it (R100). -/
def sat32 (n : Nat) : W32 := BitVec.ofNat 32 (min n (2 ^ 32 - 1))

/-- FPEV_COUNT_x and FPEV_WIN_x, which saturate (R100). -/
def fpevCount (p : Fpev) (x : Nat) : W32 := sat32 (tgetD p.count x 0)
def fpevWin (p : Fpev) (x : Nat) : W32 := sat32 (tgetD p.win x 0)
def fpevLim (p : Fpev) (x : Nat) : W32 := tgetD p.lim x 0xFFFFFFFF

/-- The action of a class (R100); code 3 acts as 0. -/
def fpevAction (p : Fpev) (x : Nat) : Nat := bits p.action (2 * x + 1) (2 * x) % 3

/-- Whether a context's REPRO bit is set (R100, R118). -/
def repro (s : State) (c : Nat) : Bool := bitOf (ctx s c).fpev.numctl 0

/-- One event of class x: the counters rise, and the action that is due, 0 when none (R101, R102). -/
def fpevAdd (p : Fpev) (x : Nat) : Fpev × Nat :=
  let n := tgetD p.win x 0 + 1
  let crossed := decide (fpevWin p x ≤ fpevLim p x ∧ fpevLim p x < sat32 n) && !bitOf p.fired x
  ({ p with count := tset p.count x (tgetD p.count x 0 + 1) 0, win := tset p.win x n 0,
            fired := if crossed then p.fired ||| (1#8 <<< x) else p.fired },
   if crossed then fpevAction p x else 0)

/-- Whether an increment by a source comes after one by a higher source at the same time (R101). -/
def fpevLate (s : State) (c src : Nat) : Bool :=
  match (ctx s c).fpev.last with
  | some (t, x) => decide (t = s.plat.ts ∧ src < x)
  | none => false

/-- One event of class x in a context: a host interrupt goes to the journal (R338, kind 7); the result says
whether FPTHR is due. -/
def countClass (s : State) (c src x : Nat) : State × Bool :=
  let (p, act) := fpevAdd (ctx s c).fpev x
  let s := modCtx s c (fun k => { k with fpev := p })
  if act = 2 then (evjAppend s c 7 src x ((fpevWin p x).setWidth 64) 0, false) else (s, act == 1)

/-- The events of one lane, class by class; the classes whose FPTHR is due (R101). -/
def countLane (s : State) (c src : Nat) (e : Ev) : State × List (Nat × Nat) :=
  (List.range 8).foldl (fun acc x =>
    if bitOf e.mask x then
      let r := countClass acc.1 c src x
      (r.1, if r.2 then acc.2 ++ [(e.lane, x)] else acc.2)
    else acc) (s, [])

/-- What events have added to the counters (entry x) and the window counters (entry 8 + x), with those of a mask added. -/
def tallyMask (t : Tab Nat) (m : BitVec 8) : Tab Nat :=
  (List.range 16).foldl (fun t i => if bitOf m (i % 8) then tset t i (tgetD t i 0 + 1) 0 else t) t

/-- The events of a region and of a task are remembered: those of an aborted region or of a discarded task do not count, so that
the counts do not depend on conflicts, on pre-emption or on how tasks split (R1; DEDUCED, log 35). -/
def tallyEvents (s : State) (f : Nat) (es : List Ev) : State :=
  let s := es.foldl (fun s e => match e.rid with
    | some r => modMs s (fun m => { m with regions := tmod m.regions r (fun x => { x with evs := tallyMask x.evs e.mask }) })
    | none => s) s
  match fold? s f with
  | none => s
  | some fo =>
    if !fo.isTask then s
    else modFold s f (fun fo => { fo with taskEvs := es.foldl (fun t e => tallyMask t e.mask) fo.taskEvs })

/-- The events of a discarded task are taken back from the counters and the window (R1; log 35). -/
def untally (s : State) (f : Nat) : State :=
  match fold? s f with
  | none => s
  | some fo =>
    let s := modCtx s fo.ctx (fun k => { k with fpev := k.fpev.takeBack fo.taskEvs })
    modFold s f (fun fo => { fo with taskEvs := [] })

/-- The events of one instruction, in ascending thread index, and among those of one time by ascending source (R101). -/
def countEvents (s : State) (c src : Nat) (es : List Ev) : State × List (Nat × Nat) :=
  if es.all (fun e => e.mask == 0) then (s, [])
  else
    let s := if fpevLate s c src then noteNeed s (.count c src)
      else modCtx s c (fun k => { k with fpev := { k.fpev with last := some (s.plat.ts, src) } })
    es.foldl (fun acc e =>
      let r := countLane acc.1 c src e
      (r.1, acc.2 ++ r.2)) (s, [])

/-- Whether an event counts: the region in which it was raised, if any, has not ended without a commit (R1; log 35). -/
def eventCounts (s : State) (e : Ev) : Bool :=
  match e.rid with
  | none => true
  | some r => (tget? s.ms.regions r).isSome

/-- The events of one instruction of a fold are counted and remembered (R1, R101). -/
def foldEvents (s : State) (f src : Nat) (es : List Ev) : State × List (Nat × Nat) :=
  match fold? s f with
  | none => (s, [])
  | some fo =>
    let es := es.filter (eventCounts s)
    countEvents (tallyEvents s f es) fo.ctx src es

/-- A counter of a context is written or cleared: what events added to the entries that a test names is no part of it any more. -/
def forgetTally (s : State) (c : Nat) (p : Nat → Bool) : State :=
  let drop := fun (t : Tab Nat) => t.filter (fun e => !p e.1)
  let s := modMs s (fun m => { m with regions := m.regions.map (fun e =>
    (e.1, if e.2.ctx = c then { e.2 with evs := drop e.2.evs } else e.2)) })
  { s with folds := s.folds.map (fun e => (e.1, if e.2.ctx = c then { e.2 with taskEvs := drop e.2.taskEvs } else e.2)) }

/-- Every FPEV_WIN of a context is cleared (R100, R102). -/
def windowClear (s : State) (c : Nat) : State :=
  forgetTally (modCtx s c (fun k => { k with fpev := { k.fpev with win := [], fired := 0 } })) c (8 ≤ ·)

/-- A write of FPEV_COUNT_x (R100). -/
def fpevCountWrite (s : State) (c x : Nat) (v : W32) : State :=
  forgetTally (modCtx s c (fun k => { k with fpev := { k.fpev with count := tset k.fpev.count x v.toNat 0 } })) c (· == x)

/-! ## Late traps (R376) -/

/-- Notes a late FPTHR for a thread that has not exited: one for each class that the instruction crossed, in ascending
class (DESIGN CHOICE, log 16). -/
def addLate (s : State) (f k l x : Nat) (pc : VA) : State :=
  modThread s f k l (fun t => if t.exited then t else { t with lates := t.lates ++ [{ cls := x, pc := pc }] })

def addLates (s : State) (f k : Nat) (pc : VA) (ds : List (Nat × Nat)) : State :=
  ds.foldl (fun s d => addLate s f k d.1 d.2 pc) s

/-! ## Long-latency instructions -/

def op? (fl : Flock) (id : Nat) : Option LOp := fl.ops.find? (fun o => o.id == id)

/-- Begins a long-latency instruction: its flag rises once (R26). -/
def startOp (s : State) (f k : Nat) (o : LOp) : State :=
  modFlock s f k (fun fl =>
    let fl := flagInc fl o.flag
    { fl with ops := fl.ops ++ [o] })

def srcOf (fo : Fold) : Nat := match coreOf fo with | some c => coreSrc c | none => 0

/-- An instruction is complete: its acquire action is taken, its flag drops, its events are counted and their
FPTHR traps become due late (R26, R101, R244, R376). -/
def completeOp (s : State) (f k : Nat) (o : LOp) : State :=
  match fold? s f with
  | none => s
  | some fo =>
    let s := match o.acq, coreOf fo with
      | some sc, some c => acquire s c sc
      | _, _ => s
    let s := modFlock s f k (fun fl => flagDec { fl with ops := fl.ops.filter (fun p => p.id != o.id) } o.flag)
    let r := foldEvents s f (srcOf fo) o.evs
    addLates r.1 f k o.pc r.2

/-- The thread index of a lane. -/
def laneTid (fl : Flock) (l : Nat) : Nat := match tget? fl.threads l with | some t => t.tid | none => l

/-- Events are kept in ascending thread index (R101). -/
def insEv (fl : Flock) (e : Ev) : List Ev → List Ev
  | [] => [e]
  | x :: r => if laneTid fl e.lane < laneTid fl x.lane then e :: x :: r else x :: insEv fl e r

/-- One part of an instruction is performed, with the events it raised. -/
def partDone (s : State) (f k id : Nat) (es : List Ev) : State :=
  match flock? s f k, (flock? s f k).bind (fun fl => op? fl id) with
  | some fl, some o =>
    let o := { o with left := o.left - 1, evs := es.foldl (fun a e => insEv fl e a) o.evs }
    if o.left = 0 then completeOp s f k o
    else modFlock s f k (fun fl => { fl with ops := fl.ops.map (fun p => if p.id == id then o else p) })
  | _, _ => s

/-- One more part of an instruction to be performed. -/
def addPart (s : State) (f k op : Nat) : State :=
  modFlock s f k (fun fl => { fl with ops := fl.ops.map (fun o => if o.id == op then { o with left := o.left + 1 } else o) })

/-- Marks the flag of an instruction long: it missed in L2, or is an engine command or a TAKE (R134). -/
def opLong (s : State) (f k id : Nat) : State :=
  modFlock s f k (fun fl => match op? fl id with | some o => markLong fl o.flag | none => fl)

end Sys2Proof.Machine
end

