-- ==== Sys2Proof/Machine/Ops.lean ====
section
/-! DEFINITION. The shared operations of instruction words: the issuing group, its advance and the end of its
clause (R121, R131, R132), taking a trap and returning from one (R293, R311), raising a fault (R295, R296),
release and acquire (R244), and convergence tokens (R125). -/

namespace Sys2Proof.Machine

open Sys2Proof

/-! ## Causes (R291) -/

def cTRAP : Nat := 0x01
def cRLOCK : Nat := 0x02
def cFPTHR : Nat := 0x03
def cFEAT : Nat := 0x04
def cREPRO : Nat := 0x05
def cILLOP : Nat := 0x10
def cLEVEL : Nat := 0x13
def cFMTBLK : Nat := 0x14
def cROLE : Nat := 0x15
def cALIGN : Nat := 0x16
def cUCE : Nat := 0x17
def cWDOG : Nat := 0x18
def cHALTF : Nat := 0x19
def cGRAIN : Nat := 0x20

/-! ## The issuing group -/

/-- What an issuing word sees: its fold, its flock, its grid, its core, its group, the PC and the address of its
clause header. -/
structure Cx where
  f : Nat
  k : Nat
  fo : Fold
  fl : Flock
  gr : Grid
  c : Nat
  g : Group
  pc : VA
  hdr : VA
  deriving DecidableEq, Repr

/-- The flock that dispatches, with its group (R121); none when no flock issues. A group whose threads stand at one PC with
different clause headers takes the header of its lowest thread: the spec does not say which (DESIGN CHOICE, log 43). -/
def issuing? (s : State) : Option Cx :=
  match s.cur with
  | none => none
  | some (f, k) =>
    match fold? s f with
    | none => none
    | some fo =>
      match tget? fo.flocks k, grid? s fo.grid, coreOf fo with
      | some fl, some gr, some c =>
        match fl.group with
        | none => none
        | some g =>
          match g.lanes with
          | [] => none
          | l :: _ =>
            match tget? fl.threads l with
            | none => none
            | some t => some { f := f, k := k, fo := fo, fl := fl, gr := gr, c := c, g := g, pc := t.pc, hdr := t.hdr }
      | _, _, _ => none

/-- Runs a word's effect for the issuing group. -/
def onIssue (s : State) (go : Cx → State) : Out :=
  match issuing? s with
  | none => .fault .noIssuer
  | some c => .next (go c)

/-- The address of the header of the clause after the group's (R21). -/
def nextHdr (c : Cx) : VA := c.hdr + 12 * (BitVec.ofNat 57 (c.g.len + 1))

/-- Whether the word at the PC is the last of its clause. -/
def isLast (c : Cx) : Bool := c.pc == c.hdr + 12 * (BitVec.ofNat 57 c.g.len)

/-- NextWord of the word at the PC, with the header of its clause (R293). -/
def nextWord (c : Cx) : VA × VA := if isLast c then (nextHdr c, nextHdr c) else (c.pc + 12, c.hdr)

/-- The lanes of the group whose guard is true. It is read as the word is dispatched: a word that has issued and is held keeps the
lanes that it found then (R28). -/
def execLanes (c : Cx) (h : Hd) : List Nat :=
  c.g.lanes.filter (fun l => match tget? c.fl.threads l with
    | some t => (c.fl.ex.map (·.contains l)).getD (guardTrue t h)
    | none => false)

def tidOf (c : Cx) (l : Nat) : Nat := match tget? c.fl.threads l with | some t => t.tid | none => 0

def doomed (c : Cx) (l : Nat) : Bool := match tget? c.fl.threads l with | some t => t.reg.doom | none => false

def liveRegion (c : Cx) (l : Nat) : Bool := match tget? c.fl.threads l with | some t => t.reg.live | none => false

/-- The live region of a lane. -/
def regionOf (c : Cx) (l : Nat) : Option Nat :=
  match tget? c.fl.threads l with
  | some t => if t.reg.live then some t.reg.rid else none
  | none => none

def inTrap (c : Cx) (l : Nat) : Bool := match tget? c.fl.threads l with | some t => t.trap.mode | none => false

/-! ## Tokens held by a clause (R131, R132) -/

/-- A group's tokens return to its core. -/
def returnTokens (s : State) (c : Nat) (g : Group) : State :=
  modCore s c (fun co =>
    let n := if g.f64 then co.f64n - 1 else co.f64n
    { co with held := co.held - g.tok - (if g.f64 && n = 0 then 1 else 0), f64n := n })

/-- The group is gone: its tokens return and the flock may select another (R121, R131). -/
def dropGroup (s : State) (f k c : Nat) : State :=
  match (flock? s f k).bind (·.group) with
  | none => s
  | some g => returnTokens (modFlock s f k (fun fl => unhold { fl with group := none })) c g

/-! ## Advancing -/

/-- Ends a clause: doomed threads that are not in trap mode are delivered (R272), the tokens return, and the yield
policy acts (R25), also when every thread has left by trap. Each thread already has the PC that the last word gave it. -/
def endClause (s : State) (c : Cx) (yielded : Bool) : State :=
  let s := modFlock s c.f c.k (fun fl =>
    { fl with threads := (match fl.group with
                | none => fl.threads
                | some g => fl.threads.map (fun e =>
                    if g.lanes.contains e.1 && e.2.reg.doom && !e.2.trap.mode then (e.1, deliverThread e.2) else e)),
              yielded := yielded || c.g.yield != 0 })
  dropGroup s c.f c.k c.c

/-- Gives every lane still in the group a PC and a header. -/
def setPcs (s : State) (f k : Nat) (p : Nat → VA × VA) : State :=
  modFlock s f k (fun fl =>
    match fl.group with
    | none => fl
    | some g => unhold { fl with threads := fl.threads.map (fun e =>
        if g.lanes.contains e.1 then (e.1, { e.2 with pc := (p e.1).1, hdr := (p e.1).2, via := none }) else e) })

/-- The group moves to its next word; at the last word the clause ends (R21, R121). -/
def advance (s : State) (c : Cx) (h : Hd) : State :=
  let s := setPcs s c.f c.k (fun _ => nextWord c)
  if isLast c then endClause s c h.yieldAfter
  else modFlock s c.f c.k (fun fl => { fl with yielded := h.yieldAfter || c.g.yield == 2 })

/-- A word that transfers: each lane takes its own PC, at a clause header, and the clause ends. -/
def transfer (s : State) (c : Cx) (h : Hd) (p : Nat → VA) : State :=
  endClause (setPcs s c.f c.k (fun l => (p l, p l))) c h.yieldAfter

/-- A transfer to a target that memory gives: the lanes that take it remember the word, which a target that is no clause
header names in its halt record (R46). -/
def transferTo (s : State) (c : Cx) (h : Hd) (taken : List Nat) (p : Nat → VA) : State :=
  let s := setPcs s c.f c.k (fun l => (p l, p l))
  let s := modFlock s c.f c.k (fun fl => { fl with threads := fl.threads.map (fun e =>
    if taken.contains e.1 && (match fl.group with | some g => g.lanes.contains e.1 | none => false)
    then (e.1, { e.2 with via := some c.pc }) else e) })
  endClause s c h.yieldAfter

/-- A word that has not issued was not dispatched, and does not count in the skid of a halting fold (R296). -/
def undispatch (fl : Flock) : Flock := { fl with skid := fl.skid - (if fl.sentIn ≤ 1 then 1 else 0), sentIn := fl.sentIn - 1 }

/-- A group is held at its word, which is executed again at the flock's next issue, until the conditions it waits for are
met (R123). -/
def holdWord (s : State) (c : Cx) (issued : Bool) (ws : List Wait) : State :=
  modFlock s c.f c.k (fun fl => match fl.hold with
    | .none | .flags _ | .waits _ _ | .bar => { (if issued then fl else undispatch fl) with hold := .waits issued ws }
    | _ => fl)

/-- A word that does not issue until a flag, a FIFO or a queue has room (R26, R123, R161). -/
def waitRoom (s : State) (c : Cx) (ws : List Wait) : State := holdWord s c false ws

/-- A word that has issued and is held keeps the lanes in which it executes (R28). -/
def keepExec (s : State) (c : Cx) (ex : List Nat) : State := modFlock s c.f c.k (fun fl => { fl with ex := some ex })

/-- A word that has issued in some lanes and waits (R123). -/
def waitHere (s : State) (c : Cx) (ex : List Nat) (ws : List Wait) : State := keepExec (holdWord s c true ws) c ex

/-- The group waits for flags at a clause header or at WAITF (R24, R147). -/
def waitFlags (s : State) (c : Cx) (m : BitVec 12) : State :=
  modFlock s c.f c.k (fun fl => { fl with hold := .flags m })

/-! ## Faults (R295, R296) -/

/-- Aborts the live regions of a fold with a code; a task's pending regions stay (R281, R303). -/
def abortRegions (s : State) (f code : Nat) : State :=
  (s.ms.regions.filter (fun e => e.2.fold == f && e.2.phase != .pending)).foldl (fun s e => abortRegion s e.1 code) s

/-- Whether a fault of flock `k` replaces a fault stop as the primary fault: of the faults of one cycle the lowest flock's
is primary (R296). -/
def lowerFault (o : Halt) (k cyc : Nat) : Bool :=
  match o.pflock with
  | some j => decide (o.cyc = cyc ∧ k < j)
  | none => false

/-- The skid of a flock when a fault stops the fold: the word, one at most (R17), that it has dispatched in the fault's cycle
(R296, R297). -/
def firstSkid (cyc : Nat) (fl : Flock) : Flock := { fl with skid := if fl.sentCyc = cyc then min 1 fl.sentIn else 0 }

/-- The flocks of a fold as a fault finds them: at the first one their skids begin. -/
def skidsAt (fo : Fold) (cyc : Nat) : Tab Flock :=
  if fo.halt.isNone then fo.flocks.map (fun e => (e.1, firstSkid cyc e.2)) else fo.flocks

/-- Raises a fault in a fold, once for each flock: the first is the primary fault, and of one cycle's the lowest flock's (R296);
a stop for pre-emption or the watchdog becomes a fault stop (R302). `word` is a fault of the word that the flock dispatches:
that word is none of its skid's (R297's example; DEDUCED, log 43). The fold's live regions abort with FAULT (R281). -/
def foldFault (s : State) (f k cause : Nat) (detail : BitVec 16) (tid : Option Nat) (nest : Bool) (hpc : VA)
    (faddr : W64) (word : Bool := false) : State :=
  let ts := s.plat.ts
  let cyc := cycleNow s
  let s := modFold s f (fun fo =>
    let h : Halt :=
      { reason := .fault, wdogBegan := false, stopped := false, cause := BitVec.ofNat 8 cause, pflock := some k, faddr := faddr,
        savets := ts, cyc := cyc }
    { fo with
      halt := match fo.halt with
        | none => some h
        | some o =>
          match o.reason with
          | .preempt => some { h with stopped := true }
          | .wdog => some { h with wdogBegan := true, stopped := true }
          | .fault => if lowerFault o k cyc then some { h with wdogBegan := o.wdogBegan, stopped := o.stopped } else some o
          | _ => some o
      flocks := tmod (skidsAt fo cyc) k (fun fl =>
        match fl.fault with
        | some _ => fl
        | none =>
          { fl with
            skid := if word then fl.skid - 1 else fl.skid
            fault := some { cause := BitVec.ofNat 8 cause, detail := detail, tid := tid, nest := nest, hpc := hpc } }) })
  abortRegions s f 7

/-- A fault of the issuing word: it has no effect in any thread; the faulting thread is the lowest executing one
unless another is named (R295). -/
def faultHere (s : State) (c : Cx) (cause : Nat) (lane : Option Nat) (faddr : W64) : State :=
  foldFault s c.f c.k cause 0 (lane.map (tidOf c)) false c.pc faddr true

/-- ILLOP at issue of a uniform instruction. -/
def illop (s : State) (c : Cx) (ex : List Nat) : State := faultHere s c cILLOP ex.head? 0

/-! ## Traps (R292, R293) -/

/-- Entry(cause, detail): TRAPVEC, or for FEAT the bound routine of FEATTAB when it is non-zero (R293), as the thread's core
reads it. A FEATTAB of 0 is no table, and a word that does not translate or cannot be read gives TRAPVEC: the spec states neither
(DESIGN CHOICE, log 47). -/
def trapEntry (s : State) (k cx cause detail : Nat) : State × VA :=
  let x := ctx s cx
  let vec : VA := x.trapvec.setWidth 57
  if cause = cFEAT ∧ x.feattab ≠ 0 then
    match readVirt s (.core k) cx (bits x.feattab 56 3 * 8 + 8 * detail) 8 with
    | (s, .ok bs) => (s, if ofLe bs = 0 then vec else BitVec.ofNat 57 (ofLe bs))
    | (s, .error _) => (s, vec)
  else (s, vec)

/-- A group that has not started its clause. -/
def freshGroup (lanes : List Nat) : Group :=
  { lanes := lanes, started := false, len := 0, slotA := 15, slotB := 15, heavy := 0, yield := 0, tok := 0, f64 := false }

/-- The operations that a flock's group had waiting at circular buffers are no more (R165). -/
def leaveBufs (s : State) (f k : Nat) : State :=
  modFold s f (fun fo => { fo with cbufs := fo.cbufs.map (fun b =>
    (b.1, { b.2 with waits := b.2.waits.filter (fun w => w.flock != k) })) })

/-- A lane leaves its group at once (R121). -/
def leaveGroup (s : State) (f k l c : Nat) : State :=
  let s := modFlock s f k (fun fl =>
    { fl with group := fl.group.map (fun g => { g with lanes := g.lanes.filter (· != l) }) })
  match (flock? s f k).bind (·.group) with
  | some g => if g.lanes.isEmpty then dropGroup (leaveBufs s f k) f k c else s
  | none => s

/-- The state of a thread that enters its handler (R292, R293). No transfer instruction leads there: the halt PC of a handler's
entry that is no clause header is the handler's address (R46; DESIGN CHOICE, log 6). -/
def trapThread (t : Thread) (cause detail : Nat) (entry pc rpc rhdr npc nhdr : VA) (late : Bool) : Thread :=
  { t with
    pc := entry, hdr := entry, via := none,
    trap := { mode := true, tcause := BitVec.ofNat 32 (detail * 65536 + cause), tpc := pc.setWidth 64,
              npc := npc, nhdr := nhdr, rpc := rpc, rhdr := rhdr, late := late } }

/-- TakeTrap of R293 with the resume PC given: the thread enters its handler, or the trap escalates to a fault of
the fold when the thread is in trap mode or there is no entry. An escalating thread keeps its state and stands at
the PC at which a resumed fold continues it (R299). A late trap that finds the thread in a region outside a clause resumes at the
abort target, to which the abort delivers it (DEDUCED, log 16). An entry that is no multiple of 4 is taken as it stands: the spec
gives a trap no ALIGN (R45; DESIGN CHOICE, log 47). -/
def takeTrapAt (s : State) (f k l cause detail : Nat) (pc rpc rhdr npc nhdr epc ehdr : VA) (late : Bool) : State :=
  match fold? s f, thread? s f k l with
  | some fo, some t =>
    let e := trapEntry s ((coreOf fo).getD 0) fo.ctx cause detail
    let s := e.1
    let entry := e.2
    if t.trap.mode || entry == 0 then
      let s := foldFault s f k cause 0 (some t.tid) t.trap.mode pc 0 (!late)
      leaveGroup (modThread s f k l (fun t => { t with pc := epc, hdr := ehdr })) f k l ((coreOf fo).getD 0)
    else
      let s := if t.reg.live then abortRegion s t.reg.rid 7 else s
      let sent := late && t.reg.live && (match thread? s f k l with | some u => !u.reg.doom | none => false)
      let s := modThread s f k l (fun u =>
        if sent then trapThread u cause detail entry pc u.pc u.hdr u.pc u.hdr late
        else trapThread u cause detail entry pc rpc rhdr npc nhdr late)
      leaveGroup s f k l ((coreOf fo).getD 0)
  | _, _ => s

/-- TakeTrap(t, cause, detail, insn) for the word at the PC (R293): RLOCK and REPRO resume at the word itself, every
other trap at NextWord. -/
def takeTrap (s : State) (c : Cx) (l cause detail : Nat) : State :=
  let n := nextWord c
  let r := if cause = cRLOCK ∨ cause = cREPRO then (c.pc, c.hdr) else n
  let e := if cause = cFEAT then (c.pc, c.hdr) else r
  takeTrapAt s c.f c.k l cause detail c.pc r.1 r.2 n.1 n.2 e.1 e.2 false

def takeTraps (s : State) (c : Cx) (cause detail : Nat) (ls : List Nat) : State :=
  ls.foldl (fun s l => takeTrap s c l cause detail) s

/-- The return of R311: the thread leaves trap mode and continues at a word; a doomed thread goes to its abort
target instead (R272). -/
def returnThread (t : Thread) (pc hdr : VA) : Thread :=
  let t := { t with pc := pc, hdr := hdr, via := none, trap := { t.trap with mode := false, late := false } }
  if t.reg.doom then deliverThread t else t

/-- The FPTHR traps that an instruction's events made due, taken after its results are written (R102); a thread
takes one trap for one instruction (DEDUCED, log 16). -/
def takeFpthr (s : State) (c : Cx) (ds : List (Nat × Nat)) : State :=
  (ds.foldl (fun (acc : State × List Nat) d =>
    if acc.2.contains d.1 then acc else (takeTrap acc.1 c d.1 cFPTHR d.2, acc.2 ++ [d.1])) (s, [])).1

/-- The events that lanes of the group raise, each with the region of its lane: a doomed thread's belong to its aborted region,
and do not count (R1; DEDUCED, log 35). -/
def laneEvs (c : Cx) (es : List Ev) : List Ev :=
  (es.filter (fun e => !doomed c e.lane)).map (fun e => { e with rid := regionOf c e.lane })

/-- Counts the events of an instruction that is not long-latency and takes the traps that become due (R101,
R102). -/
def raiseEvents (s : State) (c : Cx) (es : List Ev) : State :=
  let r := foldEvents s c.f (coreSrc c.c) (laneEvs c es)
  takeFpthr r.1 c r.2

/-! ## Release (R244) -/

/-- Messages of a flock's earlier stores that are not yet applied at a home. -/
def msgsBefore (s : State) (f k op : Nat) : Bool :=
  s.ms.msgs.any (fun m => m.fold == f && m.flock == k && decide (m.op < op))

/-- Barrier updates that a flock made before an instruction and that are not yet applied (R365). -/
def updsBefore (s : State) (f k op : Nat) : Bool :=
  match fold? s f with
  | none => false
  | some fo => fo.upds.any (fun u => match u.src with
    | some (j, n) => j == k && decide (n < op)
    | none => false)

/-- Whether the release action before instruction `op` of a flock can be taken at a scope (R244). -/
def releaseReady (s : State) (f k op : Nat) (sc : Scope) : Bool :=
  match flock? s f k with
  | none => true
  | some fl =>
    let entries := fl.fifo.any (fun e => decide (e.op < op)) || fl.loads.any (fun e => decide (e.op < op))
      || fl.scr.any (fun e => decide (e.op < op)) || fl.tent.any (fun e => decide (e.op < op)) || updsBefore s f k op
    match sc with
    | .flock => true
    | .fold => !entries
    | .die | .package => !entries && !msgsBefore s f k op
    | .system => !entries && !msgsBefore s f k op
        && !s.ms.peerReqs.any (fun r => r.fold == f && r.flock == k && decide (r.op < op))

/-- The release action before everything the flock issues next. -/
def releaseNow (s : State) (c : Cx) (sc : Scope) : Bool := releaseReady s c.f c.k s.seq sc

/-! ## Convergence tokens (R124, R125) -/

def tokenOf (k : Nat) (epoch : BitVec 8) (serial : BitVec 16) (members : List Nat) : W64 :=
  BitVec.ofNat 64 (k * 2 ^ 56 + epoch.toNat * 2 ^ 48 + serial.toNat * 2 ^ 32
    + members.foldl (fun a l => a + 2 ^ l) 0)

def parkedWith (t : Thread) (tok : W64) : Bool := t.park == .cvg tok

/-- A token is released when every member lane holds no thread, an exited thread, or a thread parked with it. -/
def tokenReady (fl : Flock) (tok : W64) : Bool :=
  (List.range 32).all (fun l => !bitOf tok l ||
    match tget? fl.threads l with
    | none => true
    | some t => t.exited || parkedWith t tok)

/-- Unparks every thread parked with a token that is ready (R125). -/
def releaseTokens (fl : Flock) : Flock :=
  { fl with threads := fl.threads.map (fun e =>
      match e.2.park with
      | .cvg tok => if tokenReady fl tok then (e.1, { e.2 with park := .none }) else e
      | _ => e) }

/-- The device tests for release when a thread parks, exits or leaves trap mode (R125). -/
def testTokens (s : State) (f k : Nat) : State := modFlock s f k releaseTokens

/-! ## Range locks (R159, R160, R232) -/

/-- The lowest entry of a core's table that meets bytes or registers [lo, hi) and is locked against the access: a
WRITE entry against loads and stores, a READ entry against stores. -/
def lockedBy (co : Core) (sp : LSpace) (lo hi : Nat) (store : Bool) : Option Nat :=
  (co.locks.find? (fun e => e.2.space == sp && decide (e.2.lo < hi ∧ lo < e.2.hi) && (e.2.write || store))).map (·.1)

/-- The window entry that an instruction of the flock meets by naming registers (R232). -/
def windowLock (s : State) (c : Cx) (regs : List (Nat × Nat)) : Option Nat :=
  regs.findSome? (fun r => lockedBy (coreAt s c.c) (.window c.f c.k) r.1 (r.1 + r.2) true)

/-! ## Shapes of words -/

/-- A word whose guard is false in every thread is dispatched and does not issue: the group moves on (R28). Its
yield-after hint, or a policy, makes the flock yield all the same (DESIGN CHOICE, log 43: R29 names no guard). -/
def retire (s : State) (c : Cx) (h : Hd) : State := advance s c h

/-- A word with its executing lanes; guarded off everywhere it retires with no effect (R28). -/
def word (h : Hd) (s : State) (go : Cx → List Nat → State) : Out :=
  onIssue s (fun c =>
    match execLanes c h with
    | [] => retire s c h
    | ex => go c ex)

/-- The registers a V operand names: none for other operands. -/
def vregsOf (n : Nat) (o : Opd) : List (Nat × Nat) :=
  match o with
  | .v r => [(r.val, n)]
  | _ => []

/-- A vector word: when it names a register of a window in flight every executing thread takes RLOCK (R232);
otherwise its effect takes place and the group moves on. -/
def vword (h : Hd) (s : State) (regs : List (Nat × Nat)) (go : Cx → List Nat → State) : Out :=
  word h s (fun c ex =>
    match windowLock s c regs with
    | some i => advance (takeTraps s c cRLOCK i ex) c h
    | none => advance (go c ex) c h)

/-- A uniform word: its effect once, then the group moves on. -/
def uword (h : Hd) (s : State) (go : Cx → List Nat → State) : Out :=
  word h s (fun c ex => advance (go c ex) c h)

/-- A uniform write of an S register; ZERO discards (R37). -/
def writeS (s : State) (c : Cx) (d : Opd) (v : W64) : State :=
  match d with
  | .s n => modFlock s c.f c.k (fun fl => setSreg fl n.val v)
  | _ => s

end Sys2Proof.Machine
end

