-- ==== Sys2Proof/WellFormed.lean ====
section
/-! DEFINITION. Which instructions are legal whatever the machine's state (R31, R37, R38, R42, R45, R166, R247):
operand classes, types, even pairs, modifiers. The checks that need the state (allocation, slots, clause
structure, tokens) stand in Machine/Issue.lean. -/

namespace Sys2Proof.WellFormed

open Sys2Proof

/-- A type of 64 bits (R30). -/
def is64 : Ty → Bool
  | .i64 | .u64 | .f64 => true
  | _ => false

def isInt4 : Ty → Bool
  | .i32 | .u32 | .i64 | .u64 => true
  | _ => false

def isInt6 : Ty → Bool
  | .i32 | .u32 | .i64 | .u64 | .i16x2 | .u8x4 => true
  | _ => false

def isShiftTy : Ty → Bool
  | .i32 | .u32 | .i64 | .u64 | .i16x2 => true
  | _ => false

/-- The types of VFADD and its like (R104). -/
def isFloat6 : Ty → Bool
  | .f32 | .f64 | .f16 | .bf16 | .f16x2 | .bf16x2 => true
  | _ => false

def isFloat4 : Ty → Bool
  | .f32 | .f64 | .f16 | .bf16 => true
  | _ => false

def isFloat2 : Ty → Bool
  | .f32 | .f64 => true
  | _ => false

/-- Class VD without predicates (R37). -/
def vd : Opd → Bool
  | .v _ | .zero => true
  | _ => false

/-- Class VS without predicates (R37). -/
def vs : Opd → Bool
  | .v _ | .s _ | .disp _ | .zero => true
  | _ => false

def sd : Opd → Bool
  | .s _ | .zero => true
  | _ => false

def ss : Opd → Bool
  | .s _ | .disp _ | .zero => true
  | _ => false

def pd : Opd → Bool
  | .p _ | .zero => true
  | _ => false

def ps : Opd → Bool
  | .p _ => true
  | _ => false

/-- Class SPC, less the reserved specials 1744 to 1759 (R39). -/
def spc : Opd → Bool
  | .spec n => n.val < 32
  | _ => false

/-- An S register, D and ZERO excluded (R166, R237). -/
def sOnly : Opd → Bool
  | .s _ => true
  | _ => false

/-- A V operand is even (R38); other operands pass. -/
def even : Opd → Bool
  | .v n => n.val % 2 == 0
  | _ => true

/-- Even when the type has 64 bits (R38). -/
def evenFor (t : Ty) (o : Opd) : Bool := !is64 t || even o

def vdT (t : Ty) (o : Opd) : Bool := vd o && evenFor t o
def vsT (t : Ty) (o : Opd) : Bool := vs o && evenFor t o

/-- An immediate of type F16 or BF16 has its high half zero (R32). -/
def immT (t : Ty) (w : W32) : Bool :=
  match t with
  | .f16 | .bf16 => w.extractLsb' 16 16 == 0
  | _ => true

/-- Operand b of a vector instruction with an immediate form. -/
def srcT (t : Ty) : Src → Bool
  | .reg o => vsT t o
  | .imm w => immT t w

def srcSS : Src → Bool
  | .reg o => ss o
  | .imm _ => true

def src16SS : Src16 → Bool
  | .reg o => ss o
  | .imm _ => true

/-- Group 1 takes types none, I64 and U64 (R71). -/
def scalarTy : Ty → Bool
  | .none | .i64 | .u64 => true
  | _ => false

def scalar3 (t : Ty) (d a : Opd) (b : Src) : Bool := scalarTy t && sd d && ss a && srcSS b
def scalar2 (t : Ty) (d a : Opd) : Bool := scalarTy t && sd d && ss a

def vec3 (t : Ty) (d a : Opd) (b : Src) : Bool := vdT t d && vsT t a && srcT t b
def vec2 (t : Ty) (d a : Opd) : Bool := vdT t d && vsT t a

/-- An immediate form rounds RNE and does not saturate (R32). -/
def immRound (b : Src) (rm : Rm) (sat : Bool) : Bool :=
  match b with
  | .reg _ => true
  | .imm _ => rm == .rne && !sat

/-- A narrow code names a binary8 format (R31, R92). -/
def narrowOk (n : BitVec 6) : Bool := n.getLsbD 5 && n.extractLsb' 0 3 != 0

/-- The narrow field goes with type B8 alone (R31). -/
def narrowT (t : Ty) (n : BitVec 6) : Bool :=
  if t = .b8 then narrowOk n else n == 0

def acqOk : Order → Bool
  | .plain | .acq => true
  | _ => false

def relOk : Order → Bool
  | .plain | .rel => true
  | _ => false

/-- A data register of a load or store of the size (R166). -/
def dataReg (size : Size) (o : Opd) : Bool :=
  match size, o with
  | .b64, .v n => n.val % 2 == 0
  | .b128, .v n => n.val % 4 == 0
  | .b128, .s _ | .b128, .disp _ => false
  | _, _ => true

/-- .S goes with B8 and B16 alone (R166). -/
def sgnOk (sgn : Bool) (size : Size) : Bool :=
  !sgn || size == .b8 || size == .b16

/-- The global address operand Ab: an even pair, S, D or ZERO (R166). -/
def addrOk (o : Opd) : Bool := vs o && even o

/-- The types of VCVT (R113). -/
def cvtTy : Ty → Bool
  | .i32 | .u32 | .i64 | .u64 | .f32 | .f64 | .f16 | .bf16 | .b8 => true
  | _ => false

/-- LDX and STX types (R166). -/
def elemTy : Ty → Bool
  | .f32 | .f64 | .i32 => true
  | _ => false

/-- Types of ATOM, ACAS and RED (R253). -/
def atomTy : Ty → Bool
  | .i32 | .u32 | .i64 | .u64 | .f32 | .f64 => true
  | _ => false

/-- An atomic operation with its types (R257). -/
def aopTy (op : Aop) (t : Ty) : Bool :=
  match op with
  | .add | .min | .max | .exch => atomTy t
  | .and | .or | .xor => isInt4 t
  | .inc | .dec => t == .u32 || t == .u64

/-- The S registers that an entry of a queue takes (R161), where it may be pushed (R166). -/
def pushSize (n : Nat) : Option Nat :=
  if n = 0 then some 1
  else if 2 ≤ n ∧ n ≤ 9 then some 4
  else if n = 10 then some 1
  else if n = 11 then some 2
  else none

/-- The vector half of a pair as its standard form with a zero aux field, c taken from vd (R42, R88). -/
def pairVector (h : Hd) (op : PairOp) (vd' va vb : Opd) (t : Ty) : Option Instr :=
  let b := Src.reg vb
  match op with
  | .g2 n =>
    match n.val with
    | 0x00 => some (.vmov h t vd' b)
    | 0x01 => some (.vadd h t vd' va b false)
    | 0x02 => some (.vsub h t vd' va b false)
    | 0x03 => some (.vmul h t vd' va b)
    | 0x04 => some (.vmulh h t vd' va b)
    | 0x05 => some (.vmad h t vd' va vb vd')
    | 0x06 => some (.vmadw h t vd' va vb vd')
    | 0x07 => some (.vdiv h t vd' va b)
    | 0x08 => some (.vrem h t vd' va b)
    | 0x09 => some (.vand h t vd' va b)
    | 0x0A => some (.vor h t vd' va b)
    | 0x0B => some (.vxor h t vd' va b)
    | 0x0C => some (.vnot h t vd' va)
    | 0x0D => some (.vshl h t vd' va b)
    | 0x0E => some (.vshr h t vd' va b)
    | 0x0F => some (.vsar h t vd' va b)
    | 0x10 => some (.vmin h t vd' va b)
    | 0x11 => some (.vmax h t vd' va b)
    | 0x12 => some (.vabs h t vd' va false)
    | 0x13 => some (.vneg h t vd' va false)
    | 0x14 => some (.vaddc h t vd' va b false 0 0)
    | 0x15 => some (.vsubb h t vd' va b false 0 0)
    | 0x16 => some (.vcmp h t .eq vd' va b)
    | 0x17 => some (.vsel h t vd' va b 0 false)
    | 0x18 => some (.vclz h t vd' va)
    | 0x19 => some (.vpopc h t vd' va)
    | 0x1A => some (.vbfx h t vd' va b)
    | 0x1B => some (.vbfi h t vd' va b)
    | 0x1C => if t = .u32 then some (.vprmb h vd' va vb 0) else none
    | 0x1D => some (.vlea h t vd' va b 0)
    | 0x1E => some (.vext h t vd' va .w8)
    | _ => some (.vdp4 h t vd' va b false)
  | .g4 n =>
    match n.val with
    | 0x00 => some (.vfadd h t vd' va b .rne false)
    | 0x01 => some (.vfsub h t vd' va b .rne false)
    | 0x02 => some (.vfmul h t vd' va b .rne false)
    | 0x03 => some (.vfma h t vd' va vb vd' .rne false)
    | 0x04 => some (.vfmin h t vd' va b)
    | 0x05 => some (.vfmax h t vd' va b)
    | 0x06 => some (.vfcmp h t .eq vd' va b)
    | 0x07 => some (.vfabs h t vd' va)
    | 0x08 => some (.vfneg h t vd' va)
    | 0x09 => some (.vfclass h t 0 vd' va)
    | 0x0A => some (.vfdot h t 0 vd' va vb .rne false)
    | 0x0B => none
    | _ => some (.vfscale h t vd' va b .rne false)

/-- The vector half leaves its a field unused (VMOV), its b field unused. -/
def pairNoA : PairOp → Bool
  | .g2 n => n.val == 0x00
  | .g4 _ => false

def pairNoB : PairOp → Bool
  | .g2 n => n.val == 0x0C || n.val == 0x12 || n.val == 0x13 || n.val == 0x18 || n.val == 0x19 || n.val == 0x1E
  | .g4 n => n.val == 0x07 || n.val == 0x08 || n.val == 0x09

/-- The scalar half leaves sa unused (SMOV), sb unused (SNOT, SCLZ, SPOPC). -/
def pairNoSa (n : Fin 23) : Bool := n.val == 0x00
def pairNoSb (n : Fin 23) : Bool := n.val == 0x0A || n.val == 0x12 || n.val == 0x13

/-- The clause header's own limits (R23, R45). -/
def slotOk (s : BitVec 4) : Bool := s.toNat ≤ 11 || s.toNat == 15

def hdrOk (c : ClauseHdr) : Bool :=
  c.len != 0 && slotOk c.slotA && slotOk c.slotB && c.heavy.toNat ≤ 8 && c.yield != 3

/-- Legality of an instruction word (R45), but for pairs. -/
def wfWord : Instr → Bool
  | .nop _ | .exit _ | .yield _ | .waitf _ _ => true
  | .bra _ c _ => match c with
    | .always => true
    | .nz a | .z a => ss a
  | .brx _ a | .ret _ a => addrOk a
  | .call _ d t => vd d && even d && (match t with | .label _ => true | .reg a => addrOk a)
  | .cvg _ a => ss a
  | .cvgset _ d => sd d
  | .elect _ d a => pd d && sd a
  | .vote _ m d a _ => ps a && (match m with | .any | .all => pd d | .ballot | .count => sd d)
  | .reorder _ a base count =>
    vs a && (match base with | .v _ => true | _ => false) && count.toNat ≤ 1536
  | .smov _ t d b => scalarTy t && sd d && srcSS b
  | .sadd _ t d a b | .ssub _ t d a b | .smul _ t d a b | .smulh _ t d a b | .sdiv _ t d a b
  | .srem _ t d a b | .sand _ t d a b | .sor _ t d a b | .sxor _ t d a b | .sshl _ t d a b
  | .sshr _ t d a b | .ssar _ t d a b | .smin _ t d a b | .smax _ t d a b | .sbfx _ t d a b
  | .sbfi _ t d a b => scalar3 t d a b
  | .scmp _ t _ d a b => scalar3 t d a b
  | .ssel _ t d a b _ _ => scalar3 t d a b
  | .slea _ t d a b _ => scalar3 t d a b
  | .snot _ t d a | .sclz _ t d a | .spopc _ t d a => scalar2 t d a
  | .vmov _ t d b =>
    (isInt6 t || t == .f32 || t == .f64 || t == .f16x2 || t == .bf16x2) && vdT t d && srcT t b
  | .vadd _ t d a b _ | .vsub _ t d a b _ => isInt6 t && vec3 t d a b
  | .vmul _ t d a b | .vmin _ t d a b | .vmax _ t d a b => isInt6 t && vec3 t d a b
  | .vmulh _ t d a b | .vdiv _ t d a b | .vrem _ t d a b | .vand _ t d a b | .vor _ t d a b
  | .vxor _ t d a b | .vbfx _ t d a b | .vbfi _ t d a b => isInt4 t && vec3 t d a b
  | .vshl _ t d a b | .vshr _ t d a b | .vsar _ t d a b => isShiftTy t && vec3 t d a b
  | .vmad _ t d a b c => isInt4 t && vdT t d && vsT t a && vsT t b && vsT t c
  | .vmadw _ t d a b c => (t == .i32 || t == .u32) && vd d && even d && vs a && vs b && vs c && even c
  | .vnot _ t d a => isInt4 t && vec2 t d a
  | .vabs _ t d a _ | .vneg _ t d a _ => (t == .i32 || t == .i64 || t == .i16x2) && vec2 t d a
  | .vaddc _ t d a b _ _ _ | .vsubb _ t d a b _ _ _ => (t == .u32 || t == .u64) && vec3 t d a b
  | .vcmp _ t _ d a b => isInt4 t && pd d && vsT t a && srcT t b
  | .vsel _ t d a b _ _ => (isInt4 t || isFloat2 t) && vec3 t d a b
  | .vclz _ t d a | .vpopc _ t d a => isInt4 t && vd d && vsT t a
  | .vprmb _ d a b _ => vd d && vs a && vs b
  | .vlea _ t d a b _ => (t == .i32 || t == .u32) && vd d && even d && addrOk a && srcT t b
  | .vext _ t d a w => isInt4 t && vec2 t d a && (w != .w32 || is64 t)
  | .vdp4 _ t d a b _ => (t == .i32 || t == .u32) && vec3 t d a b
  | .pand _ d a b _ _ | .por _ d a b _ _ | .pxor _ d a b _ _ => pd d && ps a && ps b
  | .pnot _ d a => pd d && ps a
  | .pmov _ dir d a => match dir with
    | .toS => sd d && ps a
    | .toP => pd d && ss a
  | .shfl _ t _ d a b _ => (isInt4 t || isFloat2 t) && vec3 t d a b
  | .vtos _ t d a b => isInt4 t && sd d && vsT t a && srcSS b
  | .stov _ t d a hi =>
    (isInt4 t || isFloat2 t) && vdT t d && ss a && (!hi || !is64 t)
  | .vspec _ d a => spc a && vd d &&
    (match a with
     | .spec n => even d || !(n.val == 13 || n.val == 18 || n.val == 19 || n.val == 24 || n.val == 25
         || n.val == 26 || n.val == 31)
     | _ => false)
  | .sspec _ d a => spc a && sd d &&
    (match a with
     | .spec n => !(n.val ≤ 3 || n.val == 17 || (24 ≤ n.val && n.val ≤ 27) || n.val == 30 || n.val == 31)
     | _ => false)
  | .vfadd _ t d a b rm sat | .vfsub _ t d a b rm sat | .vfmul _ t d a b rm sat =>
    isFloat6 t && vec3 t d a b && immRound b rm sat
  | .vfma _ t d a b c _ _ => isFloat6 t && vdT t d && vsT t a && vsT t b && vsT t c
  | .vfmin _ t d a b | .vfmax _ t d a b => isFloat6 t && vec3 t d a b
  | .vfcmp _ t _ d a b => isFloat4 t && pd d && vsT t a && srcT t b
  | .vfabs _ t d a | .vfneg _ t d a => isFloat6 t && vec2 t d a
  | .vfclass _ t nar d a => (isFloat4 t || t == .b8) && narrowT t nar && vd d && vsT t a
  | .vfdot _ t nar d a b _ _ =>
    (t == .f16x2 || t == .bf16x2 || t == .b8) && narrowT t nar && vd d && vs a && vs b
  | .vfred _ t d a rm => isFloat2 t && sd d && vsT t a && rm != .srh
  | .vfscale _ t d a b rm sat =>
    isFloat4 t && vec2 t d a && (match b with | .reg o => vs o | .imm _ => true) && immRound b rm sat
  | .vfdiv _ t d a b _ _ => isFloat2 t && vec2 t d a && vsT t b
  | .vfsqrt _ t d a _ _ | .vfrcp _ t d a _ _ | .vfrsqrt _ t d a _ _ | .vfexp2 _ t d a _ _
  | .vflog2 _ t d a _ _ | .vfsinpi _ t d a _ _ | .vfcospi _ t d a _ _ | .vftanh _ t d a _ _ =>
    isFloat2 t && vec2 t d a
  | .vcvt _ dt st nar d a _ _ =>
    cvtTy dt && cvtTy st && !(dt == .b8 && st == .b8) && !(isInt4 dt && isInt4 st)
      && (if dt = .b8 ∨ st = .b8 then narrowOk nar else nar == 0) && vdT dt d && vsT st a
  | .vpack8 _ nar st d a b _ _ =>
    (st == .f16x2 || st == .bf16x2) && narrowOk nar && vd d && vs a && vs b
  | .vunpk8 _ dt nar d a _ _ =>
    (dt == .f16x2 || dt == .bf16x2) && narrowOk nar && vd d && even d && vs a
  | .vfrnd _ t d a _ => isFloat4 t && vec2 t d a
  | .vqscale _ nar d a b _ _ => narrowOk nar && vd d && vs a && sd b
  | .ld _ sgn d a m => sgnOk sgn m.size && vd d && dataReg m.size d && addrOk a && acqOk m.order
  | .st _ a b m => vs b && dataReg m.size b && addrOk a && relOk m.order
  | .ldl _ sgn d a m => sgnOk sgn m.size && vd d && dataReg m.size d && vs a && acqOk m.order
  | .stl _ a b m => vs b && dataReg m.size b && vs a && relOk m.order
  | .lds _ sgn d a m =>
    sgnOk sgn m.size && vd d && dataReg m.size d && vs a && acqOk m.order && !m.strm
  | .sts _ a b m => vs b && dataReg m.size b && vs a && relOk m.order && !m.strm
  | .ldc _ sgn d a m =>
    sgnOk sgn m.size && vd d && dataReg m.size d && vs a && m.order == .plain && !m.strm
      && m.scope == .flock
  | .ldx _ t d a m => elemTy t && vdT t d && addrOk a && acqOk m.order && m.size == .b8
  | .stx _ t a b m => elemTy t && vsT t b && addrOk a && relOk m.order
  | .pref _ a _ _ => addrOk a
  | .bpf _ a b _ bar => ss a && ss b && (match bar with | none => true | some o => o.toNat % 8 == 0)
  | .cflush _ a b _ => ss a && ss b
  | .xlat _ d a _ => vd d && even d && addrOk a
  | .cbinit _ d a _ count => sd d && ss a && count.toNat ≤ 256
  | .cbwait _ d _ | .cbacq _ d _ => sd d
  | .cbrel _ _ | .cbpub _ _ => true
  | .launch _ d a b _ => vd d && even d && vs a && ss b
  | .lwait _ d b => sd d && srcSS b
  | .dchk _ d _ => pd d
  | .tdom _ d => match d with
    | .s n => n.val ≤ 124
    | .zero => true
    | _ => false
  | .rgrow _ d n => pd d && 1 ≤ n.toNat && n.toNat ≤ 24
  | .salloc _ d b => sd d && srcSS b
  | .sfree _ b => srcSS b
  | .tsplit _ d => sd d
  | .take _ a _ => ss a
  | .srel _ => true
  | .qpush _ d a => match d, a with
    | .q n, .s m => (match pushSize n.val with | some k => m.val + k ≤ 128 | none => false)
    | _, _ => false
  | .qpop _ d a => sd d && (match a with | .q n => n.val == 1 || n.val == 10 | _ => false)
  | .mxcmd _ a => sOnly a
  | .mxcommit _ d _ => sd d
  | .mxwait _ b => src16SS b
  | .mxtab _ a _ => sOnly a
  | .cpy _ _ a _ => match a with
    | .s m => m.val + 4 ≤ 128
    | _ => false
  | .fence _ o _ => o != .plain
  | .atom _ t d a b m => aopTy m.aop t && vdT t d && addrOk a && vsT t b
  | .acas _ t d a b _ _ _ _ => atomTy t && vdT t d && addrOk a && vsT t b
  | .red _ t a b m => aopTy m.aop t && m.aop != .exch && addrOk a && vsT t b
  | .hinit _ a b _ => ss a && src16SS b
  | .harrive _ d a b _ => sd d && ss a && (match b with | .none => true | .tx s => src16SS s)
  | .hdrop _ a _ => ss a
  | .hwait _ a b _ => ss a && (match b with | .reg o => ss o | .imm w => w.toNat < 256)
  | .bar _ b _ => match b with
    | .reg o => ss o
    | _ => true
  | .monitor _ a m => ss a && m.order == .plain && !m.strm && (m.size == .b32 || m.size == .b64)
  | .mwait _ d b => sd d && ss b
  | .tstamp _ d => sd d
  | .tbegin _ c _ => match c with
    | .o b => addrOk b
    | _ => true
  | .tend _ | .tabort _ _ => true
  | .tstat _ d _ => vd d
  | .tnarrow _ a b => addrOk a && addrOk b
  | .tposG _ d => vd d && even d
  | .tposF _ d | .tposB _ d => sd d
  | .tposVac _ b => srcSS b
  | .trap _ _ | .tret _ | .tretSkip _ | .haltf _ _ => true
  | .tretTo _ a => addrOk a
  | .sysr _ d _ b => sd d && (match b with | .own => true | .other o => ss o)
  | .sysw _ _ a b => ss a && (match b with | .own => true | .other o => ss o)
  | .beacon _ b => srcSS b
  | .bflipDev _ a | .bflipHost _ a => ss a
  | .evmark _ a _ => ss a
  | .clauseStart c => hdrOk c
  | _ => true

/-- Legality of every instruction (R45), a pair by its two halves (R42). -/
def wf : Instr → Bool
  | .pair h sop vop _ sa sb vd' va vb t =>
    (match pairVector h vop vd' va vb t with
     | none => false
     | some i => wfWord i)
      && (!pairNoA vop || va == .v 0) && (!pairNoB vop || vb == .v 0)
      && (!pairNoSa sop || sa == 0) && (!pairNoSb sop || sb == .reg 0)
  | i => wfWord i

end Sys2Proof.WellFormed
end

