-- ==== Sys2Proof/Machine/Operands.lean ====
section
/-! DEFINITION. Every operand form: V registers and pairs, broadcast S and D registers, ZERO, predicates, specials
and immediates, read for a lane or for the flock, and the writes of a lane (R18, R32, R37 to R39, R68). -/

namespace Sys2Proof.Machine

open Sys2Proof
open Sys2Proof.WellFormed (is64)

/-! ## Reading -/

/-- A display register of the grid (R18, R183). -/
def dispReg (c : Cx) (n : Nat) : W64 := c.gr.display.getD n 0

/-- The even pair at a V register: low half in the even register (R18). -/
def vpair (fl : Flock) (n l : Nat) : W64 := vreg fl (n + 1) l ++ vreg fl n l

/-- A uniform operand at 64 bits (classes SS and SD). -/
def rdS (c : Cx) (o : Opd) : W64 :=
  match o with
  | .s n => sreg c.fl n.val
  | .disp n => dispReg c n.val
  | _ => 0

/-- ReadV(t, code, type) at 64 bits: a 64-bit type reads a pair or a whole S or D register; any other type reads
one V register or the low 32 bits, and F16 and BF16 the low 16 bits of an S or D register (R37, R68). -/
def rdV (c : Cx) (l : Nat) (t : Ty) (o : Opd) : W64 :=
  match o with
  | .v n => if is64 t then vpair c.fl n.val l else (vreg c.fl n.val l).setWidth 64
  | .s _ | .disp _ =>
    if is64 t then rdS c o
    else if t = .f16 ∨ t = .bf16 then ((rdS c o).setWidth 16).setWidth 64
    else ((rdS c o).setWidth 32).setWidth 64
  | .p n => match tget? c.fl.threads l with
    | some th => if readP th n then 1 else 0
    | none => 0
  | _ => 0

/-- A 64-bit address operand Ab (R166): an even pair, an S or D register, or ZERO. -/
def rdAddr (c : Cx) (l : Nat) (o : Opd) : W64 := rdV c l .u64 o

/-- A 32-bit operand of a lane. -/
def rd32 (c : Cx) (l : Nat) (o : Opd) : W32 := (rdV c l .u32 o).setWidth 32

/-- Imm(v, type) of R32, at 64 bits. -/
def immVal (t : Ty) (w : W32) : W64 :=
  match t with
  | .i64 => w.signExtend 64
  | .f64 => w ++ 0#32
  | _ => w.setWidth 64

/-- Operand b of a vector instruction: a register or an immediate. -/
def rdSrc (c : Cx) (l : Nat) (t : Ty) (b : Src) : W64 :=
  match b with
  | .reg o => rdV c l t o
  | .imm w => immVal t w

/-- Operand b of a uniform instruction: a register or an immediate (R32, R71). -/
def rdSrcS (c : Cx) (t : Ty) (b : Src) : W64 :=
  match b with
  | .reg o => rdS c o
  | .imm w => immVal t w

/-- A 16-bit operand (R237, R253): the immediate, or the low 16 bits of an S register. -/
def rdSrc16 (c : Cx) (b : Src16) : Nat :=
  match b with
  | .reg o => ((rdS c o).setWidth 16).toNat
  | .imm w => w.toNat

/-- ReadP(t, code) (R68). -/
def rdPred (c : Cx) (l : Nat) (o : Opd) : Bool :=
  match o, tget? c.fl.threads l with
  | .p n, some t => readP t n
  | _, _ => false

/-- The V registers a typed operand names: a pair for a 64-bit type. -/
def regsT (t : Ty) (o : Opd) : List (Nat × Nat) := vregsOf (if is64 t then 2 else 1) o

def regsSrc (t : Ty) (b : Src) : List (Nat × Nat) :=
  match b with
  | .reg o => regsT t o
  | .imm _ => []

/-! ## Writing -/

/-- WriteV of `n` registers of a lane, lowest first, from a value; ZERO discards (R37, R68). -/
def wrV (fl : Flock) (l n : Nat) (d : Opd) (v : W64) : Flock :=
  match d with
  | .v r =>
    let fl := setVreg fl r.val l (v.setWidth 32)
    if n = 2 then setVreg fl (r.val + 1) l (v.extractLsb' 32 32) else fl
  | _ => fl

def width (t : Ty) : Nat := if is64 t then 2 else 1

/-- Writes a result of a type to each executing lane. -/
def writeLanes (s : State) (c : Cx) (ex : List Nat) (t : Ty) (d : Opd) (g : Nat → W64) : State :=
  modFlock s c.f c.k (fun fl => ex.foldl (fun fl l => wrV fl l (width t) d (g l)) fl)

/-- WriteP of each executing lane; P0 and ZERO discard (R37, R68). -/
def writePreds (s : State) (c : Cx) (ex : List Nat) (d : Opd) (g : Nat → Bool) : State :=
  match d with
  | .p n => modFlock s c.f c.k (fun fl =>
      { fl with threads := ex.foldl (fun ts l => tmod ts l (fun t => setPred t n (g l))) fl.threads })
  | _ => s

/-! ## Specials (R39) -/

/-- The specials of 64 bits, by their number above 1712. -/
def specWide (n : Nat) : Bool := [13, 18, 19, 24, 25, 26, 31].contains n

/-- The value of a special in a lane (R39, R87). -/
def specVal (c : Cx) (l n : Nat) : W64 :=
  let r := c.gr.record
  let tid := tidOf c l
  let t := tget? c.fl.threads l
  let reg := (t.map (·.reg)).getD RegSt.init
  let trap := (t.map (·.trap)).getD TrapSt.init
  match n with
  | 0 => nat64 (tid % r.tx)
  | 1 => nat64 (tid / r.tx % r.ty)
  | 2 => nat64 (tid / (r.tx * r.ty))
  | 3 => nat64 tid
  | 4 => nat64 r.tx
  | 5 => nat64 r.ty
  | 6 => nat64 r.tz
  | 7 => nat64 c.fo.x
  | 8 => nat64 c.fo.y
  | 9 => nat64 c.fo.z
  | 10 => nat64 r.nx
  | 11 => nat64 r.ny
  | 12 => nat64 r.nz
  | 13 => c.gr.id
  | 14 => nat64 c.fo.stage
  | 15 => nat64 c.fl.role
  | 16 => nat64 c.k
  | 17 => nat64 l
  | 18 => if c.fo.isTask then c.fo.lo else 0
  | 19 => if c.fo.isTask then c.fo.hi else 0
  | 20 => nat64 c.gr.sib
  | 21 => nat64 (c.c % 64)
  | 22 => nat64 (dieOf c.c)
  | 23 => nat64 (coreSrc c.c)
  | 24 => reg.blo
  | 25 => reg.bhi
  | 26 => reg.tpos
  | 27 => (tstatus reg).setWidth 64
  | 28 => nat64 c.gr.level
  | 29 => nat64 c.fl.valloc
  | 30 => trap.tcause.setWidth 64
  | 31 => trap.tpc
  | _ => 0

end Sys2Proof.Machine
end

