-- ==== Sys2Proof/Machine/Integer.lean ====
section
/-! DEFINITION. Integer instructions: group 0x1 on the scalar path (R67, R70 to R76), group 0x2 in the lanes (R68,
R77 to R82) and the vector halves a pair may hold. -/

namespace Sys2Proof.Machine

open Sys2Proof
open Sys2Proof.WellFormed (is64)

/-! ## Arithmetic on words of n bits -/

/-- Signedness by type (R70, R71). -/
def signedTy (t : Ty) : Bool :=
  match t with
  | .i32 | .i64 | .i16x2 => true
  | _ => false

/-- The quotient of R75. -/
def intDiv {n : Nat} (sg : Bool) (a b : BitVec n) : BitVec n :=
  if b = 0 then BitVec.allOnes n else if sg then a.sdiv b else a / b

/-- The remainder of R75. -/
def intRem {n : Nat} (sg : Bool) (a b : BitVec n) : BitVec n :=
  if b = 0 then a else if sg then a.srem b else a % b

/-- The high half of the exact product (R73, R77). -/
def mulHigh {n : Nat} (sg : Bool) (a b : BitVec n) : BitVec n :=
  if sg then ((a.signExtend (2 * n)) * (b.signExtend (2 * n))).extractLsb' n n
  else ((a.setWidth (2 * n)) * (b.setWidth (2 * n))).extractLsb' n n

def shiftL {n : Nat} (a : BitVec n) (b : W64) : BitVec n := a <<< (b.toNat % 256)
def shiftR {n : Nat} (a : BitVec n) (b : W64) : BitVec n := a >>> (b.toNat % 256)
def shiftA {n : Nat} (a : BitVec n) (b : W64) : BitVec n := a.sshiftRight (b.toNat % 256)

def lessInt {n : Nat} (sg : Bool) (a b : BitVec n) : Bool := if sg then a.slt b else a.ult b

def minInt {n : Nat} (sg : Bool) (a b : BitVec n) : BitVec n := if lessInt sg b a then b else a
def maxInt {n : Nat} (sg : Bool) (a b : BitVec n) : BitVec n := if lessInt sg a b then b else a

/-- The conditions of R70. -/
def condInt {n : Nat} (k : Cond) (sg : Bool) (a b : BitVec n) : Bool :=
  match k with
  | .eq => a == b
  | .ne => a != b
  | .lt => lessInt sg a b
  | .le => !lessInt sg b a
  | .gt => lessInt sg b a
  | .ge => !lessInt sg a b

def countOnes {n : Nat} (a : BitVec n) : Nat := ((List.range n).filter (fun i => a.getLsbD i)).length

/-- Leading zeros, 0 to n. -/
def leadZeros {n : Nat} (a : BitVec n) : Nat := ((List.range n).takeWhile (fun i => !a.getLsbD (n - 1 - i))).length

/-- The effective width of a bit field (R76). -/
def fieldWidth (n : Nat) (k : W64) : Nat :=
  let pos := k.toNat % 256
  if n ≤ pos then 0 else min (k.toNat / 256 % 256) (n - pos)

/-- Field extract (R76). -/
def bitExtract {n : Nat} (sg : Bool) (a : BitVec n) (k : W64) : BitVec n :=
  let w := fieldWidth n k
  if w = 0 then 0
  else
    let r := (a >>> (k.toNat % 256)).setWidth w
    if sg then r.signExtend n else r.setWidth n

/-- Field insert into d (R76). -/
def bitInsert {n : Nat} (d a : BitVec n) (k : W64) : BitVec n :=
  let w := fieldWidth n k
  let m := (((BitVec.allOnes n) >>> (n - w)) <<< (k.toNat % 256))
  if w = 0 then d else (d &&& ~~~m) ||| ((a <<< (k.toNat % 256)) &&& m)

/-- Exact value of an element, by signedness. -/
def intVal {n : Nat} (sg : Bool) (a : BitVec n) : Int := if sg then a.toInt else (a.toNat : Int)

/-- The smallest and the largest value of an element (R78). -/
def minOf (n : Nat) (sg : Bool) : Int := if sg then -(2 ^ (n - 1) : Nat) else 0
def maxOf (n : Nat) (sg : Bool) : Int := if sg then ((2 ^ (n - 1) : Nat) : Int) - 1 else ((2 ^ n : Nat) : Int) - 1

/-- An exact value brought into n bits: clamped with SAT, else modulo 2^n (R71, R78). -/
def narrowInt (n : Nat) (sg sat : Bool) (v : Int) : BitVec n :=
  BitVec.ofInt n (if sat then max (minOf n sg) (min (maxOf n sg) v) else v)

/-! ## Elements -/

/-- Width and number of the elements of a type (R71, R90). -/
def elemWidth (t : Ty) : Nat :=
  match t with
  | .i16x2 | .f16x2 | .bf16x2 | .f16 | .bf16 => 16
  | .u8x4 | .b8 => 8
  | .i64 | .u64 | .f64 => 64
  | _ => 32

def elemCount (t : Ty) : Nat :=
  match t with
  | .i16x2 | .f16x2 | .bf16x2 => 2
  | .u8x4 => 4
  | _ => 1

/-- Element e of a value. -/
def elemOf (n : Nat) (x : W64) (e : Nat) : BitVec n := x.extractLsb' (e * n) n

/-- Builds a value from its elements. -/
def fromElems (n cnt : Nat) (g : Nat → BitVec n) : W64 :=
  (List.range cnt).foldl (fun acc e => acc ||| ((g e).setWidth 64 <<< (e * n))) 0

/-- An operation on the elements of two values of a type. -/
def zipElems (t : Ty) (g : BitVec (elemWidth t) → BitVec (elemWidth t) → BitVec (elemWidth t)) (a b : W64) : W64 :=
  fromElems (elemWidth t) (elemCount t) (fun e => g (elemOf _ a e) (elemOf _ b e))

/-! ## Group 0x1 -/

/-- A uniform instruction of two sources. -/
def scalar2 (h : Hd) (t : Ty) (d a : Opd) (b : Src) (g : W64 → W64 → W64) (s : State) : Out :=
  uword h s (fun c _ => writeS s c d (g (rdS c a) (rdSrcS c t b)))

/-- A uniform instruction of one source. -/
def scalar1 (h : Hd) (d a : Opd) (g : W64 → W64) (s : State) : Out :=
  uword h s (fun c _ => writeS s c d (g (rdS c a)))

def boolW (b : Bool) : W64 := if b then 1 else 0

def execSmov (h : Hd) (t : Ty) (d : Opd) (b : Src) (s : State) : Out :=
  uword h s (fun c _ => writeS s c d (rdSrcS c t b))
def execSadd (h : Hd) (t : Ty) (d a : Opd) (b : Src) (s : State) : Out := scalar2 h t d a b (· + ·) s
def execSsub (h : Hd) (t : Ty) (d a : Opd) (b : Src) (s : State) : Out := scalar2 h t d a b (· - ·) s
def execSmul (h : Hd) (t : Ty) (d a : Opd) (b : Src) (s : State) : Out := scalar2 h t d a b (· * ·) s
def execSmulh (h : Hd) (t : Ty) (d a : Opd) (b : Src) (s : State) : Out :=
  scalar2 h t d a b (mulHigh (signedTy t)) s
def execSdiv (h : Hd) (t : Ty) (d a : Opd) (b : Src) (s : State) : Out :=
  scalar2 h t d a b (intDiv (signedTy t)) s
def execSrem (h : Hd) (t : Ty) (d a : Opd) (b : Src) (s : State) : Out :=
  scalar2 h t d a b (intRem (signedTy t)) s
def execSand (h : Hd) (t : Ty) (d a : Opd) (b : Src) (s : State) : Out := scalar2 h t d a b (· &&& ·) s
def execSor (h : Hd) (t : Ty) (d a : Opd) (b : Src) (s : State) : Out := scalar2 h t d a b (· ||| ·) s
def execSxor (h : Hd) (t : Ty) (d a : Opd) (b : Src) (s : State) : Out := scalar2 h t d a b (· ^^^ ·) s
def execSnot (h : Hd) (_t : Ty) (d a : Opd) (s : State) : Out := scalar1 h d a (fun x => ~~~x) s
def execSshl (h : Hd) (t : Ty) (d a : Opd) (b : Src) (s : State) : Out := scalar2 h t d a b shiftL s
def execSshr (h : Hd) (t : Ty) (d a : Opd) (b : Src) (s : State) : Out := scalar2 h t d a b shiftR s
def execSsar (h : Hd) (t : Ty) (d a : Opd) (b : Src) (s : State) : Out := scalar2 h t d a b shiftA s
def execSmin (h : Hd) (t : Ty) (d a : Opd) (b : Src) (s : State) : Out := scalar2 h t d a b (minInt (signedTy t)) s
def execSmax (h : Hd) (t : Ty) (d a : Opd) (b : Src) (s : State) : Out := scalar2 h t d a b (maxInt (signedTy t)) s
def execScmp (h : Hd) (t : Ty) (k : Cond) (d a : Opd) (b : Src) (s : State) : Out :=
  scalar2 h t d a b (fun x y => boolW (condInt k (signedTy t) x y)) s
def execSsel (h : Hd) (t : Ty) (d a : Opd) (b : Src) (r : Fin 128) (neg : Bool) (s : State) : Out :=
  uword h s (fun c _ => writeS s c d
    (if xor (sreg c.fl r.val != 0) neg then rdS c a else rdSrcS c t b))
def execSclz (h : Hd) (_t : Ty) (d a : Opd) (s : State) : Out := scalar1 h d a (fun x => nat64 (leadZeros x)) s
def execSpopc (h : Hd) (_t : Ty) (d a : Opd) (s : State) : Out := scalar1 h d a (fun x => nat64 (countOnes x)) s
def execSbfx (h : Hd) (t : Ty) (d a : Opd) (b : Src) (s : State) : Out :=
  scalar2 h t d a b (bitExtract (signedTy t)) s
def execSbfi (h : Hd) (t : Ty) (d a : Opd) (b : Src) (s : State) : Out :=
  uword h s (fun c _ => writeS s c d (bitInsert (rdS c d) (rdS c a) (rdSrcS c t b)))
def execSlea (h : Hd) (t : Ty) (d a : Opd) (b : Src) (sh : BitVec 6) (s : State) : Out :=
  scalar2 h t d a b (fun x y => x + (y <<< sh.toNat)) s

/-- The scalar half of a pair (R42, R88): type none, ctl 0; SSEL selects by S0 and SLEA shifts by 0. -/
def pairScalar (op : Fin 23) (s0 d a b : W64) : W64 :=
  match op.val with
  | 0 => b
  | 1 => a + b
  | 2 => a - b
  | 3 => a * b
  | 4 => mulHigh false a b
  | 5 => intDiv false a b
  | 6 => intRem false a b
  | 7 => a &&& b
  | 8 => a ||| b
  | 9 => a ^^^ b
  | 10 => ~~~a
  | 11 => shiftL a b
  | 12 => shiftR a b
  | 13 => shiftA a b
  | 14 => minInt false a b
  | 15 => maxInt false a b
  | 16 => boolW (a == b)
  | 17 => if s0 ≠ 0 then a else b
  | 18 => nat64 (leadZeros a)
  | 19 => nat64 (countOnes a)
  | 20 => bitExtract false a b
  | 21 => bitInsert d a b
  | _ => a + b

/-! ## Group 0x2 -/

/-- What a vector instruction does to the state, given what the issuing word sees and its executing lanes. All
reads are of the state before the word (R68, R89). -/
abbrev Eff := Cx → List Nat → State → State

/-- A vector instruction: the registers it names and its effect. -/
def vexec (h : Hd) (regs : List (Nat × Nat)) (e : Eff) (s : State) : Out := vword h s regs (fun c ex => e c ex s)

/-- A result of a type from two operands of that type. -/
def bin (t : Ty) (d a : Opd) (b : Src) (g : W64 → W64 → W64) : Eff := fun c ex s =>
  writeLanes s c ex t d (fun l => g (rdV c l t a) (rdSrc c l t b))

def binRegs (t : Ty) (d a : Opd) (b : Src) : List (Nat × Nat) := regsT t d ++ regsT t a ++ regsSrc t b

/-- A result of a type from one operand of that type. -/
def una (t : Ty) (d a : Opd) (g : W64 → W64) : Eff := fun c ex s =>
  writeLanes s c ex t d (fun l => g (rdV c l t a))

/-- An element operation on exact values, clamped with SAT (R78). -/
def exact2 (t : Ty) (sat : Bool) (g : Int → Int → Int) : W64 → W64 → W64 :=
  zipElems t (fun x y => narrowInt _ (signedTy t) sat (g (intVal (signedTy t) x) (intVal (signedTy t) y)))

def vmovE (t : Ty) (d : Opd) (b : Src) : Eff := fun c ex s => writeLanes s c ex t d (fun l => rdSrc c l t b)
def vaddE (t : Ty) (d a : Opd) (b : Src) (sat : Bool) : Eff := bin t d a b (exact2 t sat (· + ·))
def vsubE (t : Ty) (d a : Opd) (b : Src) (sat : Bool) : Eff := bin t d a b (exact2 t sat (· - ·))
def vmulE (t : Ty) (d a : Opd) (b : Src) : Eff := bin t d a b (zipElems t (· * ·))
def vmulhE (t : Ty) (d a : Opd) (b : Src) : Eff := bin t d a b (zipElems t (mulHigh (signedTy t)))
def vmadE (t : Ty) (d a b k : Opd) : Eff := fun c ex s =>
  writeLanes s c ex t d (fun l =>
    zipElems t (· + ·) (zipElems t (· * ·) (rdV c l t a) (rdV c l t b)) (rdV c l t k))
/-- VMADW: a and b are extended by type; c and d are pairs (R77). -/
def vmadwE (t : Ty) (d a b k : Opd) : Eff := fun c ex s =>
  writeLanes s c ex .u64 d (fun l =>
    let x := (rdV c l t a).setWidth 32
    let y := (rdV c l t b).setWidth 32
    (if signedTy t then x.signExtend 64 * y.signExtend 64 else x.setWidth 64 * y.setWidth 64) + rdV c l .u64 k)
def vdivE (t : Ty) (d a : Opd) (b : Src) : Eff := bin t d a b (zipElems t (intDiv (signedTy t)))
def vremE (t : Ty) (d a : Opd) (b : Src) : Eff := bin t d a b (zipElems t (intRem (signedTy t)))
def vandE (t : Ty) (d a : Opd) (b : Src) : Eff := bin t d a b (zipElems t (· &&& ·))
def vorE (t : Ty) (d a : Opd) (b : Src) : Eff := bin t d a b (zipElems t (· ||| ·))
def vxorE (t : Ty) (d a : Opd) (b : Src) : Eff := bin t d a b (zipElems t (· ^^^ ·))
def vnotE (t : Ty) (d a : Opd) : Eff := una t d a (fun x => zipElems t (fun y _ => ~~~y) x 0)
def vshlE (t : Ty) (d a : Opd) (b : Src) : Eff := bin t d a b (fun x y => zipElems t (fun e _ => shiftL e y) x 0)
def vshrE (t : Ty) (d a : Opd) (b : Src) : Eff := bin t d a b (fun x y => zipElems t (fun e _ => shiftR e y) x 0)
def vsarE (t : Ty) (d a : Opd) (b : Src) : Eff := bin t d a b (fun x y => zipElems t (fun e _ => shiftA e y) x 0)
def vminE (t : Ty) (d a : Opd) (b : Src) : Eff := bin t d a b (zipElems t (minInt (signedTy t)))
def vmaxE (t : Ty) (d a : Opd) (b : Src) : Eff := bin t d a b (zipElems t (maxInt (signedTy t)))
def vabsE (t : Ty) (d a : Opd) (sat : Bool) : Eff := una t d a (fun x => exact2 t sat (fun v _ => (v.natAbs : Int)) x 0)
def vnegE (t : Ty) (d a : Opd) (sat : Bool) : Eff := una t d a (fun x => exact2 t sat (fun v _ => -v) x 0)

/-- The carry-in of R79. -/
def carryIn (c : Cx) (l : Nat) (en : Bool) (ci : Fin 8) : Nat :=
  if en && rdPred c l (.p ci) then 1 else 0

def vaddcE (t : Ty) (d a : Opd) (b : Src) (en : Bool) (ci co : Fin 8) : Eff := fun c ex s =>
  let n := elemWidth t
  let sum := fun l => (rdV c l t a).toNat + (rdSrc c l t b).toNat + carryIn c l en ci
  let s := writeLanes s c ex t d (fun l => (BitVec.ofNat n (sum l)).setWidth 64)
  writePreds s c ex (.p co) (fun l => decide (2 ^ n ≤ sum l))

def vsubbE (t : Ty) (d a : Opd) (b : Src) (en : Bool) (ci co : Fin 8) : Eff := fun c ex s =>
  let n := elemWidth t
  let dif := fun l => ((rdV c l t a).toNat : Int) - (rdSrc c l t b).toNat - carryIn c l en ci
  let s := writeLanes s c ex t d (fun l => (BitVec.ofInt n (dif l)).setWidth 64)
  writePreds s c ex (.p co) (fun l => decide (dif l < 0))

def vcmpE (t : Ty) (k : Cond) (d a : Opd) (b : Src) : Eff := fun c ex s =>
  writePreds s c ex d (fun l =>
    condInt k (signedTy t) (elemOf (elemWidth t) (rdV c l t a) 0) (elemOf (elemWidth t) (rdSrc c l t b) 0))

def vselE (t : Ty) (d a : Opd) (b : Src) (p : Fin 8) (neg : Bool) : Eff := fun c ex s =>
  writeLanes s c ex t d (fun l => if xor (rdPred c l (.p p)) neg then rdV c l t a else rdSrc c l t b)

/-- VCLZ and VPOPC write one register whatever the type (R77). -/
def vclzE (t : Ty) (d a : Opd) : Eff := fun c ex s =>
  writeLanes s c ex .u32 d (fun l => nat64 (leadZeros (elemOf (elemWidth t) (rdV c l t a) 0)))
def vpopcE (t : Ty) (d a : Opd) : Eff := fun c ex s =>
  writeLanes s c ex .u32 d (fun l => nat64 (countOnes (elemOf (elemWidth t) (rdV c l t a) 0)))

def vbfxE (t : Ty) (d a : Opd) (b : Src) : Eff :=
  bin t d a b (fun x k => zipElems t (fun e _ => bitExtract (signedTy t) e k) x 0)
def vbfiE (t : Ty) (d a : Opd) (b : Src) : Eff := fun c ex s =>
  writeLanes s c ex t d (fun l =>
    zipElems t (fun e x => bitInsert e x (rdSrc c l t b)) (rdV c l t d) (rdV c l t a))

/-- Byte k of the result of VPRMB (R80). -/
def permByte (a b : W32) (sel : BitVec 16) (k : Nat) : Byte :=
  let n := sel.extractLsb' (4 * k) 4
  let p := (b ++ a : BitVec 64).extractLsb' (8 * bits n 2 0) 8
  if bitOf n 3 then (if bitOf p 7 then 0xFF else 0) else p

def vprmbE (d a b : Opd) (sel : BitVec 16) : Eff := fun c ex s =>
  writeLanes s c ex .u32 d (fun l => fromElems 8 4 (permByte (rd32 c l a) (rd32 c l b) sel))

def vleaE (t : Ty) (d a : Opd) (b : Src) (sh : BitVec 3) : Eff := fun c ex s =>
  writeLanes s c ex .u64 d (fun l =>
    let y := (rdSrc c l t b).setWidth 32
    rdV c l .u64 a + ((if signedTy t then y.signExtend 64 else y.setWidth 64) <<< sh.toNat))

def extWidth (w : ExtW) : Nat :=
  match w with
  | .w8 => 8
  | .w16 => 16
  | .w32 => 32

def vextE (t : Ty) (d a : Opd) (w : ExtW) : Eff := una t d a (fun x =>
  let y := x.setWidth (extWidth w)
  zipElems t (fun e _ => e) (if signedTy t then y.signExtend 64 else y.setWidth 64) 0)

/-- The sum of R82, exact. -/
def dp4 (sg : Bool) (a b : W32) : Int :=
  (List.range 4).foldl (fun acc k =>
    acc + intVal sg (a.extractLsb' (8 * k) 8) * intVal sg (b.extractLsb' (8 * k) 8)) 0

def vdp4E (t : Ty) (d a : Opd) (b : Src) (sat : Bool) : Eff := fun c ex s =>
  let sg := signedTy t
  writeLanes s c ex t d (fun l =>
    (narrowInt 32 sg sat (intVal sg ((rdV c l t d).setWidth 32)
      + dp4 sg ((rdV c l t a).setWidth 32) ((rdSrc c l t b).setWidth 32))).setWidth 64)

def execVmov (h : Hd) (t : Ty) (d : Opd) (b : Src) (s : State) : Out :=
  vexec h (regsT t d ++ regsSrc t b) (vmovE t d b) s
def execVadd (h : Hd) (t : Ty) (d a : Opd) (b : Src) (sat : Bool) (s : State) : Out :=
  vexec h (binRegs t d a b) (vaddE t d a b sat) s
def execVsub (h : Hd) (t : Ty) (d a : Opd) (b : Src) (sat : Bool) (s : State) : Out :=
  vexec h (binRegs t d a b) (vsubE t d a b sat) s
def execVmul (h : Hd) (t : Ty) (d a : Opd) (b : Src) (s : State) : Out := vexec h (binRegs t d a b) (vmulE t d a b) s
def execVmulh (h : Hd) (t : Ty) (d a : Opd) (b : Src) (s : State) : Out :=
  vexec h (binRegs t d a b) (vmulhE t d a b) s
def execVmad (h : Hd) (t : Ty) (d a b k : Opd) (s : State) : Out :=
  vexec h (regsT t d ++ regsT t a ++ regsT t b ++ regsT t k) (vmadE t d a b k) s
def execVmadw (h : Hd) (t : Ty) (d a b k : Opd) (s : State) : Out :=
  vexec h (regsT .u64 d ++ regsT t a ++ regsT t b ++ regsT .u64 k) (vmadwE t d a b k) s
def execVdiv (h : Hd) (t : Ty) (d a : Opd) (b : Src) (s : State) : Out := vexec h (binRegs t d a b) (vdivE t d a b) s
def execVrem (h : Hd) (t : Ty) (d a : Opd) (b : Src) (s : State) : Out := vexec h (binRegs t d a b) (vremE t d a b) s
def execVand (h : Hd) (t : Ty) (d a : Opd) (b : Src) (s : State) : Out := vexec h (binRegs t d a b) (vandE t d a b) s
def execVor (h : Hd) (t : Ty) (d a : Opd) (b : Src) (s : State) : Out := vexec h (binRegs t d a b) (vorE t d a b) s
def execVxor (h : Hd) (t : Ty) (d a : Opd) (b : Src) (s : State) : Out := vexec h (binRegs t d a b) (vxorE t d a b) s
def execVnot (h : Hd) (t : Ty) (d a : Opd) (s : State) : Out := vexec h (regsT t d ++ regsT t a) (vnotE t d a) s
def execVshl (h : Hd) (t : Ty) (d a : Opd) (b : Src) (s : State) : Out := vexec h (binRegs t d a b) (vshlE t d a b) s
def execVshr (h : Hd) (t : Ty) (d a : Opd) (b : Src) (s : State) : Out := vexec h (binRegs t d a b) (vshrE t d a b) s
def execVsar (h : Hd) (t : Ty) (d a : Opd) (b : Src) (s : State) : Out := vexec h (binRegs t d a b) (vsarE t d a b) s
def execVmin (h : Hd) (t : Ty) (d a : Opd) (b : Src) (s : State) : Out := vexec h (binRegs t d a b) (vminE t d a b) s
def execVmax (h : Hd) (t : Ty) (d a : Opd) (b : Src) (s : State) : Out := vexec h (binRegs t d a b) (vmaxE t d a b) s
def execVabs (h : Hd) (t : Ty) (d a : Opd) (sat : Bool) (s : State) : Out :=
  vexec h (regsT t d ++ regsT t a) (vabsE t d a sat) s
def execVneg (h : Hd) (t : Ty) (d a : Opd) (sat : Bool) (s : State) : Out :=
  vexec h (regsT t d ++ regsT t a) (vnegE t d a sat) s
def execVaddc (h : Hd) (t : Ty) (d a : Opd) (b : Src) (en : Bool) (ci co : Fin 8) (s : State) : Out :=
  vexec h (binRegs t d a b) (vaddcE t d a b en ci co) s
def execVsubb (h : Hd) (t : Ty) (d a : Opd) (b : Src) (en : Bool) (ci co : Fin 8) (s : State) : Out :=
  vexec h (binRegs t d a b) (vsubbE t d a b en ci co) s
def execVcmp (h : Hd) (t : Ty) (k : Cond) (d a : Opd) (b : Src) (s : State) : Out :=
  vexec h (regsT t a ++ regsSrc t b) (vcmpE t k d a b) s
def execVsel (h : Hd) (t : Ty) (d a : Opd) (b : Src) (p : Fin 8) (neg : Bool) (s : State) : Out :=
  vexec h (binRegs t d a b) (vselE t d a b p neg) s
def execVclz (h : Hd) (t : Ty) (d a : Opd) (s : State) : Out := vexec h (regsT .u32 d ++ regsT t a) (vclzE t d a) s
def execVpopc (h : Hd) (t : Ty) (d a : Opd) (s : State) : Out := vexec h (regsT .u32 d ++ regsT t a) (vpopcE t d a) s
def execVbfx (h : Hd) (t : Ty) (d a : Opd) (b : Src) (s : State) : Out := vexec h (binRegs t d a b) (vbfxE t d a b) s
def execVbfi (h : Hd) (t : Ty) (d a : Opd) (b : Src) (s : State) : Out := vexec h (binRegs t d a b) (vbfiE t d a b) s
def execVprmb (h : Hd) (d a b : Opd) (sel : BitVec 16) (s : State) : Out :=
  vexec h (regsT .u32 d ++ regsT .u32 a ++ regsT .u32 b) (vprmbE d a b sel) s
def execVlea (h : Hd) (t : Ty) (d a : Opd) (b : Src) (sh : BitVec 3) (s : State) : Out :=
  vexec h (regsT .u64 d ++ regsT .u64 a ++ regsSrc t b) (vleaE t d a b sh) s
def execVext (h : Hd) (t : Ty) (d a : Opd) (w : ExtW) (s : State) : Out :=
  vexec h (regsT t d ++ regsT t a) (vextE t d a w) s
def execVdp4 (h : Hd) (t : Ty) (d a : Opd) (b : Src) (sat : Bool) (s : State) : Out :=
  vexec h (binRegs t d a b) (vdp4E t d a b sat) s

/-! ## Group 0x3 -/

/-- A per-thread predicate result (R83). -/
def predE (d : Opd) (g : Cx → Nat → Bool) : Eff := fun c ex s => writePreds s c ex d (g c)

def execPand (h : Hd) (d a b : Opd) (na nb : Bool) (s : State) : Out :=
  vexec h [] (predE d (fun c l => xor (rdPred c l a) na && xor (rdPred c l b) nb)) s
def execPor (h : Hd) (d a b : Opd) (na nb : Bool) (s : State) : Out :=
  vexec h [] (predE d (fun c l => xor (rdPred c l a) na || xor (rdPred c l b) nb)) s
def execPxor (h : Hd) (d a b : Opd) (na nb : Bool) (s : State) : Out :=
  vexec h [] (predE d (fun c l => xor (xor (rdPred c l a) na) (xor (rdPred c l b) nb))) s
def execPnot (h : Hd) (d a : Opd) (s : State) : Out := vexec h [] (predE d (fun c l => !rdPred c l a)) s

/-- The mask of the executing lanes at which a test holds (R84, R144). -/
def laneMask (ex : List Nat) (g : Nat → Bool) : W64 :=
  ex.foldl (fun m l => if g l then m ||| (1#64 <<< l) else m) 0

def execPmov (h : Hd) (dir : PDir) (d a : Opd) (s : State) : Out :=
  match dir with
  | .toS => uword h s (fun c ex => writeS s c d (laneMask ex (fun l => rdPred c l a)))
  | .toP => vexec h [] (predE d (fun c l => bitOf (rdS c a) l)) s

/-- The source lane of SHFL, as an integer that may lie outside 0 to 31 (R85). -/
def shflLane (m : ShflMode) (i y : Nat) : Int :=
  match m with
  | .idx => y
  | .up => (i : Int) - y
  | .down => (i : Int) + y
  | .xor => (i ^^^ y : Nat)

/-- SHFL's operand b, an unsigned 32-bit value; an immediate stands as its 32 bits (DEDUCED, log 17). -/
def shflY (c : Cx) (l : Nat) (b : Src) : Nat :=
  match b with
  | .reg o => (rd32 c l o).toNat
  | .imm w => w.toNat

def shflOk (c : Cx) (ex : List Nat) (m : ShflMode) (b : Src) (l : Nat) : Bool :=
  let j := shflLane m l (shflY c l b)
  decide (0 ≤ j ∧ j < 32) && ex.contains j.toNat

def shflE (t : Ty) (m : ShflMode) (d a : Opd) (b : Src) (pv : Fin 8) : Eff := fun c ex s =>
  let s := writeLanes s c ex t d (fun l =>
    if shflOk c ex m b l then rdV c (shflLane m l (shflY c l b)).toNat t a else rdV c l t a)
  writePreds s c ex (.p pv) (shflOk c ex m b)

def execShfl (h : Hd) (t : Ty) (m : ShflMode) (d a : Opd) (b : Src) (pv : Fin 8) (s : State) : Out :=
  vexec h (regsT t d ++ regsT t a ++ regsSrc .u32 b) (shflE t m d a b pv) s

/-- VTOS reads one lane's value into S (R86); all 64 bits of an S index count (DEDUCED, log 17). It names a V
register, so it meets a window in flight (R232). -/
def execVtos (h : Hd) (t : Ty) (d a : Opd) (b : Src) (s : State) : Out :=
  vword h s (regsT t a) (fun c ex =>
    let j := (rdSrcS c t b).toNat
    writeS s c d (if ex.contains j then
      (if t = .i32 then ((rdV c j t a).setWidth 32).signExtend 64 else rdV c j t a) else 0))

def execStov (h : Hd) (t : Ty) (d a : Opd) (hi : Bool) (s : State) : Out :=
  vexec h (regsT t d) (fun c ex s =>
    writeLanes s c ex t d (fun _ => if hi then (rdS c a) >>> 32 else rdS c a)) s

/-- The number of a special above 1712. -/
def specNum (o : Opd) : Nat := match o with | .spec n => n.val | _ => 47

def execVspec (h : Hd) (d a : Opd) (s : State) : Out :=
  let n := specNum a
  let t : Ty := if specWide n then .u64 else .u32
  vexec h (regsT t d) (fun c ex s => writeLanes s c ex t d (fun l => specVal c l n)) s

def execSspec (h : Hd) (d a : Opd) (s : State) : Out :=
  uword h s (fun c ex => writeS s c d (specVal c (ex.headD 0) (specNum a)))

/-! ## The vector half of a pair -/

/-- The integer instructions that may stand in a pair, with the registers they name and their effects (R42,
R88). -/
def intHalf : Instr → Option (List (Nat × Nat) × Eff)
  | .vmov _ t d b => some (regsT t d ++ regsSrc t b, vmovE t d b)
  | .vadd _ t d a b sat => some (binRegs t d a b, vaddE t d a b sat)
  | .vsub _ t d a b sat => some (binRegs t d a b, vsubE t d a b sat)
  | .vmul _ t d a b => some (binRegs t d a b, vmulE t d a b)
  | .vmulh _ t d a b => some (binRegs t d a b, vmulhE t d a b)
  | .vmad _ t d a b k => some (regsT t d ++ regsT t a ++ regsT t b ++ regsT t k, vmadE t d a b k)
  | .vmadw _ t d a b k => some (regsT .u64 d ++ regsT t a ++ regsT t b ++ regsT .u64 k, vmadwE t d a b k)
  | .vdiv _ t d a b => some (binRegs t d a b, vdivE t d a b)
  | .vrem _ t d a b => some (binRegs t d a b, vremE t d a b)
  | .vand _ t d a b => some (binRegs t d a b, vandE t d a b)
  | .vor _ t d a b => some (binRegs t d a b, vorE t d a b)
  | .vxor _ t d a b => some (binRegs t d a b, vxorE t d a b)
  | .vnot _ t d a => some (regsT t d ++ regsT t a, vnotE t d a)
  | .vshl _ t d a b => some (binRegs t d a b, vshlE t d a b)
  | .vshr _ t d a b => some (binRegs t d a b, vshrE t d a b)
  | .vsar _ t d a b => some (binRegs t d a b, vsarE t d a b)
  | .vmin _ t d a b => some (binRegs t d a b, vminE t d a b)
  | .vmax _ t d a b => some (binRegs t d a b, vmaxE t d a b)
  | .vabs _ t d a sat => some (regsT t d ++ regsT t a, vabsE t d a sat)
  | .vneg _ t d a sat => some (regsT t d ++ regsT t a, vnegE t d a sat)
  | .vaddc _ t d a b en ci co => some (binRegs t d a b, vaddcE t d a b en ci co)
  | .vsubb _ t d a b en ci co => some (binRegs t d a b, vsubbE t d a b en ci co)
  | .vcmp _ t k d a b => some (regsT t a ++ regsSrc t b, vcmpE t k d a b)
  | .vsel _ t d a b p neg => some (binRegs t d a b, vselE t d a b p neg)
  | .vclz _ t d a => some (regsT .u32 d ++ regsT t a, vclzE t d a)
  | .vpopc _ t d a => some (regsT .u32 d ++ regsT t a, vpopcE t d a)
  | .vbfx _ t d a b => some (binRegs t d a b, vbfxE t d a b)
  | .vbfi _ t d a b => some (binRegs t d a b, vbfiE t d a b)
  | .vprmb _ d a b sel => some (regsT .u32 d ++ regsT .u32 a ++ regsT .u32 b, vprmbE d a b sel)
  | .vlea _ t d a b sh => some (regsT .u64 d ++ regsT .u64 a ++ regsSrc t b, vleaE t d a b sh)
  | .vext _ t d a w => some (regsT t d ++ regsT t a, vextE t d a w)
  | .vdp4 _ t d a b sat => some (binRegs t d a b, vdp4E t d a b sat)
  | _ => none

end Sys2Proof.Machine
end

