-- ==== Sys2Proof/Machine/Float.lean ====
section
/-! DEFINITION. Floating-point numbers: the formats of R90 to R94, exact values, RoundTo and the exceptional results
(R95 to R98), the numerical events of a result (R99), exact sums (R103) and exact functions (R111). -/

namespace Sys2Proof.Machine

open Sys2Proof

/-! ## Formats (R90, R92) -/

/-- A format: its width, whether it has a sign bit, its precision with the leading bit, its bias, whether it is an
IEEE format and whether it has infinities. -/
structure Fmt where
  width : Nat
  sgnd : Bool
  p : Nat
  bias : Nat
  ieee : Bool
  ext : Bool
  deriving DecidableEq, Repr

def fF64 : Fmt := { width := 64, sgnd := true, p := 53, bias := 1023, ieee := true, ext := true }
def fF32 : Fmt := { width := 32, sgnd := true, p := 24, bias := 127, ieee := true, ext := true }
def fF16 : Fmt := { width := 16, sgnd := true, p := 11, bias := 15, ieee := true, ext := true }
def fBF16 : Fmt := { width := 16, sgnd := true, p := 8, bias := 127, ieee := true, ext := true }

/-- The binary8 format of a code (R92). -/
def fB8 (code : BitVec 6) : Fmt :=
  let p := bits code 2 0
  let w := (if bitOf code 4 then 9 else 8) - p
  { width := 8, sgnd := !bitOf code 4, p := p, bias := 2 ^ (w - 1), ieee := false, ext := bitOf code 3 }

/-- The format of a float type, with the narrow code of a B8 operand. -/
def fmtOf (t : Ty) (nar : BitVec 6) : Fmt :=
  match t with
  | .f64 => fF64
  | .f16 | .f16x2 => fF16
  | .bf16 | .bf16x2 => fBF16
  | .b8 => fB8 nar
  | _ => fF32

/-- Magnitude bits: all bits but the sign. -/
def magBits (F : Fmt) : Nat := if F.sgnd then F.width - 1 else F.width

/-- The code of M, the largest finite magnitude (R90, R93). -/
def maxMag (F : Fmt) : Nat :=
  if F.ieee then (2 ^ (magBits F - F.p + 1) - 1) * 2 ^ (F.p - 1) - 1
  else 2 ^ magBits F - 1 - (if F.ext then 1 else 0) - (if F.sgnd then 0 else 1)

def negBit (F : Fmt) (neg : Bool) : Nat := if neg && F.sgnd then 2 ^ magBits F else 0

/-- The canonical NaN (R90, R93). -/
def canonNan (F : Fmt) : Nat :=
  if F.ieee then maxMag F + 1 + 2 ^ (F.p - 2) else if F.sgnd then 0x80 else 0xFF

def infCode (F : Fmt) (neg : Bool) : Nat := negBit F neg + maxMag F + 1

/-! ## Exact values -/

/-- A value read from an operand: a NaN, an infinity, or ± m × 2^e. -/
inductive Fv where
  | nan (sig : Bool) | inf (neg : Bool) | num (neg : Bool) (m : Nat) (e : Int)
  deriving DecidableEq, Repr

def isNan (v : Fv) : Bool := match v with | .nan _ => true | _ => false
def isSig (v : Fv) : Bool := match v with | .nan s => s | _ => false
def isZero (v : Fv) : Bool := match v with | .num _ m _ => m == 0 | _ => false
def isInf (v : Fv) : Bool := match v with | .inf _ => true | _ => false
def fvNeg (v : Fv) : Bool := match v with | .inf n => n | .num n _ _ => n | .nan _ => false

/-- The finite value of a magnitude code (R90, R93). -/
def magVal (F : Fmt) (neg : Bool) (mag : Nat) : Fv :=
  let f := mag % 2 ^ (F.p - 1)
  let e := mag / 2 ^ (F.p - 1)
  if e = 0 then .num neg f (2 - (F.bias : Int) - F.p)
  else .num neg (f + 2 ^ (F.p - 1)) ((e : Int) + 1 - F.bias - F.p)

/-- The value of a code (R90, R91, R93). -/
def fvOf (F : Fmt) (x : Nat) : Fv :=
  let mag := x % 2 ^ magBits F
  let neg := F.sgnd && decide (x / 2 ^ magBits F % 2 = 1)
  if F.ieee then
    if mag = maxMag F + 1 then .inf neg
    else if maxMag F < mag then .nan (decide (mag < maxMag F + 1 + 2 ^ (F.p - 2)))
    else magVal F neg mag
  else if x % 256 = canonNan F then .nan false
  else if F.ext ∧ mag = maxMag F + 1 then .inf neg
  else magVal F neg mag

/-- Elem: the value of element e of an operand. -/
def fvElem (F : Fmt) (x : W64) (e : Nat) : Fv := fvOf F ((x >>> (e * F.width)).toNat % 2 ^ F.width)

/-- An exact result, before it is rounded. In `num` the flag says that the magnitude lies strictly between m × 2^e
and (m + 1) × 2^e. A zero of `anyZero` takes the sign of R97. -/
inductive Xv where
  | nan | inf (neg : Bool) | num (neg : Bool) (m : Nat) (e : Int) (more : Bool) | anyZero
  deriving DecidableEq, Repr

def xvOf (v : Fv) : Xv :=
  match v with
  | .nan _ => .nan
  | .inf n => .inf n
  | .num n m e => .num n m e false

/-! ## RoundTo (R95, R96) -/

/-- SrhWord of R96. -/
def srhWord (s127 : W64) (idx : Nat) : W32 :=
  let x : W32 := s127.setWidth 32 ^^^ (BitVec.ofNat 32 idx * 0x9E3779B1#32)
  let x := (x ^^^ (x >>> 16)) * 0x85EBCA6B#32
  let x := (x ^^^ (x >>> 13)) * 0xC2B2AE35#32
  x ^^^ (x >>> 16)

/-- The choice between dn and up of R95: the discarded fraction is (rem + ε) / 2^k, with ε in (0, 1) when `more`. -/
def roundsUp (rm : Rm) (neg odd : Bool) (rem k : Nat) (more : Bool) (w : W32) : Bool :=
  if rem = 0 ∧ !more then false
  else
    match rm with
    | .rne => decide (2 ^ k < 2 * rem) || (decide (2 * rem = 2 ^ k) && (more || odd))
    | .rna => decide (2 ^ k ≤ 2 * rem)
    | .rtz => false
    | .rup => !neg
    | .rdn => neg
    | .srh => decide (w.toNat < rem * 2 ^ 32 / 2 ^ k)

/-- A magnitude m × 2^e rounded to a multiple of 2^q: the multiple, and whether the value changed. `odd` says
whether a multiple's significand is odd. -/
def roundAt (rm : Rm) (neg : Bool) (m : Nat) (e q : Int) (more : Bool) (w : W32) (odd : Nat → Bool) : Nat × Bool :=
  if q ≤ e then
    let n := m * 2 ^ (e - q).toNat
    (if roundsUp rm neg (odd n) 0 0 more w then n + 1 else n, more)
  else
    let k := (q - e).toNat
    let n := m / 2 ^ k
    let rem := m % 2 ^ k
    (if roundsUp rm neg (odd n) rem k more w then n + 1 else n, rem != 0 || more)

/-- The exponent of the last place of dn for a non-zero magnitude in a format. -/
def quantum (F : Fmt) (m : Nat) (e : Int) : Int :=
  max (e + (Nat.log2 m : Int)) (1 - (F.bias : Int)) - (F.p - 1 : Nat)

/-- Odd(dn): the last bit of the significand; for P = 1, the parity of the exponent (R95). -/
def oddAt (F : Fmt) (q : Int) (n : Nat) : Bool :=
  if F.p = 1 then decide (n ≠ 0) && decide (q % 2 = 1) else decide (n % 2 = 1)

/-- The magnitude code of n × 2^q, where q is a quantum of the format; codes beyond M stand for larger values. -/
def magCode (F : Fmt) (n : Nat) (q : Int) : Nat :=
  if n < 2 ^ (F.p - 1) then n
  else (q + (F.p - 1 : Nat) + F.bias).toNat * 2 ^ (F.p - 1) + (n - 2 ^ (F.p - 1))

/-- A result and its numerical events. -/
abbrev Res := Nat × BitVec 8

def fmtNan (F : Fmt) : BitVec 8 := if F.ieee then 0 else evFMTNAN

/-- A NaN result; `nanIn` says that an operand was NaN (R91, R99). -/
def nanRes (F : Fmt) (nanIn : Bool) : Res := (canonNan F, fmtNan F ||| (if nanIn then 0 else evNANGEN))

/-- A negative value for an unsigned format (R98), with UNF when its rounded magnitude is tiny (R95, R99). Its magnitude is not
compared with M, and it raises no OVF (DESIGN CHOICE, log 43: R99's OVF is of the magnitudes that R98 replaces). -/
def negUnsigned (F : Fmt) (sat tiny : Bool) : Res :=
  let r : Res := if sat then (0, evSATC ||| evINEX) else (canonNan F, evINV ||| evFMTNAN ||| evNANGEN ||| evINEX)
  (r.1, r.2 ||| (if tiny then evUNF else 0))

/-- The overflow rule of R98. -/
def overflowRes (F : Fmt) (rm : Rm) (sat neg : Bool) : Res :=
  let big := negBit F neg + maxMag F
  if rm = .rtz ∨ (rm = .rdn ∧ !neg) ∨ (rm = .rup ∧ neg) then (big, evOVF ||| evINEX)
  else if sat then (big, evOVF ||| evINEX ||| evSATC)
  else if F.ext then (infCode F neg, evOVF ||| evINEX)
  else (canonNan F, evOVF ||| evINEX ||| evFMTNAN ||| evNANGEN)

/-- A non-zero magnitude rounded into a format (R95, R98, R99). -/
def roundNum (F : Fmt) (rm : Rm) (sat : Bool) (w : W32) (neg : Bool) (m : Nat) (e : Int) (more : Bool) : Res :=
  let q := quantum F m e
  let r := roundAt rm neg m e q more w (oddAt F q)
  let mag := magCode F r.1 q
  if neg && !F.sgnd then
    if r.1 = 0 then (0, evUNF ||| evINEX) else negUnsigned F sat (decide (mag < 2 ^ (F.p - 1)))
  else if maxMag F < mag then overflowRes F rm sat neg
  else
    let tiny := decide (mag < 2 ^ (F.p - 1))
    (if !F.ieee && mag == 0 then 0 else negBit F neg + mag,
     (if r.2 then evINEX else 0) ||| (if r.2 && tiny then evUNF else 0))

def zeroCode (F : Fmt) (neg : Bool) : Nat := if F.ieee then negBit F neg else 0

/-- The result that is written for an exact value (R95, R97, R98, R113), with its events. An infinite operand converted into an
EXTENDED format with SAT is replaced as R98 says of any infinite result, with its events (DESIGN CHOICE, log 43: R113 names the
infinity and no SAT). -/
def finish (F : Fmt) (rm : Rm) (sat : Bool) (w : W32) (x : Xv) (nanIn : Bool) : Res :=
  match x with
  | .nan => nanRes F nanIn
  | .inf neg =>
    if neg && !F.sgnd then negUnsigned F sat false
    else if sat then (negBit F neg + maxMag F, evSATC ||| evINEX)
    else if F.ext then (infCode F neg, 0)
    else (canonNan F, evFMTNAN ||| evNANGEN ||| evINEX)
  | .anyZero => (zeroCode F (rm == .rdn), 0)
  | .num neg m e more => if m = 0 then (zeroCode F neg, 0) else roundNum F rm sat w neg m e more

/-! ## Exact operations (R97) -/

/-- An exact result and the events of the operation itself. -/
abbrev Exact := Xv × BitVec 8

def sigEv (vs : List Fv) : BitVec 8 := if vs.any isSig then evINV else 0

/-- The sum of finite terms as one signed number at the least exponent. -/
def sumAt (e0 : Int) (ts : List (Bool × Nat × Int)) : Int :=
  ts.foldl (fun acc t =>
    let v : Int := ((t.2.1 * 2 ^ (t.2.2 - e0).toNat : Nat) : Int)
    if t.1 then acc - v else acc + v) 0

def finiteOf (v : Fv) : Option (Bool × Nat × Int) :=
  match v with
  | .num n m e => some (n, m, e)
  | _ => none

/-- The exact sum of terms (R97, R103). -/
def exactSum (vs : List Fv) : Exact :=
  if vs.any isNan then (.nan, 0)
  else if vs.any isInf then
    if vs.any (fun v => isInf v && fvNeg v) && vs.any (fun v => isInf v && !fvNeg v) then (.nan, evINV)
    else (.inf (vs.any (fun v => isInf v && fvNeg v)), 0)
  else
    let ts := vs.filterMap finiteOf
    let nz := ts.filter (fun t => t.2.1 != 0)
    match nz with
    | [] =>
      if ts.all (fun t => t.1) then (.num true 0 0 false, 0)
      else if ts.all (fun t => !t.1) then (.num false 0 0 false, 0)
      else (.anyZero, 0)
    | t :: r =>
      let e0 := r.foldl (fun e u => min e u.2.2) t.2.2
      let v := sumAt e0 nz
      if v = 0 then (.anyZero, 0) else (.num (decide (v < 0)) v.natAbs e0 false, 0)

/-- The exact product of two values (R97). -/
def exactMul (a b : Fv) : Fv × BitVec 8 :=
  match a, b with
  | .nan _, _ | _, .nan _ => (.nan false, 0)
  | .inf n, v | v, .inf n => if isZero v then (.nan false, evINV) else (.inf (xor n (fvNeg v)), 0)
  | .num n m e, .num n' m' e' => (.num (xor n n') (m * m') (e + e'), 0)

def fvFlip (v : Fv) : Fv :=
  match v with
  | .nan s => .nan s
  | .inf n => .inf (!n)
  | .num n m e => .num (!n) m e

def xvOfMul (a b : Fv) : Exact :=
  let p := exactMul a b
  (xvOf p.1, p.2)

/-- x × y + z, rounded once (R105): INV for 0 × ∞ even when z is a quiet NaN. -/
def exactFma (x y z : Fv) : Exact :=
  let p := exactMul x y
  let q := exactSum [p.1, z]
  (q.1, p.2 ||| q.2)

/-- x × 2^y (R105). Beyond ±5000 the scale changes no rounded result of any format. -/
def exactScale (x : Fv) (y : Int) : Exact :=
  match x with
  | .num n m e => (.num n m (e + max (-5000) (min 5000 y)) false, 0)
  | v => (xvOf v, 0)

/-- Fraction bits kept of a quotient or a root: with the flag they decide every rounding of R95. -/
def divBits : Nat := 192

/-- a / b (R97, R111). -/
def exactDiv (a b : Fv) : Exact :=
  match a, b with
  | .nan _, _ | _, .nan _ => (.nan, 0)
  | .inf _, .inf _ => (.nan, evINV)
  | .inf n, v => (.inf (xor n (fvNeg v)), 0)
  | .num n _ _, .inf n' => (.num (xor n n') 0 0 false, 0)
  | .num n m e, .num n' m' e' =>
    if m' = 0 then (if m = 0 then (.nan, evINV) else (.inf (xor n n'), evDIVZ))
    else
      let u := m * 2 ^ divBits
      (.num (xor n n') (u / m') (e - e' - divBits) (u % m' != 0), 0)

/-- The integer square root, bit by bit. -/
def isqrtFrom : Nat → Nat → Nat → Nat
  | 0, _, r => r
  | k + 1, n, r =>
    let r' := r + 2 ^ k
    isqrtFrom k n (if r' * r' ≤ n then r' else r)

def isqrt (n : Nat) : Nat := isqrtFrom (Nat.log2 n / 2 + 1) n 0

/-- The square root of a positive number (R111). -/
def rootOf (m : Nat) (e : Int) : Exact :=
  let m' := if e % 2 = 0 then m else 2 * m
  let e' := if e % 2 = 0 then e else e - 1
  let n := m' * 2 ^ (2 * divBits)
  let r := isqrt n
  (.num false r (e' / 2 - divBits) (r * r != n), 0)

def exactSqrt (a : Fv) : Exact :=
  match a with
  | .nan _ => (.nan, 0)
  | .inf n => if n then (.nan, evINV) else (.inf false, 0)
  | .num n m e => if m = 0 then (.num n 0 0 false, 0) else if n then (.nan, evINV) else rootOf m e

/-- 1 / √a (R111). -/
def exactRsqrt (a : Fv) : Exact :=
  match a with
  | .nan _ => (.nan, 0)
  | .inf n => if n then (.nan, evINV) else (.num false 0 0 false, 0)
  | .num n m e =>
    if m = 0 then (.inf n, evDIVZ)
    else if n then (.nan, evINV)
    else
      let m' := if e % 2 = 0 then m else 2 * m
      let e' := if e % 2 = 0 then e else e - 1
      let q := 2 ^ (2 * divBits + 128) / m'
      let r := isqrt q
      (.num false r (-(e' / 2) - divBits - 64) (r * r * m' != 2 ^ (2 * divBits + 128)), 0)

/-! ## Functions that are not algebraic (R111)

Each is enclosed between two integers at a scale; the enclosure is narrowed until it decides the leading bits. -/

/-- The leading bits that both ends of an enclosure agree on, 64 bits above its scale. -/
def settle (lo hi : Nat) : Option Nat :=
  if lo / 2 ^ 64 = (hi - 1) / 2 ^ 64 ∧ 2 ^ 190 ≤ lo then some (lo / 2 ^ 64) else none

/-- Precisions tried, in bits: the last decides every argument of F32 and F64 (DEDUCED, log 19). -/
def precisions : List Nat := [320, 1024, 4700]

/-- A magnitude known by enclosures: at precision W the value lies strictly between the two integers, times
2^(x - W). -/
def enclosed (neg : Bool) (x : Int) (g : Nat → Nat × Nat) : Xv :=
  match precisions.findSome? (fun W =>
    let b := g W
    (settle b.1 b.2).map (fun m => (m, W))) with
  | some (m, W) => .num neg m (x - W + 64) true
  | none => let b := g 4700; .num neg (b.1 / 2 ^ 64) (x - 4700 + 64) true

/-- The error bound of every series below, in units of its last place. -/
def slack : Nat := 2 ^ 40

/-- Σ ± x^(2i+1)/(2i+1) over n^(-1) powers: atan (alternating) or atanh of 1/n at scale 2^W. -/
def atanInv (W n : Nat) (alt : Bool) : Int :=
  ((List.range (W / 2 + 2)).foldl (fun (acc : Int × Nat × Bool) i =>
    let t : Int := ((acc.2.1 / (2 * i + 1) : Nat) : Int)
    (if acc.2.2 then acc.1 - t else acc.1 + t, acc.2.1 / (n * n), alt && !acc.2.2)) (0, 2 ^ W / n, false)).1

/-- π × 2^W and ln 2 × 2^W. -/
def piAt (W : Nat) : Nat := (16 * atanInv W 5 true - 4 * atanInv W 239 true).toNat
def ln2At (W : Nat) : Nat := (2 * atanInv W 3 false).toNat

/-- A number m × 2^e at scale 2^W, rounded down. -/
def fixAt (W m : Nat) (e : Int) : Nat :=
  if 0 ≤ e + W then m * 2 ^ (e + W).toNat else m / 2 ^ (-(e + W)).toNat

/-- exp(x / 2^W) at scale 2^W for x below 2^W. -/
def expAt (W x : Nat) : Nat :=
  ((List.range (W / 2 + 2)).foldl (fun (acc : Nat × Nat) i =>
    (acc.1 + acc.2, acc.2 * x / 2 ^ W / (i + 1))) (0, 2 ^ W)).1

/-- sin(x / 2^W) and cos(x / 2^W) at scale 2^W for x below 2 × 2^W. -/
def sinAt (W x : Nat) : Int :=
  ((List.range (W / 4 + 4)).foldl (fun (acc : Int × Nat × Bool) i =>
    (if acc.2.2 then acc.1 - acc.2.1 else acc.1 + acc.2.1,
     acc.2.1 * x / 2 ^ W * x / 2 ^ W / ((2 * i + 2) * (2 * i + 3)), !acc.2.2)) (0, x, false)).1
def cosAt (W x : Nat) : Int :=
  ((List.range (W / 4 + 4)).foldl (fun (acc : Int × Nat × Bool) i =>
    (if acc.2.2 then acc.1 - acc.2.1 else acc.1 + acc.2.1,
     acc.2.1 * x / 2 ^ W * x / 2 ^ W / ((2 * i + 1) * (2 * i + 2)), !acc.2.2)) (0, 2 ^ W, false)).1

def around (x : Int) : Nat × Nat := ((x - slack).toNat, (x + slack).toNat)

/-- 2^a of a number that is not integral: 2^n × exp(f ln 2). -/
def exp2Num (neg : Bool) (m : Nat) (e : Int) : Xv :=
  let d := 2 ^ (-e).toNat
  let fl := m / d
  let fr := m % d
  let n : Int := if neg then -((fl : Int) + 1) else fl
  let f := if neg then d - fr else fr
  enclosed false n (fun W => around (expAt W (f * ln2At W / d)))

/-- 2^a (R111). -/
def exactExp2 (a : Fv) : Exact :=
  match a with
  | .nan _ => (.nan, 0)
  | .inf n => if n then (.num false 0 0 false, 0) else (.inf false, 0)
  | .num n m e =>
    if m = 0 then (.num false 1 0 false, 0)
    else if 13 ≤ e + Nat.log2 m then (.num false 1 (if n then -5000 else 5000) false, 0)
    else if 0 ≤ e then
      let v : Int := ((m * 2 ^ e.toNat : Nat) : Int)
      (.num false 1 (if n then -v else v) false, 0)
    else if m % 2 ^ (-e).toNat = 0 then
      let v : Int := ((m / 2 ^ (-e).toNat : Nat) : Int)
      (.num false 1 (if n then -v else v) false, 0)
    else (exp2Num n m e, 0)

/-- log2(1 + z) at scale 2^W for a significand m in [2^k, 2^(k+1)): 2 atanh((m - 2^k)/(m + 2^k)) / ln 2. -/
def log2Sig (W m k : Nat) : Int :=
  let u := (m - 2 ^ k) * 2 ^ W / (m + 2 ^ k)
  let u2 := u * u / 2 ^ W
  let s := ((List.range (W / 3 + 4)).foldl (fun (acc : Nat × Nat) i =>
    (acc.1 + acc.2 / (2 * i + 1), acc.2 * u2 / 2 ^ W)) (0, u)).1
  ((2 * s * 2 ^ W / ln2At W : Nat) : Int)

/-- log2 a (R111). -/
def exactLog2 (a : Fv) : Exact :=
  match a with
  | .nan _ => (.nan, 0)
  | .inf n => if n then (.nan, evINV) else (.inf false, 0)
  | .num n m e =>
    if m = 0 then (.inf true, evDIVZ)
    else if n then (.nan, evINV)
    else
      let k := Nat.log2 m
      let t := e + k
      if m = 2 ^ k then (.num (decide (t < 0)) t.natAbs 0 false, 0)
      else (enclosed (decide (t < 0)) 0 (fun W =>
        let v := t * (2 ^ W : Nat) + log2Sig W m k
        around (if t < 0 then -v else v)), 0)

/-- sin(π f) or cos(π f) for f = x / d in (0, 1/2). -/
def sinPart (neg : Bool) (x d : Nat) : Xv := enclosed neg 0 (fun W => around (sinAt W (x * piAt W / d)))
def cosPart (neg : Bool) (x d : Nat) : Xv := enclosed neg 0 (fun W => around (cosAt W (x * piAt W / d)))

/-- cos(π x) for a quarter q and the rest f = x / d of half a turn in [0, 1/2): the four quarters in turn. -/
def turn (q x d : Nat) (neg : Bool) : Xv :=
  match q % 4 with
  | 0 => if x = 0 then .num neg 1 0 false else cosPart neg x d
  | 1 => if x = 0 then .num false 0 0 false else sinPart (!neg) x d
  | 2 => if x = 0 then .num (!neg) 1 0 false else cosPart (!neg) x d
  | _ => if x = 0 then .num false 0 0 false else sinPart neg x d

/-- cos(π a) (R111). -/
def exactCosPi (a : Fv) : Exact :=
  match a with
  | .nan _ => (.nan, 0)
  | .inf _ => (.nan, evINV)
  | .num _ m e =>
    if 0 ≤ e then (.num (decide (e = 0 ∧ m % 2 = 1)) 1 0 false, 0)
    else
      let d := 2 ^ (-e).toNat
      let r := m % (2 * d)
      (turn (2 * r / d) (2 * r % d) (2 * d) false, 0)

/-- sin(π a) = cos(π (a - 1/2)) for a > 0 (R111). -/
def exactSinPi (a : Fv) : Exact :=
  match a with
  | .nan _ => (.nan, 0)
  | .inf _ => (.nan, evINV)
  | .num n m e =>
    if m = 0 then (.num n 0 0 false, 0)
    else if 0 ≤ e then (.num n 0 0 false, 0)
    else
      let d := 2 ^ (-e).toNat
      let r := m % (2 * d)
      if r % d = 0 then (.num n 0 0 false, 0)
      else (turn (2 * r / d + 3) (2 * r % d) (2 * d) n, 0)

/-- tanh of a positive number below 1024: with E = exp(2a) = 2^n exp(x), (E - 1)/(E + 1). -/
def tanhNum (neg : Bool) (m : Nat) (e : Int) : Xv :=
  enclosed neg 0 (fun W =>
    let l := ln2At W
    let y := fixAt W m (e + 1)
    let n := y / l
    let t := around ((expAt W (y - n * l) : Nat) : Int)
    let one := 2 ^ W
    let lo := t.1 * 2 ^ n
    let hi := t.2 * 2 ^ n
    ((lo - one) * one / (lo + one), (hi - one) * one / (hi + one) + 1))

/-- tanh a (R111); from 1024 on the value is 1 less an amount that no rounding sees otherwise. -/
def exactTanh (a : Fv) : Exact :=
  match a with
  | .nan _ => (.nan, 0)
  | .inf n => (.num n 1 0 false, 0)
  | .num n m e =>
    if m = 0 then (.num n 0 0 false, 0)
    else if 10 ≤ e + Nat.log2 m then (.num n (2 ^ 256 - 1) (-256) true, 0)
    else (tanhNum n m e, 0)

/-! ## Whole operations on codes -/

/-- An operation on operands: a signalling NaN raises INV, a NaN gives NaN (R91, R97, R99). -/
def runOp (F : Fmt) (rm : Rm) (sat : Bool) (w : W32) (vs : List Fv) (x : Exact) : Res :=
  let nanIn := vs.any isNan
  let r := finish F rm sat w (if nanIn then .nan else x.1) nanIn
  (r.1, r.2 ||| x.2 ||| sigEv vs)

def opAdd (F : Fmt) (rm : Rm) (sat : Bool) (w : W32) (x y : Fv) : Res := runOp F rm sat w [x, y] (exactSum [x, y])
def opSub (F : Fmt) (rm : Rm) (sat : Bool) (w : W32) (x y : Fv) : Res :=
  runOp F rm sat w [x, y] (exactSum [x, fvFlip y])
def opMul (F : Fmt) (rm : Rm) (sat : Bool) (w : W32) (x y : Fv) : Res := runOp F rm sat w [x, y] (xvOfMul x y)
def opFma (F : Fmt) (rm : Rm) (sat : Bool) (w : W32) (x y z : Fv) : Res :=
  runOp F rm sat w [x, y, z] (exactFma x y z)

/-- One block of R103: acc + Σ a[k] × b[k], rounded once into the accumulator's format. -/
def opBlock (F : Fmt) (rm : Rm) (sat : Bool) (w : W32) (acc : Fv) (ps : List (Fv × Fv)) : Res :=
  let prods := ps.map (fun p => exactMul p.1 p.2)
  let x := exactSum (acc :: prods.map (·.1))
  let ev := prods.foldl (fun m p => m ||| p.2) x.2
  runOp F rm sat w (acc :: (ps.map (·.1) ++ ps.map (·.2))) (x.1, ev)

/-- minimumNumber and maximumNumber (R106). -/
def fvLess (a b : Fv) : Bool :=
  match a, b with
  | .inf n, .inf n' => n && !n'
  | .inf n, _ => n
  | _, .inf n => !n
  | .num n m e, .num n' m' e' =>
    if m = 0 ∧ m' = 0 then n && !n'
    else decide (sumAt (min e e') [(n, m, e)] < sumAt (min e e') [(n', m', e')])
  | _, _ => false

def opMinMax (F : Fmt) (mx : Bool) (xc yc : Nat) : Res :=
  let x := fvOf F xc
  let y := fvOf F yc
  let ev := sigEv [x, y]
  if isNan x && isNan y then (canonNan F, ev)
  else if isNan x then (yc, ev)
  else if isNan y then (xc, ev)
  else if mx then (if fvLess x y then yc else xc, ev)
  else (if fvLess y x then yc else xc, ev)

/-- The conditions of R107 and their events. -/
def opFcmp (k : FCond) (x y : Fv) : Bool × BitVec 8 :=
  let un := isNan x || isNan y
  let lt := fvLess x y && !(isZero x && isZero y)
  let gt := fvLess y x && !(isZero x && isZero y)
  match k with
  | .eq => (!un && !lt && !gt, sigEv [x, y])
  | .ne => (un || lt || gt, sigEv [x, y])
  | .lt => (!un && lt, if un then evINV else 0)
  | .le => (!un && !gt, if un then evINV else 0)
  | .gt => (!un && gt, if un then evINV else 0)
  | .ge => (!un && !lt, if un then evINV else 0)
  | .un => (un, sigEv [x, y])
  | .ord => (!un, sigEv [x, y])

/-- The class bit of R108. -/
def opClass (F : Fmt) (v : Fv) : Nat :=
  match v with
  | .nan sig => if sig then 1 else 2
  | .inf n => if n then 4 else 512
  | .num n m e =>
    if m = 0 then (if n then 32 else 64)
    else
      let sub := decide (m < 2 ^ (F.p - 1) ∧ e = 2 - (F.bias : Int) - F.p)
      if sub then (if n then 16 else 128) else (if n then 8 else 256)

/-- A value rounded to an integral value by rm (R113, R114). -/
def integral (rm : Rm) (w : W32) (neg : Bool) (m : Nat) (e : Int) : Nat × Bool :=
  roundAt rm neg m e 0 false w (fun n => decide (n % 2 = 1))

/-- Float to integer (R113): the result clamped to [lo, hi]. -/
def toInt (n : Nat) (sg : Bool) (rm : Rm) (w : W32) (v : Fv) : Res :=
  let lo := minOf n sg
  let hi := maxOf n sg
  match v with
  | .nan _ => (0, evINV)
  | .inf neg => ((BitVec.ofInt n (if neg then lo else hi)).toNat, evINV ||| evINEX)
  | .num neg m e =>
    let r := integral rm w neg m (min e 2000)
    let x : Int := if neg then -(r.1 : Int) else r.1
    if x < lo then ((BitVec.ofInt n lo).toNat, evINV ||| evINEX)
    else if hi < x then ((BitVec.ofInt n hi).toNat, evINV ||| evINEX)
    else ((BitVec.ofInt n x).toNat, if r.2 then evINEX else 0)

/-- Float to float (R113). -/
def toFloat (F : Fmt) (rm : Rm) (sat : Bool) (w : W32) (v : Fv) : Res :=
  let r := finish F rm sat w (xvOf v) (isNan v)
  (r.1, r.2 ||| sigEv [v])

/-- Integer to float (R113). -/
def ofIntVal (F : Fmt) (rm : Rm) (sat : Bool) (w : W32) (x : Int) : Res :=
  finish F rm sat w (.num (decide (x < 0)) x.natAbs 0 false) false

/-- roundToIntegral (R114). -/
def opRnd (F : Fmt) (rm : Rm) (w : W32) (x : Nat) : Res :=
  match fvOf F x with
  | .nan sig => (canonNan F, if sig then evINV else 0)
  | .inf _ => (x, 0)
  | .num neg m e =>
    if 0 ≤ e then (x, 0)
    else
      let r := integral rm w neg m e
      let c := (finish F .rne false 0 (.num neg r.1 0 false) false).1
      (c, if r.2 then evINEX else 0)

end Sys2Proof.Machine
end

