-- ==== Sys2Proof/Machine/Barriers.lean ====
section
/-! DEFINITION. Fold barriers (R261), barrier objects (R258, R259) and circular buffers (R165): the operations that
several instructions and engines share. -/

namespace Sys2Proof.Machine

open Sys2Proof

/-! ## Fold barriers -/

def bar (fo : Fold) (i : Nat) : FBar := tgetD fo.bars i FBar.init

/-- The number of threads of a fold that have not exited. -/
def liveThreads (fo : Fold) : Nat := fo.flocks.foldl (fun n e => n + (liveLanes e.2).length) 0

/-- N of a barrier: the operand, or the threads that have not exited when it is 0 (R261). -/
def barN (fo : Fold) (b : FBar) : Nat := if b.operand = 0 then liveThreads fo else b.operand

/-- Completion: when the arrivals reach N every held group is released with an acquire at FOLD scope, which does
nothing, and the arrival count returns to 0 (R244, R261). -/
def barTest (s : State) (f i : Nat) : State :=
  modFold s f (fun fo =>
    let b := bar fo i
    if b.arrived = 0 ∨ b.arrived < barN fo b then fo
    else
      { fo with
        bars := tset fo.bars i FBar.init FBar.init
        flocks := fo.flocks.map (fun e =>
          if b.held.contains e.1 then (e.1, { e.2 with bar := some (i, true) }) else e) })

/-- Every barrier is tested after a thread exits (R261). -/
def barsAfterExit (s : State) (f : Nat) : State := (List.range 4).foldl (fun s i => barTest s f i) s

/-! ## Barrier objects -/

/-- The fields of a barrier object (R258). -/
def objGen (x : W64) : Nat := bits x 63 56
def objQuota (x : W64) : Nat := bits x 55 40
def objOwed (x : W64) : Nat := bits x 39 24
def objDebt (x : W64) : Nat := bits x 23 0

def mkObj (gen quota owed debt : Nat) : W64 :=
  BitVec.ofNat 64 (gen % 256 * 2 ^ 56 + quota % 65536 * 2 ^ 40 + owed % 65536 * 2 ^ 24 + debt % 2 ^ 24)

/-- One update of a barrier object (R259): arrivals, leaves and a byte delta taken modulo 2^24. -/
def objUpdate (x : W64) (arrivals leaves : Nat) (delta : Int) : W64 :=
  let o : Int := (objOwed x : Int) - arrivals - leaves
  let q := objQuota x - leaves
  let d := (((objDebt x : Int) + delta) % (2 ^ 24 : Nat)).toNat
  if o ≤ 0 ∧ d = 0 then mkObj (objGen x + 1) q q 0 else mkObj (objGen x) q (max o 0).toNat d

def scrW64 (fo : Fold) (a : Nat) : W64 := BitVec.ofNat 64 (ofLe (scrBytes fo a 8))

def putScr64 (fo : Fold) (a : Nat) (x : W64) : Fold := scrPut fo a (leBytes 8 x.toNat)

/-- Applies one update to the object at a scratchpad offset of a fold (R259). -/
def updateObj (s : State) (f a arrivals leaves : Nat) (delta : Int) : State :=
  modFold s f (fun fo => putScr64 fo a (objUpdate (scrW64 fo a) arrivals leaves delta))

/-! ## Circular buffers (R165) -/

/-- Whether an operation on a buffer can be applied now. -/
def bufAble (b : CBuf) (o : BufOp) : Bool :=
  match o with
  | .take => decide (0 < b.free)
  | .wait => decide (0 < b.filled)

/-- The operations that wait and come before flock k's, which arrives in a cycle unless it waits already: in arrival order, and
within a cycle in flock order (R165). -/
def bufBefore (b : CBuf) (cyc k : Nat) : List BufWait :=
  if b.waits.any (fun w => w.flock == k) then b.waits.takeWhile (fun w => w.flock != k)
  else b.waits.filter (fun w => decide (w.cyc < cyc ∨ (w.cyc = cyc ∧ w.flock < k)))

/-- Whether flock k's operation may be applied: it can be, and of those before it none can (R165). -/
def bufTurn (b : CBuf) (cyc k : Nat) (o : BufOp) : Bool :=
  bufAble b o && !(bufBefore b cyc k).any (fun w => bufAble b w.op)

/-- An operation joins those that wait, after those that come before it. -/
def insWait (x : BufWait) : List BufWait → List BufWait
  | [] => [x]
  | y :: r => if x.cyc < y.cyc ∨ (x.cyc = y.cyc ∧ x.flock < y.flock) then x :: y :: r else y :: insWait x r

def bufJoin (b : CBuf) (cyc k : Nat) (o : BufOp) : CBuf :=
  if b.waits.any (fun w => w.flock == k) then b else { b with waits := insWait { cyc := cyc, flock := k, op := o } b.waits }

/-- Whether an operation of a higher flock that arrived in a cycle has been applied in it (R165). -/
def bufAfter (b : CBuf) (cyc k : Nat) : Bool :=
  match b.lastOp with
  | some (c, j) => decide (c = cyc ∧ k < j)
  | none => false

/-- Whether flock k's operation arrives in a cycle behind one of a higher flock (R165): one that waits arrived before. -/
def bufLate (b : CBuf) (cyc k : Nat) : Bool := !b.waits.any (fun w => w.flock == k) && bufAfter b cyc k

/-- The highest flock whose operation has arrived and been applied in a cycle, with flock k's. -/
def bufMark (b : CBuf) (cyc k : Nat) : CBuf :=
  { b with lastOp := some (cyc, if bufAfter b cyc k then (b.lastOp.map (·.2)).getD k else k) }

/-- Flock k's operation is applied: it waits no longer. -/
def bufDid (b : CBuf) (cyc k : Nat) : CBuf :=
  if b.waits.any (fun w => w.flock == k) then { b with waits := b.waits.filter (fun w => w.flock != k) } else bufMark b cyc k

/-- Take: the slot taken, and the buffer after it; `op` is the copy command that takes it. -/
def cbTake (b : CBuf) (op : Option Nat) : Nat × CBuf :=
  (b.prod, { b with free := b.free - 1, prod := if b.count = 0 then 0 else (b.prod + 1) % b.count,
                    taken := b.taken ++ [(b.prod, op)] })

/-- Done slots at the consumer's end become FILLED. -/
def cbFill : Nat → CBuf → CBuf
  | 0, b => b
  | n + 1, b =>
    let i := if b.count = 0 then 0 else (b.cons + b.filled) % b.count
    if b.done.contains i then cbFill n { b with done := b.done.filter (· != i), filled := b.filled + 1 } else b

/-- Publish the oldest taken slot that a test names. -/
def cbPublish (b : CBuf) (p : Nat × Option Nat → Bool) : CBuf :=
  match b.taken.find? p with
  | none => b
  | some e => cbFill b.count { b with taken := b.taken.erase e, done := b.done ++ [e.1] }

/-- Release. -/
def cbRelease (b : CBuf) : CBuf :=
  if b.filled = 0 then b
  else { b with filled := b.filled - 1, cons := if b.count = 0 then 0 else (b.cons + 1) % b.count, free := b.free + 1 }

end Sys2Proof.Machine
end

