-- ==== Sys2Proof/Decode.lean ====
section
/-! DEFINITION. Reading instruction words (R21 to R48) and writing them. A word is legal when it parses to an
instruction, that instruction is well-formed and the word is exactly that instruction's encoding: a reserved
bit that is set, or a field that the instruction does not use and that is not zero, makes the encodings
differ (R36, R45). The encoder stands after the decoder's tables, the decoder after it. -/

namespace Sys2Proof

/-- Why a word is no instruction (R45); every reason raises ILLOP. -/
inductive Reject where
  | group | opNumber | field | form
  deriving DecidableEq, Repr

/-! ## Codes of the fields -/

def Ty.code : Ty → BitVec 4
  | .none => 0 | .i32 => 1 | .u32 => 2 | .i64 => 3 | .u64 => 4 | .i16x2 => 5 | .u8x4 => 6 | .f32 => 7
  | .f64 => 8 | .f16 => 9 | .bf16 => 10 | .f16x2 => 11 | .bf16x2 => 12 | .b8 => 13

def tyOf (c : BitVec 4) : Option Ty :=
  match c.toNat with
  | 0 => some .none | 1 => some .i32 | 2 => some .u32 | 3 => some .i64 | 4 => some .u64
  | 5 => some .i16x2 | 6 => some .u8x4 | 7 => some .f32 | 8 => some .f64 | 9 => some .f16
  | 10 => some .bf16 | 11 => some .f16x2 | 12 => some .bf16x2 | 13 => some .b8
  | _ => none

/-- The 11-bit code of an operand (R18). -/
def opdCode : Opd → BitVec 11
  | .v n => BitVec.ofNat 11 n.val
  | .s n => BitVec.ofNat 11 (1536 + n.val)
  | .p n => BitVec.ofNat 11 (1664 + n.val)
  | .disp n => BitVec.ofNat 11 (1672 + n.val)
  | .q n => BitVec.ofNat 11 (1680 + n.val)
  | .spec n => BitVec.ofNat 11 (1712 + n.val)
  | .zero => 2047

/-- The operand that a code names; the codes 1760 to 2046 name none (R18, R40). -/
def opdOf (c : BitVec 11) : Option Opd :=
  let n := c.toNat
  if h : n < 1536 then some (.v ⟨n, h⟩)
  else if n < 1664 then some (.s (Fin.ofNat 128 (n - 1536)))
  else if n < 1672 then some (.p (Fin.ofNat 8 (n - 1664)))
  else if n < 1680 then some (.disp (Fin.ofNat 8 (n - 1672)))
  else if n < 1712 then some (.q (Fin.ofNat 32 (n - 1680)))
  else if n < 1760 then some (.spec (Fin.ofNat 48 (n - 1712)))
  else if n = 2047 then some .zero
  else none

def boolBit (b : Bool) : BitVec 1 := BitVec.ofBool b

def condCode : Cond → BitVec 4
  | .eq => 0 | .ne => 1 | .lt => 2 | .le => 3 | .gt => 4 | .ge => 5

def condOf (c : BitVec 4) : Option Cond :=
  match c.toNat with
  | 0 => some .eq | 1 => some .ne | 2 => some .lt | 3 => some .le | 4 => some .gt | 5 => some .ge
  | _ => none

def fcondCode : FCond → BitVec 4
  | .eq => 0 | .ne => 1 | .lt => 2 | .le => 3 | .gt => 4 | .ge => 5 | .un => 6 | .ord => 7

def fcondOf (c : BitVec 4) : Option FCond :=
  match c.toNat with
  | 0 => some .eq | 1 => some .ne | 2 => some .lt | 3 => some .le | 4 => some .gt | 5 => some .ge
  | 6 => some .un | 7 => some .ord
  | _ => none

def rmCode : Rm → BitVec 3
  | .rne => 0 | .rtz => 1 | .rup => 2 | .rdn => 3 | .rna => 4 | .srh => 5

def rmOf (c : BitVec 3) : Option Rm :=
  match c.toNat with
  | 0 => some .rne | 1 => some .rtz | 2 => some .rup | 3 => some .rdn | 4 => some .rna | 5 => some .srh
  | _ => none

def scopeCode : Scope → BitVec 3
  | .flock => 0 | .fold => 1 | .die => 2 | .package => 3 | .system => 4

def scopeOf (c : BitVec 3) : Option Scope :=
  match c.toNat with
  | 0 => some .flock | 1 => some .fold | 2 => some .die | 3 => some .package | 4 => some .system
  | _ => none

def orderCode : Order → BitVec 2
  | .plain => 0 | .acq => 1 | .rel => 2 | .acqrel => 3

def orderOf (c : BitVec 2) : Order :=
  match c.toNat with
  | 0 => .plain | 1 => .acq | 2 => .rel | _ => .acqrel

def sizeCode : Size → BitVec 3
  | .b8 => 0 | .b16 => 1 | .b32 => 2 | .b64 => 3 | .b128 => 4

def sizeOf (c : BitVec 3) : Option Size :=
  match c.toNat with
  | 0 => some .b8 | 1 => some .b16 | 2 => some .b32 | 3 => some .b64 | 4 => some .b128
  | _ => none

def aopCode : Aop → BitVec 4
  | .add => 0 | .min => 1 | .max => 2 | .and => 3 | .or => 4 | .xor => 5 | .exch => 6 | .inc => 7
  | .dec => 8

def aopOf (c : BitVec 4) : Option Aop :=
  match c.toNat with
  | 0 => some .add | 1 => some .min | 2 => some .max | 3 => some .and | 4 => some .or | 5 => some .xor
  | 6 => some .exch | 7 => some .inc | 8 => some .dec
  | _ => none

def voteCode : VoteMode → BitVec 2
  | .any => 0 | .all => 1 | .ballot => 2 | .count => 3

def voteOf (c : BitVec 2) : VoteMode :=
  match c.toNat with
  | 0 => .any | 1 => .all | 2 => .ballot | _ => .count

def shflCode : ShflMode → BitVec 2
  | .idx => 0 | .up => 1 | .down => 2 | .xor => 3

def shflOf (c : BitVec 2) : ShflMode :=
  match c.toNat with
  | 0 => .idx | 1 => .up | 2 => .down | _ => .xor

def extwCode : ExtW → BitVec 2
  | .w8 => 0 | .w16 => 1 | .w32 => 2

def extwOf (c : BitVec 2) : Option ExtW :=
  match c.toNat with
  | 0 => some .w8 | 1 => some .w16 | 2 => some .w32
  | _ => none

def cpyCode : CpyMode → BitVec 2
  | .d1 => 0 | .d2 => 1 | .fill => 2 | .gather => 3

def cpyOf (c : BitVec 2) : CpyMode :=
  match c.toNat with
  | 0 => .d1 | 1 => .d2 | 2 => .fill | _ => .gather

def flushCode : FlushMode → BitVec 2
  | .wb => 1 | .inv => 2 | .wbinv => 3

def flushOf (c : BitVec 2) : Option FlushMode :=
  match c.toNat with
  | 1 => some .wb | 2 => some .inv | 3 => some .wbinv
  | _ => none

/-! ## The standard format (R27) -/

/-- The fields of a standard-format word. -/
structure Fields where
  opcode : BitVec 10
  guard : BitVec 4
  type : BitVec 4
  hints : BitVec 4
  d : BitVec 11
  a : BitVec 11
  b : BitVec 11
  aux : BitVec 41
  deriving DecidableEq, Repr

def fieldsWord (f : Fields) : W96 :=
  f.opcode ++ f.guard ++ f.type ++ f.hints ++ f.d ++ f.a ++ f.b ++ f.aux

def fieldsOf (w : W96) : Fields where
  opcode := w.extractLsb' 86 10
  guard := w.extractLsb' 82 4
  type := w.extractLsb' 78 4
  hints := w.extractLsb' 74 4
  d := w.extractLsb' 63 11
  a := w.extractLsb' 52 11
  b := w.extractLsb' 41 11
  aux := w.extractLsb' 0 41

/-- Guard: negate, then register (R27). -/
def guardCode (h : Hd) : BitVec 4 := boolBit h.neg ++ BitVec.ofNat 3 h.gp.val

/-- Hints: flag slot, reuse a, last use of d, yield after (R27). -/
def hintsCode (h : Hd) : BitVec 4 :=
  boolBit h.slotB ++ boolBit h.reuse ++ boolBit h.last ++ boolBit h.yieldAfter

def hdOf (g hints : BitVec 4) : Hd where
  neg := g.getLsbD 3
  gp := Fin.ofNat 8 (g.extractLsb' 0 3).toNat
  slotB := hints.getLsbD 3
  reuse := hints.getLsbD 2
  last := hints.getLsbD 1
  yieldAfter := hints.getLsbD 0

/-- The code of class NONE (R37). -/
def noOpd : BitVec 11 := 0

def mk (op : Nat) (h : Hd) (t : Ty) (d a b : BitVec 11) (aux : BitVec 41) : Fields where
  opcode := BitVec.ofNat 10 op
  guard := guardCode h
  type := t.code
  hints := hintsCode h
  d := d
  a := a
  b := b
  aux := aux

def srcReg : Src → BitVec 11
  | .reg o => opdCode o
  | .imm _ => 0

def src16Reg : Src16 → BitVec 11
  | .reg o => opdCode o
  | .imm _ => 0

/-- AX and AI (R32, R69): the I bit, ctl, and the immediate. -/
def auxX (b : Src) (ctl : BitVec 8) : BitVec 41 :=
  match b with
  | .reg _ => 0#1 ++ ctl ++ 0#32
  | .imm w => 1#1 ++ ctl ++ w

/-- A3 (R31). -/
def aux3 (c : BitVec 11) (rm : Rm) (sat : Bool) (nar : BitVec 6) : BitVec 41 :=
  c ++ rmCode rm ++ boolBit sat ++ nar ++ 0#20

/-- A3 or AI, as group 4's arithmetic has it (R104). -/
def aux3i (b : Src) (rm : Rm) (sat : Bool) : BitVec 41 :=
  match b with
  | .reg _ => aux3 0 rm sat 0
  | .imm w => 1#1 ++ 0#8 ++ w

/-- The conversion layout (R112). -/
def auxCvt (st : Ty) (rm : Rm) (sat : Bool) (nar : BitVec 6) : BitVec 41 :=
  st.code ++ 0#7 ++ rmCode rm ++ boolBit sat ++ nar ++ 0#20

/-- AM (R33). -/
def auxM (m : Am) : BitVec 41 :=
  scopeCode m.scope ++ boolBit m.strm ++ orderCode m.order ++ sizeCode m.size ++ m.off

/-- AL (R34). -/
def auxL (m : Al) : BitVec 41 :=
  BitVec.ofNat 3 m.level.val ++ BitVec.ofNat 2 m.scale.val ++ sizeCode m.size ++ orderCode m.order ++ 0#7
    ++ m.off

/-- STX's layout (R166). -/
def auxS (m : Ax) : BitVec 41 :=
  scopeCode m.scope ++ boolBit m.sat ++ orderCode m.order ++ rmCode m.rm ++ m.off

/-- AT (R253). -/
def auxT (m : At) : BitVec 41 :=
  scopeCode m.scope ++ aopCode m.aop ++ orderCode m.order ++ m.off

/-- AH (R253). -/
def auxH (b : Src16) (tx : Bool) (off : BitVec 20) : BitVec 41 :=
  match b with
  | .reg _ => 0#1 ++ 0#16 ++ boolBit tx ++ 0#3 ++ off
  | .imm w => 1#1 ++ w ++ boolBit tx ++ 0#3 ++ off

/-- AB with modifiers above the offset (R35). -/
def auxB (mods : BitVec 9) (off : W32) : BitVec 41 := mods ++ off

/-- ctl of two negate bits (R69). -/
def ctlNeg (na nb : Bool) : BitVec 8 := 0#6 ++ boolBit nb ++ boolBit na

/-- ctl of VADDC and VSUBB (R69). -/
def ctlCarry (ciEn : Bool) (ci co : Fin 8) : BitVec 8 :=
  boolBit ciEn ++ BitVec.ofNat 3 ci.val ++ 0#1 ++ BitVec.ofNat 3 co.val

def low41 {n : Nat} (v : BitVec n) : BitVec 41 := v.setWidth 41

/-- The context operand's register field and its C bit (R309). -/
def ctxReg : CtxOpd → BitVec 11
  | .own => 0
  | .other o => opdCode o

def ctxAux (b : CtxOpd) (reg : BitVec 12) : BitVec 41 :=
  match b with
  | .own => 0#1 ++ 0#28 ++ reg
  | .other _ => 1#1 ++ 0#28 ++ reg

/-! ## The encoder -/

/-- The fields of an instruction of the standard format; none for pairs, headers and the steps that have no
word. -/
def encodeFields : Instr → Option Fields
  | .nop h => some (mk 0x001 h .none noOpd noOpd noOpd 0)
  | .bra h c off => some (match c with
    | .always => mk 0x002 h .none noOpd noOpd noOpd (auxB 0 off)
    | .nz a => mk 0x002 h .none noOpd (opdCode a) noOpd (auxB (1#2 ++ 0#7) off)
    | .z a => mk 0x002 h .none noOpd (opdCode a) noOpd (auxB (2#2 ++ 0#7) off))
  | .brx h a => some (mk 0x003 h .u64 noOpd (opdCode a) noOpd 0)
  | .call h d t => some (match t with
    | .label off => mk 0x004 h .u64 (opdCode d) noOpd noOpd (auxB 0 off)
    | .reg a => mk 0x004 h .u64 (opdCode d) (opdCode a) noOpd (1#1 ++ 0#40))
  | .ret h a => some (mk 0x005 h .u64 noOpd (opdCode a) noOpd 0)
  | .exit h => some (mk 0x006 h .none noOpd noOpd noOpd 0)
  | .cvg h a => some (mk 0x007 h .none noOpd (opdCode a) noOpd 0)
  | .cvgset h d => some (mk 0x008 h .none (opdCode d) noOpd noOpd 0)
  | .elect h d a => some (mk 0x009 h .none (opdCode d) (opdCode a) noOpd 0)
  | .vote h m d a neg => some (mk 0x00A h .none (opdCode d) (opdCode a) noOpd (0#6 ++ boolBit neg ++ voteCode m ++ 0#32))
  | .reorder h a base count => some (mk 0x00B h .u32 noOpd (opdCode a) noOpd (opdCode base ++ count ++ 0#19))
  | .yield h => some (mk 0x00C h .none noOpd noOpd noOpd 0)
  | .waitf h mask => some (mk 0x00D h .none noOpd noOpd noOpd (0#29 ++ mask))
  | .smov h t d b => some (mk 0x040 h t (opdCode d) noOpd (srcReg b) (auxX b 0))
  | .sadd h t d a b => some (mk 0x041 h t (opdCode d) (opdCode a) (srcReg b) (auxX b 0))
  | .ssub h t d a b => some (mk 0x042 h t (opdCode d) (opdCode a) (srcReg b) (auxX b 0))
  | .smul h t d a b => some (mk 0x043 h t (opdCode d) (opdCode a) (srcReg b) (auxX b 0))
  | .smulh h t d a b => some (mk 0x044 h t (opdCode d) (opdCode a) (srcReg b) (auxX b 0))
  | .sdiv h t d a b => some (mk 0x045 h t (opdCode d) (opdCode a) (srcReg b) (auxX b 0))
  | .srem h t d a b => some (mk 0x046 h t (opdCode d) (opdCode a) (srcReg b) (auxX b 0))
  | .sand h t d a b => some (mk 0x047 h t (opdCode d) (opdCode a) (srcReg b) (auxX b 0))
  | .sor h t d a b => some (mk 0x048 h t (opdCode d) (opdCode a) (srcReg b) (auxX b 0))
  | .sxor h t d a b => some (mk 0x049 h t (opdCode d) (opdCode a) (srcReg b) (auxX b 0))
  | .snot h t d a => some (mk 0x04A h t (opdCode d) (opdCode a) noOpd 0)
  | .sshl h t d a b => some (mk 0x04B h t (opdCode d) (opdCode a) (srcReg b) (auxX b 0))
  | .sshr h t d a b => some (mk 0x04C h t (opdCode d) (opdCode a) (srcReg b) (auxX b 0))
  | .ssar h t d a b => some (mk 0x04D h t (opdCode d) (opdCode a) (srcReg b) (auxX b 0))
  | .smin h t d a b => some (mk 0x04E h t (opdCode d) (opdCode a) (srcReg b) (auxX b 0))
  | .smax h t d a b => some (mk 0x04F h t (opdCode d) (opdCode a) (srcReg b) (auxX b 0))
  | .scmp h t c d a b => some (mk 0x050 h t (opdCode d) (opdCode a) (srcReg b) (auxX b (0#4 ++ condCode c)))
  | .ssel h t d a b c neg => some (mk 0x051 h t (opdCode d) (opdCode a) (srcReg b) (auxX b (boolBit neg ++ BitVec.ofNat 7 c.val)))
  | .sclz h t d a => some (mk 0x052 h t (opdCode d) (opdCode a) noOpd 0)
  | .spopc h t d a => some (mk 0x053 h t (opdCode d) (opdCode a) noOpd 0)
  | .sbfx h t d a b => some (mk 0x054 h t (opdCode d) (opdCode a) (srcReg b) (auxX b 0))
  | .sbfi h t d a b => some (mk 0x055 h t (opdCode d) (opdCode a) (srcReg b) (auxX b 0))
  | .slea h t d a b sh => some (mk 0x056 h t (opdCode d) (opdCode a) (srcReg b) (auxX b (0#2 ++ sh)))
  | .vmov h t d b => some (mk 0x080 h t (opdCode d) noOpd (srcReg b) (auxX b 0))
  | .vadd h t d a b sat => some (mk 0x081 h t (opdCode d) (opdCode a) (srcReg b) (auxX b (0#7 ++ boolBit sat)))
  | .vsub h t d a b sat => some (mk 0x082 h t (opdCode d) (opdCode a) (srcReg b) (auxX b (0#7 ++ boolBit sat)))
  | .vdp4 h t d a b sat => some (mk 0x09F h t (opdCode d) (opdCode a) (srcReg b) (auxX b (0#7 ++ boolBit sat)))
  | .vmul h t d a b => some (mk 0x083 h t (opdCode d) (opdCode a) (srcReg b) (auxX b 0))
  | .vmulh h t d a b => some (mk 0x084 h t (opdCode d) (opdCode a) (srcReg b) (auxX b 0))
  | .vdiv h t d a b => some (mk 0x087 h t (opdCode d) (opdCode a) (srcReg b) (auxX b 0))
  | .vrem h t d a b => some (mk 0x088 h t (opdCode d) (opdCode a) (srcReg b) (auxX b 0))
  | .vand h t d a b => some (mk 0x089 h t (opdCode d) (opdCode a) (srcReg b) (auxX b 0))
  | .vor h t d a b => some (mk 0x08A h t (opdCode d) (opdCode a) (srcReg b) (auxX b 0))
  | .vxor h t d a b => some (mk 0x08B h t (opdCode d) (opdCode a) (srcReg b) (auxX b 0))
  | .vshl h t d a b => some (mk 0x08D h t (opdCode d) (opdCode a) (srcReg b) (auxX b 0))
  | .vshr h t d a b => some (mk 0x08E h t (opdCode d) (opdCode a) (srcReg b) (auxX b 0))
  | .vsar h t d a b => some (mk 0x08F h t (opdCode d) (opdCode a) (srcReg b) (auxX b 0))
  | .vmin h t d a b => some (mk 0x090 h t (opdCode d) (opdCode a) (srcReg b) (auxX b 0))
  | .vmax h t d a b => some (mk 0x091 h t (opdCode d) (opdCode a) (srcReg b) (auxX b 0))
  | .vbfx h t d a b => some (mk 0x09A h t (opdCode d) (opdCode a) (srcReg b) (auxX b 0))
  | .vbfi h t d a b => some (mk 0x09B h t (opdCode d) (opdCode a) (srcReg b) (auxX b 0))
  | .vmad h t d a b c => some (mk 0x085 h t (opdCode d) (opdCode a) (opdCode b) (aux3 (opdCode c) .rne false 0))
  | .vmadw h t d a b c => some (mk 0x086 h t (opdCode d) (opdCode a) (opdCode b) (aux3 (opdCode c) .rne false 0))
  | .vnot h t d a => some (mk 0x08C h t (opdCode d) (opdCode a) noOpd 0)
  | .vclz h t d a => some (mk 0x098 h t (opdCode d) (opdCode a) noOpd 0)
  | .vpopc h t d a => some (mk 0x099 h t (opdCode d) (opdCode a) noOpd 0)
  | .vabs h t d a sat => some (mk 0x092 h t (opdCode d) (opdCode a) noOpd (auxX (.reg .zero) (0#7 ++ boolBit sat)))
  | .vneg h t d a sat => some (mk 0x093 h t (opdCode d) (opdCode a) noOpd (auxX (.reg .zero) (0#7 ++ boolBit sat)))
  | .vaddc h t d a b ciEn ci co => some (mk 0x094 h t (opdCode d) (opdCode a) (srcReg b) (auxX b (ctlCarry ciEn ci co)))
  | .vsubb h t d a b ciEn ci co => some (mk 0x095 h t (opdCode d) (opdCode a) (srcReg b) (auxX b (ctlCarry ciEn ci co)))
  | .vcmp h t c d a b => some (mk 0x096 h t (opdCode d) (opdCode a) (srcReg b) (auxX b (0#4 ++ condCode c)))
  | .vsel h t d a b p neg => some (mk 0x097 h t (opdCode d) (opdCode a) (srcReg b) (auxX b (0#4 ++ boolBit neg ++ BitVec.ofNat 3 p.val)))
  | .vprmb h d a b sel => some (mk 0x09C h .u32 (opdCode d) (opdCode a) (opdCode b) (low41 sel))
  | .vlea h t d a b sh => some (mk 0x09D h t (opdCode d) (opdCode a) (srcReg b) (auxX b (0#5 ++ sh)))
  | .vext h t d a w => some (mk 0x09E h t (opdCode d) (opdCode a) noOpd (auxX (.reg .zero) (0#6 ++ extwCode w)))
  | .pand h d a b na nb => some (mk 0x0C0 h .none (opdCode d) (opdCode a) (opdCode b) (auxX (.reg .zero) (ctlNeg na nb)))
  | .por h d a b na nb => some (mk 0x0C1 h .none (opdCode d) (opdCode a) (opdCode b) (auxX (.reg .zero) (ctlNeg na nb)))
  | .pxor h d a b na nb => some (mk 0x0C2 h .none (opdCode d) (opdCode a) (opdCode b) (auxX (.reg .zero) (ctlNeg na nb)))
  | .pnot h d a => some (mk 0x0C3 h .none (opdCode d) (opdCode a) noOpd 0)
  | .pmov h dir d a => some (mk 0x0C4 h .none (opdCode d) (opdCode a) noOpd
    (match dir with | .toS => 0 | .toP => 1#41 <<< 32))
  | .shfl h t m d a b pv => some (mk 0x0C5 h t (opdCode d) (opdCode a) (srcReg b) (auxX b (0#3 ++ BitVec.ofNat 3 pv.val ++ shflCode m)))
  | .vtos h t d a b => some (mk 0x0C6 h t (opdCode d) (opdCode a) (srcReg b) (auxX b 0))
  | .stov h t d a hi => some (mk 0x0C7 h t (opdCode d) (opdCode a) noOpd (auxX (.reg .zero) (0#7 ++ boolBit hi)))
  | .vspec h d a => some (mk 0x0C8 h .none (opdCode d) (opdCode a) noOpd 0)
  | .sspec h d a => some (mk 0x0C9 h .none (opdCode d) (opdCode a) noOpd 0)
  | .vfadd h t d a b rm sat => some (mk 0x100 h t (opdCode d) (opdCode a) (srcReg b) (aux3i b rm sat))
  | .vfsub h t d a b rm sat => some (mk 0x101 h t (opdCode d) (opdCode a) (srcReg b) (aux3i b rm sat))
  | .vfmul h t d a b rm sat => some (mk 0x102 h t (opdCode d) (opdCode a) (srcReg b) (aux3i b rm sat))
  | .vfscale h t d a b rm sat => some (mk 0x10C h t (opdCode d) (opdCode a) (srcReg b) (aux3i b rm sat))
  | .vfma h t d a b c rm sat => some (mk 0x103 h t (opdCode d) (opdCode a) (opdCode b) (aux3 (opdCode c) rm sat 0))
  | .vfmin h t d a b => some (mk 0x104 h t (opdCode d) (opdCode a) (srcReg b) (aux3i b .rne false))
  | .vfmax h t d a b => some (mk 0x105 h t (opdCode d) (opdCode a) (srcReg b) (aux3i b .rne false))
  | .vfcmp h t c d a b => some (mk 0x106 h t (opdCode d) (opdCode a) (srcReg b) (auxX b (0#4 ++ fcondCode c)))
  | .vfabs h t d a => some (mk 0x107 h t (opdCode d) (opdCode a) noOpd 0)
  | .vfneg h t d a => some (mk 0x108 h t (opdCode d) (opdCode a) noOpd 0)
  | .vfclass h t nar d a => some (mk 0x109 h t (opdCode d) (opdCode a) noOpd (aux3 0 .rne false nar))
  | .vfdot h t nar d a b rm sat => some (mk 0x10A h t (opdCode d) (opdCode a) (opdCode b) (aux3 0 rm sat nar))
  | .vfred h t d a rm => some (mk 0x10B h t (opdCode d) (opdCode a) noOpd (aux3 0 rm false 0))
  | .vfdiv h t d a b rm sat => some (mk 0x140 h t (opdCode d) (opdCode a) (opdCode b) (aux3 0 rm sat 0))
  | .vfsqrt h t d a rm sat => some (mk 0x141 h t (opdCode d) (opdCode a) noOpd (aux3 0 rm sat 0))
  | .vfrcp h t d a rm sat => some (mk 0x142 h t (opdCode d) (opdCode a) noOpd (aux3 0 rm sat 0))
  | .vfrsqrt h t d a rm sat => some (mk 0x143 h t (opdCode d) (opdCode a) noOpd (aux3 0 rm sat 0))
  | .vfexp2 h t d a rm sat => some (mk 0x144 h t (opdCode d) (opdCode a) noOpd (aux3 0 rm sat 0))
  | .vflog2 h t d a rm sat => some (mk 0x145 h t (opdCode d) (opdCode a) noOpd (aux3 0 rm sat 0))
  | .vfsinpi h t d a rm sat => some (mk 0x146 h t (opdCode d) (opdCode a) noOpd (aux3 0 rm sat 0))
  | .vfcospi h t d a rm sat => some (mk 0x147 h t (opdCode d) (opdCode a) noOpd (aux3 0 rm sat 0))
  | .vftanh h t d a rm sat => some (mk 0x148 h t (opdCode d) (opdCode a) noOpd (aux3 0 rm sat 0))
  | .vcvt h dt st nar d a rm sat => some (mk 0x149 h dt (opdCode d) (opdCode a) noOpd (auxCvt st rm sat nar))
  | .vpack8 h nar st d a b rm sat => some (mk 0x14A h .b8 (opdCode d) (opdCode a) (opdCode b) (auxCvt st rm sat nar))
  | .vunpk8 h dt nar d a rm sat => some (mk 0x14B h dt (opdCode d) (opdCode a) noOpd (auxCvt .b8 rm sat nar))
  | .vfrnd h t d a rm => some (mk 0x14C h t (opdCode d) (opdCode a) noOpd (aux3 0 rm false 0))
  | .vqscale h nar d a b rm sat => some (mk 0x14D h .b8 (opdCode d) (opdCode a) (opdCode b) (auxCvt .f32 rm sat nar))
  | .ld h sgn d a m => some (mk 0x180 h (if sgn then .i32 else .none) (opdCode d) (opdCode a) noOpd (auxM m))
  | .st h a b m => some (mk 0x181 h .none noOpd (opdCode a) (opdCode b) (auxM m))
  | .ldl h sgn d a m => some (mk 0x182 h (if sgn then .i32 else .none) (opdCode d) (opdCode a) noOpd (auxL m))
  | .stl h a b m => some (mk 0x183 h .none noOpd (opdCode a) (opdCode b) (auxL m))
  | .lds h sgn d a m => some (mk 0x184 h (if sgn then .i32 else .none) (opdCode d) (opdCode a) noOpd (auxM m))
  | .sts h a b m => some (mk 0x185 h .none noOpd (opdCode a) (opdCode b) (auxM m))
  | .ldc h sgn d a m => some (mk 0x186 h (if sgn then .i32 else .none) (opdCode d) (opdCode a) noOpd (auxM m))
  | .ldx h t d a m => some (mk 0x187 h t (opdCode d) (opdCode a) noOpd (auxM m))
  | .stx h t a b m => some (mk 0x188 h t noOpd (opdCode a) (opdCode b) (auxS m))
  | .pref h a l2 off => some (mk 0x189 h .none noOpd (opdCode a) noOpd ((if l2 then 2#3 else 1#3) ++ 0#6 ++ off))
  | .bpf h a b die bar => some (mk 0x18A h .none noOpd (opdCode a) (opdCode b) (match bar with
    | none => 0#1 ++ BitVec.ofNat 2 die.val ++ 0#38
    | some o => 1#1 ++ BitVec.ofNat 2 die.val ++ 0#18 ++ o))
  | .cflush h a b m => some (mk 0x18B h .none noOpd (opdCode a) (opdCode b) (0#7 ++ flushCode m ++ 0#32))
  | .xlat h d a off => some (mk 0x18C h .none (opdCode d) (opdCode a) noOpd (low41 off))
  | .cbinit h d a buf count => some (mk 0x18D h .none (opdCode d) (opdCode a) noOpd (0#28 ++ count ++ BitVec.ofNat 4 buf.val))
  | .cbwait h d buf => some (mk 0x18E h .none (opdCode d) noOpd noOpd (BitVec.ofNat 41 buf.val))
  | .cbrel h buf => some (mk 0x18F h .none noOpd noOpd noOpd (BitVec.ofNat 41 buf.val))
  | .cbacq h d buf => some (mk 0x190 h .none (opdCode d) noOpd noOpd (BitVec.ofNat 41 buf.val))
  | .cbpub h buf => some (mk 0x191 h .none noOpd noOpd noOpd (BitVec.ofNat 41 buf.val))
  | .launch h d a b pp => some (mk 0x1C0 h .none (opdCode d) (opdCode a) (opdCode b) (0#6 ++ BitVec.ofNat 3 pp.val ++ 0#32))
  | .lwait h d b => some (mk 0x1C1 h .none (opdCode d) noOpd (srcReg b) (auxX b 0))
  | .dchk h d level => some (mk 0x1C2 h .none (opdCode d) noOpd noOpd (BitVec.ofNat 3 level.val ++ 0#38))
  | .tdom h d => some (mk 0x1C3 h .none (opdCode d) noOpd noOpd 0)
  | .rgrow h d n => some (mk 0x1C4 h .none (opdCode d) noOpd noOpd (low41 n))
  | .salloc h d b => some (mk 0x1C5 h .none (opdCode d) noOpd (srcReg b) (auxX b 0))
  | .sfree h b => some (mk 0x1C6 h .none noOpd noOpd (srcReg b) (auxX b 0))
  | .tsplit h d => some (mk 0x1C7 h .none (opdCode d) noOpd noOpd 0)
  | .take h a off => some (mk 0x1C8 h .none noOpd (opdCode a) noOpd (low41 off))
  | .srel h => some (mk 0x1C9 h .none noOpd noOpd noOpd 0)
  | .qpush h d a => some (mk 0x200 h .none (opdCode d) (opdCode a) noOpd 0)
  | .qpop h d a => some (mk 0x201 h .none (opdCode d) (opdCode a) noOpd 0)
  | .mxcmd h a => some (mk 0x202 h .none noOpd (opdCode a) noOpd 0)
  | .mxcommit h d report => some (mk 0x203 h .none (opdCode d) noOpd noOpd (low41 (boolBit report)))
  | .mxwait h b => some (mk 0x204 h .none noOpd noOpd (src16Reg b) (match b with | .reg _ => 0 | .imm w => 1#1 ++ 0#24 ++ w))
  | .mxtab h a slot => some (mk 0x205 h .none noOpd (opdCode a) noOpd (BitVec.ofNat 41 slot.val))
  | .cpy h m a engine => some (mk 0x206 h .none noOpd (opdCode a) noOpd (0#3 ++ cpyCode m ++ 0#1 ++ BitVec.ofNat 3 engine.val ++ 0#32))
  | .fence h o scope => some (mk 0x240 h .none noOpd noOpd noOpd (scopeCode scope ++ 0#1 ++ orderCode o ++ 0#35))
  | .atom h t d a b m => some (mk 0x241 h t (opdCode d) (opdCode a) (opdCode b) (auxT m))
  | .acas h t d a b scope pp o off => some (mk 0x242 h t (opdCode d) (opdCode a) (opdCode b) (scopeCode scope ++ BitVec.ofNat 3 pp.val ++ 0#1 ++ orderCode o ++ off))
  | .red h t a b m => some (mk 0x243 h t noOpd (opdCode a) (opdCode b) (auxT m))
  | .hinit h a b off => some (mk 0x244 h .none noOpd (opdCode a) (src16Reg b) (auxH b false off))
  | .harrive h d a b off => some (match b with
    | .none => mk 0x245 h .none (opdCode d) (opdCode a) noOpd (low41 off)
    | .tx n => mk 0x245 h .none (opdCode d) (opdCode a) (src16Reg n) (auxH n true off))
  | .hdrop h a off => some (mk 0x246 h .none noOpd (opdCode a) noOpd (low41 off))
  | .hwait h a b off => some (mk 0x247 h .none noOpd (opdCode a) (src16Reg b) (auxH b false off))
  | .bar h b id => some (match b with
    | .none => mk 0x248 h .none noOpd noOpd noOpd (BitVec.ofNat 41 id.val)
    | .reg o => mk 0x248 h .none noOpd noOpd (opdCode o) (BitVec.ofNat 41 id.val)
    | .imm n => mk 0x248 h .none noOpd noOpd noOpd (1#1 ++ n ++ 0#22 ++ BitVec.ofNat 2 id.val))
  | .monitor h a m => some (mk 0x249 h .none noOpd (opdCode a) noOpd (auxM m))
  | .mwait h d b => some (mk 0x24A h .none (opdCode d) noOpd (opdCode b) 0)
  | .tstamp h d => some (mk 0x24B h .none (opdCode d) noOpd noOpd 0)
  | .tbegin h c off => some (match c with
    | .v => mk 0x280 h .none noOpd noOpd noOpd (auxB 0 off)
    | .e => mk 0x280 h .none noOpd noOpd noOpd (auxB (1#2 ++ 0#7) off)
    | .o b => mk 0x280 h .u64 noOpd noOpd (opdCode b) (auxB (2#2 ++ 0#7) off))
  | .tend h => some (mk 0x281 h .none noOpd noOpd noOpd 0)
  | .tabort h v => some (mk 0x282 h .none noOpd noOpd noOpd (low41 v))
  | .tstat h d clr => some (mk 0x283 h .none (opdCode d) noOpd noOpd (low41 (boolBit clr)))
  | .tnarrow h a b => some (mk 0x284 h .u64 noOpd (opdCode a) (opdCode b) 0)
  | .tposG h d => some (mk 0x285 h .u64 (opdCode d) noOpd noOpd 0)
  | .tposF h d => some (mk 0x285 h .none (opdCode d) noOpd noOpd (auxX (.reg .zero) 1))
  | .tposB h d => some (mk 0x285 h .none (opdCode d) noOpd noOpd (auxX (.reg .zero) 2))
  | .tposVac h b => some (mk 0x285 h .none noOpd noOpd (srcReg b) (auxX b 3))
  | .trap h code => some (mk 0x2C0 h .none noOpd noOpd noOpd (low41 code))
  | .tret h => some (mk 0x2C1 h .none noOpd noOpd noOpd 0)
  | .tretSkip h => some (mk 0x2C1 h .none noOpd noOpd noOpd (auxX (.reg .zero) 1))
  | .tretTo h a => some (mk 0x2C1 h .u64 noOpd (opdCode a) noOpd (auxX (.reg .zero) 2))
  | .sysr h d reg b => some (mk 0x2C2 h .none (opdCode d) noOpd (ctxReg b) (ctxAux b reg))
  | .sysw h reg a b => some (mk 0x2C3 h .none noOpd (opdCode a) (ctxReg b) (ctxAux b reg))
  | .beacon h b => some (mk 0x2C4 h .none noOpd noOpd (srcReg b) (auxX b 0))
  | .bflipDev h a => some (mk 0x2C5 h .none noOpd (opdCode a) noOpd 0)
  | .bflipHost h a => some (mk 0x2C5 h .none noOpd (opdCode a) noOpd (auxX (.reg .zero) 1))
  | .evmark h a code => some (mk 0x2C6 h .none noOpd (opdCode a) noOpd (low41 code))
  | .haltf h code => some (mk 0x2C7 h .none noOpd noOpd noOpd (low41 code))
  | _ => none

/-- The pair format (R41). -/
def encodePair (h : Hd) (sop : Fin 23) (vop : PairOp) (sd sa : Fin 128) (sb : PairB) (vd va vb : Opd) (t : Ty) :
    W96 :=
  15#4 ++ guardCode h ++ BitVec.ofNat 7 sop.val
    ++ (match vop with
        | .g2 n => 0#1 ++ BitVec.ofNat 6 n.val
        | .g4 n => 1#1 ++ BitVec.ofNat 6 n.val)
    ++ BitVec.ofNat 7 sd.val ++ BitVec.ofNat 7 sa.val
    ++ (match sb with
        | .reg n => 0#1 ++ BitVec.ofNat 7 n.val
        | .imm i => 1#1 ++ i)
    ++ opdCode vd ++ opdCode va ++ opdCode vb ++ t.code ++ hintsCode h ++ 0#11

/-- The clause header (R23). -/
def encodeHdr (c : ClauseHdr) : W96 :=
  0#10 ++ c.len ++ c.wait ++ c.slotA ++ c.slotB ++ c.heavy ++ c.yield ++ 0#8 ++ c.tag ++ 0#32

/-- EXIT as the end of a prologue (R326). -/
def encodeEnd (code : BitVec 2) (n : BitVec 16) : W96 :=
  6#10 ++ 0#45 ++ 0#9 ++ n ++ 0#14 ++ code

/-- The word of an instruction; none for the steps that have no word. -/
def encode : Instr → Option W96
  | .pair h sop vop sd sa sb vd va vb t => some (encodePair h sop vop sd sa sb vd va vb t)
  | .clauseStart c => some (encodeHdr c)
  | .prologueGo _ => some (encodeEnd 0 0)
  | .prologueCancel _ => some (encodeEnd 1 0)
  | .prologueRepeat _ n => some (encodeEnd 2 n)
  | i => (encodeFields i).map fieldsWord

/-! ## The decoder -/

def amOf (x : BitVec 41) : Option Am :=
  (scopeOf (x.extractLsb' 38 3)).bind fun sc => (sizeOf (x.extractLsb' 32 3)).map fun sz =>
    ⟨sc, x.getLsbD 37, orderOf (x.extractLsb' 35 2), sz, x.extractLsb' 0 32⟩

def alOf (x : BitVec 41) : Option Al :=
  (sizeOf (x.extractLsb' 33 3)).map fun sz =>
    ⟨Fin.ofNat 8 (x.extractLsb' 38 3).toNat, Fin.ofNat 4 (x.extractLsb' 36 2).toNat, sz,
      orderOf (x.extractLsb' 31 2), x.extractLsb' 0 24⟩

def axOf (x : BitVec 41) : Option Ax :=
  (scopeOf (x.extractLsb' 38 3)).bind fun sc => (rmOf (x.extractLsb' 32 3)).map fun rm =>
    ⟨sc, x.getLsbD 37, orderOf (x.extractLsb' 35 2), rm, x.extractLsb' 0 32⟩

def atOf (x : BitVec 41) : Option At :=
  (scopeOf (x.extractLsb' 38 3)).bind fun sc => (aopOf (x.extractLsb' 34 4)).map fun op =>
    ⟨sc, op, orderOf (x.extractLsb' 32 2), x.extractLsb' 0 32⟩

/-- Group 0x0 by op number (R43). -/
def parse0 (f : Fields) (h : Hd) (t : Ty) (d a b : Opd) : Option Instr :=
  let x := f.aux
  let imm : W32 := x.extractLsb' 0 32
  match (f.opcode.extractLsb' 0 6).toNat with
  | 0x01 => some (.nop h)
  | 0x02 =>
    match (x.extractLsb' 39 2).toNat with
    | 0 => some (.bra h .always imm) | 1 => some (.bra h (.nz a) imm) | 2 => some (.bra h (.z a) imm)
    | _ => none
  | 0x03 => some (.brx h a)
  | 0x04 => if x.getLsbD 40 then some (.call h d (.reg a)) else some (.call h d (.label imm))
  | 0x05 => some (.ret h a)
  | 0x06 => some (.exit h)
  | 0x07 => some (.cvg h a)
  | 0x08 => some (.cvgset h d)
  | 0x09 => some (.elect h d a)
  | 0x0A => some (.vote h (voteOf (x.extractLsb' 32 2)) d a (x.getLsbD 34))
  | 0x0B => (opdOf (x.extractLsb' 30 11)).map (fun base => .reorder h a base (x.extractLsb' 19 11))
  | 0x0C => some (.yield h)
  | 0x0D => some (.waitf h (x.extractLsb' 0 12))
  | _ => none

/-- Group 0x1 by op number (R43). -/
def parse1 (f : Fields) (h : Hd) (t : Ty) (d a b : Opd) : Option Instr :=
  let x := f.aux
  let s : Src := if x.getLsbD 40 then .imm (x.extractLsb' 0 32) else .reg b
  match (f.opcode.extractLsb' 0 6).toNat with
  | 0x00 => some (.smov h t d s)
  | 0x01 => some (.sadd h t d a s)
  | 0x02 => some (.ssub h t d a s)
  | 0x03 => some (.smul h t d a s)
  | 0x04 => some (.smulh h t d a s)
  | 0x05 => some (.sdiv h t d a s)
  | 0x06 => some (.srem h t d a s)
  | 0x07 => some (.sand h t d a s)
  | 0x08 => some (.sor h t d a s)
  | 0x09 => some (.sxor h t d a s)
  | 0x0A => some (.snot h t d a)
  | 0x0B => some (.sshl h t d a s)
  | 0x0C => some (.sshr h t d a s)
  | 0x0D => some (.ssar h t d a s)
  | 0x0E => some (.smin h t d a s)
  | 0x0F => some (.smax h t d a s)
  | 0x10 => (condOf (x.extractLsb' 32 4)).map (fun c => .scmp h t c d a s)
  | 0x11 => some (.ssel h t d a s (Fin.ofNat 128 (x.extractLsb' 32 7).toNat) (x.getLsbD 39))
  | 0x12 => some (.sclz h t d a)
  | 0x13 => some (.spopc h t d a)
  | 0x14 => some (.sbfx h t d a s)
  | 0x15 => some (.sbfi h t d a s)
  | 0x16 => some (.slea h t d a s (x.extractLsb' 32 6))
  | _ => none

/-- Group 0x2 by op number (R43). -/
def parse2 (f : Fields) (h : Hd) (t : Ty) (d a b : Opd) : Option Instr :=
  let x := f.aux
  let s : Src := if x.getLsbD 40 then .imm (x.extractLsb' 0 32) else .reg b
  match (f.opcode.extractLsb' 0 6).toNat with
  | 0x00 => some (.vmov h t d s)
  | 0x01 => some (.vadd h t d a s (x.getLsbD 32))
  | 0x02 => some (.vsub h t d a s (x.getLsbD 32))
  | 0x03 => some (.vmul h t d a s)
  | 0x04 => some (.vmulh h t d a s)
  | 0x05 => (opdOf (x.extractLsb' 30 11)).map (fun c => .vmad h t d a b c)
  | 0x06 => (opdOf (x.extractLsb' 30 11)).map (fun c => .vmadw h t d a b c)
  | 0x07 => some (.vdiv h t d a s)
  | 0x08 => some (.vrem h t d a s)
  | 0x09 => some (.vand h t d a s)
  | 0x0A => some (.vor h t d a s)
  | 0x0B => some (.vxor h t d a s)
  | 0x0C => some (.vnot h t d a)
  | 0x0D => some (.vshl h t d a s)
  | 0x0E => some (.vshr h t d a s)
  | 0x0F => some (.vsar h t d a s)
  | 0x10 => some (.vmin h t d a s)
  | 0x11 => some (.vmax h t d a s)
  | 0x12 => some (.vabs h t d a (x.getLsbD 32))
  | 0x13 => some (.vneg h t d a (x.getLsbD 32))
  | 0x14 =>
    some (.vaddc h t d a s (x.getLsbD 39) (Fin.ofNat 8 (x.extractLsb' 36 3).toNat)
      (Fin.ofNat 8 (x.extractLsb' 32 3).toNat))
  | 0x15 =>
    some (.vsubb h t d a s (x.getLsbD 39) (Fin.ofNat 8 (x.extractLsb' 36 3).toNat)
      (Fin.ofNat 8 (x.extractLsb' 32 3).toNat))
  | 0x16 => (condOf (x.extractLsb' 32 4)).map (fun c => .vcmp h t c d a s)
  | 0x17 => some (.vsel h t d a s (Fin.ofNat 8 (x.extractLsb' 32 3).toNat) (x.getLsbD 35))
  | 0x18 => some (.vclz h t d a)
  | 0x19 => some (.vpopc h t d a)
  | 0x1A => some (.vbfx h t d a s)
  | 0x1B => some (.vbfi h t d a s)
  | 0x1C => some (.vprmb h d a b (x.extractLsb' 0 16))
  | 0x1D => some (.vlea h t d a s (x.extractLsb' 32 3))
  | 0x1E => (extwOf (x.extractLsb' 32 2)).map (fun w => .vext h t d a w)
  | 0x1F => some (.vdp4 h t d a s (x.getLsbD 32))
  | _ => none

/-- Group 0x3 by op number (R43). -/
def parse3 (f : Fields) (h : Hd) (t : Ty) (d a b : Opd) : Option Instr :=
  let x := f.aux
  let s : Src := if x.getLsbD 40 then .imm (x.extractLsb' 0 32) else .reg b
  match (f.opcode.extractLsb' 0 6).toNat with
  | 0x00 => some (.pand h d a b (x.getLsbD 32) (x.getLsbD 33))
  | 0x01 => some (.por h d a b (x.getLsbD 32) (x.getLsbD 33))
  | 0x02 => some (.pxor h d a b (x.getLsbD 32) (x.getLsbD 33))
  | 0x03 => some (.pnot h d a)
  | 0x04 => some (.pmov h (if x.getLsbD 32 then .toP else .toS) d a)
  | 0x05 => some (.shfl h t (shflOf (x.extractLsb' 32 2)) d a s (Fin.ofNat 8 (x.extractLsb' 34 3).toNat))
  | 0x06 => some (.vtos h t d a s)
  | 0x07 => some (.stov h t d a (x.getLsbD 32))
  | 0x08 => some (.vspec h d a)
  | 0x09 => some (.sspec h d a)
  | _ => none

/-- Group 0x4 by op number (R43). -/
def parse4 (f : Fields) (h : Hd) (t : Ty) (d a b : Opd) : Option Instr :=
  let x := f.aux
  let s : Src := if x.getLsbD 40 then .imm (x.extractLsb' 0 32) else .reg b
  let rm := rmOf (x.extractLsb' 27 3)
  let nar : BitVec 6 := x.extractLsb' 20 6
  match (f.opcode.extractLsb' 0 6).toNat with
  | 0x00 =>
    if x.getLsbD 40 then some (.vfadd h t d a s .rne false)
    else rm.map (fun rm => .vfadd h t d a s rm (x.getLsbD 26))
  | 0x01 =>
    if x.getLsbD 40 then some (.vfsub h t d a s .rne false)
    else rm.map (fun rm => .vfsub h t d a s rm (x.getLsbD 26))
  | 0x02 =>
    if x.getLsbD 40 then some (.vfmul h t d a s .rne false)
    else rm.map (fun rm => .vfmul h t d a s rm (x.getLsbD 26))
  | 0x03 => (opdOf (x.extractLsb' 30 11)).bind (fun c => rm.map (fun rm => .vfma h t d a b c rm (x.getLsbD 26)))
  | 0x04 => some (.vfmin h t d a s)
  | 0x05 => some (.vfmax h t d a s)
  | 0x06 => (fcondOf (x.extractLsb' 32 4)).map (fun c => .vfcmp h t c d a s)
  | 0x07 => some (.vfabs h t d a)
  | 0x08 => some (.vfneg h t d a)
  | 0x09 => some (.vfclass h t nar d a)
  | 0x0A => rm.map (fun rm => .vfdot h t nar d a b rm (x.getLsbD 26))
  | 0x0B => rm.map (fun rm => .vfred h t d a rm)
  | 0x0C =>
    if x.getLsbD 40 then some (.vfscale h t d a s .rne false)
    else rm.map (fun rm => .vfscale h t d a s rm (x.getLsbD 26))
  | _ => none

/-- Group 0x5 by op number (R43). -/
def parse5 (f : Fields) (h : Hd) (t : Ty) (d a b : Opd) : Option Instr :=
  let x := f.aux
  let rm := rmOf (x.extractLsb' 27 3)
  let nar : BitVec 6 := x.extractLsb' 20 6
  match (f.opcode.extractLsb' 0 6).toNat with
  | 0x00 => rm.map (fun rm => .vfdiv h t d a b rm (x.getLsbD 26))
  | 0x01 => rm.map (fun rm => .vfsqrt h t d a rm (x.getLsbD 26))
  | 0x02 => rm.map (fun rm => .vfrcp h t d a rm (x.getLsbD 26))
  | 0x03 => rm.map (fun rm => .vfrsqrt h t d a rm (x.getLsbD 26))
  | 0x04 => rm.map (fun rm => .vfexp2 h t d a rm (x.getLsbD 26))
  | 0x05 => rm.map (fun rm => .vflog2 h t d a rm (x.getLsbD 26))
  | 0x06 => rm.map (fun rm => .vfsinpi h t d a rm (x.getLsbD 26))
  | 0x07 => rm.map (fun rm => .vfcospi h t d a rm (x.getLsbD 26))
  | 0x08 => rm.map (fun rm => .vftanh h t d a rm (x.getLsbD 26))
  | 0x09 => (tyOf (x.extractLsb' 37 4)).bind (fun st => rm.map (fun rm => .vcvt h t st nar d a rm (x.getLsbD 26)))
  | 0x0A => (tyOf (x.extractLsb' 37 4)).bind (fun st => rm.map (fun rm => .vpack8 h nar st d a b rm (x.getLsbD 26)))
  | 0x0B => rm.map (fun rm => .vunpk8 h t nar d a rm (x.getLsbD 26))
  | 0x0C => rm.map (fun rm => .vfrnd h t d a rm)
  | 0x0D => rm.map (fun rm => .vqscale h nar d a b rm (x.getLsbD 26))
  | _ => none

/-- Group 0x6 by op number (R43). -/
def parse6 (f : Fields) (h : Hd) (t : Ty) (d a b : Opd) : Option Instr :=
  let x := f.aux
  let imm : W32 := x.extractLsb' 0 32
  match (f.opcode.extractLsb' 0 6).toNat with
  | 0x00 => (amOf x).map (fun m => .ld h (t == .i32) d a m)
  | 0x01 => (amOf x).map (fun m => .st h a b m)
  | 0x02 => (alOf x).map (fun m => .ldl h (t == .i32) d a m)
  | 0x03 => (alOf x).map (fun m => .stl h a b m)
  | 0x04 => (amOf x).map (fun m => .lds h (t == .i32) d a m)
  | 0x05 => (amOf x).map (fun m => .sts h a b m)
  | 0x06 => (amOf x).map (fun m => .ldc h (t == .i32) d a m)
  | 0x07 => (amOf x).map (fun m => .ldx h t d a m)
  | 0x08 => (axOf x).map (fun m => .stx h t a b m)
  | 0x09 => some (.pref h a (x.getLsbD 39) imm)
  | 0x0A =>
    some (.bpf h a b (Fin.ofNat 4 (x.extractLsb' 38 2).toNat)
      (if x.getLsbD 40 then some (x.extractLsb' 0 20) else none))
  | 0x0B => (flushOf (x.extractLsb' 32 2)).map (fun m => .cflush h a b m)
  | 0x0C => some (.xlat h d a imm)
  | 0x0D => some (.cbinit h d a (Fin.ofNat 16 (x.extractLsb' 0 4).toNat) (x.extractLsb' 4 9))
  | 0x0E => some (.cbwait h d (Fin.ofNat 16 (x.extractLsb' 0 4).toNat))
  | 0x0F => some (.cbrel h (Fin.ofNat 16 (x.extractLsb' 0 4).toNat))
  | 0x10 => some (.cbacq h d (Fin.ofNat 16 (x.extractLsb' 0 4).toNat))
  | 0x11 => some (.cbpub h (Fin.ofNat 16 (x.extractLsb' 0 4).toNat))
  | _ => none

/-- Group 0x7 by op number (R43). -/
def parse7 (f : Fields) (h : Hd) (t : Ty) (d a b : Opd) : Option Instr :=
  let x := f.aux
  let imm : W32 := x.extractLsb' 0 32
  let s : Src := if x.getLsbD 40 then .imm (x.extractLsb' 0 32) else .reg b
  match (f.opcode.extractLsb' 0 6).toNat with
  | 0x00 => some (.launch h d a b (Fin.ofNat 8 (x.extractLsb' 32 3).toNat))
  | 0x01 => some (.lwait h d s)
  | 0x02 => some (.dchk h d (Fin.ofNat 8 (x.extractLsb' 38 3).toNat))
  | 0x03 => some (.tdom h d)
  | 0x04 => some (.rgrow h d (x.extractLsb' 0 5))
  | 0x05 => some (.salloc h d s)
  | 0x06 => some (.sfree h s)
  | 0x07 => some (.tsplit h d)
  | 0x08 => some (.take h a imm)
  | 0x09 => some (.srel h)
  | _ => none

/-- Group 0x8 by op number (R43). -/
def parse8 (f : Fields) (h : Hd) (t : Ty) (d a b : Opd) : Option Instr :=
  let x := f.aux
  match (f.opcode.extractLsb' 0 6).toNat with
  | 0x00 => some (.qpush h d a)
  | 0x01 => some (.qpop h d a)
  | 0x02 => some (.mxcmd h a)
  | 0x03 => some (.mxcommit h d (x.getLsbD 0))
  | 0x04 => some (.mxwait h (if x.getLsbD 40 then .imm (x.extractLsb' 0 16) else .reg b))
  | 0x05 => some (.mxtab h a (Fin.ofNat 4 (x.extractLsb' 0 2).toNat))
  | 0x06 => some (.cpy h (cpyOf (x.extractLsb' 36 2)) a (Fin.ofNat 8 (x.extractLsb' 32 3).toNat))
  | _ => none

/-- Group 0x9 by op number (R43). -/
def parse9 (f : Fields) (h : Hd) (t : Ty) (d a b : Opd) : Option Instr :=
  let x := f.aux
  let imm : W32 := x.extractLsb' 0 32
  match (f.opcode.extractLsb' 0 6).toNat with
  | 0x00 => (scopeOf (x.extractLsb' 38 3)).map (fun sc => .fence h (orderOf (x.extractLsb' 35 2)) sc)
  | 0x01 => (atOf x).map (fun m => .atom h t d a b m)
  | 0x02 =>
    (scopeOf (x.extractLsb' 38 3)).map (fun sc => .acas h t d a b sc
      (Fin.ofNat 8 (x.extractLsb' 35 3).toNat) (orderOf (x.extractLsb' 32 2)) imm)
  | 0x03 => (atOf x).map (fun m => .red h t a b m)
  | 0x04 => some (.hinit h a (if x.getLsbD 40 then .imm (x.extractLsb' 24 16) else .reg b) (x.extractLsb' 0 20))
  | 0x05 => some (.harrive h d a (if x.getLsbD 23 then .tx (if x.getLsbD 40 then .imm (x.extractLsb' 24 16) else .reg b) else .none) (x.extractLsb' 0 20))
  | 0x06 => some (.hdrop h a (x.extractLsb' 0 20))
  | 0x07 => some (.hwait h a (if x.getLsbD 40 then .imm (x.extractLsb' 24 16) else .reg b) (x.extractLsb' 0 20))
  | 0x08 =>
    let id : Fin 4 := Fin.ofNat 4 (x.extractLsb' 0 2).toNat
    if x.getLsbD 40 then some (.bar h (.imm (x.extractLsb' 24 16)) id)
    else if f.b = noOpd then some (.bar h .none id) else some (.bar h (.reg b) id)
  | 0x09 => (amOf x).map (fun m => .monitor h a m)
  | 0x0A => some (.mwait h d b)
  | 0x0B => some (.tstamp h d)
  | _ => none

/-- Group 0xA by op number (R43). -/
def parseA (f : Fields) (h : Hd) (t : Ty) (d a b : Opd) : Option Instr :=
  let x := f.aux
  let imm : W32 := x.extractLsb' 0 32
  let s : Src := if x.getLsbD 40 then .imm (x.extractLsb' 0 32) else .reg b
  match (f.opcode.extractLsb' 0 6).toNat with
  | 0x00 =>
    match (x.extractLsb' 39 2).toNat with
    | 0 => some (.tbegin h .v imm) | 1 => some (.tbegin h .e imm) | 2 => some (.tbegin h (.o b) imm)
    | _ => none
  | 0x01 => some (.tend h)
  | 0x02 => some (.tabort h (x.extractLsb' 0 8))
  | 0x03 => some (.tstat h d (x.getLsbD 0))
  | 0x04 => some (.tnarrow h a b)
  | 0x05 =>
    match (x.extractLsb' 32 2).toNat with
    | 0 => some (.tposG h d) | 1 => some (.tposF h d) | 2 => some (.tposB h d)
    | _ => some (.tposVac h s)
  | _ => none

/-- Group 0xB by op number (R43). -/
def parseB (f : Fields) (h : Hd) (t : Ty) (d a b : Opd) : Option Instr :=
  let x := f.aux
  let s : Src := if x.getLsbD 40 then .imm (x.extractLsb' 0 32) else .reg b
  match (f.opcode.extractLsb' 0 6).toNat with
  | 0x00 => some (.trap h (x.extractLsb' 0 16))
  | 0x01 =>
    match (x.extractLsb' 32 2).toNat with
    | 0 => some (.tret h) | 1 => some (.tretSkip h) | 2 => some (.tretTo h a)
    | _ => none
  | 0x02 => some (.sysr h d (x.extractLsb' 0 12) (if x.getLsbD 40 then .other b else .own))
  | 0x03 => some (.sysw h (x.extractLsb' 0 12) a (if x.getLsbD 40 then .other b else .own))
  | 0x04 => some (.beacon h s)
  | 0x05 => some (if x.getLsbD 32 then .bflipHost h a else .bflipDev h a)
  | 0x06 => some (.evmark h a (x.extractLsb' 0 16))
  | 0x07 => some (.haltf h (x.extractLsb' 0 16))
  | _ => none

/-- A standard-format word's instruction, before the checks of its fields. -/
def parseStd (f : Fields) : Option Instr :=
  match tyOf f.type, opdOf f.d, opdOf f.a, opdOf f.b with
  | some t, some d, some a, some b =>
    let h := hdOf f.guard f.hints
    match (f.opcode.extractLsb' 6 4).toNat with
    | 0x0 => parse0 f h t d a b
    | 0x1 => parse1 f h t d a b
    | 0x2 => parse2 f h t d a b
    | 0x3 => parse3 f h t d a b
    | 0x4 => parse4 f h t d a b
    | 0x5 => parse5 f h t d a b
    | 0x6 => parse6 f h t d a b
    | 0x7 => parse7 f h t d a b
    | 0x8 => parse8 f h t d a b
    | 0x9 => parse9 f h t d a b
    | 0xA => parseA f h t d a b
    | 0xB => parseB f h t d a b
    | _ => none
  | _, _, _, _ => none

/-- A pair word's instruction, before the checks of its fields (R41). -/
def parsePair (w : W96) : Option Instr :=
  let sop := (w.extractLsb' 81 7).toNat
  let vsel := (w.extractLsb' 74 6).toNat
  match tyOf (w.extractLsb' 15 4), opdOf (w.extractLsb' 41 11), opdOf (w.extractLsb' 30 11),
      opdOf (w.extractLsb' 19 11) with
  | some t, some vd, some va, some vb =>
    let vop : Option PairOp :=
      if w.getLsbD 80 then (if vsel < 13 then some (.g4 (Fin.ofNat 13 vsel)) else none)
      else (if vsel < 32 then some (.g2 (Fin.ofNat 32 vsel)) else none)
    let sb : PairB :=
      if w.getLsbD 59 then .imm (w.extractLsb' 52 7) else .reg (Fin.ofNat 128 (w.extractLsb' 52 7).toNat)
    match vop with
    | none => none
    | some vop =>
      if sop < 23 then
        some (.pair (hdOf (w.extractLsb' 88 4) (w.extractLsb' 11 4)) (Fin.ofNat 23 sop) vop
          (Fin.ofNat 128 (w.extractLsb' 67 7).toNat) (Fin.ofNat 128 (w.extractLsb' 60 7).toNat) sb vd va vb t)
      else none
  | _, _, _, _ => none

/-- A header word's fields (R23). -/
def parseHdr (w : W96) : ClauseHdr where
  len := w.extractLsb' 82 4
  wait := w.extractLsb' 70 12
  slotA := w.extractLsb' 66 4
  slotB := w.extractLsb' 62 4
  heavy := w.extractLsb' 58 4
  yield := w.extractLsb' 56 2
  tag := w.extractLsb' 32 16

/-- The op numbers that a group assigns (R43, R44). -/
def assigned (group op : Nat) : Bool :=
  match group with
  | 0x0 => op ≤ 0x0D
  | 0x1 => op ≤ 0x16
  | 0x2 => op ≤ 0x1F
  | 0x3 => op ≤ 0x09
  | 0x4 => op ≤ 0x0C
  | 0x5 => op ≤ 0x0D
  | 0x6 => op ≤ 0x11
  | 0x7 => op ≤ 0x09
  | 0x8 => op ≤ 0x06
  | 0x9 => op ≤ 0x0B
  | 0xA => op ≤ 0x05
  | 0xB => op ≤ 0x07
  | 0xF => true
  | _ => false

/-- Is a word a clause header by its opcode (R23)? -/
def isHdrWord (w : W96) : Bool := w.extractLsb' 86 10 == 0

/-- What a word parses to. -/
def parseWord (w : W96) : Option Instr :=
  if isHdrWord w then some (.clauseStart (parseHdr w))
  else if w.extractLsb' 92 4 == 15 then parsePair w
  else parseStd (fieldsOf w)

/-- Decoding, total on every word: the instruction, or why there is none (R45, R48). -/
def decode (w : W96) : Except Reject Instr :=
  let group := (w.extractLsb' 92 4).toNat
  if group = 0xC ∨ group = 0xD ∨ group = 0xE then .error .group
  else if !assigned group (w.extractLsb' 86 6).toNat then .error .opNumber
  else match parseWord w with
    | none => .error .field
    | some i => if WellFormed.wf i && encode i == some w then .ok i else .error .form

/-- The load of a prologue (R326): LD.B32 or LD.B64 in plain order, with an S register for the address and the result. -/
def isPrologueLoad : Instr → Bool
  | .ld _ sgn (.s _) (.s _) m => !sgn && m.order == .plain && !m.strm && (m.size == .b32 || m.size == .b64)
  | _ => false

/-- A word without its hints [77:74], which change nothing that an end of a prologue does (R29). -/
def unhinted (w : W96) : W96 := w &&& ~~~(0xF#96 <<< 74)

/-- A word of a prologue (R326): the ends, with any hints (R29), the load, or any word of the standard decoder; the front end
refuses the words that R326 does not name. -/
def decodePrologue (die : Fin 4) (w : W96) : Option Instr :=
  if unhinted w = encodeEnd 0 0 then some (.prologueGo die)
  else if unhinted w = encodeEnd 1 0 then some (.prologueCancel die)
  else if unhinted w = encodeEnd 2 (w.extractLsb' 16 16) ∧ w.extractLsb' 16 16 ≠ 0 then
    some (.prologueRepeat die (w.extractLsb' 16 16))
  else match decode w, parseWord w with
    | .ok i, _ => some i
    | .error _, some i => if isPrologueLoad i && encode i == some w then some i else none
    | .error _, none => none

/-- The 12 bytes of a word in memory, little-endian (R3). -/
def wordBytes (w : W96) : List Byte := (List.range 12).map fun k => w.extractLsb' (8 * k) 8

/-- A little-endian list of bytes as a number (R3). -/
def leNat : List Byte → Nat
  | [] => 0
  | b :: bs => b.toNat + 256 * leNat bs

/-- The word that bytes of memory hold; a word has 12 bytes. -/
def bytesWord (bs : List Byte) : W96 := BitVec.ofNat 96 (leNat (bs.take 12))

/-- The instruction that the decoder reads from the `nbits` low bits of `w`, the bits above them zero. The
word lies in memory little-endian (R3), so its bits are numbered as the table numbers them. -/
def decodeTableWord (nbits w : Nat) : Option Instr :=
  match decode (bytesWord (wordBytes (BitVec.ofNat 96 (w % 2 ^ nbits)))) with
  | .ok i => some i
  | .error _ => none

end Sys2Proof
end

