-- ==== Sys2Proof/Machine/Fetch.lean ====
section
/-! DEFINITION. Fetching instruction words (R21, R153): the bytes of a word through the page tables, and looking
ahead in a clause for the instructions that need the F64 token (R117, R129). -/

namespace Sys2Proof.Machine

open Sys2Proof

/-- The physical addresses of the three 4-byte parts of a word that a core fetches; a word may cross a page. -/
def fetchPas (s : State) (k cx : Nat) (a : VA) : State × Except Nat (List Nat) :=
  [0, 4, 8].foldl (fun (acc : State × Except Nat (List Nat)) off =>
    match acc.2 with
    | .error e => (acc.1, .error e)
    | .ok ps =>
      match translate acc.1 (.core k) cx ((a.toNat + off) % 2 ^ 57) .fetch with
      | (s, .error e) => (s, .error e)
      | (s, .ok t) => (needLine s t.pa false, .ok (ps ++ [t.pa]))) (s, .ok [])

/-- The word at a virtual address of a context, little-endian (R3, R21). -/
def fetchWord (s : State) (k cx : Nat) (a : VA) : State × Except Nat W96 :=
  match fetchPas s k cx a with
  | (s, .error e) => (s, .error e)
  | (s, .ok ps) => (s, .ok (bytesWord (ps.flatMap (fun p => homeBytes s p 4))))

/-- The instructions that need the core's F64 token (R117). -/
def needsF64 : Instr → Bool
  | .vfadd _ t .. | .vfsub _ t .. | .vfmul _ t .. | .vfma _ t .. | .vfscale _ t .. | .vfred _ t ..
  | .vfdiv _ t .. | .vfsqrt _ t .. | .vfrcp _ t .. | .vfrsqrt _ t .. | .vfexp2 _ t .. | .vflog2 _ t ..
  | .vfsinpi _ t .. | .vfcospi _ t .. | .vftanh _ t .. => t == .f64
  | .pair _ _ vop _ _ _ _ _ _ t =>
    t == .f64 && (match vop with | .g4 op => [0, 1, 2, 3, 12].contains op.val | _ => false)
  | _ => false

/-- The instructions that submit a matrix command (R127, R130). -/
def submitsMatrix : Instr → Bool
  | .mxcmd .. | .mxcommit .. | .mxtab .. => true
  | .qpush _ d _ => d == .q 0
  | _ => false

/-- The words of a clause, fetched as a unit (R21): those before the first that cannot be fetched, whose fault is raised
when the group comes to it (R46, R153). -/
def fetchClause (s : State) (k cx : Nat) (hdr : VA) (len : Nat) : State × List W96 :=
  let r := (List.range len).foldl (fun (acc : State × List W96 × Bool) i =>
    if acc.2.2 then acc
    else match fetchWord acc.1 k cx (hdr + 12 * (BitVec.ofNat 57 (i + 1))) with
      | (s, .ok w) => (s, acc.2.1 ++ [w], false)
      | (s, .error e) => (if e = causeWait then s else acc.1, acc.2.1, true)) (s, [], false)
  (r.1, r.2.1)

/-- The word of a started clause at a PC: as it was fetched with the clause (R21), else as it is fetched now. -/
def clauseWord (s : State) (k cx : Nat) (g : Group) (hdr pc : VA) : State × Except Nat W96 :=
  match g.words[(pc - hdr).toNat / 12 - 1]? with
  | some w => (s, .ok w)
  | none => fetchWord s k cx pc

/-- Whether a clause contains an instruction of R117 (R129). -/
def clauseF64 (s : State) (k cx : Nat) (hdr : VA) (len : Nat) : Bool :=
  (List.range len).any (fun i =>
    match (fetchWord s k cx (hdr + 12 * (BitVec.ofNat 57 (i + 1)))).2 with
    | .error _ => false
    | .ok w => match decode w with
      | .ok i => needsF64 i
      | .error _ => false)

end Sys2Proof.Machine
end

