-- ==== Sys2Proof/Machine/Control.lean ====
section
/-! DEFINITION. Group 0x0 (R136 to R148), the start of a clause (R23, R24, R129, R132), and the trap instructions
of group 0xB (R310, R311, R316). -/

namespace Sys2Proof.Machine

open Sys2Proof

/-- A thread function applied to each executing lane. -/
def modLanes (s : State) (c : Cx) (ex : List Nat) (g : Nat → Thread → Thread) : State :=
  modFlock s c.f c.k (fun fl => { fl with threads := ex.foldl (fun ts l => tmod ts l (g l)) fl.threads })

/-- The executing lanes whose region is live lose it with FAULT: instructions that cannot take part in a region
(R271). -/
def regionBar (s : State) (c : Cx) (ex : List Nat) : State :=
  ex.foldl (fun s l => match tget? c.fl.threads l with
    | some t => if t.reg.live then abortRegion s t.reg.rid 7 else s
    | none => s) s

/-- A clause-ending word: guarded off everywhere it falls through (R22). -/
def cword (h : Hd) (s : State) (go : Cx → List Nat → State) : Out :=
  word h s go

/-- All lanes fall through to the next clause. -/
def fallThrough (s : State) (c : Cx) (h : Hd) : State := transfer s c h (fun _ => nextHdr c)

/-- RLOCK in every executing thread; the others fall through. -/
def lockTransfer (s : State) (c : Cx) (h : Hd) (i : Nat) (ex : List Nat) : State :=
  fallThrough (takeTraps s c cRLOCK i ex) c h

def execNop (h : Hd) (s : State) : Out := uword h s (fun _ _ => s)

/-- The label of layout AB (R35). -/
def labelOf (c : Cx) (off : W32) : VA := c.hdr + 12 * (off.signExtend 57)

def braTaken (c : Cx) (k : BraCond) : Bool :=
  match k with
  | .always => true
  | .nz a => rdS c a != 0
  | .z a => rdS c a == 0

def execBra (h : Hd) (k : BraCond) (off : W32) (s : State) : Out :=
  cword h s (fun c ex => transferTo s c h (if braTaken c k then ex else []) (fun l =>
    if ex.contains l && braTaken c k then labelOf c off else nextHdr c))

/-- Transfers each executing lane to its own target; `pre` acts before the PCs change (R139, R140). -/
def jump (h : Hd) (a : Opd) (regs : List (Nat × Nat)) (pre : Cx → List Nat → State → State) (s : State) : Out :=
  cword h s (fun c ex =>
    let tgt := fun l => (rdV c l .u64 a).setWidth 57
    match ex.find? (fun l => (tgt l).toNat % 4 != 0) with
    | some l => faultHere s c cALIGN (some l) ((tgt l).setWidth 64)
    | none =>
      match windowLock s c regs with
      | some i => lockTransfer s c h i ex
      | none => transferTo (pre c ex s) c h ex (fun l => if ex.contains l then tgt l else nextHdr c))

def execBrx (h : Hd) (a : Opd) (s : State) : Out := jump h a (regsT .u64 a) (fun _ _ s => s) s

/-- CALL's return address (R140). -/
def linkE (d : Opd) (c : Cx) (ex : List Nat) (s : State) : State :=
  writeLanes s c ex .u64 d (fun _ => (nextHdr c).setWidth 64)

def execCall (h : Hd) (d : Opd) (t : CallTgt) (s : State) : Out :=
  match t with
  | .reg a => jump h a (regsT .u64 d ++ regsT .u64 a) (linkE d) s
  | .label off => cword h s (fun c ex =>
      match windowLock s c (regsT .u64 d) with
      | some i => lockTransfer s c h i ex
      | none => transferTo (linkE d c ex s) c h ex (fun l => if ex.contains l then labelOf c off else nextHdr c))

def execRet (h : Hd) (a : Opd) (s : State) : Out := jump h a (regsT .u64 a) (fun _ _ s => s) s

/-- EXIT ends each executing thread; a live region aborts with EXPLICIT first (R141, R271). -/
def execExit (h : Hd) (s : State) : Out :=
  cword h s (fun c ex =>
    let s := ex.foldl (fun s l => match tget? c.fl.threads l with
      | some t => if t.reg.live then abortRegion s t.reg.rid 4 else s
      | none => s) s
    let s := fallThrough s c h
    let s := modLanes s c ex (fun _ t => { t with exited := true, park := .none, lates := [] })
    barsAfterExit (testTokens s c.f c.k) c.f)

/-- Whether a thread parks at CVG (R125). -/
def cvgParks (c : Cx) (tok : W64) (l : Nat) : Bool :=
  decide (bits tok 60 56 = c.k ∧ bits tok 55 48 = c.fo.epoch.toNat) && bitOf tok l
    && !doomed c l && !liveRegion c l

def execCvg (h : Hd) (a : Opd) (s : State) : Out :=
  cword h s (fun c ex =>
    let tok := rdS c a
    let s := fallThrough (regionBar s c ex) c h
    let s := modLanes s c (ex.filter (cvgParks c tok)) (fun _ t => { t with park := .cvg tok })
    testTokens s c.f c.k)

def execCvgset (h : Hd) (d : Opd) (s : State) : Out :=
  uword h s (fun c ex =>
    let s := writeS s c d (tokenOf c.k c.fo.epoch c.fl.serial ex)
    modFlock s c.f c.k (fun fl => { fl with serial := fl.serial + 1 }))

/-- The executing lane of the lowest TID (R143). -/
def bellwether (c : Cx) (ex : List Nat) : Nat :=
  ex.foldl (fun b l => if tidOf c l < tidOf c b then l else b) (ex.headD 0)

def execElect (h : Hd) (d a : Opd) (s : State) : Out :=
  uword h s (fun c ex =>
    let b := bellwether c ex
    writeS (writePreds s c ex d (fun l => l == b)) c a (nat64 b))

def execVote (h : Hd) (m : VoteMode) (d a : Opd) (neg : Bool) (s : State) : Out :=
  uword h s (fun c ex =>
    let p := fun l => xor (rdPred c l a) neg
    match m with
    | .any => writePreds s c ex d (fun _ => ex.any p)
    | .all => writePreds s c ex d (fun _ => ex.all p)
    | .ballot => writeS s c d (laneMask ex p)
    | .count => writeS s c d (nat64 (ex.filter p).length))

/-- REORDER parks each executing thread with its key and range (R145). -/
def execReorder (h : Hd) (a base : Opd) (count : BitVec 11) (s : State) : Out :=
  cword h s (fun c ex =>
    let b := match base with | .v n => n.val | _ => 0
    if ex.any (inTrap c) then illop s c (ex.filter (inTrap c))
    else
      match windowLock s c (regsT .u32 a ++ [(b, count.toNat)]) with
      | some i => lockTransfer s c h i ex
      | none =>
        let s := fallThrough (regionBar s c ex) c h
        modLanes s c (ex.filter (fun l => !doomed c l && !liveRegion c l))
          (fun l t => { t with park := .reorder (rd32 c l a) b count.toNat }))

def execYield (h : Hd) (s : State) : Out :=
  word h s (fun c _ => modFlock (advance s c h) c.f c.k (fun fl => { fl with yielded := true }))

/-- Whether every flag of a mask is zero (R24, R147). -/
def flagsZero (fl : Flock) (m : BitVec 12) : Bool :=
  (List.range 12).all (fun n => !bitOf m n || flagVal fl n == 0)

def execWaitf (h : Hd) (m : BitVec 12) (s : State) : Out :=
  word h s (fun c ex => if flagsZero c.fl m then advance s c h else keepExec (waitFlags s c m) c ex)

/-! ## Clause start -/

/-- Tokens that a fold holds now: its clauses', its matrix entries' and the F64 token once (R129, R132, R234). -/
def foldTokens (s : State) (c : Cx) : Nat :=
  (c.fo.flocks.foldl (fun n e => n + match e.2.group with | some g => g.tok | none => 0) 0)
    + 4 * ((coreAt s c.c).mxq.filter (fun e => e.fold == c.f)).length
    + (if c.fo.flocks.any (fun e => match e.2.group with | some g => g.f64 | none => false) then 1 else 0)

/-- The tokens that a clause start requests now: one fewer than its heavy field when it would join the core's F64 token
(R129, R132). -/
def requestSize (co : Core) (heavy : Nat) (f64 : Bool) : Nat := if f64 && decide (0 < co.f64n) then heavy - 1 else heavy

/-- Requests that began to wait before this flock's, of a size that GRANT could meet (R129). -/
def earlierReq (co : Core) (f k : Nat) : Bool :=
  (co.reqs.takeWhile (fun r => !(r.fold == f && r.flock == k))).any (fun r => decide (requestSize co r.n r.f64 ≤ co.grant))

/-- Whether a request of n tokens is granted (R129). -/
def grantOk (s : State) (c : Cx) (n : Nat) : Bool :=
  let co := coreAt s c.c
  n == 0 || (decide (n + co.held ≤ co.grant) && decide (foldTokens s c + n ≤ c.gr.kd.tokens)
    && !earlierReq co c.f c.k)

/-- The tokens a clause start takes, given its header: the request, and whether it holds or joins the F64 token
(R129, R132). -/
def tokenRequest (s : State) (c : Cx) (hd : ClauseHdr) : Nat × Bool :=
  let f64 := clauseF64 s c.c c.fo.ctx c.hdr hd.len.toNat && decide (0 < hd.heavy.toNat)
  (requestSize (coreAt s c.c) hd.heavy.toNat f64, f64)

/-- The clause starts: the tokens are granted, the group takes the header's fields (R24, R121), and the clause's words are
fetched as a unit (R21). A group that was held at a fold barrier before its fold was saved is held there again (R261). -/
def startClause (s : State) (c : Cx) (hd : ClauseHdr) (n : Nat) (f64 : Bool) : State :=
  let (s, ws) := fetchClause s c.c c.fo.ctx c.hdr hd.len.toNat
  match (flock? s c.f c.k).bind (·.group) with
  | none => s
  | some g =>
  let s := modCore s c.c (fun co =>
    { co with held := co.held + n, f64n := co.f64n + (if f64 then 1 else 0),
              reqs := co.reqs.filter (fun r => !(r.fold == c.f && r.flock == c.k)) })
  let first := f64 && (coreAt s c.c).f64n == 1
  modFlock s c.f c.k (fun fl =>
    { fl with
      hold := if fl.bar.isSome then .bar else .none
      group := some { lanes := g.lanes, started := true, len := hd.len.toNat, slotA := hd.slotA, slotB := hd.slotB,
                      heavy := hd.heavy.toNat, yield := hd.yield, tok := n - (if first then 1 else 0), f64 := f64, words := ws }
      threads := fl.threads.map (fun e =>
        if g.lanes.contains e.1 then
          (e.1, { e.2 with hdr := c.hdr, via := none, pc := if c.pc == c.hdr then c.hdr + 12 else e.2.pc })
        else e) })

/-- A clause start that must wait for tokens joins the core's waiting requests, behind those that wait (R129); it keeps its place
while it waits for the same tokens. -/
def awaitTokens (s : State) (c : Cx) (heavy : Nat) (f64 : Bool) : State :=
  let stays := decide (c.fl.hold = .waits true [.tokens heavy f64])
    && (coreAt s c.c).reqs.any (fun r => r.fold == c.f && r.flock == c.k)
  let s := if stays then s
    else modCore (dropReq s c.c c.f c.k) c.c (fun co =>
      { co with reqs := co.reqs ++ [{ fold := c.f, flock := c.k, n := heavy, f64 := f64 }] })
  holdWord s c true [.tokens heavy f64]

/-- CLAUSE_START: the header at the head of the group's clause (R24). A request joins the waiting ones only once every flag of the
wait mask is zero: the spec does not say when a clause start that waits for both begins to wait for tokens (R129; DESIGN CHOICE,
log 43). -/
def execClauseStart (hd : ClauseHdr) (s : State) : Out :=
  onIssue s (fun c =>
    if c.g.started then s
    else if !flagsZero c.fl hd.wait then waitFlags s c hd.wait
    else
      let r := tokenRequest s c hd
      if grantOk s c r.1 then startClause s c hd r.1 r.2 else awaitTokens s c hd.heavy.toNat r.2)

/-! ## Trap instructions -/

def execTrap (h : Hd) (code : BitVec 16) (s : State) : Out :=
  cword h s (fun c ex => fallThrough (takeTraps s c cTRAP code.toNat ex) c h)

/-- The return of each executing lane; the rest of the group falls through (R311). A return to a named target remembers
the word (R46), except in a thread that goes to its abort target instead. -/
def tretWith (h : Hd) (s : State) (c : Cx) (ex : List Nat) (p : Nat → Thread → VA × VA) (named : Bool) : State :=
  if ex.any (fun l => !inTrap c l) then illop s c ex
  else
    let s := fallThrough s c h
    let s := modLanes s c ex (fun l t => { returnThread t (p l t).1 (p l t).2 with
      via := if named && !t.reg.doom then some c.pc else none })
    testTokens s c.f c.k

def execTret (h : Hd) (s : State) : Out :=
  cword h s (fun c ex => tretWith h s c ex (fun _ t => (t.trap.rpc, t.trap.rhdr)) false)

def execTretSkip (h : Hd) (s : State) : Out :=
  cword h s (fun c ex => tretWith h s c ex (fun _ t =>
    if t.trap.late then (t.trap.rpc, t.trap.rhdr) else (t.trap.npc, t.trap.nhdr)) false)

def execTretTo (h : Hd) (a : Opd) (s : State) : Out :=
  cword h s (fun c ex =>
    let tgt := fun l => (rdV c l .u64 a).setWidth 57
    match ex.find? (fun l => (tgt l).toNat % 4 != 0) with
    | some l => faultHere s c cALIGN (some l) ((tgt l).setWidth 64)
    | none =>
      if ex.any (fun l => !inTrap c l) then illop s c ex
      else
        match windowLock s c (regsT .u64 a) with
        | some i => lockTransfer s c h i ex
        | none => tretWith h s c ex (fun l _ => (tgt l, tgt l)) true)

/-- HALTF: the fold halts, and the flock stands at the following clause header (R297, R316). -/
def execHaltf (h : Hd) (code : BitVec 16) (s : State) : Out :=
  cword h s (fun c ex =>
    let s := fallThrough (regionBar s c ex) c h
    foldFault s c.f c.k cHALTF code (ex.head?.map (tidOf c)) false (nextHdr c) (c.pc.setWidth 64) true)

end Sys2Proof.Machine
end

