-- ==== Sys2Proof/Machine/Regions.lean ====
section
/-! DEFINITION. Atomic regions: tracking and conflicts (R269 to R278), commits (R273, R277, R279), the instructions
of group 0xA (R282 to R287), and the steps of the order arbiter. -/

namespace Sys2Proof.Machine

open Sys2Proof

/-! ## Regions of threads -/

def region? (s : State) (rid : Nat) : Option Region := tget? s.ms.regions rid

def modRegion (s : State) (rid : Nat) (g : Region → Region) : State :=
  modMs s (fun m => { m with regions := tmod m.regions rid g })

/-- The thread of a region, by fold, flock and lane. -/
def regionThread (s : State) (r : Region) : Option (Nat × Nat × Thread) :=
  match fold? s r.fold with
  | none => none
  | some fo => match laneOf? fo r.tid with
    | none => none
    | some (k, l) => (thread? s r.fold k l).map (fun t => (k, l, t))

/-- BLO and BHI of a region's thread (R266). -/
def bounds (s : State) (r : Region) : Nat × Nat :=
  match regionThread s r with
  | some (_, _, t) => (t.reg.blo.toNat, t.reg.bhi.toNat)
  | none => (0, 2 ^ 48 - 1)

/-- Sets a thread's bounds and aborts with EMPTY when none is left (R276, R286). -/
def setBounds (s : State) (rid : Nat) (lo hi : Nat) : State :=
  match region? s rid with
  | none => s
  | some r =>
    match regionThread s r with
    | none => s
    | some (k, l, _) =>
      let s := modThread s r.fold k l (fun t => { t with reg := { t.reg with blo := nat64 lo, bhi := nat64 hi } })
      if hi < lo then abortRegion s rid 1 else s

/-- Raises BLO to at least `lo` and lowers BHI to at most `hi`. -/
def narrowTo (s : State) (rid : Nat) (lo : Nat) (hi : Option Nat) : State :=
  match region? s rid with
  | none => s
  | some r =>
    let b := bounds s r
    setBounds s rid (max b.1 lo) (match hi with | none => b.2 | some h => min b.2 h)

/-! ## Conflicts within a flock (R274) -/

/-- The flock of a region. -/
def regionFlock (s : State) (r : Region) : Option Nat := (regionThread s r).map (·.1)

/-- L precedes H among elastic regions; a BHI of 0 leaves L no position, and H none above L's (R274). -/
def precede (s : State) (lrid hrid : Nat) : State :=
  match region? s lrid, region? s hrid with
  | some lr, some hr =>
    let lb := bounds s lr
    let hb := bounds s hr
    let s := narrowTo s hrid (lb.1 + 1) none
    if hb.2 = 0 then abortRegion s lrid 1 else narrowTo s lrid 0 (some (hb.2 - 1))
  | _, _ => s

/-- Whether region `a` comes before region `b` among O regions: by key, and of equal keys in one flock by thread (R274, R278). -/
def keyBefore (s : State) (a b : Region) : Bool :=
  decide (a.key < b.key) || (decide (a.key = b.key ∧ a.tid < b.tid) && a.fold == b.fold && regionFlock s a == regionFlock s b)

/-- How a version by an O region with a key ranks for the readers above it, and for the region itself (R278): above a plain
version, which ranks as 1. -/
def keyRank (key : Nat) : Nat := 2 * key + 2
def ownRank (key : Nat) : Nat := 2 * key + 3

/-- The conflict of region `a`, which touches word `w` now, with region `b` of the same flock (R274). -/
def flockConflict (s : State) (a b w : Nat) (write : Bool) : State :=
  match region? s a, region? s b with
  | some ra, some rb =>
    if ra.cls = 2 ∨ rb.cls = 2 then
      if ra.cls = 2 ∧ rb.cls = 2 ∧ write then
        let hit := keyBefore s ra rb && rb.reads.any (fun r => r.word == w && decide (r.level ≤ keyRank ra.key))
        if hit then abortRegion s b 1 else s
      else s
    else
      let lFirst := decide (ra.tid < rb.tid)
      let bW := rb.touchW.contains w
      let bR := rb.touchR.contains w
      let aR := !write || ra.touchR.contains w
      let aW := write || ra.touchW.contains w
      let hReads := if lFirst then bR else aR
      let lWrites := if lFirst then aW else bW
      let h := if lFirst then b else a
      let l := if lFirst then a else b
      if hReads && lWrites then abortRegion s h 2
      else if ra.cls = 1 ∧ rb.cls = 1 ∧ (write ∧ (bW ∨ bR) ∨ (¬ write ∧ bW)) then precede s l h
      else s
  | _, _ => s

/-- All conflicts at the core of a region's access to a word (R274). -/
def flockConflicts (s : State) (f k rid w : Nat) (write : Bool) : State :=
  let others := s.ms.regions.filter (fun e => e.1 != rid && e.2.fold == f && e.2.phase == .live
    && regionFlock s e.2 == some k && (e.2.touchR.contains w || e.2.touchW.contains w))
  others.foldl (fun s e => if (region? s rid).isSome then flockConflict s rid e.1 w write else s) s

/-- Words added to a set, keeping one of each. -/
def addWords (l ws : List Nat) : List Nat := ws.foldl (fun l w => if l.contains w then l else l ++ [w]) l

/-- A region's access as it issues: CAPACITY, then the conflicts within the flock (R270, R274). An access that
aborts its region is suppressed. -/
def regionTouch (s : State) (f k rid : Nat) (ws : List Nat) (write : Bool) : State :=
  match region? s rid with
  | none => s
  | some r =>
    let rs := if write then r.touchR else addWords r.touchR ws
    let wr := if write then addWords r.touchW ws else r.touchW
    if 256 < rs.length ∨ 64 < wr.length then abortRegion s rid 3
    else
      let s := modRegion s rid (fun r => { r with touchR := rs, touchW := wr })
      ws.foldl (fun s w => flockConflicts s f k rid w write) s

/-! ## Versions (R199, R278) -/

/-- Inserts a version by key and rank. -/
def insVer (v : Nat × Nat × Ver) : List (Nat × Nat × Ver) → List (Nat × Nat × Ver)
  | [] => [v]
  | x :: r => if v.1 < x.1 ∨ (v.1 = x.1 ∧ v.2.1 < x.2.1) then v :: x :: r else x :: insVer v r

/-- The base of the holder that gave an O region its position (R269). -/
def regionBase (r : Region) : Nat := (r.pos + 2 ^ 48 - r.key % 2 ^ 48) % 2 ^ 48

/-- Whether two O regions have one holder: in one task, or both outside tasks under one window, which its base names (R267,
R278). -/
def sameHolder (s : State) (r o : Region) : Bool :=
  let task := fun (x : Region) => match fold? s x.fold with | some fo => fo.isTask | none => false
  r.cls == 2 && o.cls == 2 && o.ctx == r.ctx
    && (if task r then o.fold == r.fold else !task o && regionBase o == regionBase r)

/-- The level of a version of a word as a region sees it: 1 for a plain version of its task, above that the versions of its
holder that come before it, and its own writes last (R270, R274, R278, R280). -/
def verLevel (s : State) (rid : Nat) (r : Region) (isTask : Bool) (v : Ver) : Option Nat :=
  match v.owner with
  | .task f => if isTask && f == r.fold then some 1 else none
  | .region q =>
    if q = rid then some (ownRank r.key)
    else match region? s q with
      | none => none
      | some o => if sameHolder s r o && keyBefore s o r then some (keyRank o.key) else none

/-- What a region's read of a word returns (R270, R278). -/
def regionValue (s : State) (rid : Nat) (r : Region) (w : Nat) : Rd :=
  let isTask := match fold? s r.fold with | some fo => fo.isTask | none => false
  let vs := (s.ms.vers.filter (fun v => v.word == w && v.ctx == r.ctx)).foldl (fun acc v =>
    match verLevel s rid r isTask v with
    | some k => insVer (k, v.rank, v) acc
    | none => acc) []
  let seen := vs.reverse.foldl (fun (acc : BitVec 4 × List (Nat × Nat)) x =>
    if x.2.2.mask &&& ~~~acc.1 = 0 then acc else (acc.1 ||| x.2.2.mask, acc.2 ++ [(x.1, x.2.1)])) (0, [])
  { word := w, val := vs.foldl (fun v x => mergeBytes x.2.2.mask x.2.2.val v) (homeVal s w),
    level := if seen.1 = 15 then seen.2.foldl (fun m x => min m x.1) (ownRank r.key) else 0, ranks := seen.2.map (·.2) }

/-- Puts a narrowing message in flight; the tentative entry that causes it is not performed before it is applied (R270, R276). -/
def sendNarrow (s : State) (rid : Nat) (lower : Bool) (bound : Nat) (part : Option (Nat × Nat × Nat)) : State :=
  let s := match part with | some (f, k, op) => addPart s f k op | none => s
  modMs s (fun m => { m with narrow := m.narrow ++ [{ rid := rid, lower := lower, bound := bound, part := part }] })

/-- A precedes B among elastic regions at a home; a sealed region's bound does not change (R276). -/
def sendPrecede (s : State) (a b : Nat) (part : Option (Nat × Nat × Nat)) : State :=
  match region? s a, region? s b with
  | some ra, some rb =>
    let ba := bounds s ra
    let bb := bounds s rb
    let s := if ra.phase = .live then sendNarrow s a false bb.2 part else s
    if rb.phase = .live then sendNarrow s b true (ba.1 + 1) part else s
  | _, _ => s

/-- Elastic regions of other flocks than a given region's. -/
def otherElastic (s : State) (rid : Nat) : List (Nat × Region) :=
  match region? s rid with
  | none => []
  | some r => s.ms.regions.filter (fun e => e.1 != rid && e.2.cls == 1
      && !(e.2.fold == r.fold && regionFlock s e.2 == regionFlock s r))

/-- A region reads a word at its home (R270, R276): the value joins its read set. -/
def regionRead (s : State) (rid w : Nat) (part : Option (Nat × Nat × Nat)) : State × W32 :=
  match region? s rid with
  | none => (s, 0)
  | some r =>
    let v := regionValue s rid r w
    let s := modRegion s rid (fun r => { r with reads := r.reads ++ [v] })
    let s :=
      if r.cls = 1 then
        let s := match tget? s.ms.eWriters w with
          | some p => sendNarrow s rid true (p + 1) part
          | none => s
        (otherElastic s rid).foldl (fun s e =>
          if s.ms.vers.any (fun x => x.owner == .region e.1 && x.word == w) then sendPrecede s rid e.1 part else s) s
      else s
    (s, v.val)

/-- The O regions that lose to a version of a region's key arriving at a word (R278). A pending one re-runs its task also when the
version is its own flock's, for R280 says both that a lost pending region does and that conflicts within one flock never do; and a
region is aborted also at the frontier, when its own position was vacated or taken by another region of that key, for R279 sees no
lower key left there and R278 may find one (DESIGN CHOICE, log 34). -/
def loseTo (s : State) (rid : Nat) (w : Nat) : State :=
  match region? s rid with
  | none => s
  | some r =>
    let hit := s.ms.regions.filter (fun e => e.1 != rid && sameHolder s r e.2 && keyBefore s r e.2
      && e.2.reads.any (fun x => x.word == w && decide (x.level ≤ keyRank r.key)))
    hit.foldl (fun s e => abortRegion s e.1 1) s

/-- The O regions of a task that lose to a plain version of the task arriving at a word (R278, R280). -/
def losePlain (s : State) (f w : Nat) : State :=
  let hit := s.ms.regions.filter (fun e => e.2.fold == f && e.2.cls == 2 && e.2.reads.any (fun x => x.word == w && decide (x.level ≤ 1)))
  hit.foldl (fun s e => abortRegion s e.1 1) s

/-- A tentative entry reaches its home: a version of the region, and the narrowing or the losses that it causes
(R270, R276, R278). -/
def regionWrite (s : State) (rid : Nat) (pa : Nat) (cm : BitVec 2) (z : Nat) (bs : List Byte)
    (part : Option (Nat × Nat × Nat)) : State :=
  match region? s rid with
  | none => s
  | some r =>
    (splitWords pa bs).foldl (fun s e =>
      let (n, s) := fresh s
      let s := modMs s (fun m => { m with vers := m.vers ++
        [{ owner := .region rid, ctx := r.ctx, rank := n, word := e.1, val := e.2.2, mask := e.2.1, cmode := cm,
           size := z }] })
      let s :=
        if r.cls = 1 then
          (otherElastic s rid).foldl (fun s x =>
            if x.2.reads.any (fun d => d.word == e.1) || s.ms.vers.any (fun y => y.owner == .region x.1 && y.word == e.1)
            then sendPrecede s x.1 rid part else s) s
        else s
      loseTo s rid e.1) s

/-! ## Commits (R273, R277, R279) -/

/-- Whether every access of a region has reached its home. -/
def regionQuiet (s : State) (rid : Nat) : Bool :=
  match region? s rid with
  | none => false
  | some r =>
    match (regionFlock s r).bind (fun k => flock? s r.fold k) with
    | none => false
    | some fl => !fl.tent.any (fun e => e.rid == some rid) && !fl.loads.any (fun e => e.rid == some rid)

/-- The domain with its frontier at `f`; a window closes when the frontier reaches its end (R267). -/
def OrderDom.advanced (od : OrderDom) (f : Nat) : OrderDom :=
  let od := { od with f := max od.f f }
  match od.window with
  | some n => if od.base + n ≤ od.f then { od with window := none, base := 0, vacated := [], pendO := [] } else od
  | none => od

/-- The frontier of a context advances to `f`, and the new value is sent to every core of its paddock (R267, R268). -/
def setFrontier (s : State) (cx f : Nat) : State :=
  let old := (ctx s cx).od.f
  let s := modCtx s cx (fun k => { k with od := k.od.advanced f })
  if f ≤ old then s
  else modMs s (fun m => { m with fronts := m.fronts ++ (s.cores.filter (fun e => e.2.pad == some (ctx s cx).pad)).map (fun e =>
    { ctx := cx, core := e.1, f := f, ts := s.plat.ts }) })

/-- The region of a lane that waits at TEND. -/
def waitingRegion (s : State) (f k l : Nat) : Option (Nat × Region) :=
  match thread? s f k l with
  | none => none
  | some t => if t.reg.live then (region? s t.reg.rid).map (fun r => (t.reg.rid, r)) else none

/-- Whether a fold has stopped, so that no commit event of it is applied any more (R281, R296, R303). -/
def commitsOver (s : State) (f : Nat) : Bool :=
  match (fold? s f).bind (·.halt) with
  | none => false
  | some h => h.stopped || decide (h.cyc + 2 < s.plat.cycles / 20)

/-- The frontier passes positions vacated ahead of it (R279, R287). -/
def passVacated : Nat → OrderDom → OrderDom
  | 0, od => od
  | n + 1, od =>
    if od.vacated.contains od.f then passVacated n { od with f := od.f + 1, vacated := od.vacated.filter (· != od.f) }
    else od

/-- Moves the frontier over vacated positions and closes a finished window. -/
def settleFrontier (s : State) (cx : Nat) : State :=
  let od := passVacated ((ctx s cx).od.vacated.length) (ctx s cx).od
  setFrontier (modCtx s cx (fun k => { k with od := { k.od with vacated := od.vacated } })) cx od.f

/-- NARROWING_MESSAGE: message `ix` updates its thread's bound, and a bound below 0 is empty (R276). Of a sealed region's
messages, those sent before it was sealed and the commit rows are under way (R277). A tentative entry that waited for the message
has one part less to perform (R270). -/
def execNarrowingMessage (ix : Nat) (s : State) : Out :=
  match s.ms.narrow[ix]? with
  | none => .next s
  | some n =>
    let s := modMs s (fun m => { m with narrow := m.narrow.eraseIdx ix })
    let s := if n.lower then narrowTo s n.rid n.bound none
      else if n.bound = 0 then abortRegion s n.rid 1
      else narrowTo s n.rid 0 (some (n.bound - 1))
    .next (match n.part with | some (f, k, op) => partDone s f k op [] | none => s)

/-- FRONTIER_UPDATE: a core of the context's paddock receives a value of the frontier that is on its way, and keeps the
largest (R268). -/
def execFrontierUpdate (c cx : Nat) (f : Pos) (s : State) : Out :=
  match s.ms.fronts.find? (fun m => m.ctx == cx && m.core == c && m.f == f.toNat) with
  | none => .next s
  | some m =>
    let s := modMs s (fun x => { x with fronts := x.fronts.erase m })
    .next (modCore s c (fun co => { co with frontier := tset co.frontier cx (max (tgetD co.frontier cx 0) m.f) 0 }))

/-! ## Instructions of group 0xA -/

/-- Lanes on which a group-0xA instruction acts: executing and not doomed (R272). -/
def actLanes (c : Cx) (ex : List Nat) : List Nat := ex.filter (fun l => !doomed c l)

/-- The holder's base as the flock's grid sees it: its own ORDER grid's, else the window's (R287). -/
def holderBase (s : State) (c : Cx) : Option Nat :=
  let od := (ctx s c.fo.ctx).od
  if od.holder = some c.fo.grid ∨ od.window.isSome then some od.base else none

/-- Whether the fold is a task of an ORDER launch (R269, R280). -/
def inOrderTask (c : Cx) : Bool := c.fo.isTask && bitOf c.gr.record.mode 4

/-- KeyValid(t, k) of R269. -/
def keyValid (s : State) (c : Cx) (k : Nat) : Bool :=
  let od := (ctx s c.fo.ctx).od
  (decide (od.holder = some c.fo.grid) || od.window.isSome)
    && decide (od.base + k ≤ 2 ^ 48 - 2)
    && (!c.fo.isTask || decide (c.fo.lo.toNat ≤ k ∧ k < c.fo.hi.toNat))
    && (match od.window with | some n => decide (k < n) | none => true)

/-- The class number and the key of a TBEGIN in a lane. -/
def classOf (k : TClass) : BitVec 2 :=
  match k with
  | .v => 0
  | .e => 1
  | .o _ => 2

/-- One thread's region begins (R283). BLO and BHI of a TBEGIN.O whose grid uses no holder take base 0 (DESIGN CHOICE,
log 43: the region aborts at once, and the spec gives no base). -/
def beginRegion (k : TClass) (off : W32) (c : Cx) (s : State) (l : Nat) : State :=
  let key := match k with | .o b => (rdV c l .u64 b).toNat | _ => 0
  let base := match holderBase s c with | some b => b | none => 0
  let lo := match k with
    | .v => 0
    | .e => tgetD (coreAt s c.c).frontier c.fo.ctx 0
    | .o _ => (base + key) % 2 ^ 48
  let hi := match k with | .o _ => lo | _ => 2 ^ 48 - 1
  let (rid, s) := fresh s
  let r : Region :=
    { ctx := c.fo.ctx, fold := c.f, tid := tidOf c l, cls := classOf k, key := key, pos := lo, src := coreSrc c.c,
      ts := s.plat.ts, phase := .live, reads := [], touchR := [], touchW := [] }
  let s := modMs s (fun m => { m with regions := tput m.regions rid r })
  let s := modThread s c.f c.k l (fun t =>
    { t with reg := { t.reg with live := true, cls := classOf k, target := labelOf c off, blo := nat64 lo,
                                 bhi := nat64 hi, rid := rid } })
  match k with
  | .o _ => if keyValid s c key then s else abortRegion s rid 1
  | _ => s

/-- The ILLOP conditions of TBEGIN (R269). -/
def tbeginBad (k : TClass) (c : Cx) (ex : List Nat) : Option Nat :=
  match ex.find? (fun l => liveRegion c l || inTrap c l) with
  | some l => some l
  | none =>
    if !c.fo.isTask then none
    else match k with
      | .o _ => if inOrderTask c then none else ex.head?
      | _ => ex.head?

def tclassRegs (k : TClass) : List (Nat × Nat) := match k with | .o b => regsT .u64 b | _ => []

def execTbegin (h : Hd) (k : TClass) (off : W32) (s : State) : Out :=
  word h s (fun c ex =>
    match tbeginBad k c ex with
    | some l => faultHere s c cILLOP (some l) 0
    | none =>
      match windowLock s c (tclassRegs k) with
      | some i => advance (takeTraps s c cRLOCK i ex) c h
      | none =>
        if releaseNow s c .die then advance ((actLanes c ex).foldl (beginRegion k off c) s) c h
        else waitHere s c ex [.release .die])

/-- What TEND sends for a lane (R284): a pending region of a task, or a commit event. The result adds the region
the group then waits for. -/
def sendEnd (c : Cx) (acc : State × List Nat) (l : Nat) : State × List Nat :=
  match thread? acc.1 c.f c.k l with
  | none => acc
  | some t =>
    if !t.reg.live || t.reg.doom then acc
    else
      match region? acc.1 t.reg.rid with
      | none => acc
      | some r =>
        if r.cls = 2 && inOrderTask c then
          let s := modRegion acc.1 t.reg.rid (fun r => { r with phase := .pending })
          (modThread s c.f c.k l (fun t =>
            { t with reg := { t.reg with live := false, pend := true, tpos := t.reg.blo } }), acc.2)
        else if r.cls = 2 then
          let od := (ctx acc.1 r.ctx).od
          if r.pos < od.f ∨ od.pendO.any (fun p => p.1 == r.pos) ∨ od.vacated.contains r.pos ∨ od.window.isNone then
            (abortRegion acc.1 t.reg.rid 1, acc.2)
          else
            let s := modRegion acc.1 t.reg.rid (fun r => { r with phase := .waitO, ts := acc.1.plat.ts, src := coreSrc c.c })
            (modCtx s r.ctx (fun k => { k with od := { k.od with pendO := k.od.pendO ++ [(r.pos, t.reg.rid)] } }),
             acc.2 ++ [t.reg.rid])
        else (modRegion acc.1 t.reg.rid (fun r => { r with phase := .sealed, ts := acc.1.plat.ts, src := coreSrc c.c }),
              acc.2 ++ [t.reg.rid])

/-- TEND holds the group until every commit it sent is applied or aborted (R284). -/
def execTend (h : Hd) (s : State) : Out :=
  word h s (fun c ex =>
    match c.fl.hold with
    | .tend rids => if rids.any (fun r => (region? s r).isSome) then s else advance s c h
    | _ =>
      if (actLanes c ex).any (fun l => match tget? c.fl.threads l with
          | some t => t.reg.live && !regionQuiet s t.reg.rid
          | none => false) then
        waitHere s c ex ((actLanes c ex).filterMap (fun l => (tget? c.fl.threads l).bind (fun t =>
          if t.reg.live then some (.quiet t.reg.rid) else none)))
      else
        let r := (actLanes c ex).foldl (sendEnd c) (s, [])
        if r.2.isEmpty then advance r.1 c h
        else keepExec (modFlock r.1 c.f c.k (fun fl => { fl with hold := .tend r.2 })) c ex)

def execTabort (h : Hd) (v : BitVec 8) (s : State) : Out :=
  word h s (fun c ex =>
    let s := (actLanes c ex).foldl (fun s l =>
      match thread? s c.f c.k l with
      | none => s
      | some t =>
        let s := if t.reg.live then abortRegion s t.reg.rid 4 else s
        modThread s c.f c.k l (fun t => { t with reg := { t.reg with user := v } })) s
    advance s c h)

def execTstat (h : Hd) (d : Opd) (clr : Bool) (s : State) : Out :=
  vexec h (regsT .u32 d) (fun c ex s =>
    let s := writeLanes s c ex .u32 d (fun l => (tstatus (((tget? c.fl.threads l).map (·.reg)).getD RegSt.init)).setWidth 64)
    if clr then modLanes s c ex (fun _ t => { t with reg := { t.reg with user := 0, code := 0, count := 0 } }) else s) s

def execTnarrow (h : Hd) (a b : Opd) (s : State) : Out :=
  vexec h (regsT .u64 a ++ regsT .u64 b) (fun c ex s =>
    (actLanes c ex).foldl (fun s l =>
      match thread? s c.f c.k l with
      | none => s
      | some t =>
        match region? s t.reg.rid with
        | none => s
        | some r =>
          if t.reg.live && r.cls == 1 && r.phase == .live then
            narrowTo s t.reg.rid (bits (rdV c l .u64 a) 47 0)
              (if rdV c l .u64 b = BitVec.allOnes 64 then none else some (bits (rdV c l .u64 b) 47 0))
          else s) s) s

def execTposG (h : Hd) (d : Opd) (s : State) : Out :=
  vexec h (regsT .u64 d) (fun c ex s =>
    writeLanes s c (actLanes c ex) .u64 d (fun l => (((tget? c.fl.threads l).map (·.reg)).getD RegSt.init).tpos)) s

/-- A uniform group-0xA instruction has no effect when every executing thread is doomed (R272). -/
def execTposF (h : Hd) (d : Opd) (s : State) : Out :=
  uword h s (fun c ex => if (actLanes c ex).isEmpty then s else writeS s c d (nat64 (ctx s c.fo.ctx).od.f))

def execTposB (h : Hd) (d : Opd) (s : State) : Out :=
  uword h s (fun c ex =>
    if (actLanes c ex).isEmpty then s
    else writeS s c d (match holderBase s c with | some b => nat64 b | none => BitVec.allOnes 64))

/-- Vacates a position of the open window; a region pending there aborts with EMPTY (R279, R287). -/
def vacate (s : State) (cx k : Nat) : State :=
  let od := (ctx s cx).od
  match od.window with
  | none => s
  | some n =>
    let p := od.base + k
    if n ≤ k ∨ p < od.f ∨ od.vacated.contains p then s
    else
      let hit := od.pendO.filter (fun q => q.1 == p)
      let s := hit.foldl (fun s q => abortRegion s q.2 1) s
      let s := modCtx s cx (fun x => { x with od := { x.od with
        pendO := x.od.pendO.filter (fun q => q.1 != p), vacated := x.od.vacated ++ [p] } })
      settleFrontier s cx

def execTposVac (h : Hd) (b : Src) (s : State) : Out :=
  word h s (fun c ex =>
    if (actLanes c ex).isEmpty then advance s c h
    else if c.fo.isTask then illop s c ex
    else advance (vacate s c.fo.ctx (rdSrcS c .u64 b).toNat) c h)

end Sys2Proof.Machine
end

