-- ==== Sys2Proof/Machine/FloatOps.lean ====
section
/-! DEFINITION. The instructions of groups 0x4 and 0x5 (R104 to R115, R118), the results of SFU instructions
(R111) and the floating-point halves of a pair (R88, R119). -/

namespace Sys2Proof.Machine

open Sys2Proof
open Sys2Proof.WellFormed (is64)

/-! ## Shapes -/

/-- Lanes inside a V or E region (R118). -/
def inVE (s : State) (c : Cx) (l : Nat) : Bool :=
  match tget? c.fl.threads l with
  | some t => t.reg.live && (match region? s t.reg.rid with | some r => r.cls != 2 | none => t.reg.cls != 2)
  | none => false

/-- The lanes that take REPRO at a floating-point instruction (R118). -/
def reproLanes (s : State) (c : Cx) (ex : List Nat) : List Nat :=
  if repro s c.fo.ctx then ex.filter (inVE s c) else []

/-- A floating-point word: REPRO, then RLOCK, then its effect in the lanes that took neither (R118, R232, R378). A lane that took
REPRO contributes +0 to VFRED's sum and is left out of VQSCALE's shared scale (DESIGN CHOICE, log 34). -/
def fpword (h : Hd) (regs : List (Nat × Nat)) (e : Eff) (s : State) : Out :=
  word h s (fun c ex =>
    let tr := reproLanes s c ex
    let go := ex.filter (fun l => !tr.contains l)
    let s := takeTraps s c cREPRO 0 tr
    match windowLock s c regs with
    | some i => advance (takeTraps s c cRLOCK i go) c h
    | none => advance (if go.isEmpty then s else e c go s) c h)

/-- The random word of element e of n in a lane (R96). -/
def laneWord (c : Cx) (l n e : Nat) : W32 := srhWord (sreg c.fl 127) (tidOf c l * n + e)

/-- The results of one lane: the value of its elements and the events of all of them. -/
def laneRes (w n : Nat) (g : Nat → Res) : W64 × BitVec 8 :=
  let rs := (List.range n).map g
  (fromElems w n (fun e => BitVec.ofNat w ((rs.getD e (0, 0)).1)), rs.foldl (fun m r => m ||| r.2) 0)

/-- Writes a result of a type to each lane, then counts its events (R101, R105). -/
def writeRes (t : Ty) (d : Opd) (g : Cx → Nat → W64 × BitVec 8) : Eff := fun c ex s =>
  let rs := ex.map (fun l => (l, g c l))
  let val := fun l => ((rs.find? (fun r => r.1 == l)).map (fun r => r.2.1)).getD 0
  raiseEvents (writeLanes s c ex t d val) c (rs.map (fun r => { lane := r.1, mask := r.2.2 }))

/-- Element by element in a float type (R105). -/
def elemRes (t : Ty) (g : Cx → Nat → Nat → W32 → Res) (c : Cx) (l : Nat) : W64 × BitVec 8 :=
  laneRes (elemWidth t) (elemCount t) (fun e => g c l e (laneWord c l (elemCount t) e))

def fsrc (c : Cx) (l : Nat) (t : Ty) (o : Opd) (e : Nat) : Fv := fvElem (fmtOf t 0) (rdV c l t o) e
def fsrcB (c : Cx) (l : Nat) (t : Ty) (b : Src) (e : Nat) : Fv := fvElem (fmtOf t 0) (rdSrc c l t b) e

/-! ## Group 0x4 -/

def vfaddE (t : Ty) (d a : Opd) (b : Src) (rm : Rm) (sat : Bool) : Eff :=
  writeRes t d (elemRes t (fun c l e w => opAdd (fmtOf t 0) rm sat w (fsrc c l t a e) (fsrcB c l t b e)))
def vfsubE (t : Ty) (d a : Opd) (b : Src) (rm : Rm) (sat : Bool) : Eff :=
  writeRes t d (elemRes t (fun c l e w => opSub (fmtOf t 0) rm sat w (fsrc c l t a e) (fsrcB c l t b e)))
def vfmulE (t : Ty) (d a : Opd) (b : Src) (rm : Rm) (sat : Bool) : Eff :=
  writeRes t d (elemRes t (fun c l e w => opMul (fmtOf t 0) rm sat w (fsrc c l t a e) (fsrcB c l t b e)))
def vfmaE (t : Ty) (d a b k : Opd) (rm : Rm) (sat : Bool) : Eff :=
  writeRes t d (elemRes t (fun c l e w =>
    opFma (fmtOf t 0) rm sat w (fsrc c l t a e) (fsrc c l t b e) (fsrc c l t k e)))

/-- VFSCALE: x × 2^Int32(y), with b one 32-bit register or an I32 immediate (R105). -/
def vfscaleE (t : Ty) (d a : Opd) (b : Src) (rm : Rm) (sat : Bool) : Eff :=
  writeRes t d (elemRes t (fun c l e w =>
    let x := fsrc c l t a e
    runOp (fmtOf t 0) rm sat w [x] (exactScale x ((rdSrc c l .i32 b).setWidth 32).toInt)))

/-- The code of an element of an operand. -/
def fcode (t : Ty) (x : W64) (e : Nat) : Nat := (elemOf (elemWidth t) x e).toNat

def vfminmaxE (mx : Bool) (t : Ty) (d a : Opd) (b : Src) : Eff :=
  writeRes t d (elemRes t (fun c l e _ => opMinMax (fmtOf t 0) mx (fcode t (rdV c l t a) e) (fcode t (rdSrc c l t b) e)))

/-- VFCMP writes its predicate, then counts (R107). -/
def vfcmpE (t : Ty) (k : FCond) (d a : Opd) (b : Src) : Eff := fun c ex s =>
  let r := fun l => opFcmp k (fsrc c l t a 0) (fsrcB c l t b 0)
  raiseEvents (writePreds s c ex d (fun l => (r l).1)) c (ex.map (fun l => { lane := l, mask := (r l).2 }))

/-- VFABS and VFNEG: the sign bit; a NaN gives the canonical NaN; no event (R106). -/
def signOp (flip : Bool) (t : Ty) (x : Nat) : Nat :=
  let F := fmtOf t 0
  let half := 2 ^ magBits F
  if isNan (fvOf F x) then canonNan F
  else if flip && decide (x < half) then x + half else x % half

def vfsignE (flip : Bool) (t : Ty) (d a : Opd) : Eff := fun c ex s =>
  writeLanes s c ex t d (fun l =>
    fromElems (elemWidth t) (elemCount t) (fun e => BitVec.ofNat _ (signOp flip t (fcode t (rdV c l t a) e))))

def vfclassE (t : Ty) (nar : BitVec 6) (d a : Opd) : Eff := fun c ex s =>
  writeLanes s c ex .u32 d (fun l => nat64 (opClass (fmtOf t nar) (fvElem (fmtOf t nar) (rdV c l t a) 0)))

/-- Terms of VFDOT: 2 halves or 4 bytes (R109). -/
def dotLen (t : Ty) : Nat := if t = .b8 then 4 else 2

def vfdotE (t : Ty) (nar : BitVec 6) (d a b : Opd) (rm : Rm) (sat : Bool) : Eff :=
  writeRes .f32 d (fun c l => laneRes 32 1 (fun _ =>
    opBlock fF32 rm sat (laneWord c l 1 0) (fsrc c l .f32 d 0)
      ((List.range (dotLen t)).map (fun k =>
        (fvElem (fmtOf t nar) (rdV c l .u32 a) k, fvElem (fmtOf t nar) (rdV c l .u32 b) k)))))

/-- One level of the tree of VFRED: neighbours added and rounded (R110). -/
def redPairs (F : Fmt) (rm : Rm) : List Nat → List Nat × BitVec 8
  | x :: y :: r =>
    let q := opAdd F rm false 0 (fvOf F x) (fvOf F y)
    let p := redPairs F rm r
    (q.1 :: p.1, q.2 ||| p.2)
  | l => (l, 0)

/-- The tree of R110 over 32 codes. Each node's own sum raises its events, so a node whose sum is infinity minus infinity raises
NANGEN even where another lane's code is a NaN: the manual does not say whether NANGEN is judged for each node or for S[d]
against all the operands (DESIGN CHOICE, log 37). -/
def redTree (F : Fmt) (rm : Rm) (xs : List Nat) : Res :=
  let r := (List.range 5).foldl (fun (acc : List Nat × BitVec 8) _ =>
    let q := redPairs F rm acc.1
    (q.1, acc.2 ||| q.2)) (xs, 0)
  (r.1.headD 0, r.2)

/-- VFRED: its events count once, for the lowest executing thread (R101, R110). -/
def vfredE (t : Ty) (d a : Opd) (rm : Rm) : Eff := fun c ex s =>
  let r := redTree (fmtOf t 0) rm ((List.range 32).map (fun j => if ex.contains j then fcode t (rdV c j t a) 0 else 0))
  raiseEvents (writeS s c d (nat64 r.1)) c [{ lane := ex.headD 0, mask := r.2 }]

def execVfadd (h : Hd) (t : Ty) (d a : Opd) (b : Src) (rm : Rm) (sat : Bool) (s : State) : Out :=
  fpword h (binRegs t d a b) (vfaddE t d a b rm sat) s
def execVfsub (h : Hd) (t : Ty) (d a : Opd) (b : Src) (rm : Rm) (sat : Bool) (s : State) : Out :=
  fpword h (binRegs t d a b) (vfsubE t d a b rm sat) s
def execVfmul (h : Hd) (t : Ty) (d a : Opd) (b : Src) (rm : Rm) (sat : Bool) (s : State) : Out :=
  fpword h (binRegs t d a b) (vfmulE t d a b rm sat) s
def execVfma (h : Hd) (t : Ty) (d a b k : Opd) (rm : Rm) (sat : Bool) (s : State) : Out :=
  fpword h (regsT t d ++ regsT t a ++ regsT t b ++ regsT t k) (vfmaE t d a b k rm sat) s
def execVfmin (h : Hd) (t : Ty) (d a : Opd) (b : Src) (s : State) : Out :=
  fpword h (binRegs t d a b) (vfminmaxE false t d a b) s
def execVfmax (h : Hd) (t : Ty) (d a : Opd) (b : Src) (s : State) : Out :=
  fpword h (binRegs t d a b) (vfminmaxE true t d a b) s
def execVfcmp (h : Hd) (t : Ty) (k : FCond) (d a : Opd) (b : Src) (s : State) : Out :=
  fpword h (regsT t a ++ regsSrc t b) (vfcmpE t k d a b) s
def execVfabs (h : Hd) (t : Ty) (d a : Opd) (s : State) : Out := fpword h (regsT t d ++ regsT t a) (vfsignE false t d a) s
def execVfneg (h : Hd) (t : Ty) (d a : Opd) (s : State) : Out := fpword h (regsT t d ++ regsT t a) (vfsignE true t d a) s
def execVfclass (h : Hd) (t : Ty) (nar : BitVec 6) (d a : Opd) (s : State) : Out :=
  fpword h (regsT .u32 d ++ regsT t a) (vfclassE t nar d a) s
def execVfdot (h : Hd) (t : Ty) (nar : BitVec 6) (d a b : Opd) (rm : Rm) (sat : Bool) (s : State) : Out :=
  fpword h (regsT .f32 d ++ regsT .u32 a ++ regsT .u32 b) (vfdotE t nar d a b rm sat) s
def execVfred (h : Hd) (t : Ty) (d a : Opd) (rm : Rm) (s : State) : Out := fpword h (regsT t a) (vfredE t d a rm) s
def execVfscale (h : Hd) (t : Ty) (d a : Opd) (b : Src) (rm : Rm) (sat : Bool) (s : State) : Out :=
  fpword h (regsT t d ++ regsT t a ++ regsSrc .i32 b) (vfscaleE t d a b rm sat) s

/-! ## Group 0x5: special functions (R111) -/

/-- An SFU instruction: its results are found at issue and written as they come back; the flag counts it (R26,
R101, R111). -/
def sfu (h : Hd) (t : Ty) (d : Opd) (regs : List (Nat × Nat)) (rm : Rm) (sat : Bool) (vals : Cx → Nat → List Fv)
    (f : List Fv → Exact) (s : State) : Out :=
  word h s (fun c ex =>
    if flagFull c.fl c.g h then waitRoom s c (flagWait c.g h)
    else
      let tr := reproLanes s c ex
      let go := ex.filter (fun l => !tr.contains l)
      let s := takeTraps s c cREPRO 0 tr
      match windowLock s c regs with
      | some i => advance (takeTraps s c cRLOCK i go) c h
      | none =>
        if go.isEmpty then advance s c h
        else
          let rs := go.map (fun l =>
            let vs := vals c l
            (l, runOp (fmtOf t 0) rm sat (laneWord c l 1 0) vs (f vs)))
          let (id, s) := fresh s
          let o : LOp :=
            { id := id, flag := slotFlag c.g h, pc := c.pc, hdr := c.hdr, left := rs.length,
              kind := .sfu t d (rs.map (fun r => { lane := r.1, val := nat64 r.2.1, pred := none })), acq := none,
              evs := laneEvs c (rs.map (fun r => { lane := r.1, mask := r.2.2 })) }
          advance (startOp s c.f c.k o) c h)

def un1 (f : Fv → Exact) (vs : List Fv) : Exact := f (vs.headD (.nan false))
def un2 (f : Fv → Fv → Exact) (vs : List Fv) : Exact := f (vs.headD (.nan false)) (vs.getD 1 (.nan false))

def sfu1 (h : Hd) (t : Ty) (d a : Opd) (rm : Rm) (sat : Bool) (f : Fv → Exact) (s : State) : Out :=
  sfu h t d (regsT t d ++ regsT t a) rm sat (fun c l => [fsrc c l t a 0]) (un1 f) s

def execVfdiv (h : Hd) (t : Ty) (d a b : Opd) (rm : Rm) (sat : Bool) (s : State) : Out :=
  sfu h t d (regsT t d ++ regsT t a ++ regsT t b) rm sat (fun c l => [fsrc c l t a 0, fsrc c l t b 0])
    (un2 exactDiv) s
def execVfsqrt (h : Hd) (t : Ty) (d a : Opd) (rm : Rm) (sat : Bool) (s : State) : Out := sfu1 h t d a rm sat exactSqrt s
def execVfrcp (h : Hd) (t : Ty) (d a : Opd) (rm : Rm) (sat : Bool) (s : State) : Out :=
  sfu1 h t d a rm sat (exactDiv (.num false 1 0)) s
def execVfrsqrt (h : Hd) (t : Ty) (d a : Opd) (rm : Rm) (sat : Bool) (s : State) : Out := sfu1 h t d a rm sat exactRsqrt s
def execVfexp2 (h : Hd) (t : Ty) (d a : Opd) (rm : Rm) (sat : Bool) (s : State) : Out := sfu1 h t d a rm sat exactExp2 s
def execVflog2 (h : Hd) (t : Ty) (d a : Opd) (rm : Rm) (sat : Bool) (s : State) : Out := sfu1 h t d a rm sat exactLog2 s
def execVfsinpi (h : Hd) (t : Ty) (d a : Opd) (rm : Rm) (sat : Bool) (s : State) : Out := sfu1 h t d a rm sat exactSinPi s
def execVfcospi (h : Hd) (t : Ty) (d a : Opd) (rm : Rm) (sat : Bool) (s : State) : Out := sfu1 h t d a rm sat exactCosPi s
def execVftanh (h : Hd) (t : Ty) (d a : Opd) (rm : Rm) (sat : Bool) (s : State) : Out := sfu1 h t d a rm sat exactTanh s

/-- Writes one pending value of a lane that still exists. -/
def writePend (s : State) (f k : Nat) (n : Nat) (d : Opd) (p : Option (Fin 8)) (w : PendW) : State :=
  modFlock s f k (fun fl =>
    let fl := wrV fl w.lane n d w.val
    match p, w.pred with
    | some q, some b => { fl with threads := tmod fl.threads w.lane (fun t => setPred t q b) }
    | _, _ => fl)

/-- SFU_RESULT: the results of the long-latency instruction at position `ix` of a flock are written and its flag
drops (R26, R111). -/
def execSfuResult (f k ix : Nat) (s : State) : Out :=
  match (flock? s f k).bind (fun fl => fl.ops[ix]?) with
  | none => .next s
  | some o =>
    match o.kind with
    | .sfu t d res => .next (completeOp (res.foldl (fun s w => writePend s f k (width t) d none w) s) f k o)
    | _ => .next s

/-! ## Group 0x5: conversions (R112 to R115) -/

def isIntTy (t : Ty) : Bool :=
  match t with
  | .i32 | .u32 | .i64 | .u64 => true
  | _ => false

/-- One conversion of a code (R113). -/
def convert (dt st : Ty) (nar : BitVec 6) (rm : Rm) (sat : Bool) (w : W32) (x : W64) : Res :=
  if isIntTy st then
    ofIntVal (fmtOf dt nar) rm sat w (if is64 st then intVal (signedTy st) x else intVal (signedTy st) (x.setWidth 32))
  else
    let v := fvElem (fmtOf st nar) x 0
    if isIntTy dt then toInt (elemWidth dt) (signedTy dt) rm w v else toFloat (fmtOf dt nar) rm sat w v

def vcvtE (dt st : Ty) (nar : BitVec 6) (d a : Opd) (rm : Rm) (sat : Bool) : Eff :=
  writeRes dt d (fun c l => laneRes 64 1 (fun _ => convert dt st nar rm sat (laneWord c l 1 0) (rdV c l st a)))

/-- Byte k of VPACK8: a.lo, a.hi, b.lo, b.hi (R114). -/
def vpack8E (nar : BitVec 6) (st : Ty) (d a b : Opd) (rm : Rm) (sat : Bool) : Eff :=
  writeRes .u32 d (fun c l => laneRes 8 4 (fun k =>
    toFloat (fB8 nar) rm sat (laneWord c l 4 k) (fvElem (fmtOf st 0) (rdV c l .u32 (if k < 2 then a else b)) (k % 2))))

/-- VUNPK8 fills the pair of d from bytes 0 to 3 of a (R114). -/
def vunpk8E (dt : Ty) (nar : BitVec 6) (d a : Opd) (rm : Rm) (sat : Bool) : Eff :=
  writeRes .u64 d (fun c l => laneRes 16 4 (fun k =>
    toFloat (fmtOf dt 0) rm sat (laneWord c l 4 k) (fvElem (fB8 nar) (rdV c l .u32 a) k)))

def vfrndE (t : Ty) (d a : Opd) (rm : Rm) : Eff :=
  writeRes t d (elemRes t (fun c l e w => opRnd (fmtOf t 0) rm w (fcode t (rdV c l t a) e)))

/-- Floor(Log2) of a finite non-zero value. -/
def floorLog2 (v : Fv) : Int :=
  match v with
  | .num _ m e => e + Nat.log2 m
  | _ => 0

/-- The shared scale of R115: none when a lane holds a NaN or an infinity. -/
def sharedScale (F : Fmt) (vs : List Fv) : Option Nat :=
  if vs.any (fun v => isNan v || isInf v) then none
  else
    match vs.filter (fun v => !isZero v) with
    | [] => some 127
    | v :: r =>
      let top := r.foldl (fun x u => max x (floorLog2 u)) (floorLog2 v)
      some (max 0 (min 254 (top - floorLog2 (fvOf F (maxMag F)) + 127))).toNat

/-- A value × 2^(127 - E). -/
def unscale (E : Nat) (v : Fv) : Fv :=
  match v with
  | .num n m e => .num n m (e + 127 - E)
  | v => v

/-- VQSCALE: the scale counts FMTNAN once, for the lowest executing thread (R101, R115). -/
def vqscaleE (nar : BitVec 6) (d a b : Opd) (rm : Rm) (sat : Bool) : Eff := fun c ex s =>
  let F := fB8 nar
  let v := fun l => fsrc c l .f32 a 0
  match sharedScale F (ex.map v) with
  | none =>
    let s := writeS (writeLanes s c ex .u32 d (fun _ => 0)) c b 0xFF
    raiseEvents s c (ex.map (fun l =>
      { lane := l, mask := sigEv [v l] ||| (if some l = ex.head? then evFMTNAN else 0) }))
  | some E =>
    writeRes .u32 d (fun c l => laneRes 8 1 (fun _ => toFloat F rm sat (laneWord c l 1 0) (unscale E (v l)))) c ex
      (writeS s c b (nat64 E))

def execVcvt (h : Hd) (dt st : Ty) (nar : BitVec 6) (d a : Opd) (rm : Rm) (sat : Bool) (s : State) : Out :=
  fpword h (regsT dt d ++ regsT st a) (vcvtE dt st nar d a rm sat) s
def execVpack8 (h : Hd) (nar : BitVec 6) (st : Ty) (d a b : Opd) (rm : Rm) (sat : Bool) (s : State) : Out :=
  fpword h (regsT .u32 d ++ regsT .u32 a ++ regsT .u32 b) (vpack8E nar st d a b rm sat) s
def execVunpk8 (h : Hd) (dt : Ty) (nar : BitVec 6) (d a : Opd) (rm : Rm) (sat : Bool) (s : State) : Out :=
  fpword h (regsT .u64 d ++ regsT .u32 a) (vunpk8E dt nar d a rm sat) s
def execVfrnd (h : Hd) (t : Ty) (d a : Opd) (rm : Rm) (s : State) : Out :=
  fpword h (regsT t d ++ regsT t a) (vfrndE t d a rm) s
def execVqscale (h : Hd) (nar : BitVec 6) (d a b : Opd) (rm : Rm) (sat : Bool) (s : State) : Out :=
  fpword h (regsT .u32 d ++ regsT .u32 a) (vqscaleE nar d a b rm sat) s

/-! ## The vector half of a pair -/

/-- The floating-point instructions that may stand in a pair (R42, R88). -/
def fpHalf : Instr → Option (List (Nat × Nat) × Eff)
  | .vfadd _ t d a b rm sat => some (binRegs t d a b, vfaddE t d a b rm sat)
  | .vfsub _ t d a b rm sat => some (binRegs t d a b, vfsubE t d a b rm sat)
  | .vfmul _ t d a b rm sat => some (binRegs t d a b, vfmulE t d a b rm sat)
  | .vfma _ t d a b k rm sat => some (regsT t d ++ regsT t a ++ regsT t b ++ regsT t k, vfmaE t d a b k rm sat)
  | .vfmin _ t d a b => some (binRegs t d a b, vfminmaxE false t d a b)
  | .vfmax _ t d a b => some (binRegs t d a b, vfminmaxE true t d a b)
  | .vfcmp _ t k d a b => some (regsT t a ++ regsSrc t b, vfcmpE t k d a b)
  | .vfabs _ t d a => some (regsT t d ++ regsT t a, vfsignE false t d a)
  | .vfneg _ t d a => some (regsT t d ++ regsT t a, vfsignE true t d a)
  | .vfclass _ t nar d a => some (regsT .u32 d ++ regsT t a, vfclassE t nar d a)
  | .vfdot _ t nar d a b rm sat =>
    some (regsT .f32 d ++ regsT .u32 a ++ regsT .u32 b, vfdotE t nar d a b rm sat)
  | .vfscale _ t d a b rm sat => some (regsT t d ++ regsT t a ++ regsSrc .i32 b, vfscaleE t d a b rm sat)
  | _ => none

end Sys2Proof.Machine
end

