-- ==== Sys2Proof/Machine/Memory.lean ====
section
/-! DEFINITION. Loads and stores as they issue (R149, R150, R166 to R170, R177, R255): addresses, the checks of
pass 1, range locks, regions and tasks, and the entries of the load set and the store FIFO. -/

namespace Sys2Proof.Machine

open Sys2Proof
open Sys2Proof.WellFormed (is64)

def sizeBytes (z : Size) : Nat :=
  match z with
  | .b8 => 1
  | .b16 => 2
  | .b32 => 4
  | .b64 => 8
  | .b128 => 16

/-- The registers a data operand of a size names (R166). -/
def dataRegs (z : Size) (o : Opd) : List (Nat × Nat) :=
  vregsOf (match z with | .b128 => 4 | .b64 => 2 | _ => 1) o

/-- The bytes a data operand supplies in a lane. -/
def rdData (c : Cx) (l : Nat) (z : Size) (o : Opd) : List Byte :=
  match z, o with
  | .b128, .v n => (List.range 4).flatMap (fun i => leBytes 4 (vreg c.fl (n.val + i) l).toNat)
  | .b128, _ => leBytes 16 0
  | z, o => leBytes (sizeBytes z) (rdV c l (if z = .b64 then .u64 else .u32) o).toNat

/-! ## Pass 1 (R167, R168) -/

/-- What pass 1 finds for a lane: a fault with its cause and FADDR, or where the access goes, with its leaf. LDC has no leaf:
its bytes are `n` at the place and the rest at a second place. -/
structure Found where
  place : Place
  va : W64
  tr : Option Trans
  n : Nat := 0
  tail : Option (Place × Nat) := none
  deriving DecidableEq, Repr

abbrev Checked := Except (Nat × W64) Found

/-- The frame pool of the context (R178). -/
def inFpool (s : State) (cx va n : Nat) : Bool :=
  let k := ctx s cx
  decide (k.fpoolBase.toNat < va + n ∧ va < k.fpoolBase.toNat + k.fpoolSize.toNat)

def nodeOf (ea : W64) : BitVec 7 := ea.extractLsb' 57 7

/-- Whether an access to a peer is refused at once: no route, the device's own node, or reduced service (R360,
R371). -/
def nodeBad (s : State) (n : BitVec 7) : Bool :=
  decide (s.plat.svc ≠ 2) || n == s.plat.localNode || tgetD s.plat.nodeRoute n.toNat 0 == 0

/-- The check of a global address of n bytes (R150, R153, R167, R178). -/
def checkGlobal (s : State) (c : Cx) (ea : W64) (n : Nat) (a : Acc) (pool : Bool) : State × Checked :=
  if ea.toNat % n ≠ 0 then (s, .error (cALIGN, ea))
  else if nodeOf ea ≠ 0 then
    if nodeBad s (nodeOf ea) then (s, .error (causeProt, ea))
    else (s, .ok { place := .peer (nodeOf ea) (ea.setWidth 57), va := ea, tr := none })
  else
    match translate s (.core c.c) c.fo.ctx ea.toNat a with
    | (s, .error f) => (s, .error (f, ea))
    | (s, .ok t) =>
      if pool && inFpool s c.fo.ctx ea.toNat n then (s, .error (causeProt, ea))
      else (s, .ok { place := placeOf t, va := ea, tr := some t })

/-- The size of the header and data area of the frame at an address (R179). -/
def frameSize (s : State) (cx : Nat) (d : W64) : Nat :=
  match s.grids.find? (fun g => g.2.ctx == cx &&
      (match g.2.frame with | some fr => fr.addr == d.setWidth 57 | none => false)) with
  | some g => 64 + 256 * g.2.record.body
  | none => 0

/-- The check of a lexical address (R167, R168): LEVEL, ALIGN, PAGE, then PROT, of the offset range or of the page. -/
def checkLex (s : State) (c : Cx) (l : Nat) (a : Opd) (m : Al) (store : Bool) : State × Checked :=
  let n := sizeBytes m.size
  let d := dispReg c m.level.val
  let off := m.off.toNat + (rd32 c l a).toNat * 2 ^ m.scale.val
  let ea := nat64 (d.toNat + off)
  let outside : Bool := decide ((if store then off < 64 else False) ∨ frameSize s c.fo.ctx d < off + n)
  if d = 0 then (s, .error (cLEVEL, nat64 off))
  else if (d.toNat + off) % n ≠ 0 then (s, .error (cALIGN, ea))
  else
    match translate s (.core c.c) c.fo.ctx ((d.toNat + off) % 2 ^ 57) (if store then .store else .load) with
    | (s, .error f) => (s, .error (f, ea))
    | (s, .ok t) =>
      if outside then (s, .error (causeProt, ea)) else (s, .ok { place := placeOf t, va := ea, tr := some t })

/-- The check of a scratchpad offset (R168). -/
def checkScr (s : State) (c : Cx) (l : Nat) (a : Opd) (off : W32) (n : Nat) : State × Checked :=
  let o := (rd32 c l a + off).toNat
  if o % n ≠ 0 then (s, .error (cALIGN, nat64 o))
  else if c.fo.scrSize < o + n then (s, .error (causeProt, nat64 o))
  else (s, .ok { place := .scratch o, va := nat64 o, tr := none })

/-- Where some bytes of the constant image lie, at most up to the end of their page (R149): the translated place and how many
of them. -/
def constPart (s : State) (c : Cx) (va n : Nat) : State × Except Nat (Place × Nat) :=
  if n = 0 then (s, .ok (.imm [], 0))
  else
    match translate s (.core c.c) c.fo.ctx (va % 2 ^ 57) .load with
    | (s, .error f) => (s, .error f)
    | (s, .ok t) => (s, .ok (placeOf t, min n (4096 - va % 4096)))

/-- The check of a constant offset (R149, R168): the places of the bytes that the section holds, which are at most two; bytes
beyond the section read zero. -/
def checkConst (s : State) (c : Cx) (l : Nat) (a : Opd) (off : W32) (n : Nat) : State × Checked :=
  let o := (rd32 c l a + off).toNat
  if o % n ≠ 0 then (s, .error (cALIGN, nat64 o))
  else if 65536 < o + n then (s, .error (causeProt, nat64 o))
  else
    let k := min n (c.gr.kd.constLen - o)
    let va := c.gr.kd.constAddr.toNat + o
    match constPart s c va k with
    | (s, .error f) => (s, .error (f, nat64 o))
    | (s, .ok p) =>
      match constPart s c (va + p.2) (k - p.2) with
      | (s, .error f) => (s, .error (f, nat64 o))
      | (s, .ok q) => (s, .ok { place := p.1, va := nat64 o, tr := none, n := p.2, tail := some q })

/-- The check of an LDX or STX address (R150, R155, R156, R167, R169): PAGE, then ALIGN, whose size the page gives, then PROT
and FMTBLK. -/
def checkElem (s : State) (c : Cx) (ea : W64) (a : Acc) : State × Checked :=
  if nodeOf ea ≠ 0 then (s, .error (causeProt, ea))
  else
    match lookup s (.core c.c) c.fo.ctx ea.toNat with
    | (s, .error f) => (s, .error (f, ea))
    | (s, .ok e) =>
      let fmt := leafFmt e.leaf
      if fmt ≠ 0 ∧ ea.toNat % elemBytes fmt ≠ 0 then (s, .error (cALIGN, ea))
      else
        match translate s (.core c.c) c.fo.ctx ea.toNat a with
        | (s, .error f) => (s, .error (f, ea))
        | (s, .ok t) =>
          if a = .store ∧ inFpool s c.fo.ctx ea.toNat 1 then (s, .error (causeProt, ea))
          else if fmt = 0 ∨ !inElements t then (s, .error (cFMTBLK, ea))
          else (s, .ok { place := placeOf t, va := ea, tr := some t })

/-- Pass 1 over the lanes in ascending index: the first fault, or what each lane found (R167). -/
def pass1 (s : State) (ls : List Nat) (chk : State → Nat → State × Checked) :
    State × Except (Nat × Nat × W64) (List (Nat × Found)) :=
  ls.foldl (fun (acc : State × Except (Nat × Nat × W64) (List (Nat × Found))) l =>
    match acc.2 with
    | .error e => (acc.1, .error e)
    | .ok fs =>
      match chk acc.1 l with
      | (s, .error e) => (s, .error (l, e.1, e.2))
      | (s, .ok x) => (s, .ok (fs ++ [(l, x)]))) (s, .ok [])

/-! ## Pass 2 -/

/-- The range-lock entry an access meets (R160). LDC is not checked. -/
def accessLock (s : State) (c : Cx) (x : Found) (n : Nat) (store : Bool) : Option Nat :=
  match x.place with
  | .dev .. | .host _ =>
    if x.tr.isNone then none
    else lockedBy (coreAt s c.c) .global (x.va.toNat % 2 ^ 57) (x.va.toNat % 2 ^ 57 + n) store
  | .scratch o => lockedBy (coreAt s c.c) (.scratch c.f) o (o + n) store
  | _ => none

/-- The words of a device access. -/
def placeWords (p : Place) (n : Nat) : List Nat :=
  match p with
  | .dev pa _ _ => (List.range ((pa + n - 1) / 4 - pa / 4 + 1)).map (pa / 4 + ·)
  | _ => []

/-- Whether a region's access goes to memory that a region may not touch (R270). -/
def nonLocal (p : Place) : Bool :=
  match p with
  | .host _ | .peer _ _ => true
  | .dev _ cm _ => cm == 1 || cm == 2
  | _ => false

/-- A lane of a live region issues an access to global memory: NONLOCAL, CAPACITY or a conflict may abort it; `more` are the words
that it touches beside those of its place, such as a block's scale. The answer is the region, or none when the access is
suppressed; `some none` is an access outside a region. -/
def regionIssue (s : State) (c : Cx) (l : Nat) (p : Place) (n : Nat) (more : List Nat) (rd wr : Bool) :
    State × Option (Option Nat) :=
  match thread? s c.f c.k l with
  | none => (s, none)
  | some t =>
    if t.reg.doom then (s, none)
    else if !t.reg.live then (s, some none)
    else
      match p with
      | .scratch _ | .imm _ => (s, some none)
      | _ =>
        let rid := t.reg.rid
        if nonLocal p then (abortRegion s rid 5, none)
        else
          let ws := placeWords p n ++ more
          let s := if rd then regionTouch s c.f c.k rid ws false else s
          let s := if wr && (region? s rid).isSome then regionTouch s c.f c.k rid ws true else s
          if (region? s rid).isSome then (s, some (some rid)) else (s, none)

def acquires (o : Order) : Bool := o == .acq || o == .acqrel
def releases (o : Order) : Bool := o == .rel || o == .acqrel

/-- Takes RLOCK in the lanes that meet an entry (R160). -/
def takeLocks (s : State) (c : Cx) (ls : List (Nat × Nat)) : State :=
  ls.foldl (fun s e => takeTrap s c e.1 cRLOCK e.2) s

/-- A new long-latency instruction of the issuing word, with no parts yet. -/
def newOp (c : Cx) (h : Hd) (id : Nat) (kind : OpKind) (acq : Option Scope) : LOp :=
  { id := id, flag := slotFlag c.g h, pc := c.pc, hdr := c.hdr, left := 0, kind := kind, acq := acq, evs := [] }

/-- Sets the number of parts of an instruction that has just issued; with none it is complete at once (R26,
DEDUCED, log 18). -/
def setLeft (s : State) (f k id n : Nat) : State :=
  match (flock? s f k).bind (fun fl => op? fl id) with
  | none => s
  | some o =>
    if n = 0 then completeOp s f k o
    else modFlock s f k (fun fl => { fl with ops := fl.ops.map (fun p => if p.id == id then { p with left := n } else p) })

/-- M1: the store FIFO has a free entry for each executing thread (R242, R245). -/
def fifoRoom (fl : Flock) (n : Nat) : Bool := decide (fl.fifo.length + n ≤ 64)

/-- An access to a peer acts at SYSTEM scope, whatever its scope field (R150). -/
def peerScope (p : Place) (sc : Scope) : Scope :=
  match p with
  | .peer _ _ => .system
  | _ => sc

/-- The acquire action of an instruction some of whose lanes may reach a peer (R150, R248). -/
def acqOf (fs : List (Nat × Found)) (acq : Option Scope) : Option Scope :=
  acq.map (fun sc => fs.foldl (fun sc e => peerScope e.2.place sc) sc)

/-- The pages that the entries of a store or an atomic write become DIRTY (R152; log 36 gives the moment). -/
def markFound (s : State) (c : Cx) (fs : List (Nat × Found)) : State :=
  fs.foldl (fun s e =>
    if e.2.tr.isSome then markDirty s (.core c.c) c.fo.ctx (e.2.va.toNat % 2 ^ 57) else s) s

/-- The shape of a memory instruction: the checks of its lanes that are not doomed, its faults, its RLOCK traps in
the lanes that meet a lock, then its entries, lane by lane (R26, R167, R232, R272, R378). `repr` names the lanes
that take REPRO. -/
def access (h : Hd) (s : State) (regs : List (Nat × Nat)) (n : Found → Nat) (store : Bool)
    (chk : Cx → State → Nat → State × Checked) (repr : State → Cx → Bool) (kind : OpKind) (acq : Option Scope) (fifo : Bool)
    (enter : Cx → Nat → State → Nat × Found → State × Nat) : Out :=
  word h s (fun c ex =>
    if flagFull c.fl c.g h || (fifo && !fifoRoom c.fl ex.length) then
      waitRoom s c (flagWait c.g h ++ if fifo then [.fifo ex.length] else [])
    else
      let act := actLanes c ex
      match pass1 s act (chk c) with
      | (s, .error (l, cause, fa)) => faultHere s c cause (some l) fa
      | (s, .ok fs) =>
        if repr s c then advance (takeTraps s c cREPRO 0 ex) c h
        else
          match windowLock s c regs with
          | some i => advance (takeTraps s c cRLOCK i ex) c h
          | none =>
            let met := fs.filterMap (fun e => (accessLock s c e.2 (n e.2) store).map (fun i => (e.1, i)))
            let go := fs.filter (fun e => !met.any (fun m => m.1 == e.1))
            let (id, s) := fresh s
            let s := startOp s c.f c.k (newOp c h id kind (acqOf go acq))
            let r := go.foldl (fun (acc : State × Nat × List (Nat × Found)) e =>
              let q := enter c id acc.1 e
              (q.1, acc.2.1 + q.2, if q.2 = 0 then acc.2.2 else acc.2.2 ++ [e])) (s, 0, [])
            let s := if store then markFound r.1 c r.2.2 else r.1
            advance (takeLocks (setLeft s c.f c.k id r.2.1) c met) c h)

def noRepr (_ : State) (_ : Cx) : Bool := false

/-- Whether an access misses in the die's L2 (R134): none of its first word in the core's view, and its line not
held; a peer's memory is never cached. In reduced service the L2 holds the device's memory, and no device access misses (R371). -/
def missesL2 (s : State) (c : Cx) (p : Place) : Bool :=
  let miss := fun (pa : Nat) => (viewWord s c.c (pa / 4)).isNone
    && !s.ms.l2.any (fun e => e.die == dieOf c.c && e.line == pa / 128)
  match p with
  | .dev pa _ _ => s.plat.svc == 2 && miss pa
  | .host pa => miss pa
  | .peer _ _ => true
  | _ => false

/-- A flag becomes long when an access counted on it misses in L2 (R134). -/
def noteMiss (s : State) (c : Cx) (id : Nat) (p : Place) : State := if missesL2 s c p then opLong s c.f c.k id else s

/-- A load of LDC joins the load set; a region does not track it (R149, R270). -/
def enterConst (sgn : Bool) (z : Size) (d : Opd) (c : Cx) (id : Nat) (s : State) (e : Nat × Found) : State × Nat :=
  let q := e.2.tail.getD (.imm [], 0)
  let x : LEntry :=
    { op := id, lane := e.1, place := e.2.place, n := e.2.n, kind := .const sgn z d q.1 q.2, task := c.fo.isTask, rid := none,
      strm := false, va := e.2.va, pc := c.pc, sent := false, ts := s.plat.ts }
  (modFlock (noteMiss s c id e.2.place) c.f c.k (fun fl => { fl with loads := fl.loads ++ [x] }), 1)

/-- The word of the scale that LDX reads, and that STX writes, beside the element (R169, R270). -/
def loadScale (k : LKind) : List Nat := match k with | .elem _ _ (some pa) _ => [pa / 4] | _ => []
def storeScale (a : Act) : List Nat := match a with | .storeX pa _ => [pa / 4] | _ => []

/-- M2: a load joins the load set (R245). -/
def enterLoad (kind : LKind) (n : Found → Nat) (strm : Bool) (c : Cx) (id : Nat) (s : State) (e : Nat × Found) :
    State × Nat :=
  match regionIssue s c e.1 e.2.place (n e.2) (loadScale kind) true false with
  | (s, none) => (s, 0)
  | (s, some rid) =>
    let x : LEntry :=
      { op := id, lane := e.1, place := e.2.place, n := n e.2, kind := kind, task := c.fo.isTask, rid := rid,
        strm := strm, va := e.2.va, pc := c.pc, sent := false, ts := s.plat.ts }
    (modFlock (noteMiss s c id e.2.place) c.f c.k (fun fl => { fl with loads := fl.loads ++ [x] }), 1)

/-- Appends a store or an atomic: to the scratchpad stores, to the tentative entries of a region, or to the store
FIFO (M1, R245, R270). -/
def pushEntry (s : State) (c : Cx) (x : FEntry) : State :=
  modFlock s c.f c.k (fun fl =>
    match x.place with
    | .scratch _ => { fl with scr := fl.scr ++ [x] }
    | _ => match x.rid with
      | some _ => { fl with tent := fl.tent ++ [x] }
      | none => { fl with fifo := fl.fifo ++ [x] })

/-- A store or an atomic enters, with the time stamp of the access (R251). -/
def enterStore (act : Nat → Act) (data : Cx → Nat → List Byte) (order : Order) (scope : Scope) (task rd strm : Bool)
    (c : Cx) (id : Nat) (s : State) (e : Nat × Found) : State × Nat :=
  let bs := data c e.1
  match regionIssue s c e.1 e.2.place bs.length (storeScale (act e.1)) rd true with
  | (s, none) => (s, 0)
  | (s, some rid) =>
    (pushEntry (noteMiss s c id e.2.place) c
      { op := id, lane := e.1, place := e.2.place, data := bs, act := act e.1, order := order,
        scope := peerScope e.2.place scope, task := task && c.fo.isTask, rid := rid, va := e.2.va, pc := c.pc, sent := false,
        ts := s.plat.ts, strm := strm }, 1)

def acqScope (o : Order) (sc : Scope) : Option Scope := if acquires o then some sc else none

/-- LDS and STS treat any scope above FOLD as FOLD (R166, R247). -/
def scrScope (sc : Scope) : Scope := if sc = .flock then .flock else .fold

def execLd (h : Hd) (sgn : Bool) (d a : Opd) (m : Am) (s : State) : Out :=
  let n := sizeBytes m.size
  access h s (dataRegs m.size d ++ regsT .u64 a) (fun _ => n) false
    (fun c s l => checkGlobal s c (rdAddr c l a + m.off.signExtend 64) n .load false) noRepr .load
    (acqScope m.order m.scope) false (enterLoad (.raw sgn m.size d) (fun _ => n) m.strm)

def execLdl (h : Hd) (sgn : Bool) (d a : Opd) (m : Al) (s : State) : Out :=
  let n := sizeBytes m.size
  access h s (dataRegs m.size d ++ regsT .u32 a) (fun _ => n) false
    (fun c s l => checkLex s c l a m false) noRepr .load
    (acqScope m.order .die) false (enterLoad (.raw sgn m.size d) (fun _ => n) false)

def execLds (h : Hd) (sgn : Bool) (d a : Opd) (m : Am) (s : State) : Out :=
  let n := sizeBytes m.size
  access h s (dataRegs m.size d ++ regsT .u32 a) (fun _ => n) false
    (fun c s l => checkScr s c l a m.off n) noRepr .load
    (acqScope m.order (scrScope m.scope)) false (enterLoad (.raw sgn m.size d) (fun _ => n) false)

def execLdc (h : Hd) (sgn : Bool) (d a : Opd) (m : Am) (s : State) : Out :=
  let n := sizeBytes m.size
  access h s (dataRegs m.size d ++ regsT .u32 a) (fun _ => n) false
    (fun c s l => checkConst s c l a m.off n) noRepr .load none false (enterConst sgn m.size d)

def execSt (h : Hd) (a b : Opd) (m : Am) (s : State) : Out :=
  let n := sizeBytes m.size
  access h s (dataRegs m.size b ++ regsT .u64 a) (fun _ => n) true
    (fun c s l => checkGlobal s c (rdAddr c l a + m.off.signExtend 64) n .store true) noRepr .store none true
    (enterStore (fun _ => .store) (fun c l => rdData c l m.size b) m.order m.scope true false m.strm)

/-- STL: a store at level 0 is not deferred in a task (R199). -/
def execStl (h : Hd) (a b : Opd) (m : Al) (s : State) : Out :=
  let n := sizeBytes m.size
  access h s (dataRegs m.size b ++ regsT .u32 a) (fun _ => n) true
    (fun c s l => checkLex s c l a m true) noRepr .store none true
    (enterStore (fun _ => .store) (fun c l => rdData c l m.size b) m.order .die (m.level != 0) false false)

def execSts (h : Hd) (a b : Opd) (m : Am) (s : State) : Out :=
  let n := sizeBytes m.size
  access h s (dataRegs m.size b ++ regsT .u32 a) (fun _ => n) true
    (fun c s l => checkScr s c l a m.off n) noRepr .store none false
    (enterStore (fun _ => .store) (fun c l => rdData c l m.size b) m.order (scrScope m.scope) false false false)

/-- Whether a prefetch can fetch a line into a core's L1 now: the host's copy and a flip do not stand in its way, and a link
reaches the host's memory. A memory-side page is never held in a view (R246, R357, R362). -/
def prefReady (s : State) (pa : Nat) (cm : BitVec 2) : Bool :=
  effCmode s pa cm != 2 && biasReady s pa false && !linkLost s pa

/-- PREF brings lines nearer and changes no visible state: an address that translates brings its line into the die's L2, and
PREF.L1 into the core's L1 too (R158, R170). A line of a memory-side page is counted in the L2 as any other, and an address
register in a locked matrix window takes RLOCK as R232 has it: the spec gives neither case for PREF (DESIGN CHOICE, log 46). -/
def execPref (h : Hd) (a : Opd) (l2 : Bool) (off : W32) (s : State) : Out :=
  vexec h (regsT .u64 a) (fun c ex s =>
    (actLanes c ex).foldl (fun s l =>
      let ea := rdAddr c l a + off.signExtend 64
      if nodeOf ea ≠ 0 then s
      else match translate s (.core c.c) c.fo.ctx ea.toNat .load with
        | (s, .error _) => s
        | (s, .ok t) =>
          if !l2 && prefReady s t.pa (leafCmode t.leaf) then installLine s c.c (t.pa / 128) (leafCmode t.leaf) c.fo.ctx
          else fillL2 s (dieOf c.c) (t.pa / 128) c.fo.ctx false) s) s

/-- XLAT's value from a leaf and the translated physical address (R173). -/
def xlatVal (e : W64) (pa size : Nat) (priv : Bool) : W64 :=
  nat64 (2 ^ 63 + bits e 8 8 * 2 ^ 62 + bits e 10 9 * 2 ^ 60 + bits e 59 58 * 2 ^ 58 + bits e 57 52 * 2 ^ 52
    + bits e 3 3 * 2 ^ 51 + bits e 2 2 * 2 ^ 50 + bits e 1 1 * 2 ^ 49
    + (if priv then pa % 2 ^ 48 / 2 ^ 12 * 2 ^ 12 else 0) + size)

/-- A thread is privileged when it runs firmware on core 0 of a die (R308). -/
def privileged (c : Cx) : Bool := c.c % 64 == 0

/-- The translation XLAT answers with: zero for a peer's address and for a walk that would fault (R150, R173). -/
def xlatRes (c : Cx) (s : State) (ea : W64) : State × W64 :=
  if nodeOf ea ≠ 0 then (s, 0)
  else
    match lookup s (.core c.c) c.fo.ctx ea.toNat with
    | (s, .error _) => (s, 0)
    | (s, .ok e) =>
      let pa := entryAddr e ea.toNat
      if mappedPa s pa then (s, xlatVal e.leaf pa e.size (privileged c)) else (s, 0)

/-- XLAT: the translations are found at issue and written when the flag falls (R173). Doomed lanes write nothing
(R272). -/
def execXlat (h : Hd) (d a : Opd) (off : W32) (s : State) : Out :=
  word h s (fun c ex =>
    if flagFull c.fl c.g h then waitRoom s c (flagWait c.g h)
    else
      match windowLock s c (regsT .u64 d ++ regsT .u64 a) with
      | some i => advance (takeTraps s c cRLOCK i ex) c h
      | none =>
        let r := (actLanes c ex).foldl (fun (acc : State × List PendW) l =>
          let q := xlatRes c acc.1 (rdAddr c l a + off.signExtend 64)
          (q.1, acc.2 ++ [{ lane := l, val := q.2, pred := none }])) (s, [])
        let (id, s) := fresh r.1
        let s := startOp s c.f c.k { newOp c h id (.xlat d r.2) none with left := 1 }
        advance s c h)

end Sys2Proof.Machine
end

