-- ==== Sys2Proof/Machine/Elements.lean ====
section
/-! DEFINITION. LDX and STX (R155, R156, R169): elements of a page's format, block scales, and the conversions. -/

namespace Sys2Proof.Machine

open Sys2Proof
open Sys2Proof.WellFormed (is64)

/-- The format of a page's float elements (R152, R155). -/
def pageFmt (f : BitVec 6) : Fmt :=
  if f = 1 then fF64 else if f = 2 then fF32 else if f = 3 then fF16 else if f = 4 then fBF16 else fB8 f

/-- I8 and U8 pages. -/
def pageInt (f : BitVec 6) : Bool := f == 5 || f == 6

/-- An element times its block's scale, exact; a scale of 0xFF is NaN (R94). -/
def scaled (v : Fv) (e : Nat) : Fv :=
  if e = 255 then .nan (isSig v)
  else match v with
    | .num n m x => .num n m (x + e - 127)
    | v => v

/-- LDX's conversion of an element (R169), with the block's scale byte where the page has one. -/
def ldxRes (t : Ty) (f : BitVec 6) (x : Nat) (scale : Option Nat) : Res :=
  if pageInt f then
    let v := intVal (f == 5) (BitVec.ofNat 8 x)
    if t = .i32 then ((BitVec.ofInt 32 v).toNat, 0) else ofIntVal (fmtOf t 0) .rne false 0 v
  else
    let v := fvOf (pageFmt f) x
    let v' := match scale with | some e => scaled v e | none => v
    let ev := if scale = some 255 then evFMTNAN else 0
    let r := if t = .i32 then toInt 32 true .rne 0 v' else toFloat (fmtOf t 0) .rne false 0 v'
    (r.1, r.2 ||| ev)

/-- STX's conversion of an operand to an element of a page without scales. An I32 operand outside an integer page's
range is clamped by no rule: that byte is free, and INV and INEX are counted as for a conversion out of range (R113, R169;
DESIGN CHOICE, log 8). -/
def stxRes (t : Ty) (f : BitVec 6) (rm : Rm) (sat : Bool) (w : W32) (x : W64) : Res :=
  if t = .i32 then
    let v := (x.setWidth 32).toInt
    if pageInt f then
      if v < minOf 8 (f == 5) ∨ maxOf 8 (f == 5) < v then ((Config.narrowByte (f == 5) (x.setWidth 32)).toNat, evINV ||| evINEX)
      else ((BitVec.ofInt 8 v).toNat, 0)
    else ofIntVal (pageFmt f) rm sat w v
  else
    let v := fvElem (fmtOf t 0) x 0
    if pageInt f then toInt 8 (f == 5) rm w v else toFloat (pageFmt f) rm sat w v

def foundFmt (x : Found) : BitVec 6 := match x.tr with | some t => leafFmt t.leaf | none => 0

def foundScale (x : Found) : Option Nat := x.tr.bind scalePa

def elemN (x : Found) : Nat := elemBytes (foundFmt x)

/-- The exact value of STX's operand. -/
def stxVal (t : Ty) (x : W64) : Fv :=
  if t = .i32 then
    let v := (x.setWidth 32).toInt
    .num (decide (v < 0)) v.natAbs 0
  else fvElem (fmtOf t 0) x 0

/-- The lanes whose elements share a lane's block: those with the same scale byte (R156). -/
def blockLanes (fs : List (Nat × Found)) (x : Found) : List (Nat × Found) :=
  fs.filter (fun e => foundScale e.2 == foundScale x)

/-- Whether a block is written whole, by exactly one thread per element (R169). -/
def blockWhole (fs : List (Nat × Found)) (x : Found) : Bool :=
  match x.tr with
  | none => true
  | some t =>
    let pas := (blockLanes fs x).filterMap (fun e => e.2.tr.map (·.pa))
    decide (pas.length = blockLen t ∧ pas.eraseDups.length = blockLen t)

/-- What STX writes for a lane: its element, the scale byte when the lane is the last of its block, and its
events (R94, R115, R169). Where a lane of the block takes RLOCK, the scale is still formed over all of them, and the scale byte is
written only if the last lane is not the locked one: the spec does not say what the block then holds (DESIGN CHOICE, log 46). -/
def stxLane (t : Ty) (b : Opd) (rm : Rm) (sat : Bool) (c : Cx) (fs : List (Nat × Found))
    (e : Nat × Found) : List Byte × Act × BitVec 8 :=
  let f := foundFmt e.2
  let w := laneWord c e.1 1 0
  match foundScale e.2 with
  | none =>
    let r := stxRes t f rm sat w (rdV c e.1 t b)
    (leBytes (elemBytes f) r.1, .store, r.2)
  | some pa =>
    let ls := blockLanes fs e.2
    let v := stxVal t (rdV c e.1 t b)
    let last := (ls.getLast?.map (·.1)) == some e.1
    let first := (ls.head?.map (·.1)) == some e.1
    match sharedScale (pageFmt f) (ls.map (fun x => stxVal t (rdV c x.1 t b))) with
    | none =>
      ([0], if last then .storeX pa 0xFF else .store, sigEv [v] ||| (if first then evFMTNAN else 0))
    | some E =>
      let r := toFloat (pageFmt f) rm sat w (unscale E v)
      (leBytes 1 r.1, if last then .storeX pa (BitVec.ofNat 8 E) else .store, r.2)

/-- Adds events to an instruction under way. -/
def opEvents (s : State) (f k id l : Nat) (m : BitVec 8) (rid : Option Nat) : State :=
  modFlock s f k (fun fl => { fl with ops := fl.ops.map (fun o =>
    if o.id == id then { o with evs := insEv fl { lane := l, mask := m, rid := rid } o.evs } else o) })

def execLdx (h : Hd) (t : Ty) (d a : Opd) (m : Am) (s : State) : Out :=
  access h s (regsT t d ++ regsT .u64 a) elemN false
    (fun c s l => checkElem s c (rdAddr c l a + m.off.signExtend 64) .load) noRepr .load
    (acqScope m.order m.scope) false
    (fun c id s e => enterLoad (.elem t (foundFmt e.2) (foundScale e.2) d) elemN m.strm c id s e)

/-- What the address of each lane in which an STX acts found, for the block rule. -/
def stxFound (h : Hd) (a : Opd) (m : Ax) (c : Cx) (s : State) : List (Nat × Found) :=
  (actLanes c (execLanes c h)).filterMap (fun l =>
    match (checkElem s c (rdAddr c l a + m.off.signExtend 64) .store).2 with
    | .ok x => some (l, x)
    | .error _ => none)

/-- The check of an STX address: that of any element, and FMTBLK when the threads do not write its block whole (R167, R169). -/
def checkStx (h : Hd) (a : Opd) (m : Ax) (c : Cx) (s : State) (l : Nat) : State × Checked :=
  match checkElem s c (rdAddr c l a + m.off.signExtend 64) .store with
  | (s, .ok x) =>
    if (foundScale x).isSome && !blockWhole (stxFound h a m c s) x then (s, .error (cFMTBLK, x.va)) else (s, .ok x)
  | r => r

def execStx (h : Hd) (t : Ty) (a b : Opd) (m : Ax) (s : State) : Out :=
  access h s (regsT t b ++ regsT .u64 a) elemN true
    (checkStx h a m) noRepr .store none true
    (fun c id s e =>
      let r := stxLane t b m.rm m.sat c (stxFound h a m c s) e
      let q := enterStore (fun _ => r.2.1) (fun _ _ => r.1) m.order m.scope true false false c id s e
      (if q.2 = 0 then q.1 else opEvents q.1 c.f c.k id e.1 r.2.2 (regionOf c e.1), q.2))

end Sys2Proof.Machine
end

