-- ==== Sys2Proof/Machine/Perform.lean ====
section
/-! DEFINITION. The machine steps M3 to M8 (R245 to R251, R256, R257): loads and stores performed, ownership, slices,
invalidations, atomics; the deferred effects of tasks (R199, R200, R379) and the tentative entries of regions
(R270). -/

namespace Sys2Proof.Machine

open Sys2Proof
open Sys2Proof.WellFormed (is64)

/-! ## Places -/

/-- The physical address and the CMODE of a place in device or host memory. -/
def placePa (p : Place) : Option (Nat × BitVec 2) :=
  match p with
  | .dev pa cm _ => some (pa, cm)
  | .host pa => some (pa, 0)
  | _ => none

/-- log2 of the page size of a place. -/
def placeSize (p : Place) : Nat :=
  match p with
  | .dev _ _ z => z
  | _ => 12

/-- A place as a space and an address, for comparisons. -/
def placeKey (p : Place) : Option (Nat × Nat) :=
  match p with
  | .dev pa _ _ | .host pa => some (0, pa)
  | .peer n va => some (1 + n.toNat, va.toNat)
  | .scratch o => some (1000, o)
  | .imm _ => none

def placesMeet (p : Place) (n : Nat) (q : Place) (m : Nat) : Bool :=
  match placeKey p, placeKey q with
  | some a, some b => a.1 == b.1 && decide (a.2 < b.2 + m ∧ b.2 < a.2 + n)
  | _, _ => false

/-- The bytes a store holds for a range that it covers whole. -/
def coverOf (q : Place) (bs : List Byte) (p : Place) (n : Nat) : Option (List Byte) :=
  match placeKey p, placeKey q with
  | some a, some b =>
    if a.1 = b.1 ∧ b.2 ≤ a.2 ∧ a.2 + n ≤ b.2 + bs.length then some ((bs.drop (a.2 - b.2)).take n) else none
  | _, _ => none

/-- What an entry writes: its own bytes, and a block's scale byte. -/
def entryParts (e : FEntry) : List (Place × List Byte) :=
  match e.act with
  | .storeX pa b =>
    let cm := match e.place with | .dev _ cm _ => cm | _ => 0
    [(e.place, e.data), (if isHostPa pa then .host pa else .dev pa cm (placeSize e.place), [b])]
  | _ => [(e.place, e.data)]

def isStore (e : FEntry) : Bool :=
  match e.act with
  | .store | .storeX _ _ => true
  | _ => false

/-- What a load's FIFO offers (R245, M3): it must wait, nothing, or the newest entry's bytes. -/
inductive Fwd where
  | wait | none | got (bs : List Byte)
  deriving DecidableEq, Repr

/-- The entries of a list that were issued before an instruction, applied to a range (M3, R249). -/
def forward (es : List FEntry) (op : Nat) (p : Place) (n : Nat) : Fwd :=
  (es.filter (fun e => decide (e.op < op))).foldl (fun acc e =>
    match acc with
    | .wait => .wait
    | acc =>
      (entryParts e).foldl (fun acc q =>
        if !placesMeet p n q.1 q.2.length then acc
        else if !isStore e then .wait
        else match coverOf q.1 q.2 p n with
          | some bs => match acc with | .wait => .wait | _ => .got bs
          | none => .wait) acc) .none

/-! ## Faults of memory under way (R298, R362) -/

/-- No host link is in service (R362). -/
def noHost (s : State) : Bool := s.plat.linksUp == 0

/-- The port that a request to a node leaves on (R360, R362). -/
def portOf (s : State) (n : BitVec 7) : Option Nat :=
  let m := tgetD s.plat.nodeRoute n.toNat 0
  (List.range 18).find? (fun i => bitOf m i && bitOf s.plat.portsUp i)

/-- A request that ends in error: UCE in the issuing fold at that instruction, and event 0x0014 (R298, R362). -/
def requestError (s : State) (f k lane : Nat) (pc : VA) (va : W64) (unit : Nat) : State :=
  let tid := (thread? s f k lane).map (·.tid)
  foldFault (requestLost s unit va) f k cUCE 0 tid false pc va

/-- The unit that a request to a node which no port can take is charged to: no port sends it, and the spec names none (R12;
DESIGN CHOICE, log 47). -/
def noPort : Nat := unitSrc 0 0x9 0

/-! ## Versions of a task (R199, R200, R379) -/

/-- The versions of a word by the pending regions of a task, in key order (R278, R280). -/
def pendingVers (s : State) (f w : Nat) : List (Nat × Nat × Ver) :=
  s.ms.vers.foldl (fun acc v =>
    match v.owner with
    | .region q =>
      match tget? s.ms.regions q with
      | some r => if v.word = w ∧ r.fold = f ∧ r.phase = .pending then insVer (r.key, v.rank, v) acc else acc
      | none => acc
    | _ => acc) []

/-- The newest version of a word that a task sees, over a value: plain versions at the homes, then those on their way, and
above them the versions of its pending regions by key (R199, R280). -/
def taskOverlay (s : State) (f w : Nat) (v : W32) : W32 :=
  let v := s.ms.vers.foldl (fun v x => if x.owner = .task f ∧ x.word = w then mergeBytes x.mask x.val v else v) v
  let v := s.ms.msgs.foldl (fun v m =>
    match m.kind with
    | .version g pa _ _ bs =>
      if g = f then (splitWords pa bs).foldl (fun v e => if e.1 = w then mergeBytes e.2.1 e.2.2 v else v) v else v
    | _ => v) v
  (pendingVers s f w).foldl (fun v x => mergeBytes x.2.2.mask x.2.2.val v) v

/-- The bytes of a peer's memory as a task sees them: its deferred stores over what the peer gives (R199). -/
def peerOverlay (s : State) (f : Nat) (node : BitVec 7) (va : VA) (bs : List Byte) : List Byte :=
  (s.ms.pvers.filter (fun v => v.fold == f && v.node == node && v.red.isNone)).foldl (fun bs v =>
    bs.zipIdx.map (fun b =>
      let i := va.toNat + b.2 - v.va.toNat
      if v.va.toNat ≤ va.toNat + b.2 ∧ i < v.data.length then v.data.getD i 0 else b.1)) bs

/-- The task that a version belongs to: its own, or the task of its region (R280). -/
def verTask (s : State) (v : Ver) : Option Nat :=
  match v.owner with
  | .task f => some f
  | .region q => match tget? s.ms.regions q with
    | some r => match fold? s r.fold with
      | some fo => if fo.isTask then some r.fold else none
      | none => none
    | none => none

/-- The sectors that a task holds (R200). -/
def taskSectors (s : State) (f : Nat) : List Nat :=
  let vs : List Nat := (s.ms.vers.filter (fun v => verTask s v == some f)).map (fun v => v.word / 8)
  let rs : List Nat := (s.ms.reds.filter (fun r => r.fold == f)).map (fun r => r.pa / 32)
  (vs ++ rs).eraseDups

/-- The sectors of a peer's memory that a task holds (R199, R200). -/
def peerSectors (s : State) (f : Nat) : List (BitVec 7 × Nat) :=
  ((s.ms.pvers.filter (fun v => v.fold == f)).map (fun v => (v.node, v.va.toNat / 32))).eraseDups

/-- Sectors held at the home of an address by every task (R379). A host link, which homes a task's versions of host memory and
is no slice, holds as many: the spec gives it no capacity (DESIGN CHOICE, log 47). -/
def sliceSectors (s : State) (pa : Nat) : List (Nat × Nat) :=
  let vs : List (Nat × Nat) := s.ms.vers.filterMap (fun v => (verTask s v).map (fun f => (f, v.word / 8)))
  let rs : List (Nat × Nat) := s.ms.reds.map (fun r => (r.fold, r.pa / 32))
  (vs ++ rs).eraseDups.filter (fun e => homeOf s (32 * e.2) 0 == homeOf s pa 0)

/-- A task is exhausted (R200, R201): its fold stops, unless it already stops for another reason. -/
def exhaust (s : State) (f : Nat) : State :=
  modFold s f (fun fo =>
    { fo with exhausted := true
              halt := match fo.halt with
                | some h => some h
                | none => some { reason := .exhaust, wdogBegan := false, stopped := true, cause := 0, pflock := none, faddr := 0, savets := 0 } })

/-- Whether a slice has room for a version of a task (R379). -/
def versionRoom (s : State) (f pa : Nat) : Bool :=
  let held := sliceSectors s pa
  held.contains (f, pa / 32) || decide (held.length < 16384)

/-- A task's write-buffer use in bytes (R200). -/
def bufferUse (s : State) (f : Nat) : Nat := 32 * ((taskSectors s f).length + (peerSectors s f).length)

/-- A task's write-buffer use exceeds its limit (R200). -/
def overBuffer (s : State) (f : Nat) : Bool :=
  match fold? s f with
  | none => false
  | some fo =>
    let w := match grid? s fo.grid with | some g => g.record.wbuf | none => 0
    decide (w ≠ 0 ∧ w * 1024 < bufferUse s f)

/-- A version of a task arrives at its home (R199): held when there is room, and the limits are tested. -/
def addVersion (s : State) (f pa : Nat) (cm : BitVec 2) (z : Nat) (bs : List Byte) : State :=
  match fold? s f with
  | none => s
  | some fo =>
    if !versionRoom s f pa then exhaust s f
    else
      let s := (splitWords pa bs).foldl (fun s e =>
        let (n, s) := fresh s
        losePlain (modMs s (fun m => { m with vers := m.vers ++
          [{ owner := .task f, ctx := fo.ctx, rank := n, word := e.1, val := e.2.2, mask := e.2.1, cmode := cm, size := z }] }))
          f e.1) s
      if overBuffer s f then exhaust s f else s

/-! ## Reading words (M3) -/

/-- The core's view of a word covers some of its bytes. -/
def viewCovers (s : State) (c w : Nat) (mask : BitVec 4) : Bool :=
  match viewWord s c w with
  | some v => v.known &&& mask == mask
  | none => false

/-- A deferred store or a pending RED of a task to a peer (R199). -/
def addPVer (s : State) (f k op lane : Nat) (node : BitVec 7) (va : VA) (bs : List Byte) (red : Option (Ty × Aop)) : State :=
  let (n, s) := fresh s
  let s := modMs s (fun m => { m with pvers := m.pvers ++
    [{ fold := f, flock := k, op := op, rank := n, tid := ((thread? s f k lane).map (·.tid)).getD 0, node := node, va := va,
       data := bs, red := red }] })
  if overBuffer s f then exhaust s f else s

/-- A read of bytes by a core's flock: the new state and the bytes; `task` overlays the task's versions (R199). -/
def readCore (s : State) (c f cx : Nat) (pa n : Nat) (cm : BitVec 2) (task strm : Bool) : State × List Byte :=
  let ws := splitWords pa (List.replicate n 0)
  let vals := ws.map (fun e =>
    let v := seenVal s c e.1 cm
    (e.1, if task then taskOverlay s f e.1 v else v))
  let s := ws.foldl (fun s e =>
    if viewCovers s c e.1 e.2.1 then fillL1 s c (e.1 / 32) strm else install s c e.1 cm cx strm) s
  (s, (List.range n).map (fun i =>
    let a := pa + i
    match vals.find? (fun e => e.1 == a / 4) with
    | some e => e.2.extractLsb' (8 * (a % 4)) 8
    | none => 0))

/-- Whether a read must go to the home for some word. -/
def needsHome (s : State) (c pa n : Nat) (cm : BitVec 2) : Bool :=
  cm == 2 || (splitWords pa (List.replicate n 0)).any (fun e => !viewCovers s c e.1 e.2.1)

/-- Stores of a flock on their way to a base die that meet a range: a later access to the words waits for them
(R246, R249). -/
def sideAhead (s : State) (f k op pa n : Nat) : Bool :=
  s.ms.msgs.any (fun m => m.fold == f && m.flock == k && decide (m.op < op) && (match m.kind with
    | .side q bs => decide (pa / 4 ≤ (q + bs.length - 1) / 4 ∧ q / 4 ≤ (pa + n - 1) / 4)
    | _ => false))

/-- Registrations of a core on their way that meet a range: its far atomics follow them (R245, R256). -/
def regAhead (s : State) (c pa n : Nat) : Bool :=
  s.ms.msgs.any (fun m => match m.kind with
    | .reg c' w _ _ => c' == c && decide (pa / 4 ≤ w ∧ w ≤ (pa + n - 1) / 4)
    | _ => false)

/-! ## Loads -/

/-- The ranges a load reads: its bytes or its element, and its block's scale byte or the second part of a constant. -/
def loadParts (e : LEntry) : List (Place × Nat) :=
  match e.kind, e.place with
  | .elem _ _ (some sp) _, .dev _ cm z => [(e.place, e.n), (.dev sp cm z, 1)]
  | .elem _ _ (some sp) _, .host _ => [(e.place, e.n), (.host sp, 1)]
  | .const _ _ _ tail m, _ => [(e.place, e.n), (tail, m)]
  | _, _ => [(e.place, e.n)]

/-- Writes the bytes of a load into a lane: zero- or sign-extended, a pair for B64, four registers for B128 (R167). -/
def writeRaw (s : State) (f k l : Nat) (sgn : Bool) (z : Size) (d : Opd) (bs : List Byte) : State :=
  let v := nat64 (ofLe bs)
  let x := match z with
    | .b8 => if sgn then (v.setWidth 8).signExtend 64 else v
    | .b16 => if sgn then (v.setWidth 16).signExtend 64 else v
    | _ => v
  modFlock s f k (fun fl =>
    match z, d with
    | .b128, .v n => (List.range 4).foldl (fun fl i => setVreg fl (n.val + i) l (BitVec.ofNat 32 (bytesAt bs (4 * i) 4))) fl
    | .b64, d => wrV fl l 2 d x
    | _, d => wrV fl l 1 d x)

/-- Writes what a load read into its lane (R149, R167, R169), with the events of LDX. -/
def writeLoad (s : State) (f k l : Nat) (kind : LKind) (bs : List (List Byte)) : State × List Ev :=
  match kind with
  | .raw sgn z d | .const sgn z d _ _ => (writeRaw s f k l sgn z d bs.flatten, [])
  | .elem t fmt _ d =>
    let r := ldxRes t fmt (ofLe (bs.headD [])) ((bs[1]?).map ofLe)
    (modFlock s f k (fun fl => wrV fl l (width t) d (nat64 r.1)), [{ lane := l, mask := r.2 }])
  | .watch => (modFlock s f k (fun fl => { fl with mon := { fl.mon with got := some (nat64 (ofLe bs.flatten)) } }), [])

/-- Removes a load from the load set. -/
def dropLoad (s : State) (f k : Nat) (e : LEntry) : State :=
  modFlock s f k (fun fl => { fl with loads := fl.loads.filter (fun x => !(x.op == e.op && x.lane == e.lane)) })

/-- A load is performed with the bytes of its parts. -/
def finishLoad (s : State) (f k : Nat) (e : LEntry) (bs : List (List Byte)) : State :=
  let r := writeLoad s f k e.lane e.kind bs
  partDone (dropLoad r.1 f k e) f k e.op (r.2.map (fun x => { x with rid := e.rid }))

/-- M3's conditions among the loads of the flock: every earlier load of the same words is performed; scratchpad
accesses are performed in issue order (R246). -/
def loadOrder (fl : Flock) (e : LEntry) : Bool :=
  let before := fl.loads.takeWhile (fun x => !(x.op == e.op && x.lane == e.lane))
  match e.place with
  | .scratch _ =>
    !before.any (fun x => match x.place with | .scratch _ => true | _ => false)
      && !fl.scr.any (fun x => decide (x.op < e.op))
  | _ => !before.any (fun x => (loadParts x).any (fun p => (loadParts e).any (fun q =>
      match placeKey p.1, placeKey q.1 with
      | some a, some b => a.1 == b.1 && decide (a.2 / 4 ≤ (b.2 + q.2 - 1) / 4 ∧ b.2 / 4 ≤ (a.2 + p.2 - 1) / 4)
      | _, _ => false)))

/-- One part of a plain load: the bytes, or none when it must wait. -/
def readPart (s : State) (c f cx : Nat) (fl : Flock) (e : LEntry) (p : Place) (n : Nat) : State × Option (List Byte) :=
  match forward fl.fifo e.op p n with
  | .wait => (s, none)
  | .got bs => (s, some bs)
  | .none =>
    match p with
    | .imm bs => (s, some bs)
    | .scratch o => (s, (fold? s f).map (fun fo => scrBytes fo o n))
    | .peer _ _ => (s, none)
    | p =>
      match placePa p with
      | none => (s, none)
      | some (pa, cm) =>
        let cm := effCmode s pa cm
        let home := needsHome s c pa n cm
        if home && (!biasReady s pa false) then (biasSnoop s pa false, none)
        else
          let r := readCore s c f cx pa n cm e.task e.strm
          (r.1, some r.2)

/-- One part of a region's load: the words are read at their homes and join the read set (R270). -/
def readRegion (s : State) (rid : Nat) (p : Place) (n : Nat) (part : Option (Nat × Nat × Nat)) : State × Option (List Byte) :=
  match placePa p with
  | none => (s, none)
  | some (pa, _) =>
    let r := (splitWords pa (List.replicate n 0)).foldl (fun (acc : State × List (Nat × W32)) e =>
      let q := regionRead acc.1 rid e.1 part
      (q.1, acc.2 ++ [(e.1, q.2)])) (s, [])
    (r.1, some ((List.range n).map (fun i =>
      match r.2.find? (fun e => e.1 == (pa + i) / 4) with
      | some e => e.2.extractLsb' (8 * ((pa + i) % 4)) 8
      | none => 0)))

/-- One part of a load whose region has aborted since it issued: only the region's tentative entries are discarded
(R272), and the load takes the committed value at the home, or its task's version of it (R199). -/
def readEnded (f : Nat) (s : State) (p : Place) (n : Nat) : State × Option (List Byte) :=
  match placePa p with
  | none => (s, none)
  | some (pa, _) =>
    (s, some ((List.range n).map (fun i =>
      (taskOverlay s f ((pa + i) / 4) (homeVal s ((pa + i) / 4))).extractLsb' (8 * ((pa + i) % 4)) 8)))

/-- Reads every part of a load; none when one of them must wait. -/
def readParts (s : State) (ps : List (Place × Nat)) (rd : State → Place → Nat → State × Option (List Byte)) :
    State × Option (List (List Byte)) :=
  ps.foldl (fun (acc : State × Option (List (List Byte))) p =>
    match acc.2 with
    | none => acc
    | some bs =>
      match rd acc.1 p.1 p.2 with
      | (s, none) => (s, none)
      | (s, some b) => (s, some (bs ++ [b]))) (s, some [])

/-- A load of host memory while no host link is in service ends in error (R362); data in error are not
returned. -/
def loadError (s : State) (f k : Nat) (e : LEntry) (unit : Nat) : State :=
  partDone (dropLoad (requestError s f k e.lane e.pc e.va unit) f k e) f k e.op []

/-- The port of a flock's request to a node: that of its requests to the node under way, else the lowest (R360, R361). -/
def portFor (s : State) (f k : Nat) (n : BitVec 7) : Option Nat :=
  match s.ms.peerReqs.find? (fun r => r.fold == f && r.flock == k && r.node == n) with
  | some r => some r.port
  | none => portOf s n

/-- Sends a request to a peer on a port, under a tag of its own (R360, R361). -/
def sendPeer (s : State) (f k op lane : Nat) (isLoad : Bool) (node : BitVec 7) (va : VA) (what : PeerOp) (port : Nat) : State :=
  let (n, s) := fresh s
  modMs s (fun m => { m with peerReqs := m.peerReqs ++
    [{ fold := f, flock := k, op := op, lane := lane, isLoad := isLoad, node := node, va := va, port := port, ts := s.plat.ts,
       tag := BitVec.ofNat 16 n, what := what }] })

/-- Whether a request of a flock to a node, by its instruction and lane, finds an earlier one not yet sent: a flock's requests
to one node leave in issue order (R361). -/
def peerAhead (fl : Flock) (op lane : Nat) (node : BitVec 7) : Bool :=
  let toNode := fun (p : Place) => match p with | .peer n _ => n == node | _ => false
  fl.fifo.any (fun x => decide (x.op < op) && toNode x.place)
    || (fl.loads.takeWhile (fun x => decide (x.op < op) || (x.op == op && x.lane != lane))).any (fun x => toNode x.place && !x.sent)

/-- A peer's load is sent on its port; its answer is PEER_RESPONSE (R361). -/
def sendPeerLoad (s : State) (f k : Nat) (e : LEntry) (node : BitVec 7) (va : VA) : State :=
  match portFor s f k node with
  | none => loadError s f k e noPort
  | some port =>
    let s := modFlock s f k (fun fl => { fl with loads := fl.loads.map (fun x =>
      if x.op == e.op && x.lane == e.lane then { x with sent := true } else x) })
    sendPeer s f k e.op e.lane true node va (.load va e.n) port

/-- A load performed at the homes must wait for a flip or for the host's copy of a line, and what it asks for then (R357, R358).
-/
def loadBlocked (s : State) (e : LEntry) : Bool :=
  (loadParts e).any (fun p => match placePa p.1 with | some (pa, _) => !biasReady s pa false | none => false)

def loadSnoop (s : State) (e : LEntry) : State :=
  (loadParts e).foldl (fun s p => match placePa p.1 with | some (pa, _) => biasSnoop s pa false | none => s) s

/-- The device addresses that a load reads. -/
def loadPas (e : LEntry) : List (Nat × Nat) := (loadParts e).filterMap (fun p => (placePa p.1).map (fun q => (q.1, p.2)))

/-- A load of host memory with no host link in service (R362). -/
def loadLost (s : State) (e : LEntry) : Bool := noHost s && (loadPas e).any (fun p => isHostPa p.1)

/-- The region of a load has ended: while its thread is doomed the load performs nothing and writes nothing; once the thread
is delivered it takes the committed value at the home, as soon as no flip and no copy of the host stands in its way (R272, R357 to
R359; log 34). -/
def endedLoad (s : State) (f k : Nat) (fl : Flock) (e : LEntry) : State :=
  if (match tget? fl.threads e.lane with | some t => t.reg.doom | none => true) then
    partDone (dropLoad s f k e) f k e.op []
  else if loadLost s e then loadError s f k e (hostUnit s)
  else if loadBlocked s e then loadSnoop s e
  else
    match readParts s (loadParts e) (readEnded f) with
    | (s, some bs) => finishLoad s f k e bs
    | (s, none) => s

/-- LOAD_PERFORM: the load at position `ix` of a flock's load set is performed (M3). -/
def execLoadPerform (f k ix : Nat) (s : State) : Out :=
  match fold? s f, flock? s f k with
  | some fo, some fl =>
    match fl.loads[ix]?, coreOf fo with
    | some e, some c =>
      if e.sent || !loadOrder fl e then .next s
      else
        match e.rid with
        | some rid =>
          if (region? s rid).isNone then .next (endedLoad s f k fl e)
          else if fl.tent.any (fun x => x.rid == some rid && decide (x.op < e.op)
              && (entryParts x).any (fun q => (loadParts e).any (fun p => placesMeet p.1 p.2 q.1 q.2.length))) then .next s
          else if loadLost s e then .next (loadError s f k e (hostUnit s))
          else if loadBlocked s e then .next (loadSnoop s e)
          else
            match readParts s (loadParts e) (fun s p n => readRegion s rid p n none) with
            | (s, some bs) =>
              if (region? s rid).isNone then .next (partDone (dropLoad s f k e) f k e.op [])
              else .next (finishLoad s f k e bs)
            | (s, none) => .next s
        | none =>
          match e.place with
          | .peer node va =>
            match forward fl.fifo e.op e.place e.n with
            | .wait => .next s
            | .got bs => .next (finishLoad s f k e [bs])
            | .none => if peerAhead fl e.op e.lane node then .next s else .next (sendPeerLoad s f k e node va)
          | _ =>
            let stuck := (loadPas e).any (fun p => sideAhead s f k e.op p.1 p.2)
            if loadLost s e then .next (loadError s f k e (hostUnit s))
            else if stuck then .next s
            else
              match readParts s (loadParts e) (fun s p n => readPart s c f fo.ctx fl e p n) with
              | (s, some bs) => .next (finishLoad s f k e bs)
              | (s, none) => .next s
    | _, _ => .next s
  | _, _ => .next s

/-! ## Stores (M4) -/

/-- Queues a message at a home, with the time stamp of the access that causes it (R251). -/
def sendMsg (s : State) (c f k op : Nat) (ts : W64) (home : Home) (kind : MsgKind) (va : W64 := 0) : State :=
  modMs s (fun m => { m with msgs := m.msgs ++
    [{ home := home, src := coreSrc c, ts := ts, fold := f, flock := k, op := op, kind := kind, sent := s.plat.ts, va := va }] })

/-- Whether the words of a store can drain now into the view (M4). -/
def canDrain (s : State) (c pa n : Nat) (cm : BitVec 2) : Bool :=
  if cm = 0 then (splitWords pa (List.replicate n 0)).all (fun e => !foreign c e.1 || ownsLine s c (e.1 / 32)) else true

/-- The lines that an entry writes. -/
def entryLines (e : FEntry) : List Nat :=
  (entryParts e).flatMap (fun q => match placePa q.1 with
    | some (pa, _) => (splitWords pa q.2).map (fun x => x.1 / 32)
    | none => [])

/-- A store to words that the core owns waits while a BFLIP of their block is in progress (R358, R359). -/
def ownFlipping (s : State) (c pa n : Nat) : Bool :=
  flipping s pa && (splitWords pa (List.replicate n 0)).any (fun e => ownerOf s e.1 == some c)

/-- A word stored into a view that owns it: a change aborts the regions that read it (R245, R275). -/
def storeOwned (s : State) (c w : Nat) (mask : BitVec 4) (v : W32) : State :=
  let old := homeVal s w
  let s := setView s c w { st := .owned, val := mergeBytes mask v old, known := 15, dirty := 0 }
  if homeVal s w = old then s else validate s w anyRegion

/-- A word stored while its store must go to the home (M4): the view holds the bytes stored, registering(v) when the core
does not own the word, and a REG message carries them. A word that the core owns takes this way too while an earlier REG of
the core for it is under way, so that its stores are performed in order (R246). -/
def storeReg (s : State) (c f k op : Nat) (ts : W64) (w : Nat) (mask : BitVec 4) (v : W32) : State :=
  let s :=
    if ownerOf s w = some c then storeOwned s c w mask v
    else
      setView s c w (match viewWord s c w with
        | some x => if x.st == .registering then { x with val := mergeBytes mask v x.val, known := x.known ||| mask }
          else { st := .registering, val := v, known := mask, dirty := 0 }
        | none => { st := .registering, val := v, known := mask, dirty := 0 })
  sendMsg s c f k op ts (homeOf s (4 * w) 0) (.reg c w v mask)

/-- A word stored to a software-managed page: copy(v), with the bytes written (M4, R353). -/
def storeSoft (s : State) (c w : Nat) (mask : BitVec 4) (v : W32) : State :=
  let x := match viewWord s c w with
    | some x => { x with val := mergeBytes mask v x.val, known := x.known ||| mask, dirty := x.dirty ||| mask }
    | none => { st := .copy, val := v, known := mask, dirty := mask }
  setView s c w x

/-- The bytes of a store leave the FIFO; each REG or memory-side message is one more part (M4). The lines are cached in the
core's L1 and the die's L2, with the store's policy (R157). -/
def drainBytes (s : State) (c f k cx : Nat) (e : FEntry) (pa : Nat) (cm : BitVec 2) (bs : List Byte) : State :=
  if cm = 2 then sendMsg (addPart s f k e.op) c f k e.op e.ts (homeOf s pa 2) (.side pa bs)
  else
    (splitWords pa bs).foldl (fun s x =>
      let s := fillL1 (fillL2 s (dieOf c) (x.1 / 32) cx e.strm) c (x.1 / 32) e.strm
      if cm = 1 then storeSoft s c x.1 x.2.1 x.2.2
      else if ownerOf s x.1 = some c ∧ !regAhead s c (4 * x.1) 4 then storeOwned s c x.1 x.2.1 x.2.2
      else storeReg (addPart s f k e.op) c f k e.op e.ts x.1 x.2.1 x.2.2) s

def popFifo (s : State) (f k : Nat) : State := modFlock s f k (fun fl => { fl with fifo := fl.fifo.drop 1 })

/-- A store that ends in error (R362). -/
def storeError (s : State) (f k : Nat) (e : FEntry) (unit : Nat) : State :=
  partDone (popFifo (requestError s f k e.lane e.pc e.va unit) f k) f k e.op []

/-- A task's store is deferred: a version goes to the home of each of its parts, and one to a peer is held until the commit
(R199). -/
def drainTask (s : State) (c f k : Nat) (e : FEntry) : State :=
  let s := popFifo s f k
  let s := match e.place with
    | .peer node va => addPVer s f k e.op e.lane node va e.data none
    | _ => (entryParts e).foldl (fun s q => match placePa q.1 with
        | some (qa, qm) => sendMsg (addPart s f k e.op) c f k e.op e.ts (homeOf s qa qm) (.version f qa qm (placeSize q.1) q.2) e.va
        | none => s) s
  partDone s f k e.op []

/-- Drains one store to a place whose address is known; the answer says whether it drained. The state may carry what its
waiting asks for (a collapse, R351). -/
def drainEntry (s : State) (c f k cx : Nat) (e : FEntry) : State × Bool :=
  if e.task && !((placePa e.place).any (fun p => isHostPa p.1) && noHost s) then (drainTask s c f k e, true)
  else
    match e.place with
    | .peer node va =>
      match portFor s f k node with
      | none => (storeError s f k e noPort, true)
      | some port => (sendPeer (popFifo s f k) f k e.op e.lane false node va (.store va e.data) port, true)
    | p =>
      match placePa p with
      | none => (s, false)
      | some (pa, cm0) =>
        if isHostPa pa && noHost s then (storeError s f k e (hostUnit s), true)
        else if !collapseReady s pa cm0 then (askCollapse s pa (placeSize p), false)
        else
          let cm := effCmode s pa cm0
          if (cm != 2 && !l1Fits s c (entryLines e)) || (entryParts e).any (fun q => match placePa q.1 with
              | some (qa, _) => !canDrain s c qa q.2.length cm || ownFlipping s c qa q.2.length
              | none => false) then (s, false)
          else
            let s := popFifo s f k
            let s := (entryParts e).foldl (fun s q => match placePa q.1 with
              | some (qa, _) => drainBytes s c f k cx e qa cm q.2
              | none => s) s
            (partDone s f k e.op [], true)

/-- M4's conditions on the head entry (R244, R246). -/
def headReady (s : State) (f k : Nat) (fl : Flock) (e : FEntry) : Bool :=
  isStore e && !fl.loads.any (fun x => decide (x.op < e.op))
    && (!releases e.order || releaseReady s f k e.op e.scope)

/-- Drains the head of a flock's FIFO when it can. -/
def drainHead (s : State) (f k : Nat) : State × Bool :=
  match fold? s f, flock? s f k with
  | some fo, some fl =>
    match fl.fifo, coreOf fo with
    | e :: _, some c => if headReady s f k fl e then drainEntry s c f k fo.ctx e else (s, false)
    | _, _ => (s, false)
  | _, _ => (s, false)

/-- A scratchpad store is performed in issue order (R246). -/
def drainScr (s : State) (f k : Nat) : State :=
  match flock? s f k with
  | none => s
  | some fl =>
    match fl.scr with
    | [] => s
    | e :: r =>
      if fl.loads.any (fun x => decide (x.op < e.op) && (match x.place with | .scratch _ => true | _ => false))
        || (releases e.order && !releaseReady s f k e.op e.scope) then s
      else
        let s := modFlock s f k (fun fl => { fl with scr := r })
        let s := match e.place with
          | .scratch o => modFold s f (fun fo => scrPut fo o e.data)
          | _ => s
        partDone s f k e.op []

/-- STORE_DRAIN: the head of a flock's store FIFO, or of its scratchpad stores, is drained (M4, R246). -/
def execStoreDrain (f k : Nat) (scr : Bool) (s : State) : Out :=
  if scr then .next (drainScr s f k) else .next (drainHead s f k).1

/-! ## Ownership (M5, M6) -/

/-- Whether a FIFO entry waits to own a line. -/
def entryNeeds (s : State) (c line : Nat) (e : FEntry) : Bool :=
  isStore e && !e.task && (entryParts e).any (fun q =>
    match placePa q.1 with
    | some (pa, cm) => effCmode s pa cm == 0 &&
        (splitWords pa q.2).any (fun x => x.1 / 32 == line && foreign c x.1)
    | none => false)

/-- The first entry of a core's flocks that needs a line. -/
def lineWanted (s : State) (c line : Nat) : Option (Nat × Nat × FEntry) :=
  (residents s c).findSome? (fun fo => fo.2.flocks.findSome? (fun k =>
    (k.2.fifo.find? (entryNeeds s c line)).map (fun e => (fo.1, k.1, e))))

/-- OWNERSHIP_REQUEST: a core asks for a line that it does not own, and that is not on its way to it, for an entry that needs it
(M5). -/
def execOwnershipRequest (c line : Nat) (s : State) : Out :=
  if (lineSt s line).m == some c || s.ms.msgs.any (fun m => m.kind == .own c line) then .next s
  else
    match lineWanted s c line with
    | none => .next s
    | some (f, k, e) => .next (sendMsg s c f k e.op e.ts (homeOf s (128 * line) 0) (.own c line))

/-- Drains the head entries of a flock that wait for a line, as far as they can (R350). -/
def drainLine (c line f k : Nat) : Nat → State → State
  | 0, s => s
  | n + 1, s =>
    match (flock? s f k).bind (fun fl => fl.fifo.head?) with
    | none => s
    | some e =>
      if entryNeeds s c line e then
        let r := drainHead s f k
        if r.2 then drainLine c line f k n r.1 else r.1
      else s

/-- Before a core's line or word is revoked it performs the head entries that wait for the line and have become able
to drain (R350). A grant that is on its way arrives first; one that the core's L1 cannot take goes back unused. -/
def drainWaiting (s : State) (line : Nat) : State :=
  match (lineSt s line).m with
  | none => s
  | some c =>
    let s := takeGrantOf s line
    if granted s line then cancelGrant s line
    else (residents s c).foldl (fun s fo => fo.2.flocks.foldl (fun s k => drainLine c line fo.1 k.1 64 s) s) s

/-- The message that a slice, a link or a base die applies next (R251): of the first message of each source, the one
with the earliest time stamp, then the lower source. -/
def nextMsg (s : State) (h : Home) : Option (Nat × Msg) :=
  let mine := (s.ms.msgs.zipIdx.map (fun e => (e.2, e.1))).filter (fun e => e.2.home == h)
  let heads := mine.filter (fun e => !mine.any (fun x => x.2.src == e.2.src && decide (x.1 < e.1)))
  match heads with
  | [] => none
  | e :: r => some (r.foldl (fun b x =>
      if x.2.ts.toNat < b.2.ts.toNat ∨ (x.2.ts = b.2.ts ∧ x.2.src < b.2.src) then x else b) e)

def dropMsg (s : State) (i : Nat) : State := modMs s (fun m => { m with msgs := m.msgs.eraseIdx i })

/-- A full registration directory first gives up its least recently registered word (R348). -/
def directoryRoom (s : State) (w : Nat) : State :=
  let h := homeOf s (4 * w) 0
  let mine := s.ms.owners.filter (fun e => homeOf s (4 * e.1) 0 == h)
  if mine.any (fun e => e.1 == w) then s
  else if mine.length < 65536 then s
  else match mine with
    | [] => s
    | e :: _ => revokeOwn s e.1 e.2

/-- The core's later registrations of a word that are still on their way, over a value. -/
def laterRegs (s : State) (c w : Nat) (v : W32) : W32 :=
  s.ms.msgs.foldl (fun v m => match m.kind with
    | .reg c' w' x mask => if c' = c ∧ w' = w then mergeBytes mask x v else v
    | _ => v) v

/-- A REG message is applied (M6, R349): the owner changes, Mem takes the carried bytes, the dies of S are told, and
regions that read the word are validated when its value changes. -/
def applyReg (s : State) (c w : Nat) (v : W32) (mask : BitVec 4) : State :=
  let old := homeVal s w
  let s :=
    if ownerOf s w = some c then putWord s w (mergeBytes mask v (memWord s w))
    else
      let s := revoke (directoryRoom s w) w
      let new := mergeBytes mask v (memWord s w)
      let s := putWord s w new
      setView s c w { st := .owned, val := laterRegs s c w new, known := 15, dirty := 0 }
  let s := modMs s (fun m => { m with owners := m.owners.filter (fun e => e.1 != w) ++ [(w, c)] })
  let s := queueInvs s (w / 32)
  if homeVal s w = old then s else validate s w anyRegion

/-- REG_APPLY: a slice applies the REG, or the version of a task, that R251 selects (M6, R199). -/
def execRegApply (h : Home) (s : State) : Out :=
  match nextMsg s h with
  | none => .next s
  | some (i, m) =>
    match m.kind with
    | .reg c w v mask =>
      if !biasReady s (4 * w) true then .next (biasSnoop s (4 * w) true)
      else .next (partDone (applyReg (dropMsg (drainWaiting s (w / 32)) i) c w v mask) m.fold m.flock m.op [])
    | .version f pa cm z bs => .next (partDone (addVersion (dropMsg s i) f pa cm z bs) m.fold m.flock m.op [])
    | _ => .next s

/-- An ownership request is granted (M6, R349, R354): a core that held the line returns it (R350), INV messages go to every die of
S, and a grant to the requester's die, which takes its own INV before it (R242, R245). -/
def grantLine (s : State) (c line : Nat) : State :=
  let was := (lineSt s line).m
  let s := revokeAll s line
  let s := match was with | some c0 => dropLine s c0 line | none => s
  let s := setLine (queueInvs s line) line { m := some c, s := 0 }
  modMs s (fun m => { m with rsps := m.rsps ++ [{ src := invSrc s line, dst := dieOf c, core := c, line := line }] })

/-- OWNERSHIP_APPLY: a home applies the ownership request that R251 selects (M6). The host link grants a line only
once it holds it with ownership from the host (R354). -/
def execOwnershipApply (h : Home) (s : State) : Out :=
  match nextMsg s h with
  | none => .next s
  | some (i, m) =>
    match m.kind with
    | .own c line =>
      if isHostPa (128 * line) && !s.ms.hostOwn.contains line then .next (askHost s line)
      else if !biasReady s (128 * line) true then .next (biasSnoop s (128 * line) true)
      else if (lineSt s line).m == some c then .next (dropMsg s i)
      else .next (grantLine (dropMsg (drainWaiting s line) i) c line)
    | _ => .next s

/-- INV_APPLY: the head of the INV FIFO from a source to a die (M7). -/
def execInvApply (src dst : Nat) (s : State) : Out :=
  match s.ms.invs.zipIdx.find? (fun e => e.1.src == src && e.1.dst == dst) with
  | none => .next s
  | some (v, i) => .next (applyInv (modMs s (fun m => { m with invs := m.invs.eraseIdx i })) dst v.line)

/-- LINE_WRITEBACK: a core evicts a line that it owns (R349). -/
def execLineWriteback (c line : Nat) (s : State) : Out :=
  .next (if ownsLine s c line then writeBackLine s c line else s)

/-- MEMORY_SIDE_STORE_APPLY: a base die applies the store that R251 selects (R245). -/
def execMemorySideStoreApply (stack : Nat) (s : State) : Out :=
  match nextMsg s (.base stack) with
  | none => .next s
  | some (i, m) =>
    match m.kind with
    | .side pa bs =>
      let s := (rangeLines pa bs.length).foldl (fun s a => drainWaiting s (a / 128)) s
      if !biasReady s pa true then .next (biasSnoop s pa true)
      else .next (partDone (homeWriteBytes (dropMsg s i) pa bs anyRegion) m.fold m.flock m.op [])
    | .version f pa cm z bs => .next (partDone (addVersion (dropMsg s i) f pa cm z bs) m.fold m.flock m.op [])
    | _ => .next s

/-! ## Atomics (R256, R257) -/

def isFloatTy (t : Ty) : Bool := t == .f32 || t == .f64

/-- The new value of an atomic and its events (R99, R257): of an exchange the operand b alone is the arithmetic operand
(DEDUCED, log 43). The new value of an exchange is b, bit for bit, also when b is a NaN: R91 would write the canonical NaN, and
the spec does not say which holds (DESIGN CHOICE, log 46). -/
def atomNew (t : Ty) (op : Aop) (old b : W64) : W64 × BitVec 8 :=
  let n := elemWidth t
  let F := fmtOf t 0
  let x := old.toNat % 2 ^ n
  let y := b.toNat % 2 ^ n
  let sg := signedTy t
  let xb := BitVec.ofNat n x
  let yb := BitVec.ofNat n y
  match op with
  | .add =>
    if isFloatTy t then
      let r := opAdd F .rne false 0 (fvOf F x) (fvOf F y)
      (nat64 r.1, r.2)
    else (nat64 ((x + y) % 2 ^ n), 0)
  | .min => if isFloatTy t then (nat64 (opMinMax F false x y).1, (opMinMax F false x y).2) else (nat64 (minInt sg xb yb).toNat, 0)
  | .max => if isFloatTy t then (nat64 (opMinMax F true x y).1, (opMinMax F true x y).2) else (nat64 (maxInt sg xb yb).toNat, 0)
  | .and => (nat64 (xb &&& yb).toNat, 0)
  | .or => (nat64 (xb ||| yb).toNat, 0)
  | .xor => (nat64 (xb ^^^ yb).toNat, 0)
  | .exch => (nat64 y, if isFloatTy t then sigEv [fvOf F y] else 0)
  | .inc => (nat64 (if y ≤ x then 0 else x + 1), 0)
  | .dec => (nat64 (if x = 0 ∨ y < x then y else x - 1), 0)

/-- What an atomic entry does with the old value: the bytes to write, if any, and its events (R257). -/
def atomEffect (a : Act) (data : List Byte) (old : W64) : Option (List Byte) × BitVec 8 :=
  let b := nat64 (ofLe data)
  match a with
  | .atom t op _ | .red t op =>
    let r := atomNew t op old b
    (some (leBytes data.length r.1.toNat), r.2)
  | .cas _ cmp _ _ => if old.toNat = ofLe cmp then (some data, 0) else (none, 0)
  | _ => (some data, 0)

/-- The result of an atomic entry, written to its lane; events count at once (R101, R257). -/
def atomResult (s : State) (f k : Nat) (e : FEntry) (old : W64) (ev : BitVec 8) : State :=
  let s := match e.act with
    | .atom t _ d => modFlock s f k (fun fl => wrV fl e.lane (width t) d old)
    | .cas t cmp d p => modFlock s f k (fun fl =>
        let fl := wrV fl e.lane (width t) d old
        { fl with threads := tmod fl.threads e.lane (fun t => setPred t p (decide (old.toNat = ofLe cmp))) })
    | _ => s
  match fold? s f with
  | none => s
  | some fo =>
    let r := foldEvents s f (srcOf fo) [{ lane := e.lane, mask := ev, rid := e.rid }]
    addLates r.1 f k e.pc r.2

/-- Removes any copy of the words of an atomic from the issuing core's view (R256). -/
def dropWords (s : State) (c pa n : Nat) : State :=
  (splitWords pa (List.replicate n 0)).foldl (fun s e =>
    match viewWord s c e.1 with
    | some v => if v.st = .copy then delView s c e.1 else s
    | none => s) s

/-- An atomic in the view of the core that owns its words (R256). -/
def atomNear (s : State) (c pa : Nat) (bs : List Byte) : State :=
  (splitWords pa bs).foldl (fun s e => storeOwned s c e.1 e.2.1 e.2.2) s

/-- The old value of an atomic on device or host memory, and the state after it: near, far, or at a base die
(R256). -/
def atomMem (s : State) (c : Nat) (e : FEntry) (pa : Nat) (cm : BitVec 2) : State × W64 × BitVec 8 :=
  let n := e.data.length
  let near := cm == 0 && (splitWords pa e.data).all (fun x => ownerOf s x.1 == some c)
  let old := nat64 (homeNat s pa n)
  let r := atomEffect e.act e.data old
  let s := match r.1 with
    | none => if near then s else (splitWords pa e.data).foldl (fun s x => revoke s x.1) s
    | some bs => if near then atomNear s c pa bs else homeWriteBytes s pa bs anyRegion
  (if near then s else dropWords s c pa n, old, r.2)

/-- The old value of an atomic in a task: the task's view (R199). -/
def taskOld (s : State) (f pa n : Nat) : W64 :=
  nat64 (ofLe ((List.range n).map (fun i =>
    (taskOverlay s f ((pa + i) / 4) (homeVal s ((pa + i) / 4))).extractLsb' (8 * ((pa + i) % 4)) 8)))

/-- An atomic of a task: ATOM and ACAS write a version; RED is held (R199). -/
def atomTask (s : State) (f k : Nat) (e : FEntry) (pa : Nat) (cm : BitVec 2) : State :=
  match e.act with
  | .red t op =>
    match fold? s f with
    | none => s
    | some fo =>
      if !versionRoom s f pa then exhaust s f
      else
        let hdr := match (flock? s f k).bind (fun fl => op? fl e.op) with | some o => o.hdr | none => 0
        let s := modMs s (fun m => { m with reds := m.reds ++
          [{ fold := f, flock := k, ctx := fo.ctx, rank := e.op, tid := ((thread? s f k e.lane).map (·.tid)).getD 0,
             pa := pa, cmode := cm, size := placeSize e.place, t := t, op := op, b := nat64 (ofLe e.data), pc := e.pc, hdr := hdr }] })
        if overBuffer s f then exhaust s f else s
  | _ =>
    let old := taskOld s f pa e.data.length
    let r := atomEffect e.act e.data old
    let s := match r.1 with | some bs => addVersion s f pa cm (placeSize e.place) bs | none => s
    atomResult s f k e old r.2

/-- Whether an atomic at the head of its FIFO may be performed: its release action, the flock's earlier loads of the
words, and the core's registrations of them (R246, R256). -/
def atomReady (s : State) (c f k : Nat) (fl : Flock) (e : FEntry) : Bool :=
  (!releases e.order || releaseReady s f k e.op e.scope)
    && !fl.loads.any (fun x => decide (x.op < e.op) && (loadParts x).any (fun p => placesMeet p.1 p.2 e.place e.data.length))
    && (match placePa e.place with
      | some (pa, _) => !regAhead s c pa e.data.length && !sideAhead s f k e.op pa e.data.length
      | none => true)

/-- Whether a request at a home, of this stamp and source, finds another there that comes before it: by time stamp, then by
source number, of the messages at the heads of its queues and of the atomics that flocks other than its own have ready
there (R251; DEDUCED, log 45). -/
def earlierAtHome (s : State) (h : Home) (ts0 : W64) (src0 : Nat) (own : Nat → Nat → Bool) : Bool :=
  let before := fun (ts : W64) (src : Nat) => decide (ts.toNat < ts0.toNat ∨ (ts = ts0 ∧ src < src0))
  (match h with
    | .link _ => false
    | _ => match nextMsg s h with
      | some (_, m) => before m.ts m.src
      | none => false)
    || s.folds.any (fun fo => match coreOf fo.2 with
      | none => false
      | some c' => fo.2.flocks.any (fun fl => !own fo.1 fl.1 && (match fl.2.fifo with
        | [] => false
        | x :: _ => !isStore x && !x.sent && !x.task && before x.ts (coreSrc c') && atomReady s c' fo.1 fl.1 fl.2 x
            && (match placePa x.place with
              | some (q, qm) => homeOf s q qm == h && !(effCmode s q qm == 0 &&
                  (splitWords q x.data).all (fun w => ownerOf s w.1 == some c'))
              | none => false))))

/-- What an atomic asks of a peer (R256, R361); a task only reads there (R199). -/
def peerAsk (e : FEntry) (va : VA) : PeerOp :=
  if e.task then .load va e.data.length
  else match e.act with
    | .cas _ cmp _ _ => .cas va e.data.length (nat64 (ofLe cmp)) (nat64 (ofLe e.data))
    | .atom t op _ | .red t op => .atom va e.data.length t op (nat64 (ofLe e.data))
    | _ => .store va e.data

/-- The head atomic of a FIFO is marked as sent. -/
def markSent (s : State) (f k : Nat) : State :=
  modFlock s f k (fun fl => { fl with fifo := match fl.fifo with
    | x :: r => { x with sent := true } :: r
    | [] => [] })

/-- An atomic at the head of its FIFO to a peer's memory: it is sent, and a task's RED is held (R199, R361). -/
def atomPeer (s : State) (f k : Nat) (e : FEntry) (node : BitVec 7) (va : VA) : State :=
  match e.task, e.act with
  | true, .red t op => partDone (addPVer (popFifo s f k) f k e.op e.lane node va e.data (some (t, op))) f k e.op []
  | _, _ =>
    match portFor s f k node with
    | none => storeError s f k e noPort
    | some port => sendPeer (markSent s f k) f k e.op e.lane false node va (peerAsk e va) port

/-- A peer's answer to an atomic, its old value: a task acts on its own view of it and defers what it writes (R199). -/
def atomAnswer (s : State) (f k : Nat) (e : FEntry) (node : BitVec 7) (va : VA) (bs : List Byte) : State :=
  let old := nat64 (ofLe (if e.task then peerOverlay s f node va bs else bs))
  let r := atomEffect e.act e.data old
  let s := popFifo s f k
  let s := match e.task, r.1 with
    | true, some ws => addPVer s f k e.op e.lane node va ws none
    | _, _ => s
  partDone (atomResult s f k e old r.2) f k e.op []

/-- ATOMIC_PERFORM: the head entry of a flock's FIFO, an atomic, is performed (M8). -/
def execAtomicPerform (f k : Nat) (s : State) : Out :=
  match fold? s f, flock? s f k with
  | some fo, some fl =>
    match fl.fifo, coreOf fo with
    | e :: _, some c =>
      if isStore e || e.sent || !atomReady s c f k fl e then .next s
      else
        match e.place with
        | .peer node va => if peerAhead fl e.op e.lane node then .next s else .next (atomPeer s f k e node va)
        | p =>
          match placePa p with
          | none => .next s
          | some (pa, cm0) =>
            if isHostPa pa && noHost s then .next (storeError s f k e (hostUnit s))
            else if e.task && !biasReady s pa false then .next (biasSnoop s pa false)
            else if e.task then .next (partDone (atomTask (popFifo s f k) f k e pa cm0) f k e.op [])
            else if !collapseReady s pa cm0 then .next (askCollapse s pa (placeSize p))
            else if isHostPa pa && !s.ms.hostOwn.contains (pa / 128) then .next (askHost s (pa / 128))
            else
              let cm := effCmode s pa cm0
              let near := cm == 0 && (splitWords pa e.data).all (fun x => ownerOf s x.1 == some c)
              if flipping s pa || (!near && !biasReady s pa true) then .next (biasSnoop s pa true)
              else if !near && earlierAtHome s (homeOf s pa cm0) e.ts (coreSrc c) (fun g j => g == f && j == k) then .next s
              else
                let s := if near then s else drainWaiting s (pa / 128)
                let r := atomMem (popFifo s f k) c e pa cm
                .next (partDone (atomResult r.1 f k e r.2.1 r.2.2) f k e.op [])
    | _, _ => .next s
  | _, _ => .next s

/-! ## Tentative entries (R270) -/

/-- A flock has an earlier load that is not performed: a store then waits (R246, R249). -/
def earlierLoad (s : State) (f k op : Nat) : Bool :=
  match flock? s f k with
  | some fl => fl.loads.any (fun x => decide (x.op < op))
  | none => false

/-- The first tentative entry of a lane. -/
def firstTent (fl : Flock) (l : Nat) : Option FEntry := fl.tent.find? (fun e => e.lane == l)

def dropTent (s : State) (f k : Nat) (e : FEntry) : State :=
  modFlock s f k (fun fl => { fl with tent := fl.tent.erase e })

/-- A tentative entry's bytes reach their home (R270). In a task they take room there and count in its write buffer, as any of
its versions (R200, R379). -/
def tentWrite (s : State) (f k op rid : Nat) (q : Place) (bs : List Byte) : State :=
  match placePa q, fold? s f with
  | some (pa, cm), some fo =>
    if (region? s rid).isNone then s
    else if fo.isTask && !versionRoom s f pa then exhaust s f
    else
      let s := regionWrite s rid pa cm (placeSize q) bs (some (f, k, op))
      if fo.isTask && overBuffer s f then exhaust s f else s
  | _, _ => s

/-- A region's atomic: a read and a write of its words on the region's view (R257, R270). -/
def regionAtom (s : State) (f k rid : Nat) (e : FEntry) : State :=
  match readRegion s rid e.place e.data.length (some (f, k, e.op)) with
  | (s, none) => s
  | (s, some bs) =>
    if (region? s rid).isNone then s
    else
      let old := nat64 (ofLe bs)
      let r := atomEffect e.act e.data old
      let s := match r.1 with | some ws => tentWrite s f k e.op rid e.place ws | none => s
      atomResult s f k e old r.2

/-- TENTATIVE_ENTRY_APPLY: the oldest tentative entry of a lane reaches its home (R270), after its release action (R244). An entry
of a region that has ended does nothing, and one to host memory with no host link in service ends in error (R362). -/
def execTentativeEntryApply (f k l : Nat) (s : State) : Out :=
  match (flock? s f k).bind (fun fl => firstTent fl l) with
  | none => .next s
  | some e =>
    match e.rid, placePa e.place with
    | some rid, some (pa, _) =>
      if (region? s rid).isNone then .next (partDone (dropTent s f k e) f k e.op [])
      else if isHostPa pa && noHost s then
        .next (partDone (dropTent (requestError s f k e.lane e.pc e.va (hostUnit s)) f k e) f k e.op [])
      else if !(isStore e) && !biasReady s pa false then .next (biasSnoop s pa false)
      else if flipping s pa || earlierLoad s f k e.op || (releases e.order && !releaseReady s f k e.op e.scope) then .next s
      else
        let s := dropTent s f k e
        let s := if isStore e then
            (entryParts e).foldl (fun s q => tentWrite s f k e.op rid q.1 q.2) s
          else regionAtom s f k rid e
        .next (partDone s f k e.op [])
    | _, _ => .next (partDone (dropTent s f k e) f k e.op [])

/-! ## Steps that must wait (R101, R165, R338, R350, R351, R357 to R359) -/

/-- Whether the owner of a line has an entry that it performs, or a grant that reaches it, before it gives the line up (R350). -/
def drainable (s : State) (line : Nat) : Bool :=
  match (lineSt s line).m with
  | none => false
  | some c => granted s line || (residents s c).any (fun fo => fo.2.flocks.any (fun k =>
      (match k.2.fifo with | e :: _ => entryNeeds s c line e | [] => false) && (drainHead s fo.1 k.1).2))

/-- Whether what a step needs holds it back, in the state that it is taken in. -/
def holdsBack (s : State) (x : Awaited) : Bool :=
  match x with
  | .drain line => drainable s line
  | .count c src => fpevLate s c src
  | .entry c src => evjLate s c src
  | .push c src => evjPast s c s.plat.ts src
  | .buffer f buf k => match (fold? s f).bind (fun fo => tget? fo.cbufs buf) with
    | some b => bufAfter b (cycleNow s) k
    | none => false
  | _ => true

/-- Asks for what a step waits for: the host's answer, a collapse, or the entries that an owner performs. For its turn it waits
until time has passed. -/
def askNeed (s : State) (x : Awaited) : State :=
  match x with
  | .snoop pa w => biasSnoop s pa w
  | .collapse pa size => askCollapse s pa size
  | .drain line => drainWaiting s line
  | .count _ _ | .entry _ _ | .push _ _ | .buffer _ _ _ => s

/-- A step whose accesses must wait does not take place: only what they wait for is asked for. -/
def settleTo (s t : State) : State :=
  if t.ms.need.isEmpty then t
  else if t.ms.need.any (holdsBack s) then t.ms.need.foldl askNeed s
  else modMs t (fun m => { m with need := [] })

def settleOut (s : State) (o : Host.Outcome State Fault Refusal) : Host.Outcome State Fault Refusal :=
  match o with
  | .next t => .next (settleTo s t)
  | o => o

end Sys2Proof.Machine
end

