-- ==== Sys2Proof/Machine/Engines.lean ====
section
/-! DEFINITION. Engine commands: the range-lock table's registrations (R159), copy commands (R162 to R164, R250),
BPF and CFLUSH (R171, R172), circular buffers (R165, R174), and the completion of XLAT (R173). -/

namespace Sys2Proof.Machine

open Sys2Proof

/-! ## What every engine command needs -/

/-- Before an engine command enters its queue every store that its flock issued earlier is performed at DIE scope
(R250). -/
def storesPerformed (s : State) (f k : Nat) : Bool :=
  match flock? s f k with
  | none => true
  | some fl => fl.fifo.isEmpty && fl.scr.isEmpty && fl.tent.isEmpty && !msgsBefore s f k s.seq

/-- The lowest index that no unreleased entry holds (R159). -/
def freeLock (t : Tab Lock) : Nat := ((List.range 64).find? (fun i => (tget? t i).isNone)).getD 64

/-- Registers entries in order (R159). -/
def addLocks (co : Core) (ls : List Lock) : Core :=
  ls.foldl (fun co l => { co with locks := tput co.locks (freeLock co.locks) l }) co

def lockRoom (co : Core) (n : Nat) : Bool := decide (co.locks.length + n ≤ 64)

/-- Releases the entries of a command (R159). -/
def dropLocks (s : State) (c op : Nat) : State :=
  modCore s c (fun co => { co with locks := co.locks.filter (fun e => e.2.op != op) })

/-- An update reaches a barrier object (R259). -/
def queueUpd (s : State) (f : Nat) (u : BarUpd) : State := modFold s f (fun fo => { fo with upds := fo.upds ++ [u] })

def applyUpds (fo : Fold) (off : Nat) : Fold :=
  let us := fo.upds.filter (fun u => u.off == off)
  if us.isEmpty then fo
  else
    let arr := us.foldl (fun n u => n + u.arr) 0
    let leaves := us.foldl (fun n u => n + u.leaves) 0
    let delta := us.foldl (fun (n : Int) u => n + u.delta) 0
    let fo := putScr64 fo off (objUpdate (scrW64 fo off) arr leaves delta)
    { fo with upds := fo.upds.filter (fun u => u.off != off) }

/-- BARRIER_UPDATE_APPLY: the updates that have reached one object since its last application are one cycle's, and
are applied as one (R259). -/
def execBarrierUpdateApply (f off : Nat) (s : State) : Out := .next (modFold s f (fun fo => applyUpds fo off))

/-! ## Ranges of an engine -/

/-- A run of physical bytes within one page, with its CMODE. -/
abbrev Run := Nat × Nat × BitVec 2 × Nat

/-- The physical runs of a virtual range (R164): the first page that is invalid or forbidden, or host memory out of
reach (R362), ends it with its cause and address. A range that runs past 2^57 goes on at address 0, while its lock range does not:
the spec says neither (R162; DESIGN CHOICE, log 46). -/
def physRuns (ag : Agent) : Nat → State → Nat → Nat → Nat → Acc → List Run → State × Except (Nat × W64) (List Run)
  | 0, s, _, _, _, _, acc => (s, .ok acc)
  | fuel + 1, s, cx, va, n, a, acc =>
    if n = 0 then (s, .ok acc)
    else
      let k := min n (4096 - va % 4096)
      match translate s ag cx (va % 2 ^ 57) a with
      | (s, .error f) => (s, .error (f, nat64 va))
      | (s, .ok t) =>
        if isHostPa t.pa && noHost s then (s, .error (cUCE, nat64 va))
        else physRuns ag fuel s cx (va + k) (n - k) a (acc ++ [(t.pa, k, leafCmode t.leaf, t.size)])

def runsOf (s : State) (ag : Agent) (cx : Nat) (r : Nat × Nat) (a : Acc) : State × Except (Nat × W64) (List Run) :=
  physRuns ag (r.2 / 4096 + 2) s cx r.1 r.2 a []

/-- The runs of several ranges, one list for each. -/
def rowRuns (s : State) (ag : Agent) (cx : Nat) (rs : List (Nat × Nat)) (a : Acc) :
    State × Except (Nat × W64) (List (List Run)) :=
  rs.foldl (fun (acc : State × Except (Nat × W64) (List (List Run))) r =>
    match acc.2 with
    | .error e => (acc.1, .error e)
    | .ok l =>
      match runsOf acc.1 ag cx r a with
      | (s, .error e) => (s, .error e)
      | (s, .ok x) => (s, .ok (l ++ [x]))) (s, .ok [])

/-- The pages of a range that is written become DIRTY (R152). -/
def dirtyRange (s : State) (ag : Agent) (cx va n : Nat) : State :=
  if n = 0 then s
  else (List.range ((va + n - 1) / 4096 - va / 4096 + 1)).foldl (fun s i =>
    markDirty s ag cx ((va / 4096 + i) * 4096 % 2 ^ 57)) s

/-- The 128-byte lines of a physical range. -/
def linesOf (pa n : Nat) : List Nat :=
  if n = 0 then [] else (List.range ((pa + n - 1) / 128 - pa / 128 + 1)).map (pa / 128 + ·)

def runLines (rs : List Run) : List Nat := rs.flatMap (fun r => linesOf r.1 r.2.1)

/-- Whether an engine's access to runs may be served now (R250, R351, R354, R357 to R359). -/
def runsReady (s : State) (rs : List Run) (write : Bool) : Bool :=
  (runLines rs).all (fun l => biasReady s (128 * l) write && (!write || !isHostPa (128 * l) || s.ms.hostOwn.contains l))
    && (!write || rs.all (fun r => collapseReady s r.1 r.2.2.1))

/-- What an engine's access asks for while it waits: snoops of the host and collapses (R351, R357). -/
def askRuns (s : State) (rs : List Run) (write : Bool) : State :=
  let s := (runLines rs).foldl (fun s l => biasSnoop s (128 * l) write) s
  let s := if write then (runLines rs).foldl (fun s l =>
    if isHostPa (128 * l) && !s.ms.hostOwn.contains l then askHost s l else s) s else s
  if write then rs.foldl (fun s r => if collapseReady s r.1 r.2.2.1 then s else askCollapse s r.1 r.2.2.2) s else s

/-- An engine reads a run at the homes, a task's newest versions first (R199, R250). -/
def readRun (s : State) (f : Nat) (task : Bool) (r : Run) : List Byte :=
  (List.range r.2.1).map (fun i =>
    let a := r.1 + i
    let v := homeVal s (a / 4)
    (if task then taskOverlay s f (a / 4) v else v).extractLsb' (8 * (a % 4)) 8)

/-- Bytes written at their homes after the owning cores have performed the entries that wait for the lines (R250, R350). -/
def engineWrite (s : State) (pa : Nat) (bs : List Byte) : State :=
  homeWriteBytes ((linesOf pa bs.length).foldl drainWaiting s) pa bs anyRegion

/-- An engine writes runs at the homes, or as versions of its task (R199, R250). -/
def writeRuns (s : State) (f : Nat) (task : Bool) : List Run → List Byte → State
  | [], _ => s
  | r :: rs, bs =>
    let s := if task then addVersion s f r.1 r.2.2.1 r.2.2.2 (bs.take r.2.1) else engineWrite s r.1 (bs.take r.2.1)
    writeRuns s f task rs (bs.drop r.2.1)

/-- Completion removes every copy of the written words from the issuing core's view, and at PACKAGE or SYSTEM scope
from every view (R250). -/
def dropWritten (s : State) (c scope : Nat) (rs : List Run) : State :=
  rs.foldl (fun s r =>
    dropAll s (fun c' w => (decide (3 ≤ scope) || c' == c) && decide (r.1 < 4 * w + 4 ∧ 4 * w < r.1 + r.2.1))) s

/-! ## Copy commands (R162, R163) -/

/-- The spaces of a copy command. -/
inductive CSp where
  | global | scratch | buf
  deriving DecidableEq, Repr

/-- A decoded copy command; `src` is none for FILL. -/
structure CopyD where
  mode : Nat
  kind : Nat
  scope : Nat
  bar : Nat
  src : Option CSp
  sbase : Nat
  dst : CSp
  dbase : Nat
  sstr : Nat
  dstr : Nat
  rows : Nat
  rb : Nat
  idx : Nat
  deriving DecidableEq, Repr

/-- A source or destination word; none when it is malformed. -/
def copySpace (w : W64) : Option (CSp × Nat) :=
  match bits w 63 60 with
  | 0 => if bits w 59 57 = 0 then some (.global, bits w 56 0) else none
  | 8 => if bits w 59 20 = 0 then some (.scratch, bits w 19 0) else none
  | 9 => if bits w 59 4 = 0 then some (.buf, bits w 3 0) else none
  | _ => none

/-- The shape word: source stride, destination stride, rows, row bytes, index list. -/
def copyShape (mode : Nat) (c2 : W64) : Option (Nat × Nat × Nat × Nat × Nat) :=
  match mode with
  | 1 =>
    let rows := bits c2 31 20
    let rb := bits c2 19 0
    if rows = 0 ∨ rb = 0 then none else some (bits c2 47 32, bits c2 63 48, rows, rb, 0)
  | 3 =>
    let rows := bits c2 27 16
    let idx := bits c2 47 28
    if rows = 0 ∨ idx % 4 ≠ 0 then none else some (0, bits c2 63 48, rows, bits c2 15 0, idx)
  | _ => if bits c2 63 32 = 0 then some (0, 0, 1, bits c2 31 0, 0) else none

/-- The completion word's fields are legal. -/
def copyCompl (c3 : W64) : Bool :=
  decide (bits c3 63 52 = 0) && decide (bits c3 31 15 = 0) && decide (bits c3 11 10 = 0) && decide (bits c3 7 2 = 0)
    && decide (bits c3 51 32 % 8 = 0) && decide (1 ≤ bits c3 14 12 ∧ bits c3 14 12 ≤ 4) && decide (bits c3 1 0 ≤ 1)

/-- Decodes a copy command; none when a field is malformed (R162, R163). -/
def copyDesc (c0 c1 c2 c3 : W64) : Option CopyD :=
  let mode := bits c3 9 8
  match copyShape mode c2, copySpace c1 with
  | some (sstr, dstr, rows, rb, idx), some (dst, dbase) =>
    let mk := fun (src : Option CSp) (sbase : Nat) =>
      if copyCompl c3 then
        some { mode := mode, kind := bits c3 1 0, scope := bits c3 14 12, bar := bits c3 51 32, src := src,
               sbase := sbase, dst := dst, dbase := dbase, sstr := sstr, dstr := dstr, rows := rows, rb := rb, idx := idx }
      else none
    if mode = 2 then (if dst = .buf then none else mk none 0)
    else
      match copySpace c0 with
      | some (.global, b) => mk (some .global) b
      | some (.scratch, b) => if mode = 3 then none else mk (some .scratch) b
      | _ => none
  | _, _ => none

/-- The bytes a command moves. -/
def CopyD.bytes (d : CopyD) : Nat := d.rows * d.rb

/-- The bounding lengths of the source and of the destination (R159). -/
def CopyD.slen (d : CopyD) : Nat := if d.bytes = 0 then 0 else 16 * d.sstr * (d.rows - 1) + d.rb
def CopyD.dlen (d : CopyD) : Nat := if d.bytes = 0 then 0 else 16 * d.dstr * (d.rows - 1) + d.rb

def lockSp (f : Nat) (sp : CSp) : LSpace := match sp with | .global => .global | _ => .scratch f

/-- The READ entry of a command, in the order of R162. -/
def copyRead (f op : Nat) (d : CopyD) : List Lock :=
  if d.bytes = 0 then []
  else if d.mode = 3 then [{ space := .scratch f, lo := d.idx, hi := d.idx + 4 * d.rows, write := false, op := op }]
  else match d.src with
    | some sp => [{ space := lockSp f sp, lo := d.sbase, hi := d.sbase + d.slen, write := false, op := op }]
    | none => []

/-- The WRITE entry, given where the destination begins. -/
def copyWrite (f op : Nat) (d : CopyD) (base : Nat) : List Lock :=
  if d.bytes = 0 then []
  else [{ space := lockSp f d.dst, lo := base, hi := base + d.dlen, write := true, op := op }]

def locksMeet (a b : List Lock) : Bool :=
  a.any (fun x => b.any (fun y => x.space == y.space && decide (x.lo < y.hi ∧ y.lo < x.hi)))

/-- Where the destination begins, once a slot is known (R163). -/
def copyBase (fo : Fold) (d : CopyD) (slot : Option (Nat × Nat)) : Nat :=
  match d.dst, slot with
  | .buf, some (b, i) => match tget? fo.cbufs b with | some x => x.base + i * x.slot | none => 0
  | _, _ => d.dbase

/-- The slot that a command takes when it issues (R165). -/
def copySlot (fo : Fold) (d : CopyD) : Option (Nat × Nat) :=
  if d.dst = .buf then (tget? fo.cbufs d.dbase).map (fun b => (d.dbase, b.prod)) else none

/-- Whether the destination's range is known: a circular buffer takes a slot only while one is free (R163). -/
def slotOpen (fo : Fold) (d : CopyD) : Bool :=
  d.dst != .buf || (match tget? fo.cbufs d.dbase with | some b => decide (0 < b.free) | none => false)

/-- The checks of R163 at issue, in its order: cause and FADDR. -/
def copyCheck (s : State) (c : Cx) (d : CopyD) : Option (Nat × W64) :=
  let n := d.bytes
  let size := c.fo.scrSize
  if d.kind = 1 ∧ (n = 0 ∨ 2 ^ 24 ≤ n) then some (cILLOP, 0)
  else if slotOpen c.fo d && locksMeet (copyRead c.f 0 d) (copyWrite c.f 0 d (copyBase c.fo d (copySlot c.fo d))) then
    some (cILLOP, 0)
  else if d.kind = 1 ∧ size < d.bar + 8 then some (causeProt, nat64 d.bar)
  else if n ≠ 0 ∧ d.src = some .scratch ∧ size < d.sbase + d.slen then some (causeProt, nat64 d.sbase)
  else if d.mode = 3 ∧ size < d.idx + 4 * d.rows then some (causeProt, nat64 d.idx)
  else if n ≠ 0 ∧ d.dst = .scratch ∧ size < d.dbase + d.dlen then some (causeProt, nat64 d.dbase)
  else if n ≠ 0 ∧ d.dst = .global ∧ inFpool s c.fo.ctx d.dbase d.dlen then some (causeProt, nat64 d.dbase)
  else if d.dst = .buf then
    match tget? c.fo.cbufs d.dbase with
    | none => some (causeProt, 0)
    | some b => if b.slot < d.dlen then some (cILLOP, 0) else none
  else none

def engineQ (s : State) (dn e : Nat) : List CopyCmd := tgetD (die s dn).engines e []

def modEngine (s : State) (dn e : Nat) (g : List CopyCmd → List CopyCmd) : State :=
  modDie s dn (fun x => { x with engines := tset x.engines e (g (tgetD x.engines e [])) [] })

/-- Whether a command can enter its queue now, its slot aside (R159, R161, R250). -/
def copyReady (s : State) (c : Cx) (e : Nat) (d : CopyD) : Bool :=
  storesPerformed s c.f c.k && decide ((engineQ s (dieOf c.c) e).length < 32)
    && lockRoom (coreAt s c.c) ((copyRead c.f 0 d).length + (copyWrite c.f 0 d 0).length)

/-- Whether a command may take its slot: one is free, and no operation that waits before it can be applied (R163, R165). -/
def slotTurn (s : State) (c : Cx) (d : CopyD) : Bool :=
  d.dst != .buf || (match tget? c.fo.cbufs d.dbase with | some b => bufTurn b (cycleNow s) c.k .take | none => false)

def modBuf (s : State) (f buf : Nat) (g : CBuf → CBuf) : State :=
  modFold s f (fun fo => { fo with cbufs := tmod fo.cbufs buf g })

/-- An operation of a flock waits at a buffer (R165). -/
def bufWaits (s : State) (c : Cx) (buf : Nat) (o : BufOp) : State := modBuf s c.f buf (fun b => bufJoin b (cycleNow s) c.k o)

/-- An operation of a flock is applied to a buffer (R165). -/
def bufApply (s : State) (c : Cx) (buf : Nat) (b : CBuf) (g : CBuf → CBuf) : State :=
  modBuf (needTurn s (bufLate b (cycleNow s) c.k) (.buffer c.f buf c.k)) c.f buf (fun b => bufDid (g b) (cycleNow s) c.k)

def copyWaits (c : Cx) (e : Nat) (d : CopyD) : List Wait :=
  [.stores, .engine e, .locks ((copyRead c.f 0 d).length + (copyWrite c.f 0 d 0).length)]
    ++ if d.dst = .buf then [.slot d.dbase] else []

/-- Takes a slot of a buffer for command `op`. -/
def takeSlot (s : State) (c : Cx) (buf : Nat) (op : Nat) : State :=
  match tget? c.fo.cbufs buf with
  | some b => bufApply s c buf b (fun b => (cbTake b (some op)).2)
  | none => s

/-- Publishes a slot of a buffer. -/
def publishSlot (s : State) (f buf : Nat) (p : Nat × Option Nat → Bool) : State := modBuf s f buf (fun b => cbPublish b p)

/-- A command that completes publishes the slot it took, in its flock's turn (R164, R165). -/
def publishDone (s : State) (x : CopyCmd) (buf : Nat) : State :=
  let late := match (fold? s x.fold).bind (fun fo => tget? fo.cbufs buf) with
    | some b => bufAfter b (cycleNow s) x.flock
    | none => false
  modBuf (needTurn s late (.buffer x.fold buf x.flock)) x.fold buf (fun b =>
    bufMark (cbPublish b (fun p => p.2 == some x.op)) (cycleNow s) x.flock)

/-- A command joins a queue behind those that have arrived: of commands of one time stamp that have not started, the lower
source number comes first (R161). -/
def joinQueue (x : CopyCmd) : List CopyCmd → List CopyCmd
  | [] => [x]
  | y :: q => if y.data.isNone && y.ts == x.ts && decide (x.src < y.src) then x :: y :: q else y :: joinQueue x q

/-- The command enters its engine's queue: its locks are registered, its slot is taken and it counts on its flag,
marked long (R134, R159, R163). -/
def copyEnter (h : Hd) (s : State) (c : Cx) (ex : List Nat) (e : Nat) (d : CopyD) (w : W64 × W64 × W64 × W64) : State :=
  let (id, s) := fresh s
  let slot := copySlot c.fo d
  let ls := copyRead c.f id d ++ copyWrite c.f id d (copyBase c.fo d slot)
  let cmd : CopyCmd :=
    { fold := c.f, flock := c.k, op := id, tid := tidOf c (ex.headD 0), core := c.c, src := coreSrc c.c, ts := s.plat.ts,
      c0 := w.1, c1 := w.2.1, c2 := w.2.2.1, c3 := w.2.2.2, slot := slot, data := none }
  let s := modCore s c.c (fun co => addLocks co ls)
  let s := match slot with | some (b, _) => takeSlot s c b id | none => s
  let s := startOp s c.f c.k { newOp c h id .copy none with left := 1 }
  opLong (modEngine s (dieOf c.c) e (joinQueue cmd)) c.f c.k id

/-- A command that moves no byte and has no barrier completes at once, its slot with it (R163, R164; DEDUCED,
log 22). -/
def copyNothing (s : State) (c : Cx) (d : CopyD) : State :=
  if d.dst = .buf then publishSlot (takeSlot s c d.dbase s.seq) c.f d.dbase (fun p => p.2 == some s.seq) else s

/-- A copy command at issue (R127, R163). -/
def copyWord (h : Hd) (s : State) (c : Cx) (ex : List Nat) (e : Nat) (w : W64 × W64 × W64 × W64) : State :=
  if c.fl.role = 2 ∨ c.fl.role = 3 then faultHere s c cROLE ex.head? 0
  else
    match copyDesc w.1 w.2.1 w.2.2.1 w.2.2.2 with
    | none => illop s c ex
    | some d =>
      match copyCheck s c d with
      | some (cause, fa) => faultHere s c cause ex.head? fa
      | none =>
        let s := regionBar s c ex
        if flagFull c.fl c.g h || !copyReady s c e d then waitRoom s c (flagWait c.g h ++ copyWaits c e d)
        else if !slotTurn s c d then waitRoom (bufWaits s c d.dbase .take) c (flagWait c.g h ++ copyWaits c e d)
        else if d.bytes = 0 then advance (copyNothing s c d) c h
        else advance (copyEnter h s c ex e d w) c h

/-- The four consecutive S registers of a command. -/
def fourS (c : Cx) (a : Opd) : W64 × W64 × W64 × W64 :=
  match a with
  | .s n => (sreg c.fl n.val, sreg c.fl (n.val + 1), sreg c.fl (n.val + 2), sreg c.fl (n.val + 3))
  | _ => (0, 0, 0, 0)

def cpyMode (m : CpyMode) : Nat :=
  match m with
  | .d1 => 0
  | .d2 => 1
  | .fill => 2
  | .gather => 3

/-- CPY: the command with C3[9:8] replaced by the mode (R175). -/
def execCpy (h : Hd) (m : CpyMode) (a : Opd) (e : Fin 8) (s : State) : Out :=
  word h s (fun c ex =>
    let w := fourS c a
    copyWord h s c ex e.val
      (w.1, w.2.1, w.2.2.1, (w.2.2.2 &&& ~~~(0x300#64)) ||| BitVec.ofNat 64 (cpyMode m * 256)))

/-! ## Engines at work (R164) -/

def cmdDesc (x : CopyCmd) : Option CopyD := copyDesc x.c0 x.c1 x.c2 x.c3

/-- The source rows of a command (R162); the index list is read when the engine starts. -/
def srcRows (fo : Fold) (d : CopyD) : List (Nat × Nat) :=
  (List.range d.rows).map (fun r =>
    if d.mode = 3 then (d.sbase + ofLe (scrBytes fo (d.idx + 4 * r) 4) * d.rb, d.rb)
    else (d.sbase + 16 * d.sstr * r, d.rb))

/-- The destination of row r. -/
def dstRow (fo : Fold) (d : CopyD) (slot : Option (Nat × Nat)) (r : Nat) : Nat := copyBase fo d slot + 16 * d.dstr * r

/-- The pattern bytes of a FILL. -/
def fillBytes (c0 : W64) (n : Nat) : List Byte := (List.range n).map (fun i => c0.extractLsb' (8 * (i % 8)) 8)

/-- The engine of a command is a unit of its core's die. -/
def cmdAgent (x : CopyCmd) : Agent := .die (dieOf x.core)

/-- The bytes of each source row: none when the engine must wait or has met a page that ends the command. -/
def readRows (s : State) (x : CopyCmd) (fo : Fold) (d : CopyD) : State × Option (List (List Byte)) :=
  match d.src with
  | none => (s, some [fillBytes x.c0 d.rb])
  | some .global =>
    match rowRuns s (cmdAgent x) fo.ctx (srcRows fo d) .load with
    | (s', .error e) => (if e.1 = causeWait then s' else s, none)
    | (s', .ok rs) =>
      if rs.all (fun r => runsReady s' r false) then
        (s', some (rs.map (fun r => r.flatMap (readRun s' x.fold fo.isTask))))
      else (rs.foldl (fun s r => askRuns s r false) s', none)
  | some _ => (s, some ((srcRows fo d).map (fun r => scrBytes fo r.1 r.2)))

/-- COPY_START: an engine starts the next command of its queue and reads its source (R164, R250). The model reads
every source byte here and writes every destination byte at completion (DESIGN CHOICE, log 22). -/
def execCopyStart (dn e : Nat) (s : State) : Out :=
  match (engineQ s dn e).zipIdx.find? (fun x => x.1.data.isNone) with
  | none => .next s
  | some (x, i) =>
    match fold? s x.fold, cmdDesc x with
    | some fo, some d =>
      match readRows s x fo d with
      | (s, none) => .next s
      | (s, some rows) =>
        let data := rows.zipIdx.map (fun r => (dstRow fo d x.slot r.2, r.1))
        .next (modEngine s dn e (fun q => q.set i { x with data := some data }))
    | _, _ => .next s

/-- The steps of completion, in their order (R164). -/
def copyFinish (s : State) (dn e ix : Nat) (x : CopyCmd) (d : CopyD) : State :=
  let s := modEngine s dn e (fun q => q.eraseIdx ix)
  let s := dropLocks s x.core x.op
  let s := match (flock? s x.fold x.flock).bind (fun fl => op? fl x.op) with
    | some o => completeOp s x.fold x.flock o
    | none => s
  let s := if d.kind = 1 then queueUpd s x.fold { src := none, off := d.bar, arr := 1, leaves := 0, delta := -(d.bytes : Int) } else s
  match x.slot with
  | some (b, _) => publishDone s x b
  | none => s

/-- Writes a command's rows to global memory; none when it must wait or has met a page that ends it. -/
def writeRows (s : State) (x : CopyCmd) (fo : Fold) (d : CopyD) (data : List (Nat × List Byte)) : State × Bool :=
  match rowRuns s (cmdAgent x) fo.ctx (data.map (fun r => (r.1, r.2.length))) .store with
  | (s', .error e) => (if e.1 = causeWait then s' else s, false)
  | (s', .ok rs) =>
    if !fo.isTask && !(rs.all (fun r => runsReady s' r true)) then (rs.foldl (fun s r => askRuns s r true) s', false)
    else
      let s' := data.foldl (fun s r => dirtyRange s (cmdAgent x) fo.ctx r.1 r.2.length) s'
      let s := (rs.zip data).foldl (fun s r => writeRuns s x.fold fo.isTask r.1 r.2.2) s'
      (if fo.isTask then s else rs.foldl (fun s r => dropWritten s x.core d.scope r) s, true)

/-- COPY_COMPLETE: the command at position `ix` of an engine's queue, which has been started, writes its bytes and
completes (R164, R250). -/
def execCopyComplete (dn e ix : Nat) (s : State) : Out :=
  match (engineQ s dn e)[ix]? with
  | none => .next s
  | some x =>
    match x.data, fold? s x.fold, cmdDesc x with
    | some data, some fo, some d =>
      if d.dst = .global then
        match writeRows s x fo d data with
        | (s, true) => .next (copyFinish s dn e ix x d)
        | (s, false) => .next s
      else
        .next (copyFinish (modFold s x.fold (fun fo => data.foldl (fun fo r => scrPut fo r.1 r.2) fo)) dn e ix x d)
    | _, _, _ => .next s

/-- The error of a translation that is one: not a wait. -/
def realError {α : Type} (r : Except (Nat × W64) α) : Option (Nat × W64) :=
  match r with
  | .error e => if e.1 = causeWait then none else some e
  | .ok _ => none

/-- The lines that a command waits to write. -/
def commandLines (s : State) (x : CopyCmd) : List Nat :=
  match x.data, fold? s x.fold, cmdDesc x with
  | some data, some fo, some d =>
    if d.dst = .global then
      match (rowRuns s (cmdAgent x) fo.ctx (data.map (fun r => (r.1, r.2.length))) .store).2 with
      | .ok rs => rs.flatMap runLines
      | .error _ => []
    else []
  | _, _, _ => []

/-- The page that ends a command: of its sources before it starts, of its destinations after (R164). -/
def copyError (s : State) (x : CopyCmd) : Option (Nat × W64) :=
  match fold? s x.fold, cmdDesc x with
  | some fo, some d =>
    match x.data with
    | none =>
      if d.src = some .global then realError (rowRuns s (cmdAgent x) fo.ctx (srcRows fo d) .load).2 else none
    | some data =>
      if d.dst = .global then
        realError (rowRuns s (cmdAgent x) fo.ctx (data.map (fun r => (r.1, r.2.length))) .store).2
      else none
  | _, _ => none

/-- A command ends without completion, and the issuing fold takes a fault at the issuing instruction (R164, R298, R362). Its flag
and its locks stay until the fold is saved, and the command is run again when the fold resumes (DEDUCED, log 22). -/
def endCommand (s : State) (dn e ix : Nat) (x : CopyCmd) (cause : Nat) (fa : W64) : State :=
  match (flock? s x.fold x.flock).bind (fun fl => op? fl x.op) with
  | none => s
  | some o =>
    let s := modEngine s dn e (fun q => q.eraseIdx ix)
    let s := modFold s x.fold (fun fo => { fo with parked := fo.parked ++ [(e, { x with data := none })] })
    foldFault s x.fold x.flock cause 0 (some x.tid) false o.pc fa

/-- ENGINE_PAGE_FAULT: the command ends without completion and the issuing fold takes the fault at the issuing
instruction (R164). -/
def execEnginePageFault (dn e ix : Nat) (s : State) : Out :=
  match (engineQ s dn e)[ix]? with
  | none => .next s
  | some x =>
    match copyError s x with
    | none => .next s
    | some (cause, fa) =>
      .next (endCommand (if cause = cUCE then requestLost s (hostUnit s) fa else s) dn e ix x cause fa)

/-! ## BPF and CFLUSH -/

/-- The range of a BPF, rounded outward to 256 bytes (R171). -/
def bpfRange (a len : Nat) : Nat × Nat := (a / 256 * 256, cdiv (a + len) 256 * 256 - a / 256 * 256)

/-- The faults of BPF at issue (R171, R177; log 21). -/
def bpfCheck (c : Cx) (a b : W64) (bar : Option (BitVec 20)) : Option (Nat × W64) :=
  let r := bpfRange (bits a 56 0) b.toNat
  if 2 ^ 30 < b.toNat then some (cILLOP, 0)
  else if bar.isSome ∧ 2 ^ 24 ≤ r.2 then some (cILLOP, 0)
  else if nodeOf a ≠ 0 then some (causeProt, a)
  else match bar with
    | some o => if c.fo.scrSize < o.toNat + 8 then some (causeProt, nat64 o.toNat) else none
    | none => none

def execBpf (h : Hd) (a b : Opd) (dn : Fin 4) (bar : Option (BitVec 20)) (s : State) : Out :=
  word h s (fun c ex =>
    let x := rdS c a
    let y := rdS c b
    match bpfCheck c x y bar with
    | some (cause, fa) => faultHere s c cause ex.head? fa
    | none =>
      let s := regionBar s c ex
      if (bar.isNone && flagFull c.fl c.g h) || !storesPerformed s c.f c.k then
        waitRoom s c (.stores :: if bar.isNone then flagWait c.g h else [])
      else
        let r := bpfRange (bits x 56 0) y.toNat
        let (id, s) := fresh s
        let o := newOp c h id (.bpf (nat64 r.1) r.2 dn.val (bar.map BitVec.toNat)) none
        let s := startOp s c.f c.k { o with left := 1, flag := if bar.isSome then none else o.flag }
        advance (opLong s c.f c.k id) c h)

/-- The lines of a virtual range, none for an empty one, whose pages are mapped, with the page's CMODE. Pages that do not
translate are skipped, as R171 has it for BPF, and no permission is asked: of CFLUSH R172 says neither (DESIGN CHOICE, log 47).
-/
def mappedLines (s : State) (ag : Agent) (cx va n : Nat) : State × List (Nat × BitVec 2) :=
  (List.range (if n = 0 then 0 else cdiv (va % 128 + n) 128)).foldl (fun (acc : State × List (Nat × BitVec 2)) i =>
    match translate acc.1 ag cx ((va / 128 * 128 + 128 * i) % 2 ^ 57) .any with
    | (s, .error _) => (s, acc.2)
    | (s, .ok t) => (s, acc.2 ++ [(t.pa / 128, leafCmode t.leaf)])) (s, [])

/-- BPF_COMPLETE: the lines are present in the die's L2; the flag drops or the barrier receives its arrival. In a fold
that stops it completes with no line fetched (R171). -/
def execBpfComplete (f k ix : Nat) (s : State) : Out :=
  match fold? s f, (flock? s f k).bind (fun fl => fl.ops[ix]?) with
  | some fo, some o =>
    match o.kind with
    | .bpf va len dn bar =>
      let s :=
        if fo.halt.isSome then s
        else
          let r := mappedLines s (.die dn) fo.ctx va.toNat len
          r.2.foldl (fun s l => if l.2 = 2 then s else fillL2 s dn l.1 fo.ctx false) r.1
      let s := completeOp s f k o
      .next (match bar with
        | some b => queueUpd s f { src := none, off := b, arr := 1, leaves := 0, delta := -(len : Int) }
        | none => s)
    | _ => .next s
  | _, _ => .next s

/-- CFLUSH names node 0 (R177). -/
def execCflush (h : Hd) (a b : Opd) (m : FlushMode) (s : State) : Out :=
  word h s (fun c ex =>
    let x := rdS c a
    if nodeOf x ≠ 0 then faultHere s c causeProt ex.head? x
    else
      let s := regionBar s c ex
      if flagFull c.fl c.g h then waitRoom s c (flagWait c.g h)
      else
        let (id, s) := fresh s
        advance (startOp s c.f c.k { newOp c h id (.cflush x (rdS c b).toNat m) none with left := 1 }) c h)

/-- One word of a view under CFLUSH (R172): WB writes the modified bytes home, INV discards; on coherent pages INV
acts as WBINV. -/
def flushWord (s : State) (c : Nat) (m : FlushMode) (cm : BitVec 2) (w : Nat) : State :=
  match viewWord s c w with
  | none => s
  | some v =>
    if v.st = .copy then
      let s := if m = .inv ∧ cm = 1 ∨ v.dirty = 0 then s else homeWrite s w v.dirty v.val anyRegion
      if m = .wb then setView s c w { v with dirty := 0 } else delView s c w
    else if v.st = .owned then
      if m = .wb then putWord s w (homeVal s w)
      else match s.ms.owners.find? (fun e => e.1 == w) with
        | some _ => delView (revoke s w) c w
        | none => s
    else s

/-- One line under CFLUSH: the core's words, a line owned whole, and the executing die's L2. The line's owner first
performs the entries that wait for it (R350). -/
def flushLine (s : State) (c : Nat) (m : FlushMode) (l : Nat × BitVec 2) : State :=
  let s := drainWaiting s l.1
  let s := (List.range 32).foldl (fun s i => flushWord s c m l.2 (32 * l.1 + i)) s
  let s := if m ≠ .wb ∧ ownsLine s c l.1 then
      (List.range 32).foldl (fun s i => delView s c (32 * l.1 + i)) (revokeLine s l.1 c)
    else s
  if m = .wb then s
  else modMs s (fun x => { x with l2 := x.l2.filter (fun e => !(e.die == dieOf c && e.line == l.1)) })

/-- CFLUSH_COMPLETE: the operation is complete at every affected slice and the flag drops (R172). -/
def execCflushComplete (f k ix : Nat) (s : State) : Out :=
  match fold? s f, (flock? s f k).bind (fun fl => fl.ops[ix]?) with
  | some fo, some o =>
    match o.kind, coreOf fo with
    | .cflush va len m, some c =>
      let r := mappedLines s (.core c) fo.ctx (bits va 56 0) len
      .next (completeOp (r.2.foldl (fun s l => flushLine s c m l) r.1) f k o)
    | _, _ => .next s
  | _, _ => .next s

/-- XLAT_COMPLETE: the translations are written to the executing threads' pairs and the flag drops (R173). -/
def execXlatComplete (f k ix : Nat) (s : State) : Out :=
  match (flock? s f k).bind (fun fl => fl.ops[ix]?) with
  | none => .next s
  | some o =>
    match o.kind with
    | .xlat d res => .next (completeOp (res.foldl (fun s w => writePend s f k 2 d none w) s) f k o)
    | _ => .next s

/-! ## Circular buffers (R174) -/

/-- The controllers that the folds of a core hold. -/
def buffersHeld (s : State) (c : Nat) : Nat := (residents s c).foldl (fun n e => n + e.2.cbufs.length) 0

/-- The descriptor of CBINIT is legal. -/
def cbDescOk (x : W64) : Bool :=
  decide (bits x 63 40 = 0) && decide (bits x 19 0 % 8 = 0) && decide (bits x 39 20 % 8 = 0)
    && decide (8 ≤ bits x 39 20 ∧ bits x 39 20 ≤ 65536)

def setBuf (s : State) (f buf : Nat) (b : CBuf) : State := modFold s f (fun fo => { fo with cbufs := tput fo.cbufs buf b })

/-- CBINIT (R165, R174). With count 0 it frees the buffer and answers 1, also when the fold does not hold it, and its descriptor
and its base are checked as for any other count (DESIGN CHOICE, log 43). Operations that wait at the buffer go on waiting. -/
def execCbinit (h : Hd) (d a : Opd) (buf : Fin 16) (count : BitVec 9) (s : State) : Out :=
  word h s (fun c ex =>
    let x := rdS c a
    let n := count.toNat
    if c.fo.scrSize < bits x 19 0 + n * bits x 39 20 then faultHere s c causeProt ex.head? (nat64 (bits x 19 0))
    else if !cbDescOk x then illop s c ex
    else
      let s := regionBar s c ex
      match tget? c.fo.cbufs buf.val with
      | some b =>
        if !b.taken.isEmpty then waitHere s c ex [.idle buf.val]
        else if n = 0 then
          advance (writeS (modFold s c.f (fun fo => { fo with cbufs := tdel fo.cbufs buf.val })) c d 1) c h
        else
          let nb : CBuf := { base := bits x 19 0, slot := bits x 39 20, count := n, free := n, filled := 0, prod := 0,
                             cons := 0, taken := [], done := [], waits := b.waits, lastOp := b.lastOp }
          advance (writeS (setBuf s c.f buf.val nb) c d 1) c h
      | none =>
        if n = 0 then advance (writeS s c d 1) c h
        else if 16 ≤ buffersHeld s c.c then advance (writeS s c d 0) c h
        else
          let nb : CBuf := { base := bits x 19 0, slot := bits x 39 20, count := n, free := n, filled := 0, prod := 0,
                             cons := 0, taken := [], done := [] }
          advance (writeS (setBuf s c.f buf.val nb) c d 1) c h)

/-- An operation on a buffer that the fold holds; PROT when it does not (R174), with no address, since a buffer number is
none (R301). -/
def cbWord (h : Hd) (buf : Fin 16) (s : State) (go : State → Cx → List Nat → CBuf → State) : Out :=
  word h s (fun c ex =>
    match tget? c.fo.cbufs buf.val with
    | none => faultHere s c causeProt ex.head? 0
    | some b => go (regionBar s c ex) c ex b)

def execCbwait (h : Hd) (d : Opd) (buf : Fin 16) (s : State) : Out :=
  cbWord h buf s (fun s c ex b =>
    if bufTurn b (cycleNow s) c.k .wait then
      advance (writeS (bufApply s c buf.val b id) c d (nat64 (b.base + b.cons * b.slot))) c h
    else waitHere (bufWaits s c buf.val .wait) c ex [.filled buf.val])

def execCbrel (h : Hd) (buf : Fin 16) (s : State) : Out :=
  cbWord h buf s (fun s c _ b => advance (bufApply s c buf.val b cbRelease) c h)

def execCbacq (h : Hd) (d : Opd) (buf : Fin 16) (s : State) : Out :=
  cbWord h buf s (fun s c ex b =>
    if bufTurn b (cycleNow s) c.k .take then
      advance (writeS (bufApply s c buf.val b (fun b => (cbTake b none).2)) c d (nat64 (b.base + b.prod * b.slot))) c h
    else waitHere (bufWaits s c buf.val .take) c ex [.slot buf.val])

def execCbpub (h : Hd) (buf : Fin 16) (s : State) : Out :=
  cbWord h buf s (fun s c _ b => advance (bufApply s c buf.val b (fun b => cbPublish b (fun _ => true))) c h)

end Sys2Proof.Machine
end

