-- ==== Sys2Proof/Machine/Matrix.lean ====
section
/-! DEFINITION. The matrix engine (R221 to R239): parameter blocks and their checks, a step's arithmetic and its
epilogue, tables, batches and reports, the instructions of group 0x8 and the queue registers (R161, R175, R208). -/

namespace Sys2Proof.Machine

open Sys2Proof

/-! ## The parameter block (R224); `rows` is the index list of a GATHER, once read (R232) -/

structure MxP where
  m : Nat
  n : Nat
  k : Nat
  itype : Nat
  ctl : Nat
  anar : Nat
  bnar : Nat
  scale : Nat
  rm : Nat
  wbase : Nat
  diag : Int
  abase : Nat
  ald : Nat
  bbase : Nat
  bld : Nat
  idx : Nat
  asc : Nat
  bsc : Nat
  bias : Nat
  out : Nat
  old : Nat
  qscale : Nat
  ofmt : Nat
  onar : Nat
  epi : Nat
  last : Nat
  rows : List Nat := []
  deriving DecidableEq, Repr

def mxParse (b : List Byte) : MxP :=
  { m := bytesAt b 0 2, n := bytesAt b 2 2, k := bytesAt b 4 2, itype := bytesAt b 6 1, ctl := bytesAt b 7 1,
    anar := bytesAt b 8 1, bnar := bytesAt b 9 1, scale := bytesAt b 10 1, rm := bytesAt b 11 1,
    wbase := bytesAt b 12 2, diag := (BitVec.ofNat 16 (bytesAt b 14 2)).toInt, abase := bytesAt b 16 4,
    ald := bytesAt b 20 4, bbase := bytesAt b 24 4, bld := bytesAt b 28 4, idx := bytesAt b 32 4, asc := bytesAt b 36 4,
    bsc := bytesAt b 40 4, bias := bytesAt b 44 4, out := bytesAt b 48 4, old := bytesAt b 52 4,
    qscale := bytesAt b 56 4, ofmt := bytesAt b 60 1, onar := bytesAt b 61 1, epi := bytesAt b 62 1,
    last := bytesAt b 63 1 }

def MxP.load (p : MxP) : Bool := p.ctl.testBit 0
def MxP.ta (p : MxP) : Bool := p.ctl.testBit 1
def MxP.tb (p : MxP) : Bool := p.ctl.testBit 2
def MxP.gather (p : MxP) : Bool := p.ctl.testBit 3
def MxP.tri (p : MxP) : Nat := p.ctl / 16 % 4
def MxP.hasEpi (p : MxP) : Bool := p.ctl.testBit 6
def MxP.hasBias (p : MxP) : Bool := p.epi.testBit 0
def MxP.act (p : MxP) : Nat := p.epi / 2 % 8
def MxP.outRm (p : MxP) : Nat := p.epi / 16 % 8
def MxP.sat (p : MxP) : Bool := p.epi.testBit 7

/-- ITYPE's row of R221: F64 accumulation, element bytes, granule. -/
def itypeRow (t : Nat) : Option (Bool × Nat × Nat) :=
  match t with
  | 8 => some (true, 8, 2)
  | 7 => some (false, 4, 4)
  | 9 => some (false, 2, 8)
  | 10 => some (false, 2, 8)
  | 13 => some (false, 1, 16)
  | _ => none

def MxP.wide (p : MxP) : Bool := p.itype == 8
def MxP.eb (p : MxP) : Nat := match itypeRow p.itype with | some r => r.2.1 | none => 1
def MxP.gran (p : MxP) : Nat := match itypeRow p.itype with | some r => r.2.2 | none => 1

/-- The format of a type code with a binary8 code (R30). -/
def codeFmt (t nar : Nat) : Fmt :=
  match t with
  | 8 => fF64
  | 9 => fF16
  | 10 => fBF16
  | 13 => fB8 (BitVec.ofNat 6 nar)
  | _ => fF32

def codeBytes (t : Nat) : Nat := match t with | 8 => 8 | 9 => 2 | 10 => 2 | 13 => 1 | _ => 4

/-- The accumulator's format. -/
def MxP.acc (p : MxP) : Fmt := if p.wide then fF64 else fF32

/-- The block length of the scales, 0 for none. -/
def MxP.blk (p : MxP) : Nat := match p.scale with | 1 => 16 | 2 => 32 | _ => 0

/-- Inside(m, n) of R227. -/
def MxP.inside (p : MxP) (m n : Nat) : Bool :=
  match p.tri with
  | 1 => decide ((n : Int) ≤ m + p.diag)
  | 2 => decide ((m : Int) + p.diag ≤ n)
  | _ => true

/-- The window's length W (R226). -/
def MxP.win (p : MxP) : Nat := (if p.wide then 16 else 8) * cdiv p.m 16 * cdiv p.n 16

/-- The register and the lane of element (m, n) (R226). -/
def MxP.place (p : MxP) (m n : Nat) : Nat × Nat :=
  let s := m / 16 * cdiv p.n 16 + n / 16
  let i := m % 16
  (p.wbase + (if p.wide then 16 * s + 2 * (i / 2) else 8 * s + i / 2), 16 * (i % 2) + n % 16)

/-! ## Operands (R225) -/

/-- The row of A that row m reads: the index list's word with GATHER. -/
def MxP.row (p : MxP) (m : Nat) : Nat := if p.gather then p.rows.getD m 0 else m

/-- The index list as it stands in the scratchpad; the engine reads it once, at issue (R232). -/
def mxRows (fo : Fold) (p : MxP) : List Nat :=
  if p.gather then (List.range p.m).map (fun m => ofLe (scrBytes fo (p.idx + 2 * m) 2)) else []

def MxP.aOff (p : MxP) (m k : Nat) : Nat :=
  if p.ta then p.abase + k * p.ald + m * p.eb else p.abase + p.row m * p.ald + k * p.eb

def MxP.bOff (p : MxP) (k n : Nat) : Nat :=
  if p.tb then p.bbase + n * p.bld + k * p.eb else p.bbase + k * p.bld + n * p.eb

/-- The least and the greatest of a list. -/
def spanOf (l : List Nat) : Option (Nat × Nat) :=
  match l with
  | [] => none
  | x :: r => some (r.foldl min x, r.foldl max x)

/-- The rows of A that a step reads: those of some inside element, and with GATHER every row that the index list names (R232). -/
def MxP.rowsIn (p : MxP) : List Nat :=
  (List.range p.m).filter (fun m => p.gather || (List.range p.n).any (p.inside m))

/-- The bounding range of the A elements read, and of the B elements (R232). -/
def MxP.aRange (p : MxP) : List (Nat × Nat) :=
  match spanOf (p.rowsIn.map (fun m => p.aOff m 0)), spanOf (p.rowsIn.map (fun m => p.aOff m (p.k - 1))) with
  | some a, some b => [(a.1, b.2 + p.eb)]
  | _, _ => []

def MxP.bRange (p : MxP) : List (Nat × Nat) :=
  match spanOf ((List.range p.n).map (fun n => p.bOff 0 n)), spanOf ((List.range p.n).map (fun n => p.bOff (p.k - 1) n)) with
  | some a, some b => [(a.1, b.2 + p.eb)]
  | _, _ => []

/-- The other READ ranges, each when used, in the order of R232. -/
def MxP.otherRanges (p : MxP) : List (Nat × Nat) :=
  let nb := if p.blk = 0 then 0 else cdiv p.k p.blk
  (if p.gather then [(p.idx, p.idx + 2 * p.m)] else [])
    ++ (if p.blk ≠ 0 then [(p.asc, p.asc + p.m * nb), (p.bsc, p.bsc + p.n * nb)] else [])
    ++ (if p.hasBias then [(p.bias, p.bias + p.n * (if p.wide then 8 else 4))] else [])

def MxP.reads (p : MxP) : List (Nat × Nat) := p.aRange ++ p.bRange ++ p.otherRanges

def MxP.ob (p : MxP) : Nat := codeBytes p.ofmt

def MxP.outRange (p : MxP) : List (Nat × Nat) :=
  if p.hasEpi then [(p.out, p.out + (p.m - 1) * p.old + p.n * p.ob)] else []

/-! ## Checks (R239) -/

def b8Ok (x : Nat) : Bool := decide (x < 64) && isB8Code (BitVec.ofNat 6 x)

/-- ILLOP for the block's contents, W and the overlap of ranges aside (R224). -/
def mxFieldsOk (p : MxP) : Bool :=
  let b8 := p.itype == 13
  decide (1 ≤ p.m ∧ p.m ≤ 256) && decide (1 ≤ p.n ∧ p.n ≤ 256) && decide (1 ≤ p.k ∧ p.k ≤ 4096)
    && (itypeRow p.itype).isSome && decide (p.ctl < 128) && decide (p.tri ≠ 3) && !(p.gather && p.ta)
    && (if b8 then b8Ok p.anar && b8Ok p.bnar else decide (p.anar = 0 ∧ p.bnar = 0))
    && decide (p.scale ≤ 2) && (b8 || decide (p.scale = 0)) && decide (p.rm ≤ 4) && decide (p.wbase % 8 = 0)
    && (p.gather || decide (p.idx = 0))
    && (decide (p.scale ≠ 0) || decide (p.asc = 0 ∧ p.bsc = 0))
    && (p.hasBias || decide (p.bias = 0))
    && (if p.hasEpi then
          (if p.wide then decide (p.ofmt = 8 ∧ p.act = 0 ∧ p.qscale = 0x3F800000)
           else decide (p.ofmt = 7 ∨ p.ofmt = 9 ∨ p.ofmt = 10 ∨ p.ofmt = 13))
          && decide (p.n * p.ob ≤ p.old)
          && (if p.ofmt = 13 then b8Ok p.onar else decide (p.onar = 0))
          && decide (p.act ≤ 4) && decide (p.outRm ≤ 5)
        else decide (p.out = 0 ∧ p.old = 0 ∧ p.qscale = 0 ∧ p.ofmt = 0 ∧ p.onar = 0 ∧ p.epi = 0))
    && decide (p.last = 0)

def rangesMeet (a b : List (Nat × Nat)) : Bool := a.any (fun x => b.any (fun y => decide (x.1 < y.2 ∧ y.1 < x.2)))

/-- The first range that ends beyond the allocation. -/
def beyond (fo : Fold) (rs : List (Nat × Nat)) : Option Nat := (rs.find? (fun r => decide (fo.scrSize < r.2))).map (·.1)

/-- The base, stride or offset that breaks its multiple: the first in the order of the block, whose value FADDR names (DESIGN
CHOICE, log 43). -/
def mxMisaligned (p : MxP) : Option Nat :=
  let l : List (Nat × Nat) := [(p.abase, 8), (p.ald, 8), (p.bbase, 8), (p.bld, 8), (p.idx, 2), (p.bias, 8), (p.out, 8), (p.old, 8)]
  (l.find? (fun x => decide (x.1 % x.2 ≠ 0))).map (·.1)

/-- Steps 4 to 7 of R239: cause and FADDR. With GATHER the rows of A are known only once the index list has been read, after
step 6: a row beyond the allocation is PROT, and then rows that meet the output are ILLOP (log 43). -/
def mxCheck (fo : Fold) (valloc : Nat) (p : MxP) : Option (Nat × W64) :=
  let a := if p.gather then [] else p.aRange
  let g := if p.gather then { p with rows := mxRows fo p }.aRange else []
  if !mxFieldsOk p then some (cILLOP, 0)
  else if valloc < p.wbase + p.win ∨ rangesMeet (a ++ p.bRange ++ p.otherRanges) p.outRange then some (cILLOP, 0)
  else match mxMisaligned p with
    | some x => some (cALIGN, nat64 x)
    | none =>
      match beyond fo (a ++ p.bRange ++ p.otherRanges ++ p.outRange), beyond fo g with
      | some x, _ => some (causeProt, nat64 x)
      | none, some x => some (causeProt, nat64 x)
      | none, none => if rangesMeet g p.outRange then some (cILLOP, 0) else none

/-- Steps 1 to 3 of R239 for a command word (R223). -/
def mxWordCheck (fo : Fold) (w : W64) : Option (Nat × W64) :=
  let arr := bitOf w 44
  let bar := bits w 43 24
  let blk := bits w 19 0
  if bits w 63 45 ≠ 0 ∨ bits w 23 20 ≠ 0 ∨ (!arr ∧ bar ≠ 0) then some (cILLOP, 0)
  else if blk % 16 ≠ 0 then some (cALIGN, nat64 blk)
  else if bar % 8 ≠ 0 then some (cALIGN, nat64 bar)
  else if fo.scrSize < blk + 64 then some (causeProt, nat64 blk)
  else if arr ∧ fo.scrSize < bar + 8 then some (causeProt, nat64 bar)
  else none

/-! ## The step's arithmetic (R227, R228) -/

def rmOf (n : Nat) : Rm :=
  match n with
  | 0 => .rne
  | 1 => .rtz
  | 2 => .rup
  | 3 => .rdn
  | 4 => .rna
  | _ => .srh

def scrVal (fo : Fold) (F : Fmt) (off n : Nat) : Fv := fvOf F (ofLe (scrBytes fo off n))

/-- Term(m, n, k) as a pair of factors, with the events of its operands (R225, R227, R236). -/
def mxTerm (p : MxP) (fo : Fold) (m n k : Nat) : (Fv × Fv) × BitVec 8 :=
  let a := scrVal fo (codeFmt p.itype p.anar) (p.aOff m k) p.eb
  let b := scrVal fo (codeFmt p.itype p.bnar) (p.bOff k n) p.eb
  let ev := if p.itype = 13 ∧ (isNan a ∨ isNan b) then evFMTNAN else 0
  if p.blk = 0 then ((a, b), ev)
  else
    let nb := cdiv p.k p.blk
    let sa := (scrByte fo (p.asc + m * nb + k / p.blk)).toNat
    let sb := (scrByte fo (p.bsc + n * nb + k / p.blk)).toNat
    if sa = 255 ∨ sb = 255 then ((.nan false, b), ev ||| evFMTNAN)
    else match a with
      | .num g x e => ((.num g x (e + sa + sb - 254), b), ev)
      | a => ((a, b), ev)

/-- The block sums of one element (R103, R227). -/
def mxSum (p : MxP) (fo : Fold) (m n acc0 : Nat) : Res :=
  (List.range (cdiv p.k p.gran)).foldl (fun acc i =>
    let k0 := i * p.gran
    let ts := (List.range (min p.gran (p.k - k0))).map (fun j => mxTerm p fo m n (k0 + j))
    let r := opBlock p.acc (rmOf p.rm) false 0 (fvOf p.acc acc.1) (ts.map (·.1))
    (r.1, ts.foldl (fun e t => e ||| t.2) (acc.2 ||| r.2))) (acc0, 0)

/-- Word i of a table slot (R229): breakpoints 0 to 30, slopes 31 to 62, offsets 63 to 94. -/
def tableWord (fo : Fold) (slot i : Nat) : W32 := tgetD fo.tables (96 * slot + i) 0

def tableVal (fo : Fold) (slot i : Nat) : Fv := fvOf fF32 (tableWord fo slot i).toNat

/-- The epilogue chain of one element: the output code and its events (R228). -/
def mxEpilogue (p : MxP) (fo : Fold) (s127 : W64) (m n acc : Nat) : Res :=
  let F := p.acc
  let r0 : Res := (acc, 0)
  let r1 : Res :=
    if p.hasBias then
      let w := if p.wide then 8 else 4
      let q := opAdd F .rne false 0 (fvOf F r0.1) (scrVal fo F (p.bias + n * w) w)
      (q.1, r0.2 ||| q.2)
    else r0
  let r2 : Res :=
    if p.act = 0 then r1
    else
      let y := fvOf F r1.1
      let i := ((List.range 31).filter (fun j => (opFcmp .le (tableVal fo (p.act - 1) j) y).1)).length
      let q := opFma fF32 .rne false 0 (tableVal fo (p.act - 1) (31 + i)) y (tableVal fo (p.act - 1) (63 + i))
      (q.1, r1.2 ||| q.2)
  let r3 : Res :=
    if p.wide then r2
    else
      let q := opMul fF32 .rne false 0 (fvOf fF32 r2.1) (fvOf fF32 p.qscale)
      (q.1, r2.2 ||| q.2)
  let q := toFloat (codeFmt p.ofmt p.onar) (rmOf p.outRm) p.sat (srhWord s127 (m * p.n + n)) (fvOf F r3.1)
  (q.1, r3.2 ||| q.2)

/-- One element that a step writes: register, lane, sum, output bytes and events. -/
structure MxOut where
  reg : Nat
  lane : Nat
  sum : Nat
  out : Option (Nat × List Byte)
  ev : BitVec 8
  deriving DecidableEq, Repr

/-- Win(m, n) (R226). -/
def mxWin (p : MxP) (fl : Flock) (m n : Nat) : Nat :=
  let q := p.place m n
  if p.wide then (vreg fl (q.1 + 1) q.2 ++ vreg fl q.1 q.2).toNat else (vreg fl q.1 q.2).toNat

def mxElem (p : MxP) (fo : Fold) (fl : Flock) (s127 : W64) (m n : Nat) : MxOut :=
  let q := p.place m n
  let r := mxSum p fo m n (if p.load then mxWin p fl m n else 0)
  if p.hasEpi then
    let o := mxEpilogue p fo s127 m n r.1
    { reg := q.1, lane := q.2, sum := r.1, out := some (p.out + m * p.old + n * p.ob, leBytes p.ob o.1), ev := r.2 ||| o.2 }
  else { reg := q.1, lane := q.2, sum := r.1, out := none, ev := r.2 }

/-- Every element of a step (R227). -/
def mxStep (p : MxP) (fo : Fold) (fl : Flock) (s127 : W64) : List MxOut :=
  (List.range p.m).flatMap (fun m =>
    ((List.range p.n).filter (p.inside m)).map (fun n => mxElem p fo fl s127 m n))

def mxWriteFlock (p : MxP) (fl : Flock) (x : MxOut) : Flock :=
  let fl := setVreg fl x.reg x.lane (BitVec.ofNat 32 x.sum)
  if p.wide then setVreg fl (x.reg + 1) x.lane (BitVec.ofNat 32 (x.sum / 2 ^ 32)) else fl

/-! ## Batches and reports (R230, R231) -/

def report (b : Batch) (lost : Bool) : W64 :=
  nat64 (b.id.toNat * 2 ^ 48 + min b.count 255 * 2 ^ 40 + b.events.toNat * 2 ^ 32 + (if lost then 1 else 0))

/-- The oldest closed batch is complete: its report is placed, or dropped when MXS is full. -/
def settleBatch (s : State) (f k c : Nat) : State :=
  match flock? s f k with
  | none => s
  | some fl =>
    match fl.batch.closed with
    | [] => s
    | b :: r =>
      if b.left ≠ 0 then s
      else
        let pop := fun (lost : Bool) => modFlock s f k (fun fl => { fl with batch := { fl.batch with closed := r, lost := lost } })
        if !b.report then pop fl.batch.lost
        else if 16 ≤ (coreAt s c).mxs.length then pop true
        else modCore (pop false) c (fun co => { co with mxs := co.mxs ++ [{ fold := f, flock := k, val := report b fl.batch.lost }] })

/-- A flock's batches complete in op-id order. -/
def settleBatches (s : State) (f k c : Nat) : State :=
  let n := match flock? s f k with | some fl => fl.batch.closed.length | none => 0
  (List.range n).foldl (fun s _ => settleBatch s f k c) s

/-- An entry of the batch numbered `n` completes with its events. -/
def batchEntryDone (b : BatchSt) (n : Nat) (ev : BitVec 8) : BatchSt :=
  if b.closed.any (fun x => x.seq == n) then
    { b with closed := b.closed.map (fun x => if x.seq == n then { x with left := x.left - 1, events := x.events ||| ev } else x) }
  else { b with openLeft := b.openLeft - 1, openEvents := b.openEvents ||| ev }

/-! ## The engine (R222, R233, R234) -/

/-- MATRIX_ENTRY_START: the engine begins the next entry once the previous one has completed (R222). -/
def execMatrixEntryStart (c : Nat) (s : State) : Out :=
  let co := coreAt s c
  .next (if co.mxRun || co.mxq.isEmpty then s else modCore s c (fun co => { co with mxRun := true }))

/-- The end of an entry: it leaves MXQ, its locks are released, its flag drops, its tokens return (R233, R234). -/
def mxFinish (s : State) (c : Nat) (e : MxEntry) (ev : BitVec 8) : State :=
  let s := modCore s c (fun co => { co with mxq := co.mxq.drop 1, mxRun := false, held := co.held - 4 })
  let s := dropLocks s c e.op
  let s := match (flock? s e.fold e.flock).bind (fun fl => op? fl e.op) with
    | some o => completeOp s e.fold e.flock o
    | none => s
  modFlock s e.fold e.flock (fun fl => { fl with batch := batchEntryDone fl.batch e.seq ev })

/-- The events of a step are counted for the lowest-indexed thread that executed it; it takes FPTHR late (R236,
R376). -/
def mxEvents (s : State) (e : MxEntry) (pc : VA) (evs : List (BitVec 8)) : State :=
  match fold? s e.fold with
  | none => s
  | some fo =>
    let l := (laneOf? fo e.tid).getD (e.flock, 0)
    let es : List Ev := evs.map (fun m => { lane := l.2, mask := m })
    let r := foldEvents s e.fold (srcOf fo) es
    addLates r.1 e.fold l.1 pc r.2

/-- MATRIX_STEP_COMPLETE: the step that runs on a core writes its results and completes (R227, R233, R236). -/
def execMatrixStepComplete (c : Nat) (s : State) : Out :=
  let co := coreAt s c
  match co.mxRun, co.mxq with
  | true, e :: _ =>
    match e.work, fold? s e.fold, flock? s e.fold e.flock with
    | .step block rows arrive s127, some fo, some fl =>
      let p := { mxParse block with rows := rows }
      let xs := mxStep p fo fl s127
      let pc := match op? fl e.op with | some o => o.pc | none => 0
      let s := modFlock s e.fold e.flock (fun fl => xs.foldl (mxWriteFlock p) fl)
      let s := modFold s e.fold (fun fo => xs.foldl (fun fo x => match x.out with
        | some (a, bs) => scrPut fo a bs
        | none => fo) fo)
      let s := mxFinish s c e (xs.foldl (fun m x => m ||| x.ev) 0)
      let s := match arrive with
        | some b => queueUpd s e.fold { src := none, off := b, arr := 1, leaves := 0, delta := 0 }
        | none => s
      let s := mxEvents s e pc (xs.map (·.ev))
      .next (settleBatches s e.fold e.flock c)
    | _, _, _ => .next s
  | _, _ => .next s

/-- TABLE_LOAD_COMPLETE: the table is installed in its slot (R229, R238). -/
def execTableLoadComplete (c : Nat) (s : State) : Out :=
  let co := coreAt s c
  match co.mxRun, co.mxq with
  | true, e :: _ =>
    match e.work with
    | .table off slot =>
      let s := modFold s e.fold (fun fo =>
        { fo with tables := (List.range 95).foldl (fun t i =>
            tset t (96 * slot + i) (BitVec.ofNat 32 (ofLe (scrBytes fo (off + 4 * i) 4))) 0) fo.tables })
      .next (settleBatches (mxFinish s c e 0) e.fold e.flock c)
    | .step _ _ _ _ => .next s
  | _, _ => .next s

/-- The entry that a core's engine runs consumes data in error: the fold takes UCE at the command, for its lowest thread, and
the entry leaves without writing a result (R298). -/
def mxConsume (s : State) (c : Nat) (fa : W64) : Option State :=
  match (coreAt s c).mxRun, (coreAt s c).mxq with
  | true, e :: _ =>
    let pc := match (flock? s e.fold e.flock).bind (fun fl => op? fl e.op) with | some o => o.pc | none => 0
    some (settleBatches (mxFinish (foldFault s e.fold e.flock cUCE 0 (some e.tid) false pc fa) c e 0) e.fold e.flock c)
  | _, _ => none

/-! ## Submission (R222, R232, R233) -/

/-- Registers that outstanding long-latency results of a flock are destined for (R233). -/
def pendingRegs (fl : Flock) : List (Nat × Nat) :=
  fl.loads.flatMap (fun e => match e.kind with
      | .raw _ z d | .const _ z d _ _ => dataRegs z d
      | .elem t _ _ d => regsT t d
      | .watch => [])
    ++ (fl.fifo ++ fl.tent).flatMap (fun e => match e.act with
      | .atom t _ d | .cas t _ d _ => regsT t d
      | _ => [])
    ++ fl.ops.flatMap (fun o => match o.kind with
      | .sfu t d _ => regsT t d
      | .launch d _ _ | .xlat d _ => regsT .u64 d
      | _ => [])

/-- The lock entries of a step, in the order of R232. -/
def mxLocks (f k op : Nat) (p : MxP) : List Lock :=
  p.reads.map (fun r => { space := .scratch f, lo := r.1, hi := r.2, write := false, op := op })
    ++ p.outRange.map (fun r => { space := .scratch f, lo := r.1, hi := r.2, write := true, op := op })
    ++ [{ space := .window f k, lo := p.wbase, hi := p.wbase + p.win, write := true, op := op }]

/-- An entry is placed in MXQ: its locks are registered, it counts on its flag, joins the open batch and takes 4 of
its clause's tokens (R130, R134, R222, R230, R234). It takes 4 also from a clause that holds 3 beside the F64 token, because its
heavy field covers the command but not the F64 word that will be ILLOP: the spec does not say what such a clause's command takes
(R131; DESIGN CHOICE, log 46). -/
def mxPlace (h : Hd) (s : State) (c : Cx) (ex : List Nat) (work : MxWork) (locks : Nat → List Lock) : State :=
  let (id, s) := fresh s
  let e : MxEntry :=
    { fold := c.f, flock := c.k, op := id,
      tid := ex.foldl (fun t l => min t (tidOf c l)) (tidOf c (ex.headD 0)), batch := c.fl.batch.ctr,
      seq := c.fl.batch.seq, work := work }
  let s := modCore s c.c (fun co => { addLocks co (locks id) with mxq := co.mxq ++ [e] })
  let s := startOp s c.f c.k { newOp c h id .matrix none with left := 1 }
  let s := modFlock s c.f c.k (fun fl =>
    { fl with batch := { fl.batch with openCount := fl.batch.openCount + 1, openLeft := fl.batch.openLeft + 1 },
              group := fl.group.map (fun g => { g with tok := g.tok - 4 }) })
  advance (opLong s c.f c.k id) c h

/-- Whether a step whose block has been read must still wait (R222, R232, R233). -/
def mxStuck (s : State) (c : Cx) (p : MxP) : Bool :=
  (pendingRegs c.fl).any (fun r => decide (r.1 < p.wbase + p.win ∧ p.wbase < r.1 + r.2))
    || !lockRoom (coreAt s c.c) (mxLocks c.f c.k 0 p).length || decide (16 ≤ (coreAt s c.c).mxq.length)

/-- A step whose block has been read waits for its window's results and its lock entries (R232, R233). -/
def mxStepPlace (h : Hd) (s : State) (c : Cx) (ex : List Nat) (w : W64) (block : List Byte) (rows : List Nat) : State :=
  let p := { mxParse block with rows := rows }
  if mxStuck s c p then
    modFlock s c.f c.k (fun fl => { undispatch fl with hold := .mx block rows })
  else
    mxPlace h s c ex (.step block rows (if bitOf w 44 then some (bits w 43 24) else none) (sreg c.fl 127))
      (fun id => mxLocks c.f c.k id p)

def mxRoleBad (c : Cx) : Bool := c.fl.role == 1 || c.fl.role == 3

/-- Whether an entry can be placed as far as room, flags and earlier stores go (R26, R222, R250). -/
def mxRoom (h : Hd) (s : State) (c : Cx) : Bool :=
  !flagFull c.fl c.g h && storesPerformed s c.f c.k && decide ((coreAt s c.c).mxq.length < 16)

def mxWaits (h : Hd) (c : Cx) : List Wait := flagWait c.g h ++ [.stores, .mxq]

/-- MXCMD and QPUSH to MXQ on a command word (R223, R238, R239). -/
def mxWord (h : Hd) (s : State) (c : Cx) (ex : List Nat) (w : W64) : State :=
  if mxRoleBad c then faultHere s c cROLE ex.head? 0
  else match mxWordCheck c.fo w with
    | some (cause, fa) => faultHere s c cause ex.head? fa
    | none =>
      match c.fl.hold with
      | .mx block rows => mxStepPlace h s c ex w block rows
      | _ =>
        if !mxRoom h s c then waitRoom (regionBar s c ex) c (mxWaits h c)
        else
          let block := scrBytes c.fo (bits w 19 0) 64
          match mxCheck c.fo c.fl.valloc (mxParse block) with
          | some (cause, fa) => faultHere s c cause ex.head? fa
          | none => mxStepPlace h (regionBar s c ex) c ex w block (mxRows c.fo (mxParse block))

def execMxcmd (h : Hd) (a : Opd) (s : State) : Out := word h s (fun c ex => mxWord h s c ex (rdS c a))

def execMxtab (h : Hd) (a : Opd) (slot : Fin 4) (s : State) : Out :=
  word h s (fun c ex =>
    let off := (rdS c a).toNat
    if mxRoleBad c then faultHere s c cROLE ex.head? 0
    else if off % 8 ≠ 0 then faultHere s c cALIGN ex.head? (nat64 off)
    else if c.fo.scrSize < off + 384 then faultHere s c causeProt ex.head? (nat64 off)
    else
      let s := regionBar s c ex
      if !mxRoom h s c || !lockRoom (coreAt s c.c) 1 then waitRoom s c (.locks 1 :: mxWaits h c)
      else mxPlace h s c ex (.table off slot.val)
        (fun id => [{ space := .scratch c.f, lo := off, hi := off + 384, write := false, op := id }]))

/-- MXCOMMIT closes the open batch (R230, R238). -/
def execMxcommit (h : Hd) (d : Opd) (rep : Bool) (s : State) : Out :=
  word h s (fun c ex =>
    if mxRoleBad c then faultHere s c cROLE ex.head? 0
    else
      let s := regionBar s c ex
      if 16 ≤ (coreAt s c.c).mxq.length then waitRoom s c [.mxq]
      else
        let b := c.fl.batch
        let s := writeS s c d (b.ctr.setWidth 64)
        let s := modFlock s c.f c.k (fun fl =>
          { fl with batch := { b with
              ctr := b.ctr + 1, seq := b.seq + 1, openCount := 0, openLeft := 0, openEvents := 0,
              closed := b.closed ++ [{ id := b.ctr, seq := b.seq, left := b.openLeft, count := b.openCount, events := b.openEvents,
                                       report := rep }] } })
        advance (settleBatches s c.f c.k c.c) c h)

/-- Whether batch id and every earlier batch of the flock are complete (R238). -/
def batchesDone (b : BatchSt) (id : Nat) : Bool :=
  let d := (b.ctr - BitVec.ofNat 16 id).toNat
  !(decide (1 ≤ d ∧ d ≤ 32768)) || !b.closed.any (fun x => decide (x.seq + d ≤ b.seq))

def execMxwait (h : Hd) (b : Src16) (s : State) : Out :=
  word h s (fun c ex =>
    let s := regionBar s c ex
    if batchesDone c.fl.batch (rdSrc16 c b) then advance s c h
    else waitHere s c ex [.batch (rdSrc16 c b)])

/-! ## Queue registers (R161, R175, R208) -/

/-- Answers standing in a core's WDQ and queries that will put theirs there (R161). -/
def wdqUse (s : State) (c : Nat) : Nat :=
  (coreAt s c).wdq.length + (residents s c).foldl (fun n fo => n + fo.2.flocks.foldl (fun n k =>
    n + (k.2.ops.filter (fun o => o.kind == .query)).length) 0) 0

/-- A query enters the work distributor's input (R207, R208, R217). -/
def sendQuery (s : State) (c : Cx) (id : Nat) (count : Bool) (slot : Option Nat) : State :=
  modGrid s c.fo.grid (fun g => { g with queries := g.queries ++
    [{ fold := c.f, flock := c.k, op := id, src := coreSrc c.c, ts := s.plat.ts, count := count, slot := slot }] })

def pushWdq (h : Hd) (s : State) (c : Cx) (ex : List Nat) (w : W64) : State :=
  if bits w 63 1 ≠ 0 ∨ bitOf c.gr.record.mode 3 then illop s c ex
  else
    let s := regionBar s c ex
    if flagFull c.fl c.g h || 8 ≤ wdqUse s c.c then waitRoom s c (.wdq :: flagWait c.g h)
    else
      let (id, s) := fresh s
      let s := startOp s c.f c.k { newOp c h id .query none with left := 1 }
      advance (sendQuery s c id (bitOf w 0) none) c h

/-- Places an entry in the core's EVQ, or holds the group while it is full (R161, R315). An entry of the present time that R251
puts after it in the journal makes it wait for another time. -/
def pushEvq (h : Hd) (s : State) (c : Cx) (w0 w1 : W64) : State :=
  if 64 ≤ (coreAt s c.c).evq.length then waitRoom s c [.evq]
  else
    let s := needTurn s (evjPast s c.fo.ctx s.plat.ts (coreSrc c.c)) (.push c.fo.ctx (coreSrc c.c))
    advance (modCore s c.c (fun co => { co with evq := co.evq ++
      [{ ctx := c.fo.ctx, grid := c.gr.id, w0 := w0, w1 := w1, ts := s.plat.ts }] })) c h

def execQpush (h : Hd) (d a : Opd) (s : State) : Out :=
  word h s (fun c ex =>
    match d with
    | .q n =>
      if n = 0 then mxWord h s c ex (rdS c a)
      else if n = 10 then pushWdq h s c ex (rdS c a)
      else if n = 11 then
        let w := fourS c a
        pushEvq h (regionBar s c ex) c w.1 w.2.1
      else copyWord h s c ex (n.val - 2) (fourS c a)
    | _ => advance s c h)

/-- Removes the oldest entry of a flock. -/
def popOwned (l : List Owned) (f k : Nat) : Option (W64 × List Owned) :=
  match l.find? (fun e => e.fold == f && e.flock == k) with
  | none => none
  | some e => some (e.val, l.erase e)

def execQpop (h : Hd) (d a : Opd) (s : State) : Out :=
  word h s (fun c ex =>
    let s := regionBar s c ex
    match a with
    | .q n =>
      if n = 1 then
        match popOwned (coreAt s c.c).mxs c.f c.k with
        | none => waitHere s c ex [.report]
        | some (v, r) => advance (writeS (modCore s c.c (fun co => { co with mxs := r })) c d v) c h
      else
        match popOwned (coreAt s c.c).wdq c.f c.k with
        | none => waitHere s c ex [.answer]
        | some (v, r) => advance (writeS (modCore s c.c (fun co => { co with wdq := r })) c d v) c h
    | _ => advance s c h)

end Sys2Proof.Machine
end

