-- ==== Sys2Proof/Machine/Sync.lean ====
section
/-! DEFINITION. Group 0x9 (R253 to R263): fences, atomics as they issue, barrier objects, fold barriers, monitors and
time stamps; and the pair of R41, R42 and R88. -/

namespace Sys2Proof.Machine

open Sys2Proof
open Sys2Proof.WellFormed (is64)

/-! ## Fences (R254) -/

def execFence (h : Hd) (o : Order) (sc : Scope) (s : State) : Out :=
  word h s (fun c ex =>
    let s := regionBar s c ex
    if releases o && !releaseNow s c sc then waitHere s c ex [.release sc]
    else advance (if acquires o then acquire s c.c sc else s) c h)

/-! ## Atomics as they issue (R255 to R257) -/

def atomBytes (t : Ty) : Nat := if is64 t then 8 else 4

/-- The REPRO trap of a floating-point atomic (R118). -/
def atomRepro (t : Ty) (s : State) (c : Cx) : Bool := isFloatTy t && repro s c.fo.ctx

/-- The bytes of operand b in a lane. -/
def atomData (t : Ty) (b : Opd) (c : Cx) (l : Nat) : List Byte := leBytes (atomBytes t) (rdV c l t b).toNat

/-- The shape of ATOM, ACAS and RED: the checks of R255, then one FIFO entry for each executing lane. -/
def atomWord (h : Hd) (t : Ty) (regs : List (Nat × Nat)) (a b : Opd) (off : W32) (o : Order) (sc : Scope)
    (act : Cx → Nat → Act) (s : State) : Out :=
  let n := atomBytes t
  access h s (regs ++ regsT .u64 a ++ regsT t b) (fun _ => n) true
    (fun c s l => checkGlobal s c (rdAddr c l a + off.signExtend 64) n .atomic true) (atomRepro t) .atom
    (acqScope o sc) true
    (fun c id s e => enterStore (act c) (atomData t b) o sc true true false c id s e)

def execAtom (h : Hd) (t : Ty) (d a b : Opd) (m : At) (s : State) : Out :=
  atomWord h t (regsT t d) a b m.off m.order m.scope (fun _ _ => .atom t m.aop d) s

/-- ACAS reads its comparand at issue (R255). -/
def execAcas (h : Hd) (t : Ty) (d a b : Opd) (sc : Scope) (p : Fin 8) (o : Order) (off : W32) (s : State) : Out :=
  atomWord h t (regsT t d) a b off o sc (fun c l => .cas t (leBytes (atomBytes t) (rdV c l t d).toNat) d p) s

def execRed (h : Hd) (t : Ty) (a b : Opd) (m : At) (s : State) : Out :=
  atomWord h t [] a b m.off m.order m.scope (fun _ _ => .red t m.aop) s

/-! ## Barrier objects (R258 to R260, R365) -/

/-- The scratchpad offset of a barrier instruction. -/
def objAddr (c : Cx) (a : Opd) (off : BitVec 20) : Nat := ((rdS c a).toNat + off.toNat) % 2 ^ 32

/-- A barrier instruction: ALIGN, then PROT, then its own ILLOP, then the loss of live regions (R260, R271). -/
def objWord (h : Hd) (a : Opd) (off : BitVec 20) (bad : Cx → Bool) (s : State)
    (go : State → Cx → List Nat → Nat → State) : Out :=
  word h s (fun c ex =>
    let o := objAddr c a off
    if o % 8 ≠ 0 then faultHere s c cALIGN ex.head? (nat64 o)
    else if c.fo.scrSize < o + 8 then faultHere s c causeProt ex.head? (nat64 o)
    else if bad c then illop s c ex
    else go (regionBar s c ex) c ex o)

/-- The updates that a flock's own earlier instructions sent to an object are spent: HINIT, which follows them, overwrites
whatever they leave. -/
def dropOwn (fo : Fold) (k off : Nat) : Fold :=
  { fo with upds := fo.upds.filter (fun u => !(u.off == off && (match u.src with | some x => x.1 == k | none => false))) }

/-- HINIT writes the object in one update, after its own flock's earlier updates; every other update still on its way is
applied after it, to the object it wrote (R259, R260; DEDUCED, log 38). -/
def execHinit (h : Hd) (a : Opd) (b : Src16) (off : BitVec 20) (s : State) : Out :=
  objWord h a off (fun c => rdSrc16 c b == 0) s (fun s c _ o =>
    let n := rdSrc16 c b
    advance (modFold s c.f (fun fo => putScr64 (dropOwn fo c.k o) o (mkObj 0 n n 0))) c h)

/-- The byte count of HARRIVE: imm16, or 24 bits of an S register (R260). -/
def txBytes (c : Cx) (b : TxCnt) : Nat :=
  match b with
  | .none => 0
  | .tx (.imm w) => w.toNat
  | .tx (.reg o) => bits (rdS c o) 23 0

/-- An arrival or a leave is a release at FOLD scope (R259): the group waits for it, then the update is on its way. -/
def objArrive (h : Hd) (s : State) (c : Cx) (ex : List Nat) (o arr leaves : Nat) (delta : Int) (pre : State → State) : State :=
  if !releaseNow s c .fold then waitHere s c ex [.release .fold]
  else
    let (id, s) := fresh s
    advance (queueUpd (pre s) c.f { src := some (c.k, id), off := o, arr := arr, leaves := leaves, delta := delta }) c h

def execHarrive (h : Hd) (d a : Opd) (b : TxCnt) (off : BitVec 20) (s : State) : Out :=
  objWord h a off (fun _ => false) s (fun s c ex o =>
    objArrive h s c ex o ex.length 0 (txBytes c b : Int) (fun s => writeS s c d (nat64 (objGen (scrW64 c.fo o)))))

def execHdrop (h : Hd) (a : Opd) (off : BitVec 20) (s : State) : Out :=
  objWord h a off (fun _ => false) s (fun s c ex o => objArrive h s c ex o 0 ex.length 0 (fun s => s))

/-- HWAIT: the acquire that follows is at FOLD scope and removes nothing (R244, R259). -/
def execHwait (h : Hd) (a : Opd) (b : Src16) (off : BitVec 20) (s : State) : Out :=
  objWord h a off (fun _ => false) s (fun s c ex o =>
    if objGen (scrW64 c.fo o) = rdSrc16 c b % 256 then waitHere s c ex [.gen o (rdSrc16 c b % 256)]
    else advance s c h)

/-! ## Fold barriers (R261) -/

def barCount (c : Cx) (b : BarCnt) : Nat :=
  match b with
  | .none => 0
  | .reg o => bits (rdS c o) 15 0
  | .imm n => n.toNat

/-- The faults of BAR. -/
def barBad (c : Cx) (ex : List Nat) (i n : Nat) : Bool :=
  let x := bar c.fo i
  decide (1024 < n) || (decide (0 < x.arrived) && decide (x.operand ≠ n)) || (n != 0 && decide (n < x.arrived + ex.length))

/-- The group arrives and is held. -/
def barArrive (s : State) (c : Cx) (ex : List Nat) (i n : Nat) : State :=
  let s := modFold s c.f (fun fo =>
    let x := bar fo i
    { fo with bars := tset fo.bars i { n := n, operand := n, arrived := x.arrived + ex.length, held := x.held ++ [c.k] } FBar.init })
  let s := modFlock s c.f c.k (fun fl => { fl with hold := .bar, bar := some (i, false) })
  barTest (keepExec s c ex) c.f i

def execBar (h : Hd) (b : BarCnt) (i : Fin 4) (s : State) : Out :=
  word h s (fun c ex =>
    match c.fl.bar with
    | some (_, true) => advance s c h
    | some (_, false) => s
    | none =>
      let n := barCount c b
      if barBad c ex i.val n then illop s c ex
      else
        let s := regionBar s c ex
        if releaseNow s c .fold then barArrive s c ex i.val n
        else waitHere s c ex [.release .fold])

/-! ## Monitors (R262) -/

/-- MONITOR translates and checks as a load does; a peer's word is watched at its home (R150, R262). -/
def execMonitor (h : Hd) (a : Opd) (m : Am) (s : State) : Out :=
  word h s (fun c ex =>
    let n := sizeBytes m.size
    let ea := rdS c a + m.off.signExtend 64
    match checkGlobal s c ea n .load false with
      | (s, .error (cause, fa)) => faultHere s c cause ex.head? fa
      | (s, .ok x) =>
        let s := regionBar s c ex
        advance (modFlock s c.f c.k (fun fl =>
          { fl with mon := { valid := true, addr := ea, place := x.place, n := n,
                             scope := peerScope x.place m.scope, got := none } })) c h)

/-- The load that MWAIT performs, as an entry of the load set would be (M3). -/
def monLoad (s : State) (c : Cx) (m : Monitor) : LEntry :=
  { op := s.seq, lane := 0, place := m.place, n := m.n, kind := .raw false (if m.n = 8 then .b64 else .b32) .zero,
    task := c.fo.isTask, rid := none, strm := false, va := m.addr, pc := c.pc, sent := false, ts := s.plat.ts }

/-- A load of the monitored word that a peer performs: it enters the load set, and its answer waits in the monitor register
(R262, R361). -/
def monAsk (s : State) (c : Cx) (m : Monitor) : State × Option W64 :=
  match m.got with
  | some v => (acquire (modFlock s c.f c.k (fun fl => { fl with mon := { fl.mon with got := none } })) c.c m.scope, some v)
  | none =>
    if c.fl.loads.any (fun x => x.kind == .watch) then (s, none)
    else
      let (id, s) := fresh s
      (modFlock s c.f c.k (fun fl => { fl with loads := fl.loads ++ [{ monLoad s c m with op := id, kind := .watch }] }), none)

/-- The monitored word, read with acquire; none while the read must wait. -/
def monRead (s : State) (c : Cx) (m : Monitor) : State × Option W64 :=
  match m.place with
  | .peer _ _ => monAsk s c m
  | _ =>
  let e := monLoad s c m
  let behind := c.fl.loads.any (fun x => (loadParts x).any (fun p => placesMeet p.1 p.2 e.place e.n))
    || (match placePa e.place with | some (pa, _) => sideAhead s c.f c.k e.op pa e.n | none => false)
  if behind then (s, none)
  else
    match readPart s c.c c.f c.fo.ctx c.fl e e.place e.n with
    | (s, none) => (s, none)
    | (s, some bs) => (acquire s c.c m.scope, some (nat64 (ofLe bs)))

/-- MWAIT's load of host memory while no host link is in service ends in error (R362). -/
def monLost (s : State) (m : Monitor) : Bool := match m.place with | .host pa => linkLost s pa | _ => false

def execMwait (h : Hd) (d b : Opd) (s : State) : Out :=
  word h s (fun c ex =>
    let m := c.fl.mon
    if !m.valid then illop s c ex
    else
      let s := regionBar s c ex
      match c.fl.hold with
      | .mwait _ false => s
      | .mwait _ true =>
        if monLost s m then faultHere (requestLost s (hostUnit s) m.addr) c cUCE ex.head? m.addr
        else match monRead s c m with
        | (s, none) => s
        | (s, some v) => advance (writeS s c d v) c h
      | _ =>
        if monLost s m then faultHere (requestLost s (hostUnit s) m.addr) c cUCE ex.head? m.addr
        else
          let exp := if m.n = 8 then rdS c b else ((rdS c b).setWidth 32).setWidth 64
          match monRead s c m with
          | (s, none) => waitHere s c ex [.monitored]
          | (s, some v) =>
            if v = exp then keepExec (modFlock s c.f c.k (fun fl => { fl with hold := .mwait exp false })) c ex
            else advance (writeS s c d v) c h)

/-- MONITOR_WAKE: the device wakes a waiter; it must when the word differs, and may at any time (R262). -/
def execMonitorWake (f k : Nat) (s : State) : Out :=
  .next (modFlock s f k (fun fl => match fl.hold with
    | .mwait e _ => { fl with hold := .mwait e true }
    | _ => fl))

/-! ## Time stamps (R263) -/

def execTstamp (h : Hd) (d : Opd) (s : State) : Out := uword h s (fun c _ => writeS s c d s.plat.ts)

/-! ## Pairs (R41, R42, R88) -/

/-- The b operand of a pair's scalar half. -/
def pairB (c : Cx) (b : PairB) : W64 :=
  match b with
  | .reg n => sreg c.fl n.val
  | .imm i => i.signExtend 64

/-- The scalar half, computed from the state before the pair. -/
def pairScalarE (sop : Fin 23) (sd sa : Fin 128) (sb : PairB) (c : Cx) (s : State) : State :=
  modFlock s c.f c.k (fun fl => setSreg fl sd.val
    (pairScalar sop (sreg c.fl 0) (sreg c.fl sd.val) (sreg c.fl sa.val) (pairB c sb)))

/-- The vector half: the registers it names, its effect, and whether it is floating-point. -/
def pairVec (i : Instr) : Option (List (Nat × Nat) × Eff × Bool) :=
  match intHalf i with
  | some (r, e) => some (r, e, false)
  | none => (fpHalf i).map (fun x => (x.1, x.2, true))

def execPair (h : Hd) (sop : Fin 23) (vop : PairOp) (sd sa : Fin 128) (sb : PairB) (vd va vb : Opd) (t : Ty)
    (s : State) : Out :=
  word h s (fun c ex =>
    match (WellFormed.pairVector h vop vd va vb t).bind pairVec with
    | none => illop s c ex
    | some (regs, e, fp) =>
      let tr := if fp then reproLanes s c ex else []
      let go := ex.filter (fun l => !tr.contains l)
      let s := takeTraps s c cREPRO 0 tr
      match windowLock s c regs with
      | some i => advance (takeTraps s c cRLOCK i go) c h
      | none =>
        if go.isEmpty then advance s c h
        else advance (e c go (pairScalarE sop sd sa sb c s)) c h)

end Sys2Proof.Machine
end

