-- ==== Sys2Proof/Machine/Frames.lean ====
section
/-! DEFINITION. What frames, launches and tasks share (R126, R178 to R198, R300): launch records and their checks,
frames and their headers, the room of a core and of the save pool, the folds of a grid as they are created and placed,
and the ends of grids. -/

namespace Sys2Proof.Machine

open Sys2Proof

/-! ## Launch records (R186 to R189) -/

/-- The fields of a 128-byte record; a pen capacity of 0 means 16. -/
def parseRecord (b : List Byte) : Record :=
  { kdesc := nat64 (bytesAt b 0 8), nx := bytesAt b 8 2, ny := bytesAt b 10 2, nz := bytesAt b 12 2,
    stages := bytesAt b 14 1, mode := BitVec.ofNat 8 (bytesAt b 15 1), tx := bytesAt b 16 2, ty := bytesAt b 18 2,
    tz := bytesAt b 20 2, pencap := if bytesAt b 22 2 = 0 then 16 else bytesAt b 22 2, body := bytesAt b 24 2,
    scratch := bytesAt b 26 2, grain := bytesAt b 28 4, dlo := nat64 (bytesAt b 40 8), dhi := nat64 (bytesAt b 48 8),
    fan := bytesAt b 56 2, wbuf := bytesAt b 58 2, tallow := bytesAt b 60 4,
    rd := (List.range 4).map (fun i => nat64 (bytesAt b (64 + 8 * i) 8)),
    wr := (List.range 4).map (fun i => nat64 (bytesAt b (96 + 8 * i) 8)) }

def isDetach (r : Record) : Bool := bitOf r.mode 0
def isSeq (r : Record) : Bool := bitOf r.mode 1
def isRange (r : Record) : Bool := bitOf r.mode 2
def isDivisible (r : Record) : Bool := bitOf r.mode 3
def isOrder (r : Record) : Bool := bitOf r.mode 4
def isCores (r : Record) : Bool := bitOf r.mode 5

/-- The size of a frame's header and data area, and of its whole allocation (R179). -/
def fsize (r : Record) : Nat := 64 + 256 * r.body
def frameBytes (r : Record) : Nat := fsize r + 256 * r.pencap

/-- The limits of R186 that hold for every record. -/
def recordRange (r : Record) : Bool :=
  decide (r.kdesc ≠ 0 ∧ r.kdesc.toNat % 64 = 0) && decide (1 ≤ r.nx ∧ 1 ≤ r.ny ∧ 1 ≤ r.nz)
    && decide (1 ≤ r.stages ∧ r.stages ≤ 16) && decide (bits r.mode 7 6 = 0)
    && decide (1 ≤ r.tx ∧ 1 ≤ r.ty ∧ 1 ≤ r.tz ∧ r.tx * r.ty * r.tz ≤ 1024)
    && decide (r.pencap ≤ 1024) && decide (r.scratch ≤ 1536) && decide (frameBytes r ≤ 2 ^ 24)

/-- The checks of R189 on a divisible record, and on one that is not. -/
def divisibleOk (r : Record) : Bool :=
  decide (r.stages = 1 ∧ r.nx = 1 ∧ r.ny = 1 ∧ r.nz = 1) && !isCores r && decide (1 ≤ r.grain ∧ 1 ≤ r.fan)
    && decide (r.dlo.toNat ≤ r.dhi.toNat)

def plainOk (r : Record) : Bool :=
  !isOrder r && decide (r.grain = 0 ∧ r.fan = 0 ∧ r.wbuf = 0 ∧ r.tallow = 0)
    && decide (r.dlo.toNat ≤ 65535 ∧ r.dhi.toNat ≤ 65535)

/-- Whether R189 accepts a record. -/
def recordOk (b : List Byte) : Bool :=
  let r := parseRecord b
  decide (bytesAt b 32 8 = 0) && recordRange r && (if isDivisible r then divisibleOk r else plainOk r)

/-- Two range words meet (R188). -/
def rangeWordsMeet (x y : W64) : Bool :=
  let len := fun (w : W64) => bits w 63 49
  let base := fun (w : W64) => bits w 48 0
  len x != 0 && len y != 0 && decide (base x < base y + len y ∧ base y < base x + len x)

/-- A write range of either record meets any range of the other (R193). -/
def recordsMeet (x y : Record) : Bool :=
  x.wr.any (fun a => (y.rd ++ y.wr).any (rangeWordsMeet a)) || y.wr.any (fun a => (x.rd ++ x.wr).any (rangeWordsMeet a))

/-! ## Frames (R178 to R181, R380) -/

def framesOf (s : State) (cx : Nat) : List (Nat × Nat) :=
  s.grids.filterMap (fun g => if g.2.ctx = cx then g.2.frame.map (fun fr => (fr.addr.toNat, fr.size)) else none)

/-- FPOOL_FREE (R178). -/
def fpoolFree (s : State) (cx : Nat) : Nat :=
  (ctx s cx).fpoolSize.toNat - (framesOf s cx).foldl (fun n f => n + f.2) 0

/-- Whether an allocation of the pool is free (R178, R179). No frame stands at address 0, since DCHK of a fold's own level is
always true (R220). -/
def frameFree (s : State) (cx a n : Nat) : Bool :=
  let k := ctx s cx
  decide (0 < a ∧ a % 256 = 0 ∧ k.fpoolBase.toNat ≤ a ∧ a + n ≤ k.fpoolBase.toNat + k.fpoolSize.toNat)
    && (framesOf s cx).all (fun f => decide (a + n ≤ f.1 ∨ f.1 + f.2 ≤ a))

/-- The physical address of a byte of a frame's allocation (R380). -/
def framePa (fr : FrameA) (off : Nat) : Nat :=
  let va := fr.addr.toNat + off
  match fr.pages.find? (fun p => p.1 == va / 4096) with
  | some p => p.2 * 4096 + va % 4096
  | none => va

/-- Reading and writing a frame by the device: through the pages found at start, at the homes (R357, R380). -/
def frGet (s : State) (fr : FrameA) (off n : Nat) : Nat := ofLe ((List.range n).map (fun i => homeByte s (framePa fr (off + i))))

/-- Whether a word of physical memory holds some of the n bytes of a frame at an offset. -/
def frameWord (fr : FrameA) (off n w : Nat) : Bool :=
  fr.pages.any (fun p => p.2 == w / 1024 &&
    decide (fr.addr.toNat + off < 4096 * p.1 + 4 * w % 4096 + 4 ∧ 4096 * p.1 + 4 * w % 4096 < fr.addr.toNat + off + n))

/-- A write of a frame takes every copy of its words out of the views, so that a later LDL returns a value that the field holds
(R180). -/
def frPut (s : State) (fr : FrameA) (off : Nat) (bs : List Byte) : State :=
  dropCopies (bs.zipIdx.foldl (fun s b => unitPut s (framePa fr (off + b.2)) [b.1]) s) (fun _ w => frameWord fr off bs.length w)

/-- A read of a frame waits for a flip, or for the host's copy, of its lines (R357 to R359). -/
def frNeed (s : State) (fr : FrameA) (off n : Nat) : State :=
  (List.range n).foldl (fun s i => needLine s (framePa fr (off + i)) false) s

/-- Fields of the header (R180). -/
def hSTATE : Nat := 0x14
def hSTATUS : Nat := 0x15
def hREF : Nat := 0x18
def hLIVE : Nat := 0x1C
def hSIBSEQ : Nat := 0x20
def hNFAIL : Nat := 0x24
def hPENCOUNT : Nat := 0x2E
def hPENHEAD : Nat := 0x30

def frameOf (s : State) (g : Nat) : Option FrameA := (grid? s g).bind (·.frame)

/-- A header field of a grid's frame; 0 when it has none. -/
def hdrGet (s : State) (g off n : Nat) : Nat := match frameOf s g with | some fr => frGet s fr off n | none => 0

/-- What a read of a grid's header, which lies in one line, waits for. -/
def hdrNeed (s : State) (g : Nat) : State := match frameOf s g with | some fr => frNeed s fr 0 1 | none => s

def hdrPut (s : State) (g off n v : Nat) : State :=
  match frameOf s g with
  | some fr => frPut s fr off (leBytes n (v % 2 ^ (8 * n)))
  | none => s

def hdrAdd (s : State) (g off n k : Nat) : State := hdrPut s g off n (hdrGet s g off n + k)
def hdrSub (s : State) (g off n k : Nat) : State := hdrPut s g off n (hdrGet s g off n - k)

/-- The header of a new frame (R180). -/
def frameHeader (parent : Nat) (g : Grid) : List Byte :=
  leBytes 8 parent ++ leBytes 8 g.id.toNat ++ leBytes 4 g.level ++ [1, 0] ++ leBytes 2 g.record.mode.toNat ++ leBytes 4 1
    ++ leBytes 4 0 ++ leBytes 4 0 ++ leBytes 4 0 ++ leBytes 4 (fsize g.record) ++ leBytes 2 g.record.pencap
    ++ leBytes 2 0 ++ leBytes 2 0 ++ leBytes 2 0 ++ leBytes 4 (fsize g.record) ++ leBytes 8 0

/-! ## Room on a core (R13, R126, R133, R190) -/

def gridThreads (r : Record) : Nat := r.tx * r.ty * r.tz
def gridFlocks (r : Record) : Nat := cdiv (gridThreads r) 32

/-- The role of flock j: the first whose running total of flocks exceeds j (R126). -/
def roleAt : List Role → Nat → Option Role
  | [], _ => none
  | r :: rs, j => if j < r.flocks then some r else roleAt rs (j - r.flocks)

/-- A role's registers in blocks of 64. -/
def roleBlocks (r : Role) : Nat := cdiv r.regs 64

/-- Register blocks of one fold at its start. -/
def startBlocks (g : Grid) : Nat :=
  (List.range (gridFlocks g.record)).foldl (fun n j => n + match roleAt g.kd.roles j with | some r => roleBlocks r | none => 0) 0

/-- Register blocks, scratchpad bytes, flocks and slots: what folds take and what a core has. -/
structure Need where
  blocks : Nat
  scr : Nat
  flocks : Nat
  slots : Nat
  deriving DecidableEq, Repr

def Need.add (a b : Need) : Need := { blocks := a.blocks + b.blocks, scr := a.scr + b.scr, flocks := a.flocks + b.flocks, slots := a.slots + b.slots }
def Need.times (n : Nat) (a : Need) : Need := { blocks := n * a.blocks, scr := n * a.scr, flocks := n * a.flocks, slots := n * a.slots }
def Need.zero : Need := { blocks := 0, scr := 0, flocks := 0, slots := 0 }
def coreHas : Need := { blocks := 128, scr := 786432, flocks := 96, slots := 32 }
def Need.fits (a b : Need) : Bool := decide (a.blocks ≤ b.blocks ∧ a.scr ≤ b.scr ∧ a.flocks ≤ b.flocks ∧ a.slots ≤ b.slots)

def startNeed (g : Grid) : Need :=
  { blocks := startBlocks g, scr := 512 * g.record.scratch, flocks := gridFlocks g.record, slots := 1 }

def foldBlocks (fo : Fold) : Nat := fo.flocks.foldl (fun n k => n + k.2.valloc / 64) 0

def foldNeed (fo : Fold) : Need := { blocks := foldBlocks fo, scr := fo.scrSize, flocks := fo.flocks.length, slots := 1 }

/-- What the folds of a core hold. -/
def coreUsed (s : State) (c : Nat) : Need := (residents s c).foldl (fun n e => n.add (foldNeed e.2)) Need.zero

/-- What CORES grids keep on a core for folds that they have not placed yet (R190). -/
def coreKept (s : State) (c : Nat) : Need :=
  s.grids.foldl (fun n e =>
    match e.2.resv with
    | some l => n.add (Need.times (l.filter (fun x => x.2 == c)).length (startNeed e.2))
    | none => n) Need.zero

/-- Whether a core can take a fold that has no reservation, or more of a fold that stands on it. -/
def roomFor (s : State) (c : Nat) (n : Need) : Bool := (((coreUsed s c).add (coreKept s c)).add n).fits coreHas

/-- How many folds of one need fit beside what a core holds. -/
def foldsFit (used n : Nat → Nat) : Nat := ((List.range 33).filter (fun k => decide (0 < k) && (List.range 4).all (fun i =>
  decide (used i + k * n i ≤ [128, 786432, 96, 32].getD i 0)))).length

def Need.part (a : Need) (i : Nat) : Nat := [a.blocks, a.scr, a.flocks, a.slots].getD i 0

def capOn (s : State) (c : Nat) (n : Need) : Nat := foldsFit ((coreUsed s c).add (coreKept s c)).part n.part

/-- The user cores of a paddock that take its folds (R329). -/
def padCores (s : State) (p : Nat) : List Nat :=
  (s.cores.filter (fun e => e.2.pad == some p && e.2.marked.isNone)).map (·.1)

/-! ## The save pool (R300) -/

def imageBytes (blocks scr flocks : Nat) : Nat := 0x280 + 8192 * blocks + scr + 2048 * flocks + 1536

def needImage (n : Need) : Nat := imageBytes n.blocks n.scr n.flocks

/-- Reservations of a context other than one fold's. -/
def imagesOf (s : State) (cx f : Nat) : List (Nat × Nat) :=
  s.folds.filterMap (fun e => if e.1 ≠ f ∧ e.2.ctx = cx ∧ e.2.imgSize ≠ 0 then some (e.2.image, e.2.imgSize) else none)

def imageFree (s : State) (cx f a n : Nat) : Bool :=
  let k := ctx s cx
  decide (k.saveBase.toNat ≤ a ∧ a + n ≤ k.saveBase.toNat + k.saveSize.toNat)
    && (imagesOf s cx f).all (fun x => decide (a + n ≤ x.1 ∨ x.1 + x.2 ≤ a))

/-- Images stand at multiples of 256 bytes (DESIGN CHOICE, log 9). -/
def imageUp (a : Nat) : Nat := cdiv a 256 * 256

/-- Whether an empty save pool has room for an image of n bytes (R300). -/
def poolHolds (s : State) (cx n : Nat) : Bool :=
  let k := ctx s cx
  decide (imageUp k.saveBase.toNat + n ≤ k.saveBase.toNat + k.saveSize.toNat)

/-- Where a fold's image of n bytes is reserved: where it stands, else the lowest place that is free, aligned to 256
bytes (DESIGN CHOICE, log 9). -/
def findImage (s : State) (cx f n : Nat) : Option Nat :=
  let here := match fold? s f with | some fo => if fo.imgSize = 0 then [] else [fo.image] | none => []
  (here ++ imageUp (ctx s cx).saveBase.toNat :: (imagesOf s cx f).map (fun x => imageUp (x.1 + x.2))).find?
    (fun a => imageFree s cx f a n)

/-- Resizes a fold's reservation; none when the pool has no room. -/
def resizeImage (s : State) (f : Nat) (n : Need) : Option State :=
  match fold? s f with
  | none => none
  | some fo => (findImage s fo.ctx f (needImage n)).map (fun a =>
      modFold s f (fun fo => { fo with image := a, imgSize := needImage n }))

/-! ## Folds of a grid -/

/-- A fold that waits to be placed (R182, R197, R198, R366). -/
def newFold (s : State) (g : Nat) (gr : Grid) (x y z stage : Nat) (lo hi : W64) : Fold :=
  { grid := g, ctx := gr.ctx, x := x, y := y, z := z, stage := stage, isTask := isDivisible gr.record, lo := lo, hi := hi,
    taskTime := 0, wdogTime := 0, place := .waiting, active := false, age := 0, q := 0, epoch := 0, scratch := [],
    scrSize := 512 * gr.record.scratch, scrAdded := 0, bars := [], cbufs := [], tables := [], beacon := 0, released := false,
    relPend := none, upds := [], parked := [], mxs := [], wdq := [], placed := 0, since := s.plat.ts, image := 0,
    imgSize := 0, halt := none, exhausted := false, taskFin := false, flocks := [] }

def addFold (s : State) (g x y z stage : Nat) (lo hi : W64) : State :=
  match grid? s g with
  | none => s
  | some gr =>
    let (n, s) := fresh s
    { s with folds := tput s.folds n (newFold s g gr x y z stage lo hi) }

def addTask (s : State) (g : Nat) (lo hi : W64) : State := addFold s g 0 0 0 0 lo hi

/-- A release takes effect (R197): the next stage's fold may become resident. -/
def releaseFold (s : State) (f : Nat) : State :=
  match fold? s f with
  | none => s
  | some fo =>
    if fo.released then s
    else
      let s := modFold s f (fun fo => { fo with released := true, relPend := none })
      match grid? s fo.grid with
      | none => s
      | some gr => if fo.isTask ∨ gr.record.stages ≤ fo.stage + 1 then s else addFold s fo.grid fo.x fo.y fo.z (fo.stage + 1) 0 0

/-- A thread at fold start (R182). -/
def newThread (tid : Nat) (entry : VA) : Thread :=
  { tid := tid, pc := entry, hdr := entry, preds := 0, exited := false, park := .none, trap := TrapSt.init,
    reg := RegSt.init, lates := [] }

/-- A flock at fold start (R14, R126, R182). -/
def newFlock (gr : Grid) (j : Nat) : Flock :=
  let role := roleAt gr.kd.roles j
  { role := (role.map (·.code)).getD 0, valloc := 64 * ((role.map roleBlocks).getD 0),
    threads := (List.range (min 32 (gridThreads gr.record - 32 * j))).map (fun l => (l, newThread (32 * j + l) gr.kd.entry)),
    vregs := [], sregs := [], flags := [], longs := 0, group := none, serial := 0, yielded := false, fifo := [],
    loads := [], scr := [], tent := [], ops := [], hold := .none, mon := Monitor.init, batch := BatchSt.init, skid := 0,
    fault := none }

def startFlocks (gr : Grid) : Tab Flock := (List.range (gridFlocks gr.record)).map (fun j => (j, newFlock gr j))

/-! ## Swap groups (R133, R134) -/

/-- Whether a flag of a mask is non-zero and marked long. -/
def longFlag (fl : Flock) (m : BitVec 12) : Bool :=
  (List.range 12).any (fun n => bitOf m n && flagVal fl n != 0 && bitOf fl.longs n)

def noneRuns (fl : Flock) : Bool := fl.threads.all (fun t => t.2.exited || t.2.park != .none)

/-- A flock with its group, whether or not it is the one that dispatches. -/
def cxOf? (s : State) (f k : Nat) : Option Cx := issuing? { s with cur := some (f, k) }

/-- Whether what a held word waits for has come about. -/
def waitOver (s : State) (c : Cx) (w : Wait) : Bool :=
  match w with
  | .flag n => decide (flagVal c.fl n.val < 63)
  | .fifo n => fifoRoom c.fl n
  | .stores => storesPerformed s c.f c.k
  | .release sc => releaseNow s c sc
  | .locks n => lockRoom (coreAt s c.c) n
  | .engine e => decide ((engineQ s (dieOf c.c) e).length < 32)
  | .mxq => decide ((coreAt s c.c).mxq.length < 16)
  | .wdq => decide (wdqUse s c.c < 8)
  | .evq => decide ((coreAt s c.c).evq.length < 64)
  | .report => (popOwned (coreAt s c.c).mxs c.f c.k).isSome
  | .answer => (popOwned (coreAt s c.c).wdq c.f c.k).isSome
  | .slot b => match tget? c.fo.cbufs b with | some x => decide (0 < x.free) | none => true
  | .filled b => match tget? c.fo.cbufs b with | some x => decide (0 < x.filled) | none => true
  | .idle b => match tget? c.fo.cbufs b with | some x => x.taken.isEmpty | none => true
  | .batch id => batchesDone c.fl.batch id
  | .gen o g => decide (objGen (scrW64 c.fo o) ≠ g)
  | .tokens n f64 => grantOk s c (requestSize (coreAt s c.c) n f64)
  | .quiet r => (region? s r).isNone || regionQuiet s r
  | .monitored => (monRead s c c.fl.mon).2.isSome

/-- Whether a group waits at a fold barrier that has not released it (R261), be it at its clause header after a restore. -/
def barHeld (fl : Flock) : Bool :=
  match fl.bar with
  | some (_, released) => !released
  | none => false

/-- Whether a group is held (R123, R134): what it waits for has not come about. -/
def held (s : State) (c : Cx) : Bool :=
  barHeld c.fl || match c.fl.hold with
  | .none | .bar => false
  | .flags m => !flagsZero c.fl m
  | .lwait n => decide (n < hdrGet s c.fo.grid hLIVE 4)
  | .mx block rows => mxStuck s c { mxParse block with rows := rows }
  | .tend rids => rids.any (fun r => (region? s r).isSome)
  | .mwait _ woken => !woken
  | .waits _ ws => ws.any (fun w => !waitOver s c w)

/-- A flock waits (R134). -/
def waiting (s : State) (f k : Nat) (fl : Flock) : Bool :=
  noneRuns fl || (match cxOf? s f k with | some c => held s c | none => false)

/-- Whether a wait is a long one: on a flag only while the flag is marked long (R134). -/
def longWait (fl : Flock) (w : Wait) : Bool :=
  match w with
  | .flag n => bitOf fl.longs n.val
  | _ => true

/-- A flock waits long (R134). -/
def waitingLong (s : State) (f k : Nat) (fl : Flock) : Bool :=
  !noneRuns fl && (match cxOf? s f k with
    | none => false
    | some c => held s c && (barHeld fl || match fl.hold with
      | .flags m => longFlag fl m
      | .waits _ ws => ws.any (fun w => !waitOver s c w && longWait fl w)
      | _ => true))

def foldReady (s : State) (f : Nat) (fo : Fold) : Bool := fo.flocks.any (fun k => !waiting s f k.1 k.2)

def stalledLong (s : State) (f : Nat) (fo : Fold) : Bool :=
  fo.flocks.all (fun k => waiting s f k.1 k.2) && fo.flocks.any (fun k => waitingLong s f k.1 k.2)

/-- The folds of a swap group of a core, with their slots. -/
def groupFolds (s : State) (c grp : Nat) : Tab Fold :=
  (residents s c).filter (fun e => match e.2.place with | .resident _ r => r % 8 == grp | _ => false)

/-- The oldest of some folds. -/
def oldest (l : Tab Fold) : Option Nat :=
  match l with
  | [] => none
  | e :: r => some (r.foldl (fun b x => if x.2.age < b.2.age then x else b) e).1

/-- Fills the active place of a swap group (R133). -/
def fillActive (s : State) (c grp : Nat) : State :=
  let l := groupFolds s c grp
  if l.any (fun e => e.2.active) then s
  else
    match (oldest (l.filter (fun e => foldReady s e.1 e.2))).orElse (fun _ => oldest l) with
    | none => s
    | some f => modFold s f (fun fo => { fo with active := true, q := 0 })

/-- The slot that a fold takes (R133): the lowest free one among the groups with the fewest folds. -/
def pickSlot (s : State) (c : Nat) : Option Nat :=
  let n := fun grp => (groupFolds s c grp).length
  let fewest := (List.range 8).foldl (fun m g => min m (n g)) (n 0)
  (List.range 32).find? (fun r => n (r % 8) == fewest
    && !(residents s c).any (fun e => e.2.place == .resident c r))

/-- A fold becomes resident on a core (R133); a swap group with no active fold makes it active. -/
def placeOn (s : State) (f c slot : Nat) : State :=
  let (n, s) := fresh s
  let s := modFold s f (fun fo => { fo with place := .resident c slot, active := false, age := n, placed := n, q := 0 })
  fillActive s c (slot % 8)

/-- Whether some existing context names a paddock (R329). -/
def padInUse (s : State) (p : Nat) : Bool := s.ctxs.any (fun k => k.2.live && k.2.pad == p)

/-- A paddock that is not in use holds no core (R329): a core of such a paddock without folds is free. -/
def freeCore (s : State) (c : Nat) : State :=
  match (coreAt s c).pad with
  | none => s
  | some p => if (residents s c).isEmpty && !padInUse s p then modCore s c (fun co => { co with pad := none }) else s

/-- A core without folds of its old paddock joins the paddock that it is marked for, or is free when that paddock is no longer in
use (R329); it learns the frontiers of the paddock's contexts (R268). -/
def joinPaddock (s : State) (c : Nat) : State :=
  match (coreAt s c).marked with
  | none => freeCore s c
  | some p =>
    if !(residents s c).isEmpty then s
    else
      let s := modCore s c (fun co => { co with pad := if padInUse s p then some p else none, marked := none })
      s.ctxs.foldl (fun s k =>
        if k.2.live && k.2.pad == p then
          modCore s c (fun co => { co with frontier := tset co.frontier k.1 (max (tgetD co.frontier k.1 0) k.2.od.f) 0 })
        else s) s

/-- A flock whose fold leaves its core has no group, but for one held at a fold barrier: that group is kept, and starts in
its clause again after a restore (R121, R261, R303). -/
def dropHeld (fl : Flock) : Flock :=
  if fl.bar.isSome then { fl with group := fl.group.map (fun g => freshGroup g.lanes) }
  else unhold { fl with group := none }

/-- A fold leaves its core: its clauses' tokens return (R131, R132), its resources are free, and its swap group fills its
place (R133, R141, R303). -/
def vacateCore (s : State) (f : Nat) (p : FPlace) : State :=
  match fold? s f, (fold? s f).bind coreOf with
  | some fo, some c =>
    let slot := match fo.place with | .resident _ r => r | _ => 0
    let s := fo.flocks.foldl (fun s k => match k.2.group with | some g => returnTokens s c g | none => s) s
    let s := modFold s f (fun fo => { fo with place := p, active := false,
                                              flocks := fo.flocks.map (fun k => (k.1, dropHeld k.2)) })
    let s := modCore s c (fun co =>
      { co with reqs := co.reqs.filter (fun r => r.fold != f),
                locks := co.locks.filter (fun e => match e.2.space with
                  | .scratch g => g != f | .window g _ => g != f | .global => true) })
    joinPaddock (fillActive s c (slot % 8)) c
  | _, _ => modFold s f (fun fo => { fo with place := p, active := false })

/-! ## The ends of grids (R191, R192) -/

/-- Removes the reports and answers of a fold from its core. -/
def dropOwned (s : State) (f : Nat) : State :=
  match (fold? s f).bind coreOf with
  | none => s
  | some c => modCore s c (fun co =>
      { co with mxs := co.mxs.filter (fun o => o.fold != f), wdq := co.wdq.filter (fun o => o.fold != f) })

/-- Discards a task's versions and pending REDs, plain and O (R201, R280). -/
def discardTask (s : State) (f : Nat) : State :=
  let rids := (s.ms.regions.filter (fun e => e.2.fold == f)).map (·.1)
  modMs s (fun m =>
    { m with
      vers := m.vers.filter (fun v => match v.owner with | .task g => g != f | .region q => !rids.contains q)
      reds := m.reds.filter (fun r => r.fold != f)
      pvers := m.pvers.filter (fun v => v.fold != f)
      msgs := m.msgs.filter (fun x => match x.kind with | .version g _ _ _ _ => g != f | _ => true)
      regions := m.regions.filter (fun e => e.2.fold != f) })

/-- A frame whose REF is 0 and whose grid has reported is freed, and its parent's REF drops (R191; DEDUCED, log 25). -/
def freeFrames : Nat → State → Nat → State
  | 0, s, _ => s
  | n + 1, s, g =>
    match grid? s g with
    | none => s
    | some gr =>
      if gr.phase = .reported ∧ hdrGet s g hREF 4 = 0 then
        let s := { s with grids := tdel s.grids g }
        match gr.parent with
        | none => s
        | some p => freeFrames n (hdrSub s p hREF 4 1) p
      else s

def freeFrame (s : State) (g : Nat) : State := freeFrames (s.grids.length + 1) s g

/-- Whether a grid has folds that are not gone. -/
def gridHasFolds (s : State) (g : Nat) : Bool := s.folds.any (fun e => e.2.grid == g)

/-- Every fold of a grid has retired (R191, R202): a divisible grid needs its whole domain committed, unless it was
killed. -/
def gridDone (s : State) (g : Nat) (gr : Grid) : Bool :=
  !gridHasFolds s g && (!isDivisible gr.record || gr.status != 0 || gr.committed == gr.record.dhi - gr.record.dlo)

/-- After a fold is gone: its grid may have no fold left (R191, R192). -/
def foldGone (s : State) (f g : Nat) : State :=
  let s := { s with folds := tdel s.folds f }
  match grid? s g with
  | none => s
  | some gr =>
    if gr.phase = .started ∧ !gr.allDone ∧ gridDone s g gr then
      let s := hdrSub s g hREF 4 1
      let s := if !isDetach gr.record ∧ hdrGet s g hLIVE 4 ≠ 0 then hdrPut s g hSTATE 1 2 else s
      modGrid s g (fun gr => { gr with allDone := true, resv := none })
    else s

/-- A fold is discarded: retired, killed, split or re-run. -/
def removeFold (s : State) (f : Nat) : State :=
  match fold? s f with
  | none => s
  | some fo =>
    let s := vacateCore (dropOwned s f) f .gone
    foldGone s f fo.grid

end Sys2Proof.Machine
end

