-- ==== Sys2Proof/Machine/Packets.lean ====
section
/-! DEFINITION. What packets and grids share (R322 to R325): the errors of a queue, the signal record, the completion of a
packet, and the admission of a grid. -/

namespace Sys2Proof.Machine

open Sys2Proof

/-! ## Queues -/

def queueEn (q : Queue) : Bool := bitOf q.ctl 0
def queuePrio (q : Queue) : Nat := bits q.ctl 3 1
def queueResv (q : Queue) : Bool := bitOf q.ctl 4
def queueCtx (q : Queue) : Nat := bits q.ctl 27 16

/-- The front end's source number (R12, R377). -/
def frontSrc (q : Nat) : Nat := unitSrc (q % 4) 0x3 0

/-- Stops a queue with an error (R325). -/
def queueError (s : State) (q ecode slot : Nat) : State :=
  modQueue s q (fun x => { x with stat := BitVec.ofNat 32 (slot % 65536 * 65536 + ecode % 256 * 256 + 1) })

/-- A packet by its number. -/
def packet? (s : State) (q id : Nat) : Option Packet := (queue s q).packets.find? (fun p => p.id == id)

def modPacket (s : State) (q id : Nat) (g : Packet → Packet) : State :=
  modQueue s q (fun x => { x with packets := x.packets.map (fun p => if p.id == id then g p else p) })

def dropPacket (s : State) (q id : Nat) : State :=
  modQueue s q (fun x => { x with packets := x.packets.filter (fun p => p.id != id) })

/-- A packet fails after it has started: its queue stops, and it leaves the started packets (R325). -/
def packetFails (s : State) (q id ecode : Nat) : State :=
  match packet? s q id with
  | none => s
  | some p => queueError (modPacket s q id (fun p => { p with dead := true, started := false })) q ecode p.slot

def pkNat (p : Packet) (off n : Nat) : Nat := bytesAt p.bytes off n

/-! ## Signal records (R324) -/

/-- Writes the signal record, bytes 8 to 15 first; false when a write faults. -/
def writeSignal (s : State) (q : Nat) (p : Packet) (w : Nat) : State × Bool :=
  let a := pkNat p 0x80 8
  let cx := queueCtx (queue s q)
  if a = 0 then (s, true)
  else if 2 ^ 57 ≤ a then (s, false)
  else
    match writeVirt s (.die (q % 4)) cx (a + 8) (leBytes 8 w) with
    | (s, .error _) => (s, false)
    | (s, .ok _) =>
      match writeVirt s (.die (q % 4)) cx a (leBytes 8 (pkNat p 0x88 8)) with
      | (s, .error _) => (s, false)
      | (s, .ok _) => (dirtyRecord s cx a, true)

/-- The status of a packet (R324). -/
def packetStatus (p : Packet) : Nat := if p.failed then 1 else if p.refused then 2 else 0

/-- A packet completes: its signal record is written and its interrupt raised (R323, R324). -/
def completePacket (s : State) (q id : Nat) (cancelled : Bool) : State :=
  match packet? s q id with
  | none => s
  | some p =>
    if p.dead then s else
    match writeSignal s q p (packetStatus p + (if cancelled then 4 else 0) + 8 * min p.launches 65535) with
    | (s, false) => packetFails s q id 0x33
    | (s, true) =>
      let s := dropPacket s q id
      if bitOf (BitVec.ofNat 32 (pkNat p 0x90 4)) 0 then
        raiseIrq s (ctx s (queueCtx (queue s q))).owner (bits (queue s q).vec 10 0)
      else s

/-- The grid of a packet has reported (R324, R327): a REPEAT packet runs again or completes. -/
def packetGridDone (s : State) (q id status : Nat) : State :=
  match packet? s q id with
  | none => s
  | some p =>
    let s := modPacket s q id (fun p =>
      { p with grid := none, failed := p.failed || status == 1, refused := p.refused || status == 2 })
    if p.dead then s else
    match p.repMax with
    | some n => if p.rep + 1 < n then modPacket s q id (fun p => { p with rep := p.rep + 1 }) else completePacket s q id false
    | none => completePacket s q id false

/-! ## Creation of grids (R185, R194, R338) -/

def emptyKDesc : KDesc := { entry := 0, constAddr := 0, constLen := 0, tokens := 0, roles := [] }

/-- A new grid with the next id of its context, noted in the event journal. -/
def newGrid (s : State) (cx q : Nat) (packet parent : Option Nat) (r : Record) (sib src : Nat) (phase : GPhase) : Nat × State :=
  let id := nat64 (ctx s cx).gridNext
  let pid := match parent.bind (grid? s) with | some p => p.id | none => 0
  let (n, s) := fresh s
  let g : Grid :=
    { id := id, ctx := cx, queue := q, packet := packet, parent := parent, record := r, sib := sib, ts := s.plat.ts, src := src,
      kd := emptyKDesc, display := [], level := 0, phase := phase, frame := none, order := 0, firstStarted := false,
      allDone := false, wdNext := 0, queries := [], base := none, status := 0, committed := 0, resv := none }
  let s := { s with grids := tput s.grids n g }
  let s := modCtx s cx (fun k => { k with gridNext := k.gridNext + 1 })
  (n, evjAppend s cx 2 src (q % 4096 + (if parent.isSome then 4096 else 0)) id pid)

/-- The records that device launches have in a queue and that have not started (R194). -/
def deviceSlots (s : State) (q : Nat) : Nat :=
  ((queue s q).device.filter (fun g => match grid? s g with | some x => x.parent.isSome | none => false)).length

def enqueueGrid (s : State) (q g : Nat) : State :=
  modGrid (modQueue s q (fun x => { x with device := x.device ++ [g] })) g (fun gr => { gr with phase := .queued })

end Sys2Proof.Machine
end

