-- ==== Sys2Proof/Machine/Launch.lean ====
section
/-! DEFINITION. Group 0x7 (R209 to R220), the start and the report of a grid (R181, R183, R190 to R198, R203), the pens
(R194, R196) and the work distributor (R207, R208). -/

namespace Sys2Proof.Machine

open Sys2Proof

/-! ## LAUNCH (R194, R195, R210) -/

/-- The grid at the root of a grid's ancestry. -/
def rootGrid : Nat → State → Nat → Nat
  | 0, _, g => g
  | n + 1, s, g => match (grid? s g).bind (·.parent) with | some p => rootGrid n s p | none => g

/-- The target queue of LAUNCH. -/
def targetQueue (s : State) (c : Cx) (b : W64) : Nat :=
  if bitOf b 12 then bits b 11 0
  else match grid? s (rootGrid s.grids.length s c.fo.grid) with | some r => r.queue | none => c.gr.queue

/-- Whether the target queue is the context's: its CTX names the context, whether or not it is enabled (R195, R210). -/
def queueOurs (s : State) (cx q : Nat) : Bool := queueCtx (queue s q) == cx

/-- A pen entry (R194). -/
def penEntry (rb : List Byte) (frame : Nat) (g : Grid) : List Byte :=
  rb ++ leBytes 8 frame ++ leBytes 8 g.id.toNat ++ leBytes 4 g.sib ++ leBytes 4 0 ++ leBytes 8 g.ts.toNat
    ++ List.replicate 96 0

/-- The result of a refused launch. -/
def launchCode (n : Nat) : W64 := nat64 (2 ^ 63 + n)

/-- One child is created and placed (R194, R210). -/
def launchPlace (s : State) (c : Cx) (rb : List Byte) (q : Nat) (pen : Bool) : State × W64 :=
  let r := parseRecord rb
  let g := c.fo.grid
  let sib := hdrGet s g hSIBSEQ 4
  let s := hdrAdd (hdrAdd (hdrAdd s g hSIBSEQ 4 1) g hREF 4 1) g hLIVE 4 1
  let (n, s) := newGrid s c.fo.ctx q none (some g) r sib (coreSrc c.c) .penned
  let id := match grid? s n with | some x => x.id | none => 0
  if pen then
    match frameOf s g, grid? s n with
    | some fr, some x =>
      let at' := (hdrGet s g hPENHEAD 2 + hdrGet s g hPENCOUNT 2) % c.gr.record.pencap
      let s := frPut s fr (fsize c.gr.record + 256 * at') (penEntry rb fr.addr.toNat x)
      (hdrAdd s g hPENCOUNT 2 1, id)
    | _, _ => (s, id)
  else (enqueueGrid s q n, id)

/-- LAUNCH in one thread: the status, and the child where there is one (R210). -/
def launchLane (c : Cx) (o : Nat → Nat) (b : W64) (acc : State × List PendW) (l : Nat) : State × List PendW :=
  let s := acc.1
  let rb := scrBytes c.fo (o l) 128
  let q := targetQueue s c b
  let g := c.fo.grid
  let out := fun (s : State) (v : W64) (ok : Bool) => (s, acc.2 ++ [{ lane := l, val := v, pred := some ok }])
  if !recordOk rb then out s (launchCode 2) false
  else if !queueOurs s c.fo.ctx q then out s (launchCode 3) false
  else if hdrGet s g hPENCOUNT 2 = 0 ∧ deviceSlots s q < 64 then
    let r := launchPlace s c rb q false
    out r.1 r.2 true
  else if hdrGet s g hPENCOUNT 2 < c.gr.record.pencap then
    let r := launchPlace s c rb q true
    out r.1 r.2 true
  else out s (launchCode 1) false

/-- Pass 1 of LAUNCH: the lowest thread whose record is misplaced. -/
def launchFault (c : Cx) (o : Nat → Nat) (ls : List Nat) : Option (Nat × Nat) :=
  ls.findSome? (fun l =>
    if o l % 16 ≠ 0 then some (l, cALIGN) else if c.fo.scrSize < o l + 128 then some (l, causeProt) else none)

def execLaunch (h : Hd) (d a b : Opd) (pp : Fin 8) (s : State) : Out :=
  word h s (fun c ex =>
    if c.fo.isTask then illop s c ex
    else if flagFull c.fl c.g h || !storesPerformed s c.f c.k then waitRoom s c (.stores :: flagWait c.g h)
    else
      let o := fun l => (rd32 c l a).toNat
      let act := ex.filter (fun l => !doomed c l && !liveRegion c l)
      match launchFault c o act with
      | some (l, cause) => faultHere s c cause (some l) (nat64 (o l))
      | none =>
        match windowLock s c (regsT .u64 d ++ regsT .u32 a) with
        | some i => advance (takeTraps s c cRLOCK i ex) c h
        | none =>
          let s := hdrNeed (regionBar s c ex) c.fo.grid
          let met := act.filterMap (fun l => (lockedBy (coreAt s c.c) (.scratch c.f) (o l) (o l + 128) false).map (fun i => (l, i)))
          let go := act.filter (fun l => !met.any (fun m => m.1 == l))
          let (id, s) := fresh s
          let r := go.foldl (launchLane c o (rdS c b)) (s, [])
          let s := startOp r.1 c.f c.k { newOp c h id (.launch d pp r.2) none with left := 1 }
          advance (takeLocks s c met) c h)

/-- LAUNCH_COMPLETE: the destinations and the predicates are written, and the flag drops (R210). -/
def execLaunchComplete (f k ix : Nat) (s : State) : Out :=
  match (flock? s f k).bind (fun fl => fl.ops[ix]?) with
  | none => .next s
  | some o =>
    match o.kind with
    | .launch d p res => .next (completeOp (res.foldl (fun s w => writePend s f k 2 d (some p) w) s) f k o)
    | _ => .next s

/-! ## The other instructions of group 0x7 -/

/-- LWAIT (R211): on completion the flock sees the stores of the children that have reported (DEDUCED, log 26). -/
def execLwait (h : Hd) (d : Opd) (b : Src) (s : State) : Out :=
  word h s (fun c ex =>
    if c.fo.isTask then illop s c ex
    else
      let s := hdrNeed (regionBar s c ex) c.fo.grid
      let n := (rdSrcS c .u64 b).toNat
      if hdrGet s c.fo.grid hLIVE 4 ≤ n then
        advance (writeS (acquire s c.c .system) c d (nat64 (hdrGet s c.fo.grid hNFAIL 4))) c h
      else keepExec (modFlock s c.f c.k (fun fl => { fl with hold := .lwait n })) c ex)

def execDchk (h : Hd) (d : Opd) (level : Fin 8) (s : State) : Out :=
  uword h s (fun c ex =>
    writePreds (regionBar s c ex) c (ex.filter (fun l => !liveRegion c l)) d (fun _ => dispReg c level.val != 0))

/-- Ticks and bytes left to a task (R200, R213). -/
def ticksLeft (c : Cx) : W64 :=
  if c.fo.isTask ∧ c.gr.record.tallow ≠ 0 then nat64 (c.gr.record.tallow - c.fo.taskTime) else BitVec.allOnes 64

def bytesLeft (s : State) (c : Cx) : W64 :=
  if c.fo.isTask ∧ c.gr.record.wbuf ≠ 0 then nat64 (c.gr.record.wbuf * 1024 - bufferUse s c.f)
  else BitVec.allOnes 64

/-- Consecutive S registers from d; ZERO discards. -/
def writeSs (s : State) (c : Cx) (d : Opd) (vs : List W64) : State :=
  match d with
  | .s n => modFlock s c.f c.k (fun fl => vs.zipIdx.foldl (fun fl v => setSreg fl (n.val + v.2) v.1) fl)
  | _ => s

def execTdom (h : Hd) (d : Opd) (s : State) : Out :=
  uword h s (fun c _ =>
    writeSs s c d [if c.fo.isTask then c.fo.lo else 0, if c.fo.isTask then c.fo.hi else 0, ticksLeft c, bytesLeft s c])

/-- A fold on a core grows by some need: the room of the core, and of the save pool (R214, R215, R300). -/
def growFold (s : State) (c : Cx) (n : Need) : Option State :=
  if roomFor s c.c n then resizeImage s c.f ((foldNeed c.fo).add n) else none

def execRgrow (h : Hd) (d : Opd) (n : BitVec 5) (s : State) : Out :=
  word h s (fun c ex =>
    let want := 64 * n.toNat
    if want ≤ c.fl.valloc then advance (writePreds s c ex d (fun _ => true)) c h
    else
      match growFold s c { Need.zero with blocks := (want - c.fl.valloc) / 64 } with
      | some s => advance (writePreds (modFlock s c.f c.k (fun fl => { fl with valloc := want })) c ex d (fun _ => true)) c h
      | none => if c.fo.isTask then exhaust s c.f else advance (writePreds s c ex d (fun _ => false)) c h)

/-- The operand of SALLOC and SFREE is a multiple of 512 within the scratchpad's size. -/
def scrOperandOk (n : Nat) : Bool := decide (n % 512 = 0 ∧ 512 ≤ n ∧ n ≤ 786432)

def execSalloc (h : Hd) (d : Opd) (b : Src) (s : State) : Out :=
  word h s (fun c ex =>
    let n := (rdSrcS c .u64 b).toNat
    if !scrOperandOk n then illop s c ex
    else
      let s := regionBar s c ex
      match growFold s c { Need.zero with scr := n } with
      | some s =>
        let s := modFold s c.f (fun fo => { fo with
          scrSize := fo.scrSize + n, scrAdded := fo.scrAdded + n,
          scratch := fo.scratch.filter (fun e => decide (e.1 < fo.scrSize)) })
        advance (writeS s c d (nat64 c.fo.scrSize)) c h
      | none => if c.fo.isTask then exhaust s c.f else advance (writeS s c d (BitVec.allOnes 64)) c h)

/-- Whether bytes [lo, hi) hold part of a circular buffer or of a locked range of the fold. -/
def scrHeld (s : State) (c : Cx) (lo hi : Nat) : Bool :=
  c.fo.cbufs.any (fun b => decide (b.2.base < hi ∧ lo < b.2.base + b.2.count * b.2.slot))
    || (coreAt s c.c).locks.any (fun e => e.2.space == .scratch c.f && decide (e.2.lo < hi ∧ lo < e.2.hi))

def execSfree (h : Hd) (b : Src) (s : State) : Out :=
  word h s (fun c ex =>
    let n := (rdSrcS c .u64 b).toNat
    if !scrOperandOk n then illop s c ex
    else if c.fo.scrAdded < n ∨ scrHeld s c (c.fo.scrSize - n) c.fo.scrSize then
      faultHere s c causeProt ex.head? (nat64 (c.fo.scrSize - n))
    else
      let s := regionBar s c ex
      let s := modFold s c.f (fun fo =>
        { fo with scrSize := fo.scrSize - n, scrAdded := fo.scrAdded - n,
                  scratch := fo.scratch.filter (fun e => decide (e.1 < fo.scrSize - n)) })
      let need := foldNeed c.fo
      let s := (resizeImage s c.f { need with scr := need.scr - n }).getD s
      advance s c h)

/-- The split point of R201. -/
def splitPoint (lo hi : W64) (g : Nat) : W64 := lo + nat64 (g * max 1 ((hi - lo).toNat / 2 / g))

/-- The regions of a task whose keys leave it with a split: the live ones abort, a pending one stops the task (R280). -/
def splitRegions (s : State) (f : Nat) (mid : Nat) : State :=
  let hit := s.ms.regions.filter (fun e => e.2.fold == f && e.2.cls == 2 && decide (mid ≤ e.2.key))
  let s := (hit.filter (fun e => e.2.phase != .pending)).foldl (fun s e => abortRegion s e.1 1) s
  if hit.any (fun e => e.2.phase == .pending) then stopTask s f else s

def execTsplit (h : Hd) (d : Opd) (s : State) : Out :=
  word h s (fun c ex =>
    if !c.fo.isTask then illop s c ex
    else
      let s := regionBar s c ex
      let g := c.gr.record.grain
      if (c.fo.hi - c.fo.lo).toNat ≤ g then advance (writeS s c d c.fo.hi) c h
      else
        let mid := splitPoint c.fo.lo c.fo.hi g
        let s := modFold s c.f (fun fo => { fo with hi := mid })
        let s := splitRegions (addTask s c.fo.grid mid c.fo.hi) c.f mid.toNat
        advance (writeS s c d mid) c h)

def execTake (h : Hd) (a : Opd) (off : W32) (s : State) : Out :=
  word h s (fun c ex =>
    let o := (rdS c a + off.signExtend 64).toNat % 2 ^ 32
    if o % 4 ≠ 0 then faultHere s c cALIGN ex.head? (nat64 o)
    else if c.fo.scrSize < o + 4 then faultHere s c causeProt ex.head? (nat64 o)
    else if c.fo.isTask then illop s c ex
    else
      let s := regionBar s c ex
      if flagFull c.fl c.g h then waitRoom s c (flagWait c.g h)
      else
        let (id, s) := fresh s
        let s := startOp s c.f c.k { newOp c h id (.take o) none with left := 1 }
        advance (opLong (sendQuery s c id false (some o)) c.f c.k id) c h)

/-- SREL: the release takes effect at STAGE_RELEASE (R197, R218). -/
def execSrel (h : Hd) (s : State) : Out :=
  uword h s (fun c ex =>
    let s := regionBar s c ex
    if c.fo.released ∨ c.fo.relPend.isSome ∨ c.gr.record.stages ≤ c.fo.stage + 1 then s
    else modFold s c.f (fun fo => { fo with relPend := some (c.k, s.seq) }))

/-- STAGE_RELEASE: the releasing flock's earlier stores are performed at PACKAGE scope (R197). -/
def execStageRelease (f : Nat) (s : State) : Out :=
  match (fold? s f).bind (·.relPend) with
  | none => .next s
  | some (k, op) =>
    match flock? s f k with
    | none => .next s
    | some fl =>
      if (fl.fifo ++ fl.scr ++ fl.tent).any (fun e => decide (e.op < op)) || msgsBefore s f k op then .next s
      else .next (releaseFold s f)

/-! ## The work distributor (R207, R208, R217) -/

/-- The query that is answered next: the earliest, then the lower source (R161, R251). -/
def nextQuery (g : Grid) : Option Query :=
  match g.queries with
  | [] => none
  | e :: r => some (r.foldl (fun b x => if x.ts.toNat < b.ts.toNat ∨ (x.ts = b.ts ∧ x.src < b.src) then x else b) e)

/-- The answer to a query, and the next item. -/
def wdItem (g : Grid) (count : Bool) : W64 × Nat :=
  let wx := g.record.dlo.toNat
  let n := wx * g.record.dhi.toNat
  if count then (nat64 (n - g.wdNext), g.wdNext)
  else if g.wdNext < n then (nat64 (g.wdNext % wx + g.wdNext / wx * 65536), g.wdNext + 1)
  else (0xFFFFFFFF, g.wdNext)

/-- WD_ANSWER: the work distributor answers a query (R207); the answer to a TAKE is progress (R305). -/
def execWdAnswer (g : Nat) (s : State) : Out :=
  match grid? s g with
  | none => .next s
  | some gr =>
    match nextQuery gr with
    | none => .next s
    | some q =>
      let (v, n) := wdItem gr q.count
      let s := modGrid s g (fun gr => { gr with queries := gr.queries.erase q, wdNext := n })
      match (fold? s q.fold).bind coreOf, (flock? s q.fold q.flock).bind (fun fl => op? fl q.op) with
      | some c, some o =>
        let s := match q.slot with
          | some a => modFold s q.fold (fun fo => { scrPut fo a (leBytes 4 v.toNat) with wdogTime := 0 })
          | none => modCore s c (fun co => { co with wdq := co.wdq ++ [{ fold := q.fold, flock := q.flock, val := v }] })
        .next (completeOp s q.fold q.flock o)
      | _, _ => .next s

/-! ## The start of a grid (R181, R183, R190, R193, R198, R203, R380) -/

/-- No earlier sibling holds a grid back (R193). -/
def siblingsDone (s : State) (g : Grid) : Bool :=
  g.parent.isNone || !(s.grids.any (fun e => e.2.parent == g.parent && decide (e.2.sib < g.sib) && e.2.phase != .reported
    && (isSeq e.2.record && isSeq g.record
      || isRange e.2.record && isRange g.record && recordsMeet e.2.record g.record)))

/-- The order domain is free for an ORDER grid (R203, R267). -/
def domainFree (s : State) (g : Grid) : Bool :=
  let od := (ctx s g.ctx).od
  !isOrder g.record || (od.holder.isNone && od.window.isNone)

def startable (s : State) (g : Nat) : Bool :=
  match grid? s g with
  | some x => x.phase == .queued && siblingsDone s x && domainFree s x
  | none => false

/-- The record of a queue that the front end starts next (R181). -/
def nextStart (s : State) (q : Nat) : Option Nat := (queue s q).device.find? (startable s)

/-- The kernel descriptor at an address (R190, R346); none when it does not translate or is malformed. An ENTRY with a non-zero
bit in [63:57], which R190 and R346 do not name, counts as malformed, and the node bits [63:57] of the address itself are
dropped, of which R186 and R190 say nothing (DESIGN CHOICE, log 46). -/
def readKDesc (s : State) (d cx : Nat) (a : W64) : State × Option KDesc :=
  match readVirt s (.die d) cx a.toNat 64 with
  | (s, .error _) => (s, none)
  | (s, .ok b) =>
    let n := bytesAt b 0x15 1
    if bytesAt b 0x16 2 ≠ 0 ∨ n = 0 ∨ 8 < n ∨ bytesAt b 0 8 % 4 ≠ 0 ∨ 2 ^ 57 ≤ bytesAt b 0 8 then (s, none)
    else (s, some { entry := BitVec.ofNat 57 (bytesAt b 0 8), constAddr := nat64 (bytesAt b 8 8),
                    constLen := min 65536 (bytesAt b 0x10 4), tokens := bytesAt b 0x14 1,
                    roles := (List.range n).map (fun i =>
                      { code := bytesAt b (0x18 + 4 * i) 1, flocks := bytesAt b (0x19 + 4 * i) 1,
                        regs := bytesAt b (0x1A + 4 * i) 2 }) })

/-- The pages of a frame's allocation (R380); none when one does not translate with R and W. -/
def framePages (s : State) (d cx a n : Nat) : State × Option (List (Nat × Nat)) :=
  (List.range ((a + n - 1) / 4096 - a / 4096 + 1)).foldl (fun (acc : State × Option (List (Nat × Nat))) i =>
    match acc.2 with
    | none => acc
    | some l =>
      let va := (a / 4096 + i) * 4096 % 2 ^ 57
      match translate acc.1 (.die d) cx va .atomic with
      | (s, .error _) => (s, none)
      | (s, .ok t) => (s, some (l ++ [(a / 4096 + i, t.pa / 4096)]))) (s, some [])

/-- How many folds a paddock could hold with no other fold resident (R190). -/
def padCapacity (s : State) (p : Nat) (n : Need) : Nat :=
  (padCores s p).length * foldsFit Need.zero.part n.part

/-- The checks of R190 but those of the descriptor and of the frame. -/
def refused (s : State) (g : Grid) : Bool :=
  let r := g.record
  let n := startNeed g
  let od := (ctx s g.ctx).od
  decide (g.kd.roles.foldl (fun n x => n + x.flocks) 0 < gridFlocks r)
    || decide ((pad s (ctx s g.ctx).pad).tokens < g.kd.tokens)
    || !n.fits coreHas
    || (isCores r && decide (padCapacity s (ctx s g.ctx).pad n < r.nx * r.ny * r.nz * r.stages))
    || (isOrder r && decide (2 ^ 48 - 1 < od.f + (r.dhi - r.dlo).toNat))
    || !poolHolds s g.ctx (needImage n)

/-- A grid reports to its parent or to its queue (R191, R192, R338). -/
def reportGrid (s : State) (g status nfail : Nat) : State :=
  match grid? s g with
  | none => s
  | some gr =>
    let s := modGrid s g (fun x => { x with phase := .reported, status := status })
    let s := evjAppend s gr.ctx 4 (frontSrc gr.queue) status gr.id (nat64 nfail)
    match gr.parent with
    | some p =>
      let s := hdrSub s p hLIVE 4 1
      if status = 0 then s else hdrAdd s p hNFAIL 4 1
    | none => match gr.packet with
      | some k => packetGridDone s gr.queue k status
      | none => s

/-- A record refused at start: start, retirement and report at once (R190, R191). -/
def refuseGrid (s : State) (g : Nat) : State := freeFrame (reportGrid s g 2 0) g

/-- The boundaries of the tasks of a divisible launch (R198). -/
def taskBounds (r : Record) : List (W64 × W64) :=
  let len := (r.dhi - r.dlo).toNat
  let n := cdiv len r.grain
  let b := fun i => r.dlo + nat64 (min len (r.grain * (i * n / r.fan)))
  ((List.range r.fan).map (fun i => (b i, b (i + 1)))).filter (fun e => e.1 != e.2)

/-- The fold coordinates of a grid, x fastest. -/
def coords (r : Record) : List (Nat × Nat × Nat) :=
  (List.range r.nz).flatMap (fun z => (List.range r.ny).flatMap (fun y => (List.range r.nx).map (fun x => (x, y, z))))

def startFolds (s : State) (g : Nat) (r : Record) : State :=
  if isDivisible r then (taskBounds r).foldl (fun s b => addTask s g b.1 b.2) s
  else (coords r).foldl (fun s p => addFold s g p.1 p.2.1 p.2.2 0 0 0) s

/-- An ORDER grid takes its context's order domain (R203, R267). -/
def takeDomain (s : State) (g : Nat) (gr : Grid) : State :=
  if isOrder gr.record then
    modCtx s gr.ctx (fun k => { k with od := { k.od with
      holder := some g, base := (k.od.f + 2 ^ 64 - gr.record.dlo.toNat) % 2 ^ 48 } })
  else s

/-- A grid that passed every check starts on its frame, whose pages become DIRTY (R180, R181, R183; DESIGN CHOICE, log 36). -/
def beginGrid (s : State) (g : Nat) (gr : Grid) (a : Nat) (pages : List (Nat × Nat)) : State :=
  let up := gr.parent.bind (grid? s)
  let pframe := match up.bind (·.frame) with | some fr => fr.addr.toNat | none => 0
  let fr : FrameA := { addr := BitVec.ofNat 57 a, size := frameBytes gr.record, pages := pages }
  let disp := match up with
    | some p => nat64 a :: p.display.take 7
    | none => nat64 a :: List.replicate 7 0
  let level := match up with | some p => p.level + 1 | none => 0
  let (n, s) := fresh s
  let gr := { gr with frame := some fr, display := disp, level := level, phase := .started, order := n }
  let s := modGrid s g (fun _ => gr)
  let s := pages.foldl (fun s p => markDirty s (.die (gr.queue % 4)) gr.ctx (p.1 * 4096 % 2 ^ 57)) s
  let s := frPut s fr 0 (frameHeader pframe gr ++ List.replicate (256 * gr.record.body) 0)
  let s := startFolds (takeDomain s g gr) g gr.record
  if gridHasFolds s g then s
  else modGrid (hdrSub s g hREF 4 1) g (fun x => { x with allDone := true })

/-- GRID_START: the front end starts a grid, with its frame at an address of the pool that is free (the allocator's
choice, log 9). -/
def execGridStart (g : Nat) (frame : VA) (s : State) : Out :=
  match grid? s g with
  | none => .next s
  | some gr =>
    if nextStart s gr.queue ≠ some g ∨ !frameFree s gr.ctx frame.toNat (frameBytes gr.record) then .next s
    else
      let s := modQueue s gr.queue (fun q => { q with device := q.device.filter (· != g) })
      match readKDesc s (gr.queue % 4) gr.ctx gr.record.kdesc with
      | (s, none) => .next (refuseGrid s g)
      | (s, some kd) =>
        let s := modGrid s g (fun x => { x with kd := kd })
        let gr := { gr with kd := kd }
        if refused s gr then .next (refuseGrid s g)
        else
          match framePages s (gr.queue % 4) gr.ctx frame.toNat (frameBytes gr.record) with
          | (s, none) => .next (refuseGrid s g)
          | (s, some pages) => .next (beginGrid s g gr frame.toNat pages)

/-- GRID_REPORT: a grid whose folds have retired, and whose children have reported unless it is detached (R192). An ORDER
grid releases the domain (R203). -/
def execGridReport (g : Nat) (s : State) : Out :=
  match grid? s g with
  | none => .next s
  | some gr =>
    if gr.phase ≠ .started ∨ !gr.allDone ∨ (!isDetach gr.record ∧ hdrGet s g hLIVE 4 ≠ 0) then .next s
    else
      let s := hdrPut (hdrPut s g hSTATE 1 3) g hSTATUS 1 gr.status
      let s := modCtx s gr.ctx (fun k =>
        if k.od.holder = some g then { k with od := { k.od with holder := none, base := 0 } } else k)
      .next (freeFrame (reportGrid s g gr.status (hdrGet s g hNFAIL 4)) g)

/-! ## Pens (R196) -/

/-- Whether the pen of one grid is served before that of another. -/
def penBefore (a b : Grid) : Bool := decide (a.ts.toNat < b.ts.toNat) || (a.ts == b.ts && decide (a.src < b.src))

/-- The oldest entry of a grid's pen. -/
def penOldest (s : State) (p : Nat) : Option (Nat × Grid) :=
  match s.grids.filter (fun e => e.2.parent == some p && e.2.phase == .penned) with
  | [] => none
  | e :: r => some (r.foldl (fun b x => if x.2.sib < b.2.sib then x else b) e)

/-- The pen entry that moves to a queue next. -/
def penNext (s : State) (q : Nat) : Option (Nat × Grid) :=
  let heads := s.grids.filterMap (fun p => (penOldest s p.1).bind (fun e => if e.2.queue = q then some e else none))
  match heads with
  | [] => none
  | e :: r => some (r.foldl (fun b x => if penBefore x.2 b.2 then x else b) e)

/-- PEN_MOVE: the oldest pen entry for a queue moves to a free device slot; its record is read from the pen (R194,
R196, R380). -/
def execPenMove (q : Nat) (s : State) : Out :=
  match penNext s q with
  | none => .next s
  | some (n, g) =>
    match g.parent, g.parent.bind (grid? s), g.parent.bind (frameOf s) with
    | some p, some pg, some fr =>
      if 64 ≤ deviceSlots s q then .next s
      else
        let head := hdrGet s p hPENHEAD 2
        let off := fsize pg.record + 256 * head
        let s := frNeed s fr off 128
        let rb := (List.range 128).map (fun i => homeByte s (framePa fr (off + i)))
        let s := modGrid s n (fun x => { x with record := parseRecord rb })
        let s := hdrPut (hdrSub s p hPENCOUNT 2 1) p hPENHEAD 2 ((head + 1) % pg.record.pencap)
        .next (enqueueGrid s q n)
    | _, _, _ => .next s

end Sys2Proof.Machine
end

