-- ==== Sys2Proof/Machine/Folds.lean ====
section
/-! DEFINITION. The life of folds: placement and swaps (R133, R134, R182, R328), retirement (R141), late traps (R376),
regrouping (R145), pre-emption, faults and the watchdog with their images (R296 to R307), the handler's commands
(R299, R339), and the ends of tasks (R200 to R203, R280). -/

namespace Sys2Proof.Machine

open Sys2Proof

/-! ## Placement (R133, R182, R190, R300, R328) -/

/-- The queue of a fold's grid, its priority and its start order. -/
def foldQueue (s : State) (fo : Fold) : Nat := match grid? s fo.grid with | some g => g.queue | none => 0
def foldPrio (s : State) (fo : Fold) : Nat := queuePrio (queue s (foldQueue s fo))
def foldOrder (s : State) (fo : Fold) : Nat := match grid? s fo.grid with | some g => g.order | none => 0

/-- Folds of a queue that are resident in a paddock, and the free slots of a paddock. -/
def residentOf (s : State) (p q : Nat) : Nat :=
  (s.folds.filter (fun e => (coreOf e.2).isSome && (ctx s e.2.ctx).pad == p && foldQueue s e.2 == q)).length

def freeSlots (s : State) (p : Nat) : Nat :=
  (padCores s p).foldl (fun n c => n + (32 - (residents s c).length)) 0

/-- Slots of a paddock that other queues keep free (R328). -/
def keptSlots (s : State) (p q : Nat) : Nat :=
  s.queues.foldl (fun n e =>
    if e.1 ≠ q ∧ queueResv e.2 ∧ (ctx s (queueCtx e.2)).pad = p then
      n + (bits e.2.resv 15 0 - residentOf s p e.1)
    else n) 0

/-- The cores on which a CORES grid reserves room: for each stage, core after core (R190). -/
def reserveCores (s : State) (g : Nat) (gr : Grid) (p : Nat) : Option (List (Nat × Nat)) :=
  let n := startNeed gr
  let per := gr.record.nx * gr.record.ny * gr.record.nz
  let places := (padCores s p).flatMap (fun c => List.replicate (capOn s c n) c)
  if places.length < per * gr.record.stages then none
  else some ((List.range (per * gr.record.stages)).map (fun i => (i / per, places.getD i 0)))

/-- Whether a fold's first placement on a core is possible, and the reservation it then uses. -/
def coresPlace (s : State) (fo : Fold) (gr : Grid) (c : Nat) : Option (Option (List (Nat × Nat))) :=
  if !isCores gr.record then (if roomFor s c (startNeed gr) then some none else none)
  else
    match gr.resv.orElse (fun _ => reserveCores s fo.grid gr (ctx s fo.ctx).pad) with
    | none => none
    | some l => if l.contains (fo.stage, c) then some (some (l.erase (fo.stage, c))) else none

/-- Whether a waiting fold could be placed on a core now. -/
def placeable (s : State) (f c : Nat) : Bool :=
  match fold? s f with
  | none => false
  | some fo =>
    match grid? s fo.grid with
    | none => false
    | some gr =>
      let p := (ctx s fo.ctx).pad
      fo.place == .waiting && (coreAt s c).pad == some p && (coreAt s c).marked.isNone && decide (c % 64 ≠ 0)
        && decide (s.plat.svc = 2 ∨ dieOf c = 0) && !s.plat.moving
        && decide (keptSlots s p gr.queue < freeSlots s p) && (pickSlot s c).isSome
        && (coresPlace s fo gr c).isSome && (findImage s fo.ctx f (needImage (startNeed gr))).isSome

/-- Queue numbers in the order of the round robin after the last one served (R328). -/
def turnRank (last q : Nat) : Nat := (q + 4096 - (last + 1)) % 4096

/-- Whether one waiting fold is placed before another (R328). The front end may start the tasks of a grid in any order (R198). -/
def placedBefore (s : State) (a b : Nat) : Bool :=
  match fold? s a, fold? s b with
  | some x, some y =>
    let px := foldPrio s x
    let py := foldPrio s y
    if px ≠ py then decide (px < py)
    else
      let last := tgetD (pad s (ctx s x.ctx).pad).turn px 4095
      let rx := turnRank last (foldQueue s x)
      let ry := turnRank last (foldQueue s y)
      if rx ≠ ry then decide (rx < ry)
      else if foldOrder s x ≠ foldOrder s y then decide (foldOrder s x < foldOrder s y)
      else !(x.isTask && y.isTask) && decide (a < b)
  | _, _ => false

/-- FOLD_PLACEMENT: a waiting fold takes a core of its paddock; no fold that could stand there comes before it (R328). -/
def execFoldPlacement (f c : Nat) (s : State) : Out :=
  match fold? s f with
  | none => .next s
  | some fo =>
    match grid? s fo.grid, pickSlot s c with
    | some gr, some slot =>
      if !placeable s f c || s.folds.any (fun e => e.1 != f && placeable s e.1 c && placedBefore s e.1 f) then .next s
      else
        match coresPlace s fo gr c, resizeImage s f (startNeed gr) with
        | some resv, some s =>
          let s := modGrid s fo.grid (fun g => { g with resv := if isCores gr.record then resv else g.resv, firstStarted := true })
          let s := if gr.firstStarted then s else evjAppend s fo.ctx 3 (frontSrc gr.queue) 0 gr.id 0
          let s := modFold s f (fun fo => { fo with flocks := startFlocks gr })
          let s := acquire (placeOn s f c slot) c .system
          .next (modPad s (ctx s fo.ctx).pad (fun p => { p with turn := tput p.turn (foldPrio s fo) gr.queue }))
        | _, _ => .next s
    | _, _ => .next s

/-! ## Swaps (R134) -/

/-- One swap group at a swap point. -/
def swapGroup (s : State) (c grp : Nat) : State :=
  let l := groupFolds s c grp
  match l.find? (fun e => e.2.active), oldest (l.filter (fun e => !e.2.active && foldReady s e.1 e.2)) with
  | some a, some p =>
    if stalledLong s a.1 a.2 ∨ 2 ≤ a.2.q then
      let (n, s) := fresh s
      let s := modFold s a.1 (fun fo => { fo with active := false, age := n })
      modFold s p (fun fo => { fo with active := true, q := 0 })
    else modFold s a.1 (fun fo => { fo with q := fo.q + 1 })
  | _, _ => s

/-- SWAP_POINT: at a cycle whose count is a multiple of 32 each swap group of a core acts (R134). -/
def execSwapPoint (c : Nat) (s : State) : Out :=
  if s.plat.cycles / 20 % 32 = 0 then .next ((List.range 8).foldl (fun s g => swapGroup s c g) s) else .next s

/-! ## Late traps (R376) -/

/-- The late trap that a thread takes at its next boundary: not while it is parked, in trap mode or doomed. -/
def lateDue (t : Thread) : Option Late :=
  if t.exited || t.park != .none || t.trap.mode || t.reg.doom then none else t.lates.head?

def takeLate (s : State) (f k l : Nat) : State :=
  match thread? s f k l with
  | none => s
  | some t =>
    match lateDue t with
    | none => s
    | some x =>
      let s := modThread s f k l (fun t => { t with lates := t.lates.drop 1 })
      takeTrapAt s f k l cFPTHR x.cls x.pc t.pc t.hdr t.pc t.hdr t.pc t.hdr true

/-- Whether a group stands at an instruction boundary: it waits at no word that it has issued (R376). -/
def atBoundary (fl : Flock) : Bool :=
  fl.bar.isNone && (match fl.hold with
    | .none | .waits false _ | .mx _ _ => true
    | _ => false)

/-- Whether a lane of a flock stands where it takes a late trap: its group, if it is in one, waits at no word that it has
issued. -/
def lateOpen (fl : Flock) (l : Nat) : Bool :=
  (match fl.group with | some g => !g.lanes.contains l | none => true) || atBoundary fl

/-- A thread of a flock has a late trap to take before its fold is drained (R303). -/
def latePending (fl : Flock) : Bool := fl.threads.any (fun t => (lateDue t.2).isSome && lateOpen fl t.1)

/-- LATE_FPTHR: a thread takes a late trap at an instruction boundary, also while its fold stops and drains (R296, R303, R376); a
group that waits has none before it issues. -/
def execLateFpthr (f k l : Nat) (s : State) : Out :=
  match fold? s f, flock? s f k with
  | some fo, some fl => if (coreOf fo).isNone || !lateOpen fl l then .next s else .next (takeLate s f k l)
  | _, _ => .next s

/-- FPEV_WINDOW_CLEAR: the time stamp is a multiple of FPEV_WINDOW (R100). -/
def execFpevWindowClear (cx : Nat) (s : State) : Out :=
  let w := (ctx s cx).fpev.window.toNat
  if (ctx s cx).live ∧ w ≠ 0 ∧ s.plat.ts.toNat % w = 0 then .next (windowClear s cx)
  else .next s

/-! ## Regrouping (R145) -/

/-- The flocks of a role. -/
def roleFlocks (fo : Fold) (role : Nat) : Tab Flock := fo.flocks.filter (fun k => k.2.role == role)

/-- Every live thread of a role is parked at some REORDER, its flags are zero and its FIFOs have drained. -/
def regroupReady (fs : Tab Flock) : Bool :=
  fs.any (fun k => !(liveLanes k.2).isEmpty)
    && fs.all (fun k => k.2.threads.all (fun t => t.2.exited || (match t.2.park with | .reorder _ _ _ => true | _ => false))
      && k.2.flags.isEmpty && k.2.fifo.isEmpty && k.2.scr.isEmpty && k.2.tent.isEmpty)

/-- A parked thread with its key, its flock and lane, and its range. -/
structure Parked where
  key : W32
  tid : Nat
  flock : Nat
  lane : Nat
  base : Nat
  count : Nat
  deriving DecidableEq, Repr

def insParked (x : Parked) : List Parked → List Parked
  | [] => [x]
  | y :: r => if x.key < y.key ∨ (x.key = y.key ∧ x.tid < y.tid) then x :: y :: r else y :: insParked x r

def parkedThreads (fs : Tab Flock) : List Parked :=
  (fs.flatMap (fun k => k.2.threads.filterMap (fun t => match t.2.park with
    | .reorder key b n => if t.2.exited then none else some { key := key, tid := t.2.tid, flock := k.1, lane := t.1, base := b, count := n }
    | _ => none))).foldl (fun l x => insParked x l) []

/-- The flocks of a role after the placement: the k-th thread stands at lane k mod 32 of the ⌊k/32⌋-th flock. -/
def regroupFlocks (fs : Tab Flock) (ps : List Parked) : Tab Flock :=
  let old := fun (p : Parked) => tget? fs p.flock
  fs.zipIdx.map (fun e =>
    let mine := ((ps.drop (32 * e.2)).take 32).zipIdx
    let fl := unhold
      { e.1.2 with
        threads := mine.filterMap (fun x => ((old x.1).bind (fun f => tget? f.threads x.1.lane)).map
          (fun t => (x.2, { t with park := .none })))
        vregs := []
        group := none }
    (e.1.1, mine.foldl (fun fl x => match old x.1 with
      | some f => (List.range x.1.count).foldl (fun fl i => setVreg fl (x.1.base + i) x.2 (vreg f (x.1.base + i) x.1.lane)) fl
      | none => fl) fl))

/-- REGROUP: the threads of one role are sorted by key and placed anew (R145). An ILLOP raised here is recorded on the
role's first flock, with no thread and HPC 0 (DESIGN CHOICE, log 43). -/
def execRegroup (f : Nat) (role : Fin 4) (s : State) : Out :=
  match fold? s f with
  | none => .next s
  | some fo =>
    let fs := roleFlocks fo role.val
    if fo.halt.isSome ∨ !regroupReady fs then .next s
    else
      let ps := parkedThreads fs
      let least := fs.foldl (fun m k => min m k.2.valloc) 1536
      if ps.any (fun p => decide (least < p.base + p.count)) then
        .next (foldFault s f ((fs.head?.map (·.1)).getD 0) cILLOP 0 none false 0 0)
      else
        let new := regroupFlocks fs ps
        .next (modFold s f (fun fo =>
          { fo with epoch := fo.epoch + 1, flocks := new.foldl (fun t k => tput t k.1 k.2) fo.flocks }))

/-! ## Drained folds -/

/-- Instructions whose command a page fault ended stay until the fold is saved (R164). -/
def parkedOps (fo : Fold) : List Nat := fo.parked.map (fun x => x.2.op)

/-- Nothing that a fold began is outstanding (R303, step 3). -/
def drained (s : State) (f : Nat) (fo : Fold) : Bool :=
  fo.flocks.all (fun k => k.2.fifo.isEmpty && k.2.loads.isEmpty && k.2.scr.isEmpty && k.2.tent.isEmpty
      && k.2.ops.all (fun o => (parkedOps fo).contains o.id) && !latePending k.2)
    && !s.ms.msgs.any (fun m => m.fold == f) && !s.ms.peerReqs.any (fun r => r.fold == f) && fo.upds.isEmpty

/-- FOLD_RETIRE: every thread has exited, every flag is zero, every FIFO has drained and every command is complete
(R141). A task is finished and keeps its versions until it commits (R202). -/
def execFoldRetire (f : Nat) (s : State) : Out :=
  match fold? s f with
  | none => .next s
  | some fo =>
    let stops := match fo.halt with | none => false | some h => h.reason != .preempt
    if (coreOf fo).isNone || stops || fo.exhausted || fo.taskFin || !fo.flocks.all (fun k => (liveLanes k.2).isEmpty)
        || !drained s f fo then .next s
    else if fo.isTask then
      let s := vacateCore (dropOwned s f) f .gone
      .next (modFold s f (fun x => { x with taskFin := true, flocks := [], scratch := [], halt := none, imgSize := 0,
                                            since := s.plat.ts, endSrc := srcOf fo }))
    else .next (removeFold (releaseFold s f) f)

/-! ## Tasks (R200 to R203, R280) -/

/-- TASK_TIME_EXHAUST: a resident task's elapsed time exceeds A (R200). -/
def execTaskTimeExhaust (f : Nat) (s : State) : Out :=
  match fold? s f with
  | none => .next s
  | some fo =>
    match grid? s fo.grid with
    | none => .next s
    | some gr =>
      if fo.isTask ∧ !fo.taskFin ∧ (coreOf fo).isSome ∧ gr.record.tallow ≠ 0 ∧ gr.record.tallow < fo.taskTime then
        .next (exhaust s f)
      else .next s

/-- A task is discarded with its versions, its REDs, its regions and the events it has counted (R1, R201). -/
def dropTask (s : State) (f : Nat) : State := untally (discardTask (abortRegions s f 8) f) f

/-- A GRAIN fault: the fold keeps its state for the handler (R200, R201). -/
def grainFault (s : State) (f : Nat) : State :=
  let ts := s.plat.ts
  modFold (dropTask s f) f (fun fo =>
    { fo with exhausted := false,
              halt := some { reason := .fault, wdogBegan := false, stopped := true, cause := BitVec.ofNat 8 cGRAIN, pflock := none, faddr := 0,
                             savets := ts } })

/-- The handler is notified of a saved fold (R299, R338). -/
def noteSaved (s : State) (fo : Fold) (h : Halt) : State :=
  let id := match grid? s fo.grid with | some g => g.id | none => 0
  let src := 0xB * 1024
  let s := if h.reason = .fault then evjAppend s fo.ctx 5 src h.cause.toNat (nat64 fo.image) id else s
  if h.reason = .wdog ∨ h.wdogBegan then evjAppend s fo.ctx 6 src cWDOG (nat64 fo.image) id else s

/-- A fold whose grid has been killed is not run again (R202). -/
def gridKilled (s : State) (fo : Fold) : Bool := match grid? s fo.grid with | some g => g.status != 0 | none => true

/-- An exhausted task ends (R200, R201). -/
def splitTask (s : State) (f : Nat) (fo : Fold) (gr : Grid) : State :=
  let g := gr.record.grain
  if gridKilled s fo then removeFold (dropTask s f) f
  else if (fo.hi - fo.lo).toNat ≤ g then
    let s := grainFault s f
    if fo.place = .saved then
      match fold? s f with
      | some x => match x.halt with
        | some h =>
          let s := (writeVirt s front x.ctx (x.image + 0x28) [2, BitVec.ofNat 8 cGRAIN, 0xFF]).1
          noteSaved s x h
        | none => s
      | none => s
    else s
  else
    let mid := splitPoint fo.lo fo.hi g
    removeFold (addTask (addTask (dropTask s f) fo.grid fo.lo mid) fo.grid mid fo.hi) f

/-- Whether a task that is to be discarded has stopped: it is saved, or it is resident, stopped for that, and drained. A task
whose stop is a fault's or the watchdog's waits for the handler (R299). -/
def discardable (s : State) (f : Nat) (fo : Fold) (r : Reason) : Bool :=
  drained s f fo && (match fo.halt with
    | none => fo.place == .saved || fo.taskFin
    | some h => h.reason == r || (fo.place == .saved && h.reason == .preempt))

/-- TASK_SPLIT: an exhausted task is replaced by its halves or raises GRAIN (R201); a task that lost a pending region is
discarded and run again over its range, finished or not (R280). -/
def execTaskSplit (f : Nat) (s : State) : Out :=
  match fold? s f with
  | none => .next s
  | some fo =>
    match grid? s fo.grid with
    | none => .next s
    | some gr =>
      if !fo.isTask then .next s
      else if fo.exhausted && !fo.taskFin && discardable s f fo .exhaust then .next (splitTask s f fo gr)
      else if fo.lost && discardable s f fo .taskAbort then
        if gridKilled s fo then .next (removeFold (dropTask s f) f)
        else .next (removeFold (addTask (dropTask s f) fo.grid fo.lo fo.hi) f)
      else .next s

/-! ## Stops (R302, R303, R307) -/

/-- A stop that is not a fault begins, and its live regions abort with PREEMPT (R281, R302, R303): of the stops of one cycle
the watchdog's gives the reason. -/
def stopFold (s : State) (f : Nat) (r : Reason) : State :=
  let ts := s.plat.ts
  let cyc := s.plat.cycles / 20
  match fold? s f with
  | none => s
  | some fo =>
    let h : Halt := { reason := r, wdogBegan := false, stopped := true, cause := if r = .wdog then BitVec.ofNat 8 cWDOG else 0,
                      pflock := none, faddr := 0, savets := ts, cyc := cyc }
    match fo.halt with
    | none => if (coreOf fo).isSome then modFold (abortRegions s f 6) f (fun fo => { fo with halt := some h }) else s
    | some o =>
      if o.reason = .preempt ∧ r = .wdog ∧ o.cyc = cyc then modFold s f (fun fo => { fo with halt := some h }) else s

/-- PREEMPT: firmware stops a resident fold (R302). -/
def execPreempt (f : Nat) (s : State) : Out := .next (stopFold s f .preempt)

/-- The fold that firmware pre-empts for a waiting one: the most recently placed fold of the paddock whose priority is
at least 2 greater (R328). -/
def preemptVictim (s : State) (p prio : Nat) : Option Nat :=
  match s.folds.filter (fun e => (coreOf e.2).isSome && (ctx s e.2.ctx).pad == p && decide (prio + 2 ≤ foldPrio s e.2)
      && e.2.halt.isNone) with
  | [] => none
  | e :: r => some (r.foldl (fun b x => if b.2.placed < x.2.placed then x else b) e).1

/-- PRIORITY_PREEMPT: a fold of priority 0 or 1 has waited 10 µs (R328). -/
def execPriorityPreempt (f : Nat) (s : State) : Out :=
  match fold? s f with
  | none => .next s
  | some fo =>
    let prio := foldPrio s fo
    if fo.place ≠ .waiting ∨ 1 < prio ∨ (s.plat.ts - fo.since).toNat < 10000 then .next s
    else match preemptVictim s (ctx s fo.ctx).pad prio with
      | some v => .next (stopFold s v .preempt)
      | none => .next s

/-- WDOG_EXPIRE: the watchdog time reaches WDOG_WINDOW; a task whose time allowance is exhausted takes that first
(R307). -/
def execWdogExpire (f : Nat) (s : State) : Out :=
  match fold? s f with
  | none => .next s
  | some fo =>
    let w := (ctx s fo.ctx).wdogWindow.toNat
    if (coreOf fo).isNone ∨ w = 0 ∨ fo.wdogTime < w ∨ fo.taskFin then .next s
    else
      match grid? s fo.grid with
      | none => .next s
      | some gr =>
        if fo.isTask ∧ gr.record.tallow ≠ 0 ∧ gr.record.tallow < fo.taskTime then .next (exhaust s f)
        else .next (stopFold s f .wdog)

/-! ## Images (R297, R301, R303) -/

/-- The PC that a flock's next issue group would take (R121, R297): 0 when it has no candidate (DESIGN CHOICE, log 43). -/
def nextPc (fl : Flock) : VA :=
  let cand := fl.threads.filter (fun t => !t.2.exited && t.2.park == .none)
  let trap := cand.filter (fun t => t.2.trap.mode)
  match (if trap.isEmpty then cand else trap).map (fun t => t.2.pc) with
  | [] => 0
  | p :: r => r.foldl (fun a b => if b.toNat < a.toNat then b else a) p

/-- A flock's halt record (R297). -/
def haltRecord (fl : Flock) : List Byte :=
  let hpc := match fl.fault with | some x => x.hpc | none => nextPc fl
  let w0 := fl.skid % 4 * 2 ^ 57 + hpc.toNat
  let w1 := match fl.fault with
    | none => 0
    | some x => x.detail.toNat * 2 ^ 48 + (match x.tid with | some t => 2 ^ 26 + t % 1024 * 2 ^ 16 | none => 0)
        + (if x.nest then 256 else 0) + x.cause.toNat
  leBytes 8 w0 ++ leBytes 8 w1

def reasonCode (r : Reason) : Byte :=
  match r with
  | .preempt => 1
  | .wdog => 3
  | _ => 2

/-- The header of an image (R301). -/
def imageHeader (s : State) (fo : Fold) (h : Halt) : List Byte :=
  let id := match grid? s fo.grid with | some g => g.id.toNat | none => 0
  leBytes 8 id ++ leBytes 2 fo.x ++ leBytes 2 fo.y ++ leBytes 2 fo.z ++ leBytes 1 fo.stage ++ leBytes 1 fo.flocks.length
    ++ leBytes 8 (if fo.isTask then fo.lo.toNat else 0) ++ leBytes 8 (if fo.isTask then fo.hi.toNat else 0)
    ++ leBytes 8 h.savets.toNat ++ [reasonCode h.reason, h.cause, match h.pflock with | some k => BitVec.ofNat 8 k | none => 0xFF, 0]
    ++ leBytes 4 fo.imgSize ++ leBytes 8 h.faddr.toNat ++ leBytes 8 fo.beacon.toNat ++ leBytes 8 fo.taskTime
    ++ leBytes 8 fo.wdogTime ++ leBytes 48 0
    ++ (List.range 32).flatMap (fun k => match tget? fo.flocks k with | some fl => haltRecord fl | none => leBytes 16 0)

/-- A flock as an image holds it: its waits are abandoned but for a place at a barrier, and the flags
that only ended commands held are zero (R303); the commands that a resume runs again stay known. -/
def saveFlock (parked : List Nat) (fl : Flock) : Flock :=
  { fl with hold := .none, ex := if fl.bar.isSome then fl.ex else none, flags := [], longs := 0, mon := { fl.mon with got := none },
            ops := fl.ops.filter (fun o => parked.contains o.id) }

/-- The reports or answers of a fold. -/
def ownedBy (l : List Owned) (f : Nat) : List Owned := l.filter (fun o => o.fold == f)

/-- Releases the locks of a stopped fold's ended commands (R303). -/
def releaseCore (s : State) (c : Nat) (fo : Fold) : State := (parkedOps fo).foldl (fun s op => dropLocks s c op) s

/-- FOLD_SAVE: a stopped and drained fold is saved and its resources are freed (R303). A region that a flock began within
its skid aborts first, and HPC is taken after that (R297). -/
def execFoldSave (f : Nat) (s : State) : Out :=
  match fold? s f with
  | none => .next s
  | some fo =>
    match fo.halt, coreOf fo with
    | some h, some c =>
      if h.reason = .exhaust ∨ h.reason = .taskAbort ∨ !drained s f fo then .next s
      else
        let s := releaseCore (abortRegions s f (if h.reason = .fault then 7 else 6)) c fo
        let fo := (fold? s f).getD fo
        let s := (writeVirt s (.die (dieOf c)) fo.ctx fo.image (imageHeader s fo h)).1
        let mx := ownedBy (coreAt s c).mxs f
        let wd := ownedBy (coreAt s c).wdq f
        let s := modFold s f (fun fo => { fo with
          flocks := fo.flocks.map (fun k => (k.1, saveFlock (parkedOps fo) k.2)), mxs := mx, wdq := wd,
          cbufs := fo.cbufs.map (fun b => (b.1, { b.2 with waits := [], lastOp := none })) })
        .next (noteSaved (vacateCore (dropOwned s f) f .saved) fo h)
    | _, _ => .next s

/-! ## Restores (R304) -/

/-- The room that a saved fold needs. -/
def restorable (fo : Fold) : Bool :=
  fo.place == .saved && !fo.exhausted && !fo.lost && (match fo.halt with | none => true | some h => h.reason == .preempt)

/-- Commands that a page fault ended run again from the start (R164): they register their locks and count on their
flags. -/
def restart (s : State) (f c : Nat) (fo : Fold) : State :=
  fo.parked.foldl (fun s x =>
    let d := cmdDesc x.2
    let ls := match d with
      | some d => copyRead f x.2.op d ++ copyWrite f x.2.op d (copyBase fo d x.2.slot)
      | none => []
    let s := modCore s c (fun co => addLocks co ls)
    let flag := ((flock? s f x.2.flock).bind (fun fl => op? fl x.2.op)).bind (·.flag)
    let s := modFlock s f x.2.flock (fun fl => markLong (flagInc fl flag) flag)
    modEngine s (dieOf c) x.1 (fun q => q ++ [{ x.2 with core := c, src := coreSrc c }]))
    (modFold s f (fun fo => { fo with parked := [] }))

/-- Whether a core can take back a saved fold: its room, its controllers and the locks of its commands. -/
def restoreRoom (s : State) (c : Nat) (fo : Fold) : Bool :=
  (coreAt s c).pad == some (ctx s fo.ctx).pad && (coreAt s c).marked.isNone && decide (c % 64 ≠ 0)
    && decide (s.plat.svc = 2 ∨ dieOf c = 0) && !s.plat.moving && roomFor s c (foldNeed fo) && (pickSlot s c).isSome
    && decide (keptSlots s (ctx s fo.ctx).pad (foldQueue s fo) < freeSlots s (ctx s fo.ctx).pad)
    && decide (buffersHeld s c + fo.cbufs.length ≤ 16) && lockRoom (coreAt s c) (2 * fo.parked.length)
    && fo.parked.all (fun x => decide ((engineQ s (dieOf c) x.1).length + fo.parked.length ≤ 32))

/-- FOLD_RESTORE: a saved fold becomes a pending fold of a core of its paddock (R304). -/
def execFoldRestore (f c : Nat) (s : State) : Out :=
  match fold? s f with
  | none => .next s
  | some fo =>
    match pickSlot s c with
    | none => .next s
    | some slot =>
      if !restorable fo ∨ !restoreRoom s c fo then .next s
      else
        let s := modFold s f (fun fo => { fo with
          halt := none, mxs := [], wdq := [],
          flocks := fo.flocks.map (fun k => (k.1, { k.2 with fault := none, skid := 0 })) })
        let s := modCore s c (fun co => { co with mxs := co.mxs ++ fo.mxs, wdq := co.wdq ++ fo.wdq })
        .next (restart (placeOn s f c slot) f c fo)

/-! ## The handler's commands (R299, R339) -/

/-- The saved fold of an image: where it was saved, or, when software has moved it, the one that its header names. -/
def imageFold (s : State) (cx : Nat) (a : VA) : State × Option (Nat × Fold) :=
  match s.folds.find? (fun e => e.2.place == .saved && e.2.ctx == cx && e.2.image == a.toNat) with
  | some e => (s, some e)
  | none =>
    match readVirt s front cx a.toNat 0x18 with
    | (s, .error _) => (s, none)
    | (s, .ok b) => (s, s.folds.find? (fun e => e.2.place == .saved && e.2.ctx == cx
        && (match grid? s e.2.grid with | some g => g.id.toNat == bytesAt b 0 8 | none => false)
        && e.2.x == bytesAt b 8 2 && e.2.y == bytesAt b 10 2 && e.2.z == bytesAt b 12 2 && e.2.stage == bytesAt b 14 1
        && (!e.2.isTask || e.2.lo.toNat == bytesAt b 16 8)))

/-- Causes whose fold may be resumed (R291, R299). -/
def mayResume (cause : Nat) : Bool := [causePage, cWDOG, cHALTF, cTRAP, cRLOCK, cFPTHR, cFEAT, cREPRO].contains cause

/-- Every uncommitted task of a grid is discarded when one of them is killed (R202): a resident one stops for that, whatever
else stops it, and ends at TASK_SPLIT. -/
def killTasks (s : State) (g f : Nat) : State :=
  (s.folds.filter (fun e => e.2.grid == g && e.2.isTask && e.1 != f)).foldl (fun s e =>
    if (coreOf e.2).isSome then
      modFold s e.1 (fun fo => { fo with
        lost := true
        halt := some { reason := .taskAbort, wdogBegan := false, stopped := true, cause := 0, pflock := none, faddr := 0, savets := 0 } })
    else removeFold (dropTask s e.1) e.1) s

/-- A saved fold is killed (R202, R299): its image is discarded and its grid fails. -/
def killFold (s : State) (f : Nat) (fo : Fold) : State :=
  let s := modGrid s fo.grid (fun g => { g with status := 1 })
  if fo.isTask then removeFold (dropTask (killTasks s fo.grid f) f) f else removeFold (releaseFold s f) f

def handlerFold (s : State) (cx : Nat) (a : VA) (go : State → Nat → Fold → Halt → State) : Out :=
  match imageFold s cx a with
  | (s, none) => .next s
  | (s, some (f, fo)) => match fo.halt with
    | some h => .next (go s f fo h)
    | none => .next s

/-- FOLDCMD_RESUME: the fold is to be restored, when its cause allows it; after a watchdog save its watchdog time is 0
(R299, R304, R339). -/
def execFoldcmdResume (cx : Nat) (a : VA) (s : State) : Out :=
  handlerFold s cx a (fun s f fo h =>
    if h.reason = .preempt then s
    else if mayResume h.cause.toNat then
      modFold s f (fun fo => { fo with halt := none, wdogTime := if h.reason = .wdog then 0 else fo.wdogTime })
    else killFold s f fo)

/-- FOLDCMD_KILL (R299, R339). -/
def execFoldcmdKill (cx : Nat) (a : VA) (s : State) : Out := handlerFold s cx a (fun s f fo _ => killFold s f fo)

/-- FOLDCMD_RERUN: a GRAIN task runs again over its range; any other cause acts as kill (R201, R339). -/
def execFoldcmdRerun (cx : Nat) (a : VA) (s : State) : Out :=
  handlerFold s cx a (fun s f fo h =>
    if h.cause.toNat = cGRAIN ∧ fo.isTask then removeFold (addTask s fo.grid fo.lo fo.hi) f else killFold s f fo)

end Sys2Proof.Machine
end

