-- ==== Sys2Proof/Machine/Commits.lean ====
section
/-! DEFINITION. The events of the order arbiter (R251, R273): the commits of regions (R275 to R279) and of tasks (R199, R202,
R203, R280). -/

namespace Sys2Proof.Machine

open Sys2Proof

/-! ## Words that a commit writes -/

/-- A word, with the CMODE and log2 size of its page. -/
structure Touch where
  word : Nat
  cmode : BitVec 2
  size : Nat
  deriving DecidableEq, Repr

def verTouch (v : Ver) : Touch := { word := v.word, cmode := v.cmode, size := v.size }

def versWords (s : State) (rid : Nat) : List Touch :=
  (s.ms.vers.filter (fun v => v.owner == .region rid)).map verTouch

/-- Whether a commit that writes these words is held back: by a BFLIP, by a copy at the host, or by a replicated page (R351,
R358, R359). -/
def commitHeld (s : State) (ws : List Touch) : Bool :=
  ws.any (fun w => !biasReady s (4 * w.word) true || !collapseReady s (4 * w.word) w.cmode)

/-- Asks for what such a commit waits for. -/
def snoopWords (s : State) (ws : List Touch) : State :=
  ws.foldl (fun s w =>
    if collapseReady s (4 * w.word) w.cmode then biasSnoop s (4 * w.word) true else askCollapse s (4 * w.word) w.size) s

/-- Whether a word lies in host memory while no host link is in service (R362). -/
def wordLost (s : State) (w : Nat) : Bool := isHostPa (4 * w) && noHost s

/-- Event 0x0014 of a word that a commit cannot write (R362). -/
def lostWord (s : State) (w : Nat) : State := requestLost s (hostUnit s) (nat64 (4 * w))

/-- The owners of the lines of a commit first perform the entries that wait for them (R350). -/
def clearWay (s : State) (ws : List Touch) : State := (ws.map (fun w => w.word / 32)).eraseDups.foldl drainWaiting s

/-! ## Tasks (R199, R202, R203, R280) -/

/-- The versions of a task in the order in which a commit applies them: the plain ones, then the O versions by key
(R280). -/
def commitVers (s : State) (f : Nat) : List (Nat × Nat × Ver) :=
  s.ms.vers.foldl (fun acc v =>
    match v.owner with
    | .task g => if g = f then insVer (0, v.rank, v) acc else acc
    | .region q => match region? s q with
      | some r => if r.fold = f then insVer (r.key + 1, v.rank, v) acc else acc
      | none => acc) []

/-- The pending REDs of a task in issue order, then by thread (R199). -/
def insRed (r : PRed) : List PRed → List PRed
  | [] => [r]
  | x :: l => if r.rank < x.rank ∨ (r.rank = x.rank ∧ r.tid < x.tid) then r :: x :: l else x :: insRed r l

def commitReds (s : State) (f : Nat) : List PRed :=
  (s.ms.reds.filter (fun r => r.fold == f)).foldl (fun l r => insRed r l) []

/-- Applies a plain or an O version at its home. Its task is over: a word of host memory that no link reaches is noted in the
journal alone (R199, R362; DESIGN CHOICE, log 35). -/
def applyVer (p : Nat → Region → Bool) (s : State) (v : Ver) : State :=
  if wordLost s v.word then lostWord s v.word else homeWrite s v.word v.mask v.val p

/-- Applies one RED at its home, and counts its events (R199, R257). -/
def applyRed (s : State) (src : Nat) (p : Nat → Region → Bool) (r : PRed) : State :=
  if wordLost s (r.pa / 4) then lostWord s (r.pa / 4) else
  let n := atomBytes r.t
  let x := atomNew r.t r.op (nat64 (homeNat s r.pa n)) r.b
  let s := homeWriteBytes s r.pa (leBytes n x.1.toNat) p
  (countEvents s r.ctx src [{ lane := r.tid, mask := x.2 }]).1

/-- The words that a task's commit writes, with their pages. -/
def commitWords (s : State) (f : Nat) : List Touch :=
  (commitVers s f).map (fun v => verTouch v.2.2)
    ++ (commitReds s f).flatMap (fun r => (splitWords r.pa (List.replicate (atomBytes r.t) 0)).map (fun e =>
      { word := e.1, cmode := r.cmode, size := r.size }))

/-- What a task deferred to peers, in the order in which its commit sends it: stores as they came, then REDs in issue order and
by thread (R199). -/
def insPVer (v : PVer) : List PVer → List PVer
  | [] => [v]
  | x :: l => if v.op < x.op ∨ (v.op = x.op ∧ v.tid < x.tid) then v :: x :: l else x :: insPVer v l

def commitPeers (s : State) (f : Nat) : List PVer :=
  let mine := s.ms.pvers.filter (fun v => v.fold == f)
  mine.filter (·.red.isNone) ++ (mine.filter (·.red.isSome)).foldl (fun l v => insPVer v l) []

/-- One of them is sent (R199, R361). Its task is over: a request that no port takes is noted in the journal alone
(DESIGN CHOICE, log 35). -/
def sendPVer (cx : Nat) (s : State) (v : PVer) : State :=
  let what := match v.red with
    | some (t, op) => PeerOp.atom v.va v.data.length t op (nat64 (ofLe v.data))
    | none => PeerOp.store v.va v.data
  match portFor s v.fold v.flock v.node with
  | none => requestLost s noPort (v.node ++ v.va)
  | some port =>
    let s := sendPeer s v.fold v.flock v.op v.tid false v.node v.va what port
    modMs s (fun m => { m with peerReqs := m.peerReqs.map (fun r => if r.fold == v.fold then { r with ctx := cx } else r) })

/-- Whether a finished task's turn has come (R202, R203). -/
def commitTurn (s : State) (fo : Fold) (gr : Grid) : Bool :=
  let od := (ctx s fo.ctx).od
  !isOrder gr.record || (od.holder == some fo.grid && od.f == (od.base + fo.lo.toNat) % 2 ^ 48)

/-- Whether a commit of a task aborts an O region (R278): one of a later task of the same ORDER grid, that has read the word
from the committed value. -/
def losesToTask (s : State) (f : Nat) (fo : Fold) (gr : Grid) (w : Nat) (r : Region) : Bool :=
  isOrder gr.record && r.cls == 2 && r.fold != f && (match fold? s r.fold with | some o => o.grid == fo.grid | none => false)
    && r.reads.any (fun x => x.word == w && x.level == 0)

def loseToTask (f : Nat) (fo : Fold) (gr : Grid) (s : State) (w : Nat) : State :=
  (s.ms.regions.filter (fun e => losesToTask s f fo gr w e.2)).foldl (fun s e => abortRegion s e.1 1) s

/-- V and E regions that have read a word which a task commits are validated (R275). -/
def notO (_ : Nat) (x : Region) : Bool := x.cls != 2

/-- The effect of a commit (R199, R202, R203, R280). -/
def commitTask (s : State) (f : Nat) (fo : Fold) (gr : Grid) : State :=
  let ws := commitWords s f
  let vs := commitVers s f
  let rs := commitReds s f
  let ps := commitPeers s f
  let s := vs.foldl (fun s v => applyVer notO s v.2.2) s
  let s := rs.foldl (fun s r => applyRed s fo.endSrc notO r) s
  let s := (ws.map (·.word)).foldl (loseToTask f fo gr) s
  let s := ws.foldl (fun s w => dropRange s (4 * w.word) 4) (discardTask s f)
  let s := ps.foldl (sendPVer fo.ctx) s
  let s := if isOrder gr.record then setFrontier s fo.ctx ((ctx s fo.ctx).od.f + (fo.hi - fo.lo).toNat) else s
  let s := modGrid s fo.grid (fun g => { g with committed := g.committed + (fo.hi - fo.lo) })
  foldGone s f fo.grid

/-- Whether a finished task may commit now (R202, R203); one that lost a pending region runs again (R280). -/
def taskReady (s : State) (f : Nat) (fo : Fold) : Bool :=
  fo.isTask && fo.taskFin && !fo.lost && (match grid? s fo.grid with | some gr => commitTurn s fo gr | none => false)
    && !s.ms.msgs.any (fun m => m.fold == f)

/-! ## Regions (R273, R275 to R279) -/

/-- The events of instructions of a committed region that have still to complete count as any others (R1; log 35). -/
def keepEvents (s : State) (f k rid : Nat) : State :=
  modFlock s f k (fun fl => { fl with ops := fl.ops.map (fun o =>
    { o with evs := o.evs.map (fun e => if e.rid == some rid then { e with rid := none } else e) }) })

/-- Commits a region at a position: its versions are applied at their homes as engine writes, regions that read the words are
validated as R275 and R276 give, the commit rows of R276 are sent to every elastic region, and every copy of the words leaves
every view (R273). -/
def commitRegion (s : State) (rid : Nat) (tpos : W64) (pos : Option Nat) : State :=
  match region? s rid with
  | none => s
  | some r =>
    let vs := s.ms.vers.filter (fun v => v.owner == .region rid)
    let valid := fun (q : Nat) (x : Region) => q != rid &&
      (match r.cls.toNat with
       | 0 => true
       | 1 => x.cls != 1
       | _ => x.cls != 2)
    let s := vs.foldl (fun s v => homeWrite s v.word v.mask v.val valid) s
    let ws := vs.map (·.word)
    let s := ws.foldl (fun s w => dropRange s (4 * w) 4) s
    let s := match pos with
      | some p =>
        if r.cls = 1 then
          let s := modMs s (fun m => { m with eWriters := ws.foldl (fun t w => tput t w p) m.eWriters })
          (s.ms.regions.filter (fun e => e.1 != rid && e.2.cls == 1)).foldl (fun s e =>
            let s := if e.2.reads.any (fun x => ws.contains x.word) then sendNarrow s e.1 false p none else s
            if s.ms.vers.any (fun y => y.owner == .region e.1 &&
                (ws.contains y.word || r.reads.any (fun x => x.word == y.word)))
            then sendNarrow s e.1 true (p + 1) none else s) s
        else s
      | none => s
    let s := modMs s (fun m =>
      { m with vers := m.vers.filter (fun v => v.owner != .region rid), regions := tdel m.regions rid })
    match regionThread s r with
    | none => s
    | some (k, l, _) => modThread (keepEvents s r.fold k rid) r.fold k l (fun t => { t with reg := { t.reg with live := false, tpos := tpos } })

/-- Whether the arbiter may take the event of a region (R273, R277, R279): the accesses of a sealed V or E region have reached
their homes, and for an E region no narrowing message to it is under way and the domain is free; an O region's turn is the
frontier. -/
def commitReady (s : State) (rid : Nat) (r : Region) : Bool :=
  !commitsOver s r.fold &&
  if r.phase == .waitO then
    let od := (ctx s r.ctx).od
    r.cls == 2 && od.window.isSome && od.pendO.find? (fun p => p.1 == od.f) == some (od.f, rid)
  else r.phase == .sealed && regionQuiet s rid && (r.cls == 0 || (r.cls == 1 && (ctx s r.ctx).od.holder.isNone && (ctx s r.ctx).od.window.isNone
      && !s.ms.narrow.any (fun n => n.rid == rid)))

/-- Whether a commit event that has reached the arbiter comes before one with a time stamp and a source (R251, R273). -/
def earlierCommit (s : State) (ts : W64) (src : Nat) : Bool :=
  let before := fun (t : W64) (x : Nat) => decide (t.toNat < ts.toNat ∨ (t = ts ∧ x < src))
  s.ms.regions.any (fun e => before e.2.ts e.2.src && commitReady s e.1 e.2)
    || s.folds.any (fun e => before e.2.since e.2.endSrc && taskReady s e.1 e.2)

/-- Whether a commit would write a word of host memory that no link reaches, and the fault of it: UCE of the region's thread,
whose fold's regions abort (R281, R362; DESIGN CHOICE, log 35). -/
def wordsLost (s : State) (ws : List Touch) : Option Nat := (ws.find? (fun w => wordLost s w.word)).map (·.word)

def commitError (s : State) (rid w : Nat) : State :=
  match (region? s rid).bind (fun r => (regionThread s r).map (fun t => (r, t))) with
  | none => s
  | some (r, k, l, t) => requestError s r.fold k l t.pc (nat64 (4 * w)) (hostUnit s)

/-- A region commits, unless a store that first makes way for it aborts it, or a word that it writes is out of reach (R275, R350,
R362). -/
def commitOrLost (s : State) (rid : Nat) (go : State → State) : State :=
  let s := clearWay s (versWords s rid)
  if (region? s rid).isNone then s
  else match wordsLost s (versWords s rid) with
    | some w => commitError s rid w
    | none => go s

/-- V_COMMIT: the arbiter's event of a V region at TEND (R273, R275). -/
def execVCommit (f k l : Nat) (s : State) : Out :=
  match waitingRegion s f k l with
  | none => .next s
  | some (rid, r) =>
    if r.cls ≠ 0 ∨ !commitReady s rid r ∨ earlierCommit s r.ts r.src then .next s
    else if commitHeld s (versWords s rid) then .next (snoopWords s (versWords s rid))
    else .next (commitOrLost s rid (fun s => commitRegion s rid (BitVec.allOnes 64) none))

/-- E_COMMIT: the arbiter's event of a sealed E region (R277). -/
def execECommit (f k l : Nat) (s : State) : Out :=
  match waitingRegion s f k l with
  | none => .next s
  | some (rid, r) =>
    if r.cls ≠ 1 ∨ !commitReady s rid r ∨ earlierCommit s r.ts r.src then .next s
    else
      let b := bounds s r
      let g := max b.1 (ctx s r.ctx).od.f
      if b.2 < g ∨ g = 2 ^ 48 - 1 then .next (abortRegion s rid 1)
      else if commitHeld s (versWords s rid) then .next (snoopWords s (versWords s rid))
      else .next (commitOrLost s rid (fun s => setFrontier (commitRegion s rid (nat64 g) (some g)) r.ctx (g + 1)))

/-- TASK_COMMIT: a finished task commits as one event of the arbiter (R202). -/
def execTaskCommit (f : Nat) (s : State) : Out :=
  match fold? s f with
  | none => .next s
  | some fo =>
    match grid? s fo.grid with
    | none => .next s
    | some gr =>
      if !taskReady s f fo ∨ earlierCommit s fo.since fo.endSrc then .next s
      else if commitHeld s (commitWords s f) then .next (snoopWords s (commitWords s f))
      else
        let s := clearWay s (commitWords s f)
        .next (if (match fold? s f with | some fo => fo.lost | none => true) then s else commitTask s f fo gr)

/-- O_COMMIT: the region pending at the frontier commits, in the arbiter's order (R251, R273, R279). -/
def execOCommit (cx : Nat) (s : State) : Out :=
  let od := (ctx s cx).od
  if od.window.isNone then .next s
  else
    match od.pendO.find? (fun p => p.1 == od.f) with
    | none => .next (settleFrontier s cx)
    | some (p, rid) =>
      if (match region? s rid with | some r => !commitReady s rid r || earlierCommit s r.ts r.src | none => true) then .next s
      else if commitHeld s (versWords s rid) then .next (snoopWords s (versWords s rid))
      else
        .next (commitOrLost s rid (fun s =>
          let s := commitRegion s rid (nat64 p) (some p)
          let s := modCtx s cx (fun k => { k with od := { k.od with pendO := k.od.pendO.filter (fun q => q.1 != p) } })
          settleFrontier (setFrontier s cx (p + 1)) cx))

end Sys2Proof.Machine
end

