-- ==== Sys2Proof/Machine/System.lean ====
section
/-! DEFINITION. The system registers (R100, R128, R158, R178, R267, R300, R308, R312), and the other instructions of
group 0xB: BEACON, EVMARK and BFLIP (R306, R313 to R315, R358, R359). -/

namespace Sys2Proof.Machine

open Sys2Proof

/-! ## Numbers (R308) -/

def isCoreReg (n : Nat) : Bool := n == 0x080 || n == 0x081

/-- The numbers that R308 lists. -/
def isListed (n : Nat) : Bool :=
  decide (n ≤ 0x01A) || decide (0x020 ≤ n ∧ n ≤ 0x023) || decide (0x030 ≤ n ∧ n ≤ 0x033) || n == 0x040 || n == 0x041
    || decide (0x044 ≤ n ∧ n ≤ 0x047) || decide (0x050 ≤ n ∧ n ≤ 0x052) || n == 0x060 || n == 0x061 || isCoreReg n
    || n == 0x090

/-- The User column: whether a thread that is not privileged may read, or write, a register. -/
def userReads (n : Nat) : Bool := !(n == 0x040 || n == 0x060 || n == 0x061)
def userWrites (n : Nat) : Bool := decide (n ≤ 0x007)

/-! ## Reading -/

/-- ODW (R267): bit 63 while a window is open, with the positions left. -/
def odwRead (od : OrderDom) : W64 :=
  match od.window with
  | some n => nat64 (2 ^ 63 + (od.base + n - od.f) % 2 ^ 48)
  | none => 0

/-- ODHOLD (R267). -/
def odHold (s : State) (od : OrderDom) : W64 :=
  match od.holder.bind (grid? s) with
  | some g => g.id
  | none => 0

/-- A context's register, zero-extended. -/
def ctxRegRead (s : State) (c n : Nat) : W64 :=
  let k := ctx s c
  if n ≤ 0x007 then (fpevCount k.fpev n).setWidth 64
  else if n ≤ 0x00F then (fpevWin k.fpev (n - 0x008)).setWidth 64
  else if n ≤ 0x017 then (fpevLim k.fpev (n - 0x010)).setWidth 64
  else match n with
    | 0x018 => k.fpev.window
    | 0x019 => k.fpev.action.setWidth 64
    | 0x01A => k.fpev.numctl.setWidth 64
    | 0x020 => k.trapvec
    | 0x021 => k.feattab
    | 0x022 => k.wdogWindow
    | 0x030 => nat64 k.od.f
    | 0x031 => nat64 k.od.base
    | 0x032 => odwRead k.od
    | 0x033 => odHold s k.od
    | 0x040 => k.ptroot
    | 0x041 => k.occSoft.setWidth 64
    | 0x044 => nat64 (occCount s c 0)
    | 0x045 => nat64 (occCount s c 1)
    | 0x046 => nat64 (occCount s c 2)
    | 0x047 => nat64 (occCount s c 3)
    | 0x050 => k.fpoolBase
    | 0x051 => k.fpoolSize
    | 0x052 => nat64 (fpoolFree s c)
    | 0x060 => k.saveBase
    | 0x061 => k.saveSize
    | 0x090 => k.mergeConflicts
    | _ => 0

/-- HEAVY_TOKENS and HEAVY_HELD (R128). -/
def coreRegRead (s : State) (c n : Nat) : W64 := nat64 (if n = 0x080 then (coreAt s c).grant else (coreAt s c).held)

/-! ## Writing -/

def modFpev (s : State) (c : Nat) (g : Fpev → Fpev) : State := modCtx s c (fun k => { k with fpev := g k.fpev })

/-- A write to FPEV_LIM or FPEV_ACTION restarts the one window when FPEV_WINDOW is 0 (R100). -/
def fpevRestart (s : State) (c : Nat) : State := if (ctx s c).fpev.window = 0 then windowClear s c else s

/-- A write to ODW (R267): a window opens at the frontier, unless the domain has a holder or the positions run out. -/
def odwOpen (s : State) (c : Nat) (v : W64) : State :=
  let od := (ctx s c).od
  let n := bits v 47 0
  if n = 0 ∨ od.holder.isSome ∨ od.window.isSome ∨ 2 ^ 48 - 1 < od.f + n then s
  else modCtx s c (fun k => { k with od := { k.od with window := some n, base := k.od.f, vacated := [] } })

/-- FPOOL registers are fixed while a frame of the context is allocated (R178). -/
def modPool (s : State) (c : Nat) (g : Ctx → Ctx) : State := if (framesOf s c).isEmpty then modCtx s c g else s

/-- A privileged write to a context's register; a write to an RO register is ignored (R4, R312). -/
def ctxRegWrite (s : State) (c n : Nat) (v : W64) : State :=
  if n ≤ 0x007 then fpevCountWrite s c n (v.setWidth 32)
  else if n ≤ 0x00F then s
  else if n ≤ 0x017 then
    fpevRestart (modFpev s c (fun p => { p with lim := tset p.lim (n - 0x010) (v.setWidth 32) 0xFFFFFFFF })) c
  else match n with
    | 0x018 => modFpev s c (fun p => { p with window := v })
    | 0x019 => fpevRestart (modFpev s c (fun p => { p with action := (v.setWidth 16).setWidth 32 })) c
    | 0x01A => modFpev s c (fun p => { p with numctl := (v.setWidth 1).setWidth 32 })
    | 0x020 => modCtx s c (fun k => { k with trapvec := (v.setWidth 57).setWidth 64 })
    | 0x021 => modCtx s c (fun k => { k with feattab := v &&& 0x01FFFFFFFFFFFFF8 })
    | 0x022 => modCtx s c (fun k => { k with wdogWindow := v })
    | 0x032 => odwOpen s c v
    | 0x040 => modCtx s c (fun k => { k with ptroot := v &&& 0x0000FFFFFFE00000 })
    | 0x041 => modCtx s c (fun k => { k with occSoft := v.setWidth 32 })
    | 0x050 => modPool s c (fun k => { k with fpoolBase := v &&& 0x01FFFFFFFFE00000 })
    | 0x051 => modPool s c (fun k => { k with fpoolSize := v &&& 0xFFFFFFFFFFE00000 })
    | 0x060 => modCtx s c (fun k => { k with saveBase := v })
    | 0x061 => modCtx s c (fun k => { k with saveSize := v })
    | _ => s

/-- A privileged write to a core's register: GRANT, and 9 to 15 are ignored (R128). -/
def coreRegWrite (s : State) (c n : Nat) (v : W64) : State :=
  if n = 0x080 ∧ bits v 3 0 ≤ 8 then modCore s c (fun co => { co with grant := bits v 3 0 }) else s

/-! ## SYSR and SYSW (R308, R312) -/

/-- The context and the core that an access names. -/
def sysTarget (c : Cx) (b : CtxOpd) : Nat × Nat :=
  match b with
  | .own => (c.fo.ctx, c.c)
  | .other o => (bits (rdS c o) 11 0, dieOf c.c * 64 + bits (rdS c o) 17 12)

/-- The fault of an access, if any (R312). -/
def sysFault (s : State) (c : Cx) (n : Nat) (b : CtxOpd) (allowed : Bool) : Option Nat :=
  if !isListed n then some cILLOP
  else if !privileged c && (!allowed || b != .own) then some causeProt
  else if b != .own && !isCoreReg n && n != 0x023 && !(ctx s (sysTarget c b).1).live then some causeProt
  else none

def execSysr (h : Hd) (d : Opd) (reg : BitVec 12) (b : CtxOpd) (s : State) : Out :=
  word h s (fun c ex =>
    let n := reg.toNat
    match sysFault s c n b (userReads n) with
    | some cause => faultHere s c cause ex.head? 0
    | none =>
      let t := sysTarget c b
      let v := if n = 0x023 then (if privileged c then 1 else 0)
        else if isCoreReg n then coreRegRead s t.2 n else ctxRegRead s t.1 n
      advance (writeS s c d v) c h)

/-- SYSW: the value is in effect at once at every unit (R312). -/
def execSysw (h : Hd) (reg : BitVec 12) (a : Opd) (b : CtxOpd) (s : State) : Out :=
  word h s (fun c ex =>
    let n := reg.toNat
    match sysFault s c n b (userWrites n) with
    | some cause => faultHere s c cause ex.head? 0
    | none =>
      let t := sysTarget c b
      let s := regionBar s c ex
      let s := if n = 0x023 then s
        else if isCoreReg n then coreRegWrite s t.2 n (rdS c a) else ctxRegWrite s t.1 n (rdS c a)
      advance s c h)

/-! ## BEACON and EVMARK -/

/-- A BEACON whose operand is greater than the beacon value is progress (R305, R306). -/
def beaconFold (v : W64) (fo : Fold) : Fold :=
  if fo.beacon.toNat < v.toNat then { fo with beacon := v, wdogTime := 0 } else fo

def execBeacon (h : Hd) (b : Src) (s : State) : Out :=
  uword h s (fun c _ => modFold s c.f (beaconFold (rdSrcS c .u64 b)))

def execEvmark (h : Hd) (a : Opd) (code : BitVec 16) (s : State) : Out :=
  word h s (fun c _ => pushEvq h s c (nat64 (0x10000 + code.toNat)) (rdS c a))

/-! ## BFLIP (R314, R358, R359) -/

def hostBias (s : State) (block : Nat) : Bool := s.ms.biasHost.contains block

/-- The lines of a block. -/
def blockLines (block : Nat) : List Nat := (List.range 32).map (fun i => 32 * block + i)

/-- The flip of a block that is in progress. -/
def flipOf (s : State) (block : Nat) : Option Flip := s.ms.flips.find? (fun x => x.begun && x.block == block)

/-- A flip to device bias snoops the block's lines in ascending order, one after another (R359). -/
def flipSnoop (s : State) (block : Nat) : State :=
  match flipOf s block with
  | some x =>
    if x.toHost then s
    else match (blockLines block).find? (fun l => !x.done.contains l) with
      | some l => sendSnoop s l true
      | none => s
  | none => s

/-- The flip of a block that begins next: the earliest, then the lower source (R251, R314). -/
def nextFlip (s : State) (block : Nat) : Option Flip :=
  match s.ms.flips.filter (fun x => x.block == block) with
  | [] => none
  | e :: r => some (r.foldl (fun b x => if x.ts.toNat < b.ts.toNat ∨ (x.ts = b.ts ∧ x.src < b.src) then x else b) e)

def dropFlip (s : State) (x : Flip) : State := modMs s (fun m => { m with flips := m.flips.filter (fun y => y.op != x.op) })

/-- A flip is over: its flag falls (R314). -/
def flipDone (s : State) (x : Flip) : State := partDone (dropFlip s x) x.fold x.flock x.op []

/-- Begins the flips of a block as far as they can: a flip to the bias that the block has completes at once (R314). -/
def startFlips (block : Nat) : Nat → State → State
  | 0, s => s
  | n + 1, s =>
    if (flipOf s block).isSome then s
    else
      match nextFlip s block with
      | none => s
      | some x =>
        if x.toHost = hostBias s block then startFlips block n (flipDone s x)
        else flipSnoop (modMs s (fun m => { m with flips := m.flips.map (fun y =>
          if y.op == x.op then { y with begun := true } else y) })) block

/-- BFLIP: PAGE and PROT, then ILLOP in a task; the block is translated as a store translates it, and the flip joins the
others of its block (R314, R378). -/
def bflip (h : Hd) (a : Opd) (toHost : Bool) (s : State) : Out :=
  word h s (fun c ex =>
    let va := rdS c a
    if bits va 63 57 ≠ 0 then faultHere s c causeProt ex.head? va
    else if flagFull c.fl c.g h then waitRoom s c (flagWait c.g h)
    else
      match translate s (.core c.c) c.fo.ctx (bits va 56 0) .store with
      | (s, .error cause) => faultHere s c cause ex.head? va
      | (s, .ok t) =>
        if !exposed s t.pa then faultHere s c causeProt ex.head? va
        else if c.fo.isTask then illop s c ex
        else
          let s := regionBar s c ex
          let (id, s) := fresh s
          let s := startOp s c.f c.k { newOp c h id .flip none with left := 1 }
          let x : Flip := { block := t.pa / 4096, toHost := toHost, fold := c.f, flock := c.k, op := id, src := coreSrc c.c,
                            ts := s.plat.ts, done := [], begun := false }
          let s := modMs s (fun m => { m with flips := m.flips ++ [x] })
          advance (startFlips x.block (s.ms.flips.length + 1) s) c h)

def execBflipDev (h : Hd) (a : Opd) (s : State) : Out := bflip h a false s
def execBflipHost (h : Hd) (a : Opd) (s : State) : Out := bflip h a true s

/-- Step 1 of R358 for one line: every owner is revoked, then every device copy is removed. -/
def cleanLine (s : State) (line : Nat) : State :=
  let s := dropRange (revokeAll s line) (128 * line) 128
  setLine s line { m := none, s := 0 }

def setBias (s : State) (block : Nat) (toHost : Bool) : State :=
  modMs s (fun m => { m with biasHost :=
    if toHost then m.biasHost ++ [block] else m.biasHost.filter (· != block) })

/-- BFLIP_COMPLETE: the lines that are left are processed, the bias changes and the flag falls (R358); a flip to device
bias first has the host's answer for every line (R359). -/
def execBflipComplete (block : Nat) (s : State) : Out :=
  match flipOf s block with
  | none => .next s
  | some x =>
    let left := (blockLines block).filter (fun l => !x.done.contains l)
    if x.toHost then
      let s := left.foldl (fun s l => cleanLine (drainWaiting s l) l) s
      let s := flipDone (setBias s block true) x
      .next (startFlips block (s.ms.flips.length + 1) s)
    else if left.isEmpty then
      let s := flipDone (setBias s block false) x
      .next (startFlips block (s.ms.flips.length + 1) s)
    else .next s

end Sys2Proof.Machine
end

