-- ==== Sys2Proof/Machine/Queues.lean ====
section
/-! DEFINITION. Queues, contexts and the registers of the host's window (R4, R319 to R321, R325, R329, R338, R340 to R342,
R355, R370): doorbells, the taking of packets and their checks, migration, and the writes that have no behaviour of their
own. -/

namespace Sys2Proof.Machine

open Sys2Proof

/-! ## Taking packets (R321, R322) -/

/-- Bytes of a context's memory read by a front end; an address with bits [63:57] set does not translate. -/
def feRead (s : State) (d cx a n : Nat) : State × Option (List Byte) :=
  if 2 ^ 57 ≤ a then (s, none)
  else match readVirt s (.die d) cx a n with
    | (s, .error _) => (s, none)
    | (s, .ok b) => (s, some b)

def slotCount (q : Queue) : Nat := 2 ^ bits q.size 4 0

/-- Fields of a packet's trailer and of the bytes common to all types. -/
def pkType (p : Packet) : Nat := pkNat p 252 1
def pkClass (p : Packet) : Nat := pkNat p 253 1 % 16
def pkRelease (p : Packet) : Nat := pkNat p 253 1 / 16 % 4
def pkAcquire (p : Packet) : Nat := pkNat p 253 1 / 64
def pkProlen (p : Packet) : Nat := pkNat p 0x94 2
def pkProaddr (p : Packet) : Nat := pkNat p 0x98 8

/-- A reserved field is not zero, or a field of a body is out of range (R322, ECODE 0x31). -/
def packetBad (p : Packet) : Bool :=
  let t := pkType p
  let pro := pkProlen p
  decide (pkNat p 254 1 ≠ 0 ∨ pkNat p 0x90 4 / 2 ≠ 0 ∨ pkNat p 0x96 2 ≠ 0 ∨ pkNat p 0xE0 28 ≠ 0 ∨ pkNat p 0x80 8 % 16 ≠ 0)
    || decide (64 < pro ∨ (t ≠ 1 ∧ pro ≠ 0))
    || (if pro = 0 then decide (pkProaddr p ≠ 0 ∨ pkNat p 0xA0 64 ≠ 0) else decide (pkProaddr p % 4 ≠ 0))
    || (match t with
        | 2 | 6 => decide (pkNat p 0 128 ≠ 0)
        | 3 => decide (pkNat p 0 8 % 8 ≠ 0 ∨ 2 < pkNat p 0x10 112)
        | 4 => decide (pkNat p 0 8 % 4096 ≠ 0 ∨ pkNat p 0x10 112 ≠ 0)
        | 5 => decide (pkNat p 0x10 8 % 64 ≠ 0 ∨ pkNat p 0x20 96 ≠ 0)
        | _ => false)

/-- The error code of a packet, 0 for none (R325). -/
def packetCode (p : Packet) : Nat :=
  if pkType p = 0 ∨ 6 < pkType p ∨ 2 < pkClass p ∨ pkRelease p = 3 ∨ pkAcquire p = 3 then 0x30
  else if packetBad p then 0x31
  else if pkType p = 1 ∧ !recordOk (p.bytes.take 128) then 0x32
  else 0

/-- QHEAD moves to the next slot; at the wrap the tag advances (R321). -/
def advanceHead (q : Queue) : Queue :=
  if q.head + 1 < slotCount q then { q with head := q.head + 1 } else { q with head := 0, tag := q.tag % 255 + 1 }

def newPacket (id slot : Nat) (b : List Byte) : Packet :=
  { id := id, slot := slot, bytes := b, started := false, grid := none, launches := 0, rep := 0, repMax := none,
    failed := false, refused := false, dead := false }

/-- QDOOR: the front end examines the queue's next slot (R321). -/
def execQdoor (q : Nat) (s : State) : Out :=
  .next (if queueEn (queue s q) then modQueue s q (fun x => { x with door := true }) else s)

/-- PACKET_TAKE: a slot whose valid byte equals the tag is read whole and checked (R321, R325). -/
def execPacketTake (q : Nat) (s : State) : Out :=
  let x := queue s q
  if !x.door || !queueEn x || bitOf x.stat 0 || s.plat.moving then .next s
  else
    match feRead s (q % 4) (queueCtx x) (bits x.base 56 8 * 256 + 256 * x.head) 256 with
    | (s, none) => .next (queueError (modQueue s q advanceHead) q 0x33 x.head)
    | (s, some b) =>
      if bytesAt b 255 1 ≠ x.tag then .next (modQueue s q (fun x => { x with door := false }))
      else
        let (id, s) := fresh s
        let p := newPacket id x.head b
        let s := modQueue s q advanceHead
        if packetCode p ≠ 0 then .next (queueError s q (packetCode p) x.head)
        else .next (modQueue s q (fun x => { x with packets := x.packets ++ [p] }))

/-! ## Queue registers (R319, R320, R325) -/

/-- The write of QCTL: CTX is fixed while EN is 1, and EN is set only for a context that exists (R319, R320). Setting EN
resets QHEAD and the tag, unless an import has been written (R321). -/
def writeQctl (s : State) (q : Nat) (v : W32) : State :=
  modQueue s q (fun x =>
    let cx := if queueEn x then queueCtx x else bits v 27 16
    let on := bitOf v 0 && (queueEn x || (ctx s cx).live)
    let x := if on && !queueEn x then
        (if x.imported then { x with imported := false } else { x with head := 0, tag := 1 })
      else x
    { x with ctl := BitVec.ofNat 32 (cx * 65536 + bits v 4 1 * 2 + (if on then 1 else 0)) })

/-- QUEUE_ENABLE: a write of QCTL that sets EN. -/
def execQueueEnable (q : Nat) (v : W32) (s : State) : Out := .next (writeQctl s q (v ||| 1))

/-- QSTAT_ERR_CLEAR: the queue resumes after the packet in error (R325). -/
def execQstatErrClear (q : Nat) (s : State) : Out :=
  if bitOf (queue s q).stat 0 then
    .next (modQueue s q (fun x => { x with
      stat := x.stat &&& 0xFFFFFFFE, door := queueEn x, packets := x.packets.filter (fun p => !p.dead) }))
  else .next s

/-! ## Migration (R340, R341) -/

/-- QHEAD: the index and the pass tag (R320). -/
def qheadWord (q : Queue) : Nat := q.head % 65536 + q.tag % 256 * 65536

/-- The canonical record of a queue (R340). -/
def canonical (q : Queue) : List Byte :=
  leBytes 8 q.base.toNat ++ leBytes 4 q.size.toNat ++ leBytes 4 q.ctl.toNat ++ leBytes 4 q.resv.toNat
    ++ leBytes 4 q.vec.toNat ++ leBytes 4 (qheadWord q) ++ leBytes 4 q.stat.toNat ++ List.replicate 32 0

/-- QEXPORT: while EN is cleared and no packet is started (R340). -/
def execQexport (q : Nat) (a : VA) (s : State) : Out :=
  let x := queue s q
  if queueEn x || x.packets.any (·.started) then .next s
  else .next (writeVirt s (.die (q % 4)) (queueCtx x) (a.toNat / 64 * 64) (canonical x)).1

/-- A queue's registers from a canonical record; bits that the registers reserve stay zero (R4, R320, R341). -/
def fromCanonical (x : Queue) (b : List Byte) : Queue :=
  { x with
    base := nat64 (bytesAt b 0 8) &&& 0x01FFFFFFFFFFFF00
    size := BitVec.ofNat 32 (bytesAt b 8 4 % 32)
    ctl := BitVec.ofNat 32 (bytesAt b 12 4) &&& 0x0FFF001E
    resv := BitVec.ofNat 32 (bytesAt b 16 4 % 65536)
    vec := BitVec.ofNat 32 (bytesAt b 20 4 % 2048)
    head := bytesAt b 24 2
    tag := bytesAt b 26 1
    stat := BitVec.ofNat 32 (bytesAt b 28 4) &&& 0xFFFFFF01
    imported := true }

/-- QIMPORT: as writes to QBASE, QSIZE and CTX, it is ignored while EN is 1 (R320, R341). -/
def execQimport (q : Nat) (a : VA) (s : State) : Out :=
  let x := queue s q
  if queueEn x then .next s
  else match feRead s (q % 4) (queueCtx x) (a.toNat / 64 * 64) 64 with
    | (s, none) => .next s
    | (s, some b) => .next (modQueue s q (fun x => fromCanonical x b))

/-! ## Contexts (R319) -/

/-- A refused CTXCMD (R319). -/
def ctxRefused (s : State) (code : Nat) : State := modPlat s (fun p => { p with ctxErr := true, ctxEcode := code })

def ctxDone (s : State) : State := modPlat s (fun p => { p with ctxErr := false, ctxEcode := 0 })

/-- CONTEXT_CREATE: every register of the context takes its Reset value, and its frontiers are 0 (R319). -/
def execContextCreate (c owner : Nat) (s : State) : Out :=
  if 4096 ≤ c then .next s
  else if (ctx s c).live then .next (ctxRefused s 1)
  else if s.plat.vfs < owner then .next (ctxRefused s 4)
  else
    let s := modCtx s c (fun _ => { Ctx.reset with live := true, owner := owner })
    let s := { s with cores := s.cores.map (fun e => (e.1, { e.2 with frontier := tdel e.2.frontier c })) }
    .next (ctxDone (modMs s (fun m => { m with l2 := m.l2.filter (fun e => e.ctx != c), fronts := m.fronts.filter (fun e => e.ctx != c) })))

/-- Cores of paddocks that are no longer in use become free (R329). -/
def freeCores (s : State) : State := (s.cores.map (·.1)).foldl freeCore s

/-- Whether something of a context is left (R319). -/
def ctxInUse (s : State) (c : Nat) : Bool :=
  s.queues.any (fun e => queueEn e.2 && queueCtx e.2 == c) || s.grids.any (fun e => e.2.ctx == c)
    || s.folds.any (fun e => e.2.ctx == c) || s.ms.vers.any (fun v => v.ctx == c)

/-- Every cached translation of a context is removed (R319). -/
def forgetCtx (s : State) (c : Nat) : State :=
  let keep := fun (l : List TlbE) => l.filter (fun e => e.ctx != c)
  { s with cores := s.cores.map (fun e => (e.1, { e.2 with tlb := keep e.2.tlb })),
           dies := s.dies.map (fun e => (e.1, { e.2 with tlb := keep e.2.tlb })) }

/-- CONTEXT_DESTROY (R319). -/
def execContextDestroy (c : Nat) (s : State) : Out :=
  if 4096 ≤ c then .next s
  else if !(ctx s c).live then .next (ctxRefused s 2)
  else if ctxInUse s c then .next (ctxRefused s 3)
  else .next (ctxDone (freeCores (forgetCtx { s with ctxs := tdel s.ctxs c } c)))

/-! ## Register writes with a row of their own -/

/-- ODW_WRITE by the host (R267, R308). -/
def execOdwWrite (c : Nat) (v : W64) (s : State) : Out := .next (if (ctx s c).live then odwOpen s c v else s)

/-- FPEV_LIMIT_WRITE: a write to FPEV_LIM or FPEV_ACTION by the host (R100). -/
def execFpevLimitWrite (c n : Nat) (v : W32) (s : State) : Out :=
  .next (if (ctx s c).live ∧ (0x010 ≤ n ∧ n ≤ 0x017 ∨ n = 0x019) then ctxRegWrite s c n (v.setWidth 64) else s)

def modDirty (s : State) (c : Nat) (g : Dirty → Dirty) : State := modCtx s c (fun k => { k with dirty := g k.dirty })

/-- DIRTY_ENABLE: setting EN sets DIRTY_TAIL to DIRTY_HEAD (R342). -/
def setDirty (s : State) (c : Nat) : State :=
  modDirty s c (fun d => if d.en then d else { d with en := true, tail := d.head, last := none })

def execDirtyEnable (c : Nat) (s : State) : Out := .next (if (ctx s c).live then setDirty s c else s)

/-- HDM_ENABLE: the range is exposed and every block takes device bias, so that the host holds no line (R368); ignored before
full service (R355, R371). -/
def setHdm (s : State) : State :=
  if s.plat.svc ≠ 2 ∨ s.plat.hdmEn then s
  else modMs (modPlat s (fun p => { p with hdmEn := true })) (fun m => { m with biasHost := [], hostLines := [] })

def execHdmEnable (s : State) : Out := .next (setHdm s)

/-! ## REGISTER_WRITE (R4) -/

def modEvj (s : State) (c : Nat) (g : Evj → Evj) : State := modCtx s c (fun k => { k with evj := g k.evj })

/-- The cores of R13's package, by number. -/
def isCore (c : Nat) : Bool := decide (c < 256)

/-- A write to a register of a context that exists. -/
def onCtx (s : State) (c : Nat) (t : State) : State := if (ctx s c).live then t else s

def modQreg (s : State) (q : Nat) (g : Queue → Queue) : State := if queueEn (queue s q) then s else modQueue s q g

/-- The state after an effect that never stops. -/
def after (o : Out) : State → State := fun s => match o with | .next t => t | _ => s

/-- The effect of a register write: RO registers, RO bits and reserved bits do not change (R4). PAD_MIN, PAD_MAX and LOCAL_NODE
take no value outside their range (DESIGN CHOICE, log 28). A write of CEJ_ACK takes effect with the acknowledgement that the
device then reads (CEJ_ACK). -/
def regWrite (s : State) (r : HostReg) (v : W64) : State :=
  let w : W32 := v.setWidth 32
  match r with
  | .ctxPad c => if 4096 ≤ c ∨ s.queues.any (fun e => queueEn e.2 && queueCtx e.2 == c) then s
                 else freeCores (modCtx s c (fun k => { k with pad := bits v 5 0 }))
  | .qBase q => modQreg s q (fun x => { x with base := v &&& 0x01FFFFFFFFFFFF00 })
  | .qSize q => modQreg s q (fun x => { x with size := w &&& 0x1F })
  | .qCtl q => writeQctl s q w
  | .qResv q => modQueue s q (fun x => { x with resv := w &&& 0xFFFF })
  | .qVec q => modQueue s q (fun x => { x with vec := w &&& 0x7FF })
  | .padMin p => if 3 ≤ w.toNat ∧ w.toNat ≤ 63 then modPad s p (fun x => { x with min := w }) else s
  | .padMax p => if (pad s p).min.toNat ≤ w.toNat ∧ w.toNat ≤ 63 then modPad s p (fun x => { x with max := w }) else s
  | .padShare p => modPad s p (fun x => { x with share := w })
  | .ctxReg c n => onCtx s c (ctxRegWrite s c n v)
  | .coreReg c n => if isCore c then coreRegWrite s c n v else s
  | .evjBase c => onCtx s c (modEvj s c (fun e => { e with base := v }))
  | .evjSize c => onCtx s c (modEvj s c (fun e => { e with size := w }))
  | .evjHead c => onCtx s c (modEvj s c (fun e => { e with head := w }))
  | .evjVec c => onCtx s c (modEvj s c (fun e => { e with vec := v.setWidth 11 }))
  | .dirtyEn c => onCtx s c (if bitOf v 0 then setDirty s c else modDirty s c (fun d => { d with en := false }))
  | .dirtyBase c => onCtx s c (modDirty s c (fun d => if d.en then d else { d with base := v &&& 0x01FFFFFFFFFFF000 }))
  | .dirtySize c => onCtx s c (modDirty s c (fun d => if d.en then d else { d with size := w &&& 0x1F }))
  | .dirtyHead c => onCtx s c (modDirty s c (fun d => { d with head := w }))
  | .hdmBase => modPlat s (fun p => if p.hdmEn then p else { p with hdmBase := v &&& 0x000000FFC0000000 })
  | .hdmSize => modPlat s (fun p => if p.hdmEn then p else { p with hdmSize := v &&& 0xFFFFFFFFC0000000 })
  | .hdmCtl => if bitOf v 0 then setHdm s else modPlat s (fun p => { p with hdmEn := false })
  | .pwrCap => modPlat s (fun p => { p with pwrCap := BitVec.ofNat 32 (max 600 (min 1800 (bits v 11 0))) })
  | .cejStatus => if bitOf v 0 then modPlat s (fun p => { p with cej := { p.cej with ackErr := false } }) else s
  | .svcStat => if bitOf v 3 then modPlat s (fun p => { p with trip := false }) else s
  | .hashEn fn => modPlat s (fun p => { p with hashEn := tset p.hashEn fn (bitOf v 0) false })
  | .hashList fn l => modPlat s (fun p => { p with hashes := tset p.hashes fn (l.take 1024) [] })
  | .numVfs => modPlat s (fun p => { p with vfs := min 64 v.toNat })
  | .localNode => if bits v 6 0 = 0 then s else modPlat s (fun p => { p with localNode := v.setWidth 7 })
  | .nodeRoute n => modPlat s (fun p => { p with nodeRoute := tset p.nodeRoute (n % 128) (v.setWidth 18) 0 })
  | .ctxCmd => match bits v 13 12 with
    | 1 => after (execContextCreate (bits v 11 0) (bits v 22 16) s) s
    | 2 => after (execContextDestroy (bits v 11 0) s) s
    | _ => s
  | .qDoor q => after (execQdoor q s) s
  | .qStat q => if bitOf v 0 then after (execQstatErrClear q s) s else s
  | .qImport q => after (execQimport q (v.setWidth 57) s) s
  | .qExport q => after (execQexport q (v.setWidth 57) s) s
  | .ctxStat | .qHead _ | .evjTail _ | .evjLost _ | .dirtyTail _ | .dirtyLost _ | .padDeliv _ | .padCores _ | .padTokens _
  | .padFlags _ | .pwrNow | .tempMax | .pkgInfo | .biasStat | .collapseList _ | .cejBase | .cejSize | .cejHead | .cejTail
  | .cejAck | .cejAkeyHash _ => s

def execRegisterWrite (r : HostReg) (v : W64) (s : State) : Out := .next (regWrite s r v)

/-! ## EVQ_DRAIN (R338) -/

/-- The core whose EVQ a die's log engine drains next: the first with an entry after the one that it drained last (R338). -/
def evqNext (s : State) (d : Nat) : Option Nat :=
  ((List.range 64).map (fun i => 64 * d + ((die s d).evTurn + 1 + i) % 64)).find? (fun c => !(coreAt s c).evq.isEmpty)

/-- Whether the next entry of another die's log engine for the same journal comes before one (R251, R338). -/
def evqBefore (s : State) (c : Nat) (e : EvEnt) : Bool :=
  (List.range 4).any (fun d => d != dieOf c && (match evqNext s d with
    | some x => match (coreAt s x).evq with
      | y :: _ => y.ctx == e.ctx && decide (y.ts.toNat < e.ts.toNat ∨ (y.ts = e.ts ∧ coreSrc x < coreSrc c))
      | [] => false
    | none => false))

/-- EVQ_DRAIN: a die's log engine, in the turn of a core, takes the oldest entry of its EVQ into the event journal, with the
time at which it was placed; of the dies' next entries for one journal the earlier in the order of R251 goes first (R338). -/
def execEvqDrain (c : Nat) (s : State) : Out :=
  match (coreAt s c).evq with
  | [] => .next s
  | e :: r =>
    if evqNext s (dieOf c) ≠ some c ∨ evqBefore s c e then .next s
    else
      let s := modDie (modCore s c (fun co => { co with evq := r })) (dieOf c) (fun d => { d with evTurn := c % 64 })
      .next (evjAppendAt s e.ts e.ctx (if bitOf e.w0 16 then 1 else 9) (coreSrc c) (bits e.w0 15 0) e.w1 e.grid)

end Sys2Proof.Machine
end

