-- ==== Sys2Proof/Machine/Dispatcher.lean ====
section
/-! DEFINITION. The packets of the front end (R322 to R327, R343 to R345, R353): the order of their starts, prologues, and
the meaning of each packet type. -/

namespace Sys2Proof.Machine

open Sys2Proof

/-! ## The order of starts (R323) -/

def pkRecord (p : Packet) : Record := parseRecord (p.bytes.take 128)

/-- A later packet waits for an earlier one to complete (R323). -/
def packetWaits (e l : Packet) : Bool :=
  pkClass e == 0 || pkClass l == 0
    || (pkClass e == 1 && pkClass l == 1
        && (if pkType e = 1 ∧ pkType l = 1 then recordsMeet (pkRecord e) (pkRecord l) else true))

/-- Whether a packet that has been taken may start: the earlier packets that are not complete admit it, and none of them
failed after its start (R323, R325). -/
def packetReady (s : State) (q : Nat) (p : Packet) : Bool :=
  let ps := (queue s q).packets
  let before := ps.takeWhile (fun e => e.id != p.id)
  !p.started && !p.dead && !s.plat.moving && !before.any (fun e => e.dead || packetWaits e p)
    && decide ((ps.filter (·.started)).length < 64)

def acquireScope (p : Packet) : Scope := match pkAcquire p with | 0 => .die | 1 => .package | _ => .system

/-- A packet starts: it takes its acquire scope on every core of the context's paddock (R323). -/
def startPacket (s : State) (q : Nat) (p : Packet) : State :=
  let s := modPacket s q p.id (fun p => { p with started := true })
  s.cores.foldl (fun s c => if c.2.pad == some (ctx s (queueCtx (queue s q))).pad then acquire s c.1 (acquireScope p) else s) s

/-- The packet at a position, when it has a type. -/
def packetAt (s : State) (q ix ty : Nat) : Option Packet :=
  match (queue s q).packets[ix]? with
  | some p => if pkType p = ty then some p else none
  | none => none

/-! ## Grids of packets -/

/-- The grid of a LAUNCH packet is admitted (R181, R322). -/
def admitGrid (s : State) (q : Nat) (p : Packet) (r : Record) : State :=
  let (n, s) := newGrid s (queueCtx (queue s q)) q (some p.id) none r 0 (frontSrc q) .queued
  enqueueGrid (modPacket s q p.id (fun p => { p with grid := some n })) q n

/-! ## Prologues (R326, R327) -/

/-- The registers at the start of a run: the record, PARAM0 to PARAM7, and the repetition number. -/
def prologueRegs (p : Packet) : Tab W64 :=
  (List.range 24).foldl (fun t i => tset t i (nat64 (pkNat p (if i < 16 then 8 * i else 0xA0 + 8 * (i - 16)) 8)) 0)
    (tset [] 31 (nat64 p.rep) 0)

/-- S0 to S31, or ZERO. -/
def proReg (o : Opd) : Bool :=
  match o with
  | .s n => decide (n.val < 32)
  | .zero => true
  | _ => false

def proSrc (b : Src) : Bool := match b with | .reg o => proReg o | .imm _ => true

def proVal (t : Tab W64) (o : Opd) : W64 := match o with | .s n => tgetD t n.val 0 | _ => 0

/-- A state in which one flock holds the registers of a prologue, so that its group-1 words act as R73 to R76. -/
def proState (t : Tab W64) : State :=
  let th : Thread := newThread 0 0
  let g : Group := { lanes := [0], started := true, len := 15, slotA := 15, slotB := 15, heavy := 0, yield := 0, tok := 0,
                     f64 := false }
  let gr : Grid :=
    { id := 0, ctx := 0, queue := 0, packet := none, parent := none, record := parseRecord [], sib := 0, ts := 0, src := 0,
      kd := emptyKDesc, display := [], level := 0, phase := .started, frame := none, order := 0, firstStarted := false,
      allDone := false, wdNext := 0, queries := [], base := none, status := 0, committed := 0, resv := none }
  let fl : Flock := { newFlock gr 0 with threads := [(0, th)], sregs := t, group := some g }
  let fo : Fold := { newFold State.reset 0 gr 0 0 0 0 0 0 with place := .resident 0 0, flocks := [(0, fl)] }
  { State.reset with folds := [(0, fo)], grids := [(0, gr)], cur := some (0, 0) }

/-- The meaning of a group-1 word whose operands a prologue admits; none for any other word. -/
def proScalar (i : Instr) (s : State) : Option Out :=
  let two := fun (d a : Opd) (b : Src) (o : Out) => if proReg d && proReg a && proSrc b then some o else none
  let one := fun (d a : Opd) (o : Out) => if proReg d && proReg a then some o else none
  match i with
  | .smov h t d b => if proReg d && proSrc b then some (execSmov h t d b s) else none
  | .sadd h t d a b => two d a b (execSadd h t d a b s)
  | .ssub h t d a b => two d a b (execSsub h t d a b s)
  | .smul h t d a b => two d a b (execSmul h t d a b s)
  | .smulh h t d a b => two d a b (execSmulh h t d a b s)
  | .sdiv h t d a b => two d a b (execSdiv h t d a b s)
  | .srem h t d a b => two d a b (execSrem h t d a b s)
  | .sand h t d a b => two d a b (execSand h t d a b s)
  | .sor h t d a b => two d a b (execSor h t d a b s)
  | .sxor h t d a b => two d a b (execSxor h t d a b s)
  | .snot h t d a => one d a (execSnot h t d a s)
  | .sshl h t d a b => two d a b (execSshl h t d a b s)
  | .sshr h t d a b => two d a b (execSshr h t d a b s)
  | .ssar h t d a b => two d a b (execSsar h t d a b s)
  | .smin h t d a b => two d a b (execSmin h t d a b s)
  | .smax h t d a b => two d a b (execSmax h t d a b s)
  | .scmp h t k d a b => two d a b (execScmp h t k d a b s)
  | .ssel h t d a b r neg => if r.val < 32 then two d a b (execSsel h t d a b r neg s) else none
  | .sclz h t d a => one d a (execSclz h t d a s)
  | .spopc h t d a => one d a (execSpopc h t d a s)
  | .sbfx h t d a b => two d a b (execSbfx h t d a b s)
  | .sbfi h t d a b => two d a b (execSbfi h t d a b s)
  | .slea h t d a b sh => two d a b (execSlea h t d a b sh s)
  | _ => none

/-- The registers after a word. -/
def proRegsOf (s : State) : Tab W64 := match flock? s 0 0 with | some fl => fl.sregs | none => []

/-- Where a prologue stands, or the code with which it failed (R325, R327). -/
inductive ProEnd where
  | at (regs : Tab W64) (pc executed : Nat) (word : W96)
  | failed (code : Nat)
  deriving DecidableEq, Repr

/-- What one word of a prologue does: new registers and the next word, or failure. -/
def proWord (s : State) (dn cx : Nat) (i : Instr) (regs : Tab W64) (pc : Nat) : State × Option (Tab W64 × Int) :=
  match i with
  | .bra h k off =>
    let go := fun (taken : Bool) => (s, if h.gp == 0 && !h.neg then some (regs, (pc : Int) + (if taken then off.toInt else 1)) else none)
    match k with
    | .always => go true
    | .nz a => if proReg a then go (proVal regs a != 0) else (s, none)
    | .z a => if proReg a then go (proVal regs a == 0) else (s, none)
  | .ld h sgn d a m =>
    if h.gp == 0 && !h.neg && isPrologueLoad (.ld h sgn d a m) && proReg d && proReg a then
      let n := if m.size == .b32 then 4 else 8
      match feRead s dn cx ((proVal regs a + m.off.signExtend 64).toNat) n with
      | (s, none) => (s, none)
      | (s, some b) => (s, match d with | .s r => some (tset regs r.val (nat64 (ofLe b)) 0, (pc : Int) + 1) | _ => none)
    else (s, none)
  | i =>
    match proScalar i (proState regs) with
    | some (.next t) => (s, some (proRegsOf t, (pc : Int) + 1))
    | _ => (s, none)

/-- Whether a word that reaches the scalar path is guarded (R326). -/
def proGuarded : Instr → Bool
  | .smov h .. | .sadd h .. | .ssub h .. | .smul h .. | .smulh h .. | .sdiv h .. | .srem h .. | .sand h .. | .sor h ..
  | .sxor h .. | .snot h .. | .sshl h .. | .sshr h .. | .ssar h .. | .smin h .. | .smax h .. | .scmp h .. | .ssel h ..
  | .sclz h .. | .spopc h .. | .sbfx h .. | .sbfi h .. | .slea h .. => h.gp != 0 || h.neg
  | _ => false

def isProEnd : Instr → Bool
  | .prologueGo _ | .prologueCancel _ | .prologueRepeat _ _ => true
  | _ => false

/-- Runs a prologue to its last word (R326, R327). At most 256 words are executed in one run. -/
def runPrologue (q : Nat) (p : Packet) : Nat → State → Tab W64 → Nat → Nat → State × ProEnd
  | 0, s, _, _, _ => (s, .failed 0x22)
  | fuel + 1, s, regs, pc, n =>
    let cx := queueCtx (queue s q)
    if pkProlen p ≤ pc then (s, .failed 0x22)
    else
      match feRead s (q % 4) cx (pkProaddr p + 12 * pc) 12 with
      | (s, none) => (s, .failed 0x33)
      | (s, some b) =>
        match decodePrologue (Fin.ofNat 4 q) (bytesWord b) with
        | none => (s, .failed 0x22)
        | some i =>
          if isProEnd i then (s, .at regs pc (n + 1) (bytesWord b))
          else if proGuarded i then (s, .failed 0x22)
          else
            match proWord s (q % 4) cx i regs pc with
            | (s, none) => (s, .failed 0x22)
            | (s, some (regs, next)) =>
              if next < 0 ∨ (pkProlen p : Int) < next then (s, .failed 0x22)
              else runPrologue q p fuel s regs next.toNat (n + 1)

/-- A run of a packet's prologue on its die's scalar engine (R326, R377). -/
def startPrologue (s : State) (q : Nat) (p : Packet) : State :=
  match runPrologue q p 256 s (prologueRegs p) 0 0 with
  | (s, .failed code) => packetFails s q p.id code
  | (s, .at regs pc n w) =>
    modDie s (q % 4) (fun d => { d with prologue := some { queue := q, packet := p.id, sregs := regs, pc := pc, executed := n, word := w } })

/-- PACKET_LAUNCH: a LAUNCH packet starts, or runs its prologue again; without a prologue its grid is admitted (R322,
R326, R327). The scalar engine runs one prologue at a time. -/
def execPacketLaunch (q ix : Nat) (s : State) : Out :=
  match packetAt s q ix 1 with
  | none => .next s
  | some p =>
    let again := p.started && !p.dead && p.grid.isNone && p.repMax.isSome
    if !again && !packetReady s q p then .next s
    else if pkProlen p ≠ 0 ∧ (die s (q % 4)).prologue.isSome then .next s
    else
      let s := if again then s else startPacket s q p
      .next (if pkProlen p = 0 then admitGrid s q p (pkRecord p) else startPrologue s q p)

/-- The end of the prologue that a die's engine has run: its packet, when it is still there, and its last word. -/
def prologueEnd (s : State) (d : Nat) : Option (Prologue × Packet × Instr) :=
  match (die s d).prologue with
  | none => none
  | some x =>
    match packet? s x.queue x.packet, decodePrologue (Fin.ofNat 4 d) x.word with
    | some p, some i => some (x, p, i)
    | _, _ => none

def clearPrologue (s : State) (d : Nat) : State := modDie s d (fun x => { x with prologue := none })

/-- S0 to S15 as a record's bytes. -/
def proRecord (x : Prologue) : List Byte := (List.range 16).flatMap (fun i => leBytes 8 (tgetD x.sregs i 0).toNat)

/-- The record that a prologue leaves is checked and its grid admitted (R327). -/
def launchRecord (s : State) (x : Prologue) (p : Packet) (rep : Option Nat) : State :=
  if recordOk (proRecord x) then
    let s := modPacket s x.queue p.id (fun p =>
      { p with repMax := rep, launches := p.launches + (if rep.isSome then 1 else 0) })
    admitGrid s x.queue p (parseRecord (proRecord x))
  else packetFails s x.queue p.id 0x32

/-- PROLOGUE_GO (R327). -/
def execPrologueGo (d : Fin 4) (s : State) : Out :=
  match prologueEnd s d.val with
  | some (x, p, .prologueGo _) => .next (launchRecord (clearPrologue s d.val) x p none)
  | _ => .next s

/-- PROLOGUE_CANCEL: no grid is created, and the packet completes with CANCELLED set (R327). -/
def execPrologueCancel (d : Fin 4) (s : State) : Out :=
  match prologueEnd s d.val with
  | some (x, p, .prologueCancel _) => .next (completePacket (clearPrologue s d.val) x.queue p.id true)
  | _ => .next s

/-- PROLOGUE_REPEAT (R327). -/
def execPrologueRepeat (d : Fin 4) (n : BitVec 16) (s : State) : Out :=
  match prologueEnd s d.val with
  | some (x, p, .prologueRepeat _ m) =>
    if m = n then .next (launchRecord (clearPrologue s d.val) x p (some n.toNat)) else .next s
  | _ => .next s

/-! ## SIGNAL, NOP, WAIT (R322) -/

/-- A packet that completes once it has started. -/
def atOnce (q ix ty : Nat) (s : State) : Out :=
  match packetAt s q ix ty with
  | some p => .next (if packetReady s q p then completePacket (startPacket s q p) q p.id false else s)
  | none => .next s

def execPacketSignal (q ix : Nat) (s : State) : Out := atOnce q ix 2 s
def execPacketNop (q ix : Nat) (s : State) : Out := atOnce q ix 6 s

/-- COND of a WAIT packet. -/
def waitMet (p : Packet) (x : Nat) : Bool :=
  let v := pkNat p 8 8
  match pkNat p 0x10 1 with
  | 0 => decide (v ≤ x)
  | 1 => x == v
  | _ => x != v

/-- A WAIT packet reads its word at SYSTEM scope, at its home (R322, R325). -/
def pollWait (s : State) (q : Nat) (p : Packet) : State :=
  match feRead s (q % 4) (queueCtx (queue s q)) (pkNat p 0 8) 8 with
  | (s, none) => packetFails s q p.id 0x33
  | (s, some b) => if waitMet p (ofLe b) then completePacket s q p.id false else s

/-- PACKET_WAIT: a WAIT packet starts and reads its word. -/
def execPacketWait (q ix : Nat) (s : State) : Out :=
  match packetAt s q ix 3 with
  | some p => .next (if packetReady s q p then pollWait (startPacket s q p) q p else s)
  | none => .next s

/-- WAIT_POLL: the read is repeated. -/
def execWaitPoll (q ix : Nat) (s : State) : Out :=
  match packetAt s q ix 3 with
  | some p => .next (if p.started && !p.dead then pollWait s q p else s)
  | none => .next s

/-! ## TLBINV (R154, R322, R352, R353) -/

/-- The leaves of a table whose pages meet virtual addresses [lo, hi): page base, physical base, log2 of the size. -/
def leavesFrom (s : State) (lo hi : Nat) : Nat → Nat → Nat → List (Nat × Nat × Nat)
  | level, base, table =>
    let span := 2 ^ (12 + 9 * level)
    let n := if level = 3 then 262144 else 512
    let first := (lo - base) / span
    let last := min n (cdiv (hi - base) span)
    (List.range (last - first)).flatMap (fun j =>
      let i := first + j
      let pa := table + 8 * i
      if !mappedPa s pa then []
      else
        let e := BitVec.ofNat 64 (homeNat s pa 8)
        if !bitOf e 0 then []
        else match level with
          | 0 => if leafOk 0 e then [(base + i * span, leafAddr e, 12)] else []
          | l + 1 =>
            if bitOf e 4 then (if leafOk (l + 1) e then [(base + i * span, leafAddr e / span * span, 12 + 9 * (l + 1))] else [])
            else if tableOk e then leavesFrom s lo hi l (base + i * span) (leafAddr e) else [])

/-- The translations of a context that any core or die has cached (R154). -/
def cachedOf (s : State) (cx : Nat) : List TlbE :=
  (s.cores.flatMap (fun e => e.2.tlb) ++ s.dies.flatMap (fun e => e.2.tlb)).filter (fun e => e.ctx == cx)

/-- The physical ranges of a context's virtual range, by its page tables and by the translations that it has cached: of each
page the part that lies in the range. -/
def rangePages (s : State) (cx lo hi : Nat) : List (Nat × Nat) :=
  let part := fun (base pa size : Nat) => (pa + (max lo base - base), min hi (base + 2 ^ size) - max lo base)
  (leavesFrom s lo hi 3 0 (bits (ctx s cx).ptroot 47 21 * 2 ^ 21)).map (fun x => part x.1 x.2.1 x.2.2)
    ++ (cachedOf s cx).filterMap (fun e => if e.base < hi ∧ lo < e.base + 2 ^ e.size
        then some (part e.base (leafAddr e.leaf / 2 ^ e.size * 2 ^ e.size) e.size) else none)

/-- A line meets one of some physical ranges. -/
def inLines (l : List (Nat × Nat)) (line : Nat) : Bool := l.any (fun p => decide (p.1 < 128 * line + 128 ∧ 128 * line < p.1 + p.2))

/-- Physical ranges cover a page: each of its 4 KiB blocks when it is a run of them, else the page as a whole. -/
def coverPage (l : List (Nat × Nat)) (page size : Nat) : Bool :=
  let n := if size ≤ 16 then 2 ^ (size - 12) else 1
  let z := if size ≤ 16 then 4096 else 2 ^ size
  (List.range n).all (fun i => l.any (fun p => decide (p.1 ≤ 4096 * page + i * z ∧ 4096 * page + i * z + z ≤ p.1 + p.2)))

/-- One byte of a merge flush: the home's byte is written; the bytes written so far, and the conflicts (R353). -/
def mergeByte (acc : State × List Nat × Nat) (a : Nat) (b : Byte) : State × List Nat × Nat :=
  (homeWriteBytes acc.1 a [b] anyRegion, a :: acc.2.1, acc.2.2 + (if acc.2.1.contains a then 1 else 0))

/-- A word of a core's view with a non-empty mask is merged into its home (R353). -/
def mergeWord (acc : State × List Nat × Nat) (w : Nat) (v : VWord) : State × List Nat × Nat :=
  (List.range 4).foldl (fun acc i =>
    if bitOf v.dirty i then mergeByte acc (4 * w + i) (v.val.extractLsb' (8 * i) 8) else acc) acc

/-- The lines of a range that some view holds with written bytes (R353). -/
def dirtyLines (s : State) (ps : List (Nat × Nat)) : List Nat :=
  (s.cores.flatMap (fun c => (c.2.view.filter (fun v => v.2.dirty != 0 && inLines ps (v.1 / 32))).map (fun v => v.1 / 32))).eraseDups

/-- The merge flush of lines of one core's view, and their removal from it (R353). -/
def mergeCore (lines : List Nat) (acc : State × List Nat × Nat) (c : Nat) : State × List Nat × Nat :=
  let mine := (coreAt acc.1 c).view.filter (fun v => v.2.dirty != 0 && lines.contains (v.1 / 32))
  let acc := mine.foldl (fun acc v => mergeWord acc v.1 v.2) acc
  (modCore acc.1 c (fun co => { co with view := co.view.filter (fun v => !(v.2.st == .copy && lines.contains (v.1 / 32))) }),
   acc.2.1, acc.2.2)

/-- The merge flush of a range of a context, core after core in the order of their source numbers (R353). -/
def mergeFlush (s : State) (cx : Nat) (ps : List (Nat × Nat)) : State :=
  let r := (s.cores.map (·.1)).foldl (mergeCore (dirtyLines s ps)) (s, [], 0)
  modCtx r.1 cx (fun k => { k with mergeConflicts := nat64 (min (k.mergeConflicts.toNat + r.2.2) (2 ^ 64 - 1)) })

/-- The range of a TLBINV packet; a length of 0 means the whole context. -/
def tlbRange (p : Packet) : Nat × Nat :=
  if pkNat p 8 8 = 0 then (0, 2 ^ 57) else (pkNat p 0 8, min (2 ^ 57) (pkNat p 0 8 + pkNat p 8 8))

/-- What a TLBINV packet does: the merge flush, the removal of collapse-table entries and of cached translations. -/
def invalidate (s : State) (cx lo hi : Nat) : State :=
  let dirty := s.cores.any (fun c => c.2.view.any (fun v => v.2.dirty != 0))
  let ps := if dirty || !s.ms.collapse.isEmpty then rangePages s cx lo hi else []
  let s := mergeFlush s cx ps
  let s := modMs s (fun m => { m with collapse := m.collapse.filter (fun x => !coverPage ps x.1 x.2) })
  let keep := fun (l : List TlbE) => l.filter (fun e => !(e.ctx == cx && decide (e.base < hi ∧ lo < e.base + 2 ^ e.size)))
  { s with cores := s.cores.map (fun e => (e.1, { e.2 with tlb := keep e.2.tlb })),
           dies := s.dies.map (fun e => (e.1, { e.2 with tlb := keep e.2.tlb })) }

/-- PACKET_TLBINV (R322, R352, R353). -/
def execPacketTlbinv (q ix : Nat) (s : State) : Out :=
  match packetAt s q ix 4 with
  | some p =>
    if packetReady s q p then
      let r := tlbRange p
      .next (completePacket (invalidate (startPacket s q p) (queueCtx (queue s q)) r.1 r.2) q p.id false)
    else .next s
  | none => .next s

/-! ## LOAD (R343 to R346) -/

/-- The device's feature mask (R344, R371). -/
def deviceHas (s : State) (b : Nat) : Bool :=
  if s.plat.svc = 2 then decide (b ≤ 12 ∨ b = 16) else decide (b ≤ 2 ∨ 4 ≤ b ∧ b ≤ 12)

/-- What the loader found: a status with a missing bit, or the routines to bind (R345). -/
inductive LoadEnd where
  | bad (status missing : Nat)
  | good (binds : List (Nat × W64))
  deriving DecidableEq, Repr

/-- The hash check (R345). -/
def hashDenied (s : State) (cx : Nat) (obj : List Byte) : Bool :=
  let fn := (ctx s cx).owner
  tgetD s.plat.hashEn fn false && !(tgetD s.plat.hashes fn []).contains (Config.sha384 obj)

/-- The fields that the loader checks (R343); the header ends within the object (DEDUCED, log 27). -/
def objectBad (obj : List Byte) : Bool :=
  decide (obj.length < 0x50 ∨ bytesAt obj 0 4 ≠ 0x314F5957 ∨ bytesAt obj 4 4 < 0x50 ∨ obj.length < bytesAt obj 4 4
    ∨ bytesAt obj 0x48 4 = 0 ∨ 4 < bytesAt obj 0x48 4)

/-- The features that the object needs and the device lacks, in ascending order (R345). -/
def objectLacks (s : State) (obj : List Byte) : List Nat :=
  (List.range 512).filter (fun b => (bytesAt obj 8 64).testBit b && !deviceHas s b)

def routineFor (s : State) (lib : W64) (b : Nat) : W64 := if lib = 0 then 0 else Config.libraryRoutine s.freeIx lib b

/-- The loader's checks in their order (R345). -/
def checkObject (s : State) (cx : Nat) (obj : List Byte) (lib : W64) : LoadEnd :=
  if hashDenied s cx obj then .bad 0x23 0
  else if objectBad obj then .bad 0x31 0
  else match (objectLacks s obj).find? (fun b => routineFor s lib b == 0) with
    | some b => .bad 0x24 b
    | none => .good ((objectLacks s obj).map (fun b => (b, routineFor s lib b)))

/-- Bytes that the loader places: every page is mapped, with W (bit 2 of its leaf, R152) as `w` says, and becomes DIRTY. -/
def loaderWrite (w : Bool) (s : State) (d cx a : Nat) (bs : List Byte) : State × Bool :=
  let r := bs.zipIdx.foldl (fun (acc : State × Option (List (Nat × Nat × Byte))) b =>
    match acc.2 with
    | none => acc
    | some l =>
      match translate acc.1 (.die d) cx ((a + b.2) % 2 ^ 57) .any with
      | (s, .error _) => (s, none)
      | (s, .ok t) =>
        if linkLost s t.pa || bitOf t.leaf 2 != w then (s, none)
        else (needCollapse s t.pa (leafCmode t.leaf) t.size, some (l ++ [((a + b.2) % 2 ^ 57, t.pa, b.1)]))) (s, some [])
  match r with
  | (s, some l) =>
    let s := (l.map (·.1 / 4096)).eraseDups.foldl (fun s n => markDirty s (.die d) cx (4096 * n)) s
    (l.foldl (fun s p => unitPut s p.2.1 [p.2.2]) s, true)
  | (s, none) => (s, false)

/-- A kernel descriptor, from what the loader finds in the object (R346). -/
def kernelBytes (x : BitVec 448) (handle : W64) : List Byte :=
  leBytes 8 (4 * (bits x 63 0 % 2 ^ 55)) ++ leBytes 8 (bits x 127 64) ++ leBytes 4 (bits x 159 128 % 65537)
    ++ leBytes 1 (bits x 167 160 % 9) ++ leBytes 1 (1 + bits x 175 168 % 8) ++ leBytes 2 0
    ++ (List.range 8).flatMap (fun i => leBytes 1 (bits x (192 + 32 * i) (192 + 32 * i) % 4) ++ leBytes 3 (bits x (223 + 32 * i) (200 + 32 * i)))
    ++ leBytes 8 handle.toNat

/-- The descriptor table and the sections .text and .const behind it (R55, R345, R346). -/
def placed (s : State) (obj : List Byte) (place : VA × VA) : List Byte :=
  (List.range (bytesAt obj 0x4C 4)).flatMap (fun k =>
      kernelBytes (Config.objectKernel obj place.1 k) (Config.objectHandle s.freeIx obj))
    ++ Config.objectImage obj place.1 place.2

/-- The global data: .data as initialised, and .bss zeroed behind it (R55). -/
def globals (obj : List Byte) (place : VA × VA) : List Byte :=
  Config.objectData obj place.1 place.2 ++ List.replicate (Config.objectBss obj % (2 ^ 32 + 1)) 0

/-- The sections are placed: descriptors, .text and .const in read-only memory (R345), .data and .bss in writable memory,
which the kernels' stores reach (R55; DESIGN CHOICE, log 27). False where one of the places cannot take them. -/
def placeObject (s : State) (d cx : Nat) (obj : List Byte) (place : VA × VA) : State × Bool :=
  match loaderWrite false s d cx place.1.toNat (placed s obj place) with
  | (t, true) => loaderWrite true t d cx place.2.toNat (globals obj place)
  | r => r

/-- Binds routines in FEATTAB (R308, R345); a context without a table has no word to bind (DESIGN CHOICE, log 27). -/
def bindRoutines (s : State) (d cx : Nat) (bs : List (Nat × W64)) : State :=
  let t := bits (ctx s cx).feattab 56 3 * 8
  if t = 0 then s else bs.foldl (fun s b => (writeVirt s (.die d) cx (t + 8 * b.1) (leBytes 8 b.2.toNat)).1) s

/-- The result record (R345). -/
def resultRecord (status missing : Nat) (handle table : W64) (kernels : Nat) : List Byte :=
  leBytes 8 status ++ leBytes 8 missing ++ leBytes 8 handle.toNat ++ leBytes 8 table.toNat ++ leBytes 8 kernels

/-- The loader's result is written and the packet completes; an address that does not translate fails the packet (R322,
R325). -/
def loadDone (s : State) (q : Nat) (p : Packet) (r : List Byte) : State :=
  if 2 ^ 57 ≤ pkNat p 0x10 8 then packetFails s q p.id 0x33
  else match writeVirt s (.die (q % 4)) (queueCtx (queue s q)) (pkNat p 0x10 8) r with
    | (s, .error _) => packetFails s q p.id 0x33
    | (s, .ok _) => completePacket s q p.id false

/-- A LOAD packet that has started: the object is checked, bound and placed (R345). An object that does not translate is
malformed (DESIGN CHOICE, log 27). False when the object cannot stand at the place. -/
def loadObject (s : State) (q : Nat) (p : Packet) (place : VA × VA) : State × Bool :=
  let cx := queueCtx (queue s q)
  let lib := nat64 (pkNat p 0x18 8)
  match feRead s (q % 4) cx (pkNat p 0 8) (pkNat p 8 8) with
  | (s, none) => (loadDone s q p (resultRecord 0x31 0 0 0 0), true)
  | (s, some obj) =>
    match checkObject s cx obj lib with
    | .bad st b => (loadDone s q p (resultRecord st b 0 0 0), true)
    | .good binds =>
      match placeObject s (q % 4) cx obj place with
      | (s', true) =>
        (loadDone (bindRoutines s' (q % 4) cx binds) q p
          (resultRecord 0 0 (Config.objectHandle s.freeIx obj) (place.1.setWidth 64) (bytesAt obj 0x4C 4)), true)
      | (s', false) => (s', false)

/-- PACKET_LOAD: the loader chooses where the object stands (R345), among the places that can take it: one in read-only and
one in writable memory. -/
def execPacketLoad (q ix : Nat) (place : VA × VA) (s : State) : Out :=
  match packetAt s q ix 5 with
  | some p =>
    if packetReady s q p && decide (place.1.toNat % 64 = 0) then
      match loadObject (startPacket s q p) q p place with
      | (t, true) => .next t
      | (t, false) => .next { s with ms := { s.ms with need := t.ms.need } }
    else .next s
  | none => .next s

end Sys2Proof.Machine
end

