-- ==== Sys2Proof/Machine/HostLink.lean ====
section
/-! DEFINITION. Links and what arrives on them (R351, R354, R357 to R359, R361, R362, R368, R369): their loss and return,
requests that end in error, peers' requests and answers, the host's accesses, snoops and grants, and the collapse of
replicated pages. -/

namespace Sys2Proof.Machine

open Sys2Proof

/-! ## Requests under way (R361, R362) -/

def dropPeer (s : State) (r : PeerReq) : State := modMs s (fun m => { m with peerReqs := m.peerReqs.erase r })

/-- The load of a request. -/
def reqLoad (s : State) (r : PeerReq) : Option LEntry :=
  (flock? s r.fold r.flock).bind (fun fl => fl.loads.find? (fun e => e.op == r.op && e.lane == r.lane))

/-- The atomic of a request: the entry at the head of its flock's FIFO. -/
def reqAtomic (s : State) (r : PeerReq) : Option FEntry :=
  match (flock? s r.fold r.flock).bind (fun fl => fl.fifo.head?) with
  | some e => if e.sent && e.op == r.op && e.lane == r.lane then some e else none
  | none => none

/-- The address of the instruction of a request, while it is under way: MWAIT's load is no long-latency instruction. -/
def reqPc (s : State) (r : PeerReq) : VA :=
  match (flock? s r.fold r.flock).bind (fun fl => op? fl r.op), reqLoad s r with
  | some o, _ => o.pc
  | none, some e => e.pc
  | none, none => 0

/-- The global address of a request (R150). -/
def reqVa (r : PeerReq) : W64 := r.node ++ r.va

/-- A request that has no answer is over: its load, store or atomic is gone without a result. -/
def endRequest (s : State) (r : PeerReq) : State :=
  let s := dropPeer s r
  let s := match reqLoad s r with
    | some e => if r.isLoad then dropLoad s r.fold r.flock e else s
    | none => s
  let s := if !r.isLoad && (reqAtomic s r).isSome then popFifo s r.fold r.flock else s
  partDone s r.fold r.flock r.op []

/-- A request ends in error: UCE at its instruction and event 0x0014 (R362). -/
def failRequest (s : State) (r : PeerReq) : State :=
  endRequest (requestError s r.fold r.flock r.lane (reqPc s r) (reqVa r) (portSrc r.port)) r

/-- A peer refuses a request: the fold takes PROT with the global address, and event 0x0014 is logged (R334, R362). -/
def refuseRequest (s : State) (r : PeerReq) : State :=
  let tid := (thread? s r.fold r.flock r.lane).map (·.tid)
  endRequest (foldFault (requestLost s (portSrc r.port) (reqVa r)) r.fold r.flock causeProt 0 tid false (reqPc s r) (reqVa r)) r

/-- The answer to a RED that a task's commit sent: its events count for its thread (R101, R257). The task is gone, and the spec
names no source for them: source 0 (R12; DESIGN CHOICE, log 47). -/
def redAnswer (s : State) (r : PeerReq) (v : List Byte) : State :=
  match r.what with
  | .atom _ _ t op b => (countEvents s r.ctx 0 [{ lane := r.lane, mask := (atomNew t op (nat64 (ofLe v)) b).2 }]).1
  | _ => s

/-- PEER_RESPONSE: an answer to the request at a position (R361, R362). -/
def execPeerResponse (ix : Nat) (a : PeerAnswer) (s : State) : Out :=
  match s.ms.peerReqs[ix]? with
  | none => .next s
  | some r =>
    match a with
    | .refused => .next (refuseRequest s r)
    | .ack =>
      if r.isLoad || (reqAtomic s r).isSome then .next s else .next (partDone (dropPeer s r) r.fold r.flock r.op [])
    | .data v =>
      match reqLoad s r, reqAtomic s r with
      | some e, _ =>
        if !r.isLoad || v.length != e.n then .next s
        else
          let bs := if e.task then peerOverlay s r.fold r.node r.va v else v
          .next (finishLoad (dropPeer s r) r.fold r.flock { e with sent := false } [bs])
      | none, some e =>
        if v.length != e.data.length then .next s
        else .next (atomAnswer (dropPeer s r) r.fold r.flock e r.node r.va v)
      | none, none => .next (if (flock? s r.fold r.flock).isNone then redAnswer (dropPeer s r) r v else s)

/-- A host request that ends in error: the FIFO entry that waits for the line is gone (R362). -/
def failOwn (s : State) (i : Nat) (m : Msg) (c line : Nat) : State :=
  let s := dropMsg s i
  match (flock? s m.fold m.flock).bind (fun fl => fl.fifo.find? (fun e => e.op == m.op && entryNeeds s c line e)) with
  | none => s
  | some e =>
    let s := requestError s m.fold m.flock e.lane e.pc e.va (hostUnit s)
    let s := modFlock s m.fold m.flock (fun fl => { fl with fifo := fl.fifo.erase e })
    partDone s m.fold m.flock e.op []

/-- A version of a task on its way to host memory that cannot arrive (R362). -/
def failVersion (s : State) (i : Nat) (m : Msg) : State :=
  let pc := match (flock? s m.fold m.flock).bind (fun fl => op? fl m.op) with | some o => o.pc | none => 0
  let s := requestLost (dropMsg s i) (hostUnit s) m.va
  partDone (foldFault s m.fold m.flock cUCE 0 none false pc m.va) m.fold m.flock m.op []

/-- Requests and versions at host links, with their positions among the messages. -/
def hostMsgs (s : State) : List (Nat × Msg) :=
  (s.ms.msgs.zipIdx.map (fun e => (e.2, e.1))).filter (fun e => match e.2.home with | .link _ => true | _ => false)

def failHostMsg (s : State) (x : Nat × Msg) : State :=
  match x.2.kind with
  | .own c line => failOwn s x.1 x.2 c line
  | .version _ _ _ _ _ => failVersion s x.1 x.2
  | _ => s

/-- An atomic at the head of a FIFO that waits for a line of host memory ends in error. -/
def failAtomics (s : State) (line : Nat) : State :=
  s.folds.foldl (fun s fo => fo.2.flocks.foldl (fun s k => match k.2.fifo with
    | e :: _ => (match e.place with
      | .host pa => if !isStore e && pa / 128 == line then storeError s fo.1 k.1 e (hostUnit s) else s
      | _ => s)
    | [] => s) s) s

/-- A copy command that waits to write a line of host memory ends in error. -/
def failCommands (s : State) (line : Nat) : State :=
  s.dies.foldl (fun s d => d.2.engines.foldl (fun s e =>
    match e.2.zipIdx.find? (fun x => commandLines s x.1 |>.contains line) with
    | some (x, ix) => endCommand (requestLost s (hostUnit s) (nat64 (128 * line))) d.1 e.1 ix x cUCE (nat64 (128 * line))
    | none => s) s) s

/-- A request for a line of host memory ends in error: whatever waits for it does (R362). -/
def failAsk (s : State) (line : Nat) : State :=
  failCommands (failAtomics (modMs s (fun m => { m with hostAsk := m.hostAsk.filter (fun e => e.1 != line) })) line) line

/-- The loads of host memory that have no answer, with their flocks. -/
def hostLoads (s : State) : List (Nat × Nat × LEntry) :=
  s.folds.flatMap (fun fo => fo.2.flocks.flatMap (fun k =>
    (k.2.loads.filter (fun e => (loadPas e).any (fun p => isHostPa p.1))).map (fun e => (fo.1, k.1, e))))

/-- REQUEST_TIMEOUT: a peer's request, or after them a message or a request for a line at a host link, or a load of host memory,
has had no answer for 100 ms (R362). -/
def execRequestTimeout (ix : Nat) (s : State) : Out :=
  let late := fun (t : W64) => decide (100000000 ≤ (s.plat.ts - t).toNat)
  match s.ms.peerReqs[ix]? with
  | some r => .next (if late r.ts then failRequest s r else s)
  | none =>
    match (hostMsgs s)[ix - s.ms.peerReqs.length]? with
    | some x => .next (if late x.2.sent then failHostMsg s x else s)
    | none =>
      match s.ms.hostAsk[ix - s.ms.peerReqs.length - (hostMsgs s).length]? with
      | some x => .next (if late x.2 then failAsk s x.1 else s)
      | none =>
        match (hostLoads s)[ix - s.ms.peerReqs.length - (hostMsgs s).length - s.ms.hostAsk.length]? with
        | some (f, k, e) => .next (if late e.ts then loadError s f k e (hostUnit s) else s)
        | none => .next s

/-! ## Links (R354, R362) -/

def linkBit (n : Nat) : BitVec 2 := 1#2 <<< n
def portBit (n : Nat) : BitVec 18 := 1#18 <<< n

/-- Host lines that some core owns or some die holds. -/
def heldHostLines (s : State) : List Nat :=
  let known : List Nat := s.ms.lines.map (·.1)
  let seen : List Nat := s.cores.flatMap (fun c => c.2.view.map (fun v => v.1 / 32))
  (known ++ seen).eraseDups.filter (fun l => isHostPa (128 * l))

/-- The surviving link becomes the home of all host memory: lines of the lost link are written back and their copies
removed, and requests on it are sent again (R362). -/
def moveHome (s : State) (lost other : Nat) : State :=
  let lines := (heldHostLines s).filter (fun l => linkOf s (128 * l) == lost)
  let gone := fun (l : Nat) => linkOf s (128 * l) == lost
  let s := lines.foldl cleanLine s
  modMs (modPlat s (fun p => { p with linkHome := some other })) (fun m =>
    { m with
      msgs := m.msgs.map (fun x => if x.home = .link lost then { x with home := .link other } else x)
      invs := m.invs.filter (fun i => i.src != 4 + lost)
      hostOwn := m.hostOwn.filter (fun l => !gone l) })

/-- Requests on a lost port leave again on the port that now serves their node, or end in error (R362). -/
def reroute (s : State) (r : PeerReq) : State :=
  match portOf s r.node with
  | some q => modMs s (fun m => { m with peerReqs := m.peerReqs.map (fun x => if x = r then { x with port := q } else x) })
  | none => failRequest s r

/-- Grants on their way from a host link are lost with the last link; their entries ask again, and end in error (R362). -/
def lostGrants (s : State) : State :=
  (s.ms.rsps.filter (fun g => decide (4 ≤ g.src))).foldl (fun s g => cancelGrant s g.line) s

/-- LINK_LOSS (R362). -/
def execLinkLoss (l : Link) (s : State) : Out :=
  match l with
  | .host n =>
    if 2 ≤ n ∨ !bitOf s.plat.linksUp n then .next s
    else
      let s := cejRaise s (BitVec.ofNat 16 (unitSrc 0 0x8 n)) 0x0012 (nat64 n) 0
      let other := 1 - n
      if bitOf s.plat.linksUp other then
        let s := moveHome s n other
        .next (modPlat s (fun p => { p with linksUp := p.linksUp &&& ~~~(linkBit n) }))
      else
        let s := modPlat s (fun p => { p with linksUp := 0 })
        .next ((hostMsgs s).reverse.foldl failHostMsg (lostGrants s))
  | .port n =>
    if 18 ≤ n ∨ !bitOf s.plat.portsUp n then .next s
    else
      let s := cejRaise s (BitVec.ofNat 16 (portSrc n)) 0x0012 (nat64 n) 0
      let s := modPlat s (fun p => { p with portsUp := p.portsUp &&& ~~~(portBit n) })
      .next ((s.ms.peerReqs.filter (fun r => r.port == n)).foldl reroute s)

/-- LINK_RETRAIN: a link that is out of service returns (R362); Drove ports train in full service only (R371). A host link
that returns alone becomes the home of all host memory (R354). -/
def execLinkRetrain (l : Link) (s : State) : Out :=
  match l with
  | .host n =>
    if 2 ≤ n ∨ bitOf s.plat.linksUp n then .next s
    else
      let s := cejRaise s (BitVec.ofNat 16 (unitSrc 0 0x8 n)) 0x0013 (nat64 n) 0
      .next (modPlat s (fun p =>
        { p with
          linksUp := p.linksUp ||| linkBit n
          linkHome := if p.linksUp = 0 then p.linkHome.map (fun _ => n) else p.linkHome }))
  | .port n =>
    if 18 ≤ n ∨ bitOf s.plat.portsUp n ∨ s.plat.svc ≠ 2 then .next s
    else
      let s := cejRaise s (BitVec.ofNat 16 (portSrc n)) 0x0013 (nat64 n) 0
      .next (modPlat s (fun p => { p with portsUp := p.portsUp ||| portBit n }))

/-! ## Peers' requests (R361) -/

/-- What a peer's request reads, writes and needs. -/
def peerShape (op : PeerOp) : VA × Nat × Acc :=
  match op with
  | .load a n => (a, n, .load)
  | .store a bs => (a, bs.length, .store)
  | .atom a n _ _ _ | .cas a n _ _ => (a, n, .atomic)

/-- The request is performed at its home: the answer and the state (R256, R361). -/
def peerEffect (s : State) (op : PeerOp) (pa : Nat) : State × List Byte :=
  match op with
  | .load _ n => (s, homeBytes s pa n)
  | .store _ bs => (dropRange (homeWriteBytes s pa bs anyRegion) pa bs.length, [])
  | .atom _ n t aop b =>
    let old := homeNat s pa n
    (homeWriteBytes s pa (leBytes n (atomNew t aop (nat64 old) b).1.toNat) anyRegion, leBytes n old)
  | .cas _ n cmp b =>
    let old := homeNat s pa n
    (if old = cmp.toNat % 2 ^ (8 * n) then homeWriteBytes s pa (leBytes n b.toNat) anyRegion else s, leBytes n old)

def serve (s : State) (node : BitVec 7) (tag : BitVec 16) (op : PeerOp) (answer : List Byte) (ok : Bool) : State :=
  let x : Served := { node := node, tag := tag, op := op, answer := answer, ok := ok }
  modMs s (fun m => { m with served := m.served.filter (fun y => !(y.node == node && y.tag == tag)) ++ [x] })

/-- PEER_REQUEST: a request from a peer is performed at the local home, once for a node and tag, after the local messages
that R251 puts before it (R361, R362; its stamp is its arrival: DEDUCED, log 45). The frame pool is not written (R178), and host
memory does not answer while no host link is in service (R362). -/
def execPeerRequest (port : Fin 18) (node : BitVec 7) (tag : BitVec 16) (cx : Nat) (op : PeerOp) (s : State) : Out :=
  if !bitOf s.plat.portsUp port.val || s.ms.served.any (fun x => x.node == node && x.tag == tag && x.op == op) then .next s
  else
    let (va, n, acc) := peerShape op
    let deny := fun (s : State) => Host.Outcome.next (serve s node tag op [] false)
    if !(ctx s cx).live || (acc != .load && inFpool s cx va.toNat n) then deny s
    else
      match translate s (.die (portDie port.val)) cx va.toNat acc with
      | (s, .error _) => deny s
      | (s, .ok t) =>
        let write := acc != .load
        if isHostPa t.pa && noHost s then deny s
        else if !biasReady s t.pa write then .next (biasSnoop s t.pa write)
        else if write && effCmode s t.pa (leafCmode t.leaf) == 3 then .next (askCollapse s t.pa t.size)
        else if earlierAtHome s (homeOf s t.pa (effCmode s t.pa (leafCmode t.leaf))) s.plat.ts (portSrc port.val)
            (fun _ _ => false) then .next s
        else
          let s := if write then markDirty s (.die (portDie port.val)) cx va.toNat else s
          let r := peerEffect (drainWaiting s (t.pa / 128)) op t.pa
          .next (serve r.1 node tag op r.2 true)

/-! ## The host's accesses to device memory (R357 to R359, R368) -/

/-- What bias a host access to a line meets: a line that a flip to host bias has still to process or has processed, or the
bias under which it is served. -/
inductive HostView where
  | flipping (x : Flip)
  | device
  | host
  deriving DecidableEq, Repr

def hostView (s : State) (line : Nat) : HostView :=
  match flipOf s (line / 32) with
  | some x => if x.toHost then .flipping x else if x.done.contains line then .device else .host
  | none => if hostBias s (line / 32) then .host else .device

/-- A line of a flip to host bias is processed at once (R358). -/
def processLine (s : State) (x : Flip) (line : Nat) : State :=
  if x.done.contains line then s
  else modMs (cleanLine (drainWaiting s line) line) (fun m => { m with flips := m.flips.map (fun y =>
    if y.op == x.op then { y with done := y.done ++ [line] } else y) })

/-- Whether every byte of a range is exposed to the host (R333, R355). -/
def exposedRange (s : State) (pa n : Nat) : Bool :=
  exposed s pa && exposed s (pa + n - 1) && (linesOf pa n).all (fun l => !cejRegion (128 * l))

/-- What the device answers to a host read: the owner's value, or Mem, at the home (R357). -/
def hostReadData (s : State) (pa n : Nat) : List Byte := homeBytes s pa n

def hostReadLine (s : State) (line : Nat) : State :=
  match hostView s line with
  | .flipping x => processLine s x line
  | .device => s
  | .host =>
    let s := revokeAll (drainWaiting s line) line
    if hostState s line = 0 then setHostState s line 1 else s

/-- HOST_READ: the host reads bytes of the exposed range; an access outside it ends at the host (R355, R357). In host bias
the host may keep a copy, which the home records. -/
def execHostRead (pa n : Nat) (s : State) : Out :=
  if s.plat.linksUp = 0 ∨ n = 0 ∨ !exposedRange s pa n then .next s
  else .next ((linesOf pa n).foldl hostReadLine s)

/-- HOST_READ_OWN: in host bias every device copy goes and the host holds M; during a flip to host bias the read waits; in
device bias the host keeps no copy (R357, R368). -/
def execHostReadOwn (line : Nat) (s : State) : Out :=
  if s.plat.linksUp = 0 ∨ !exposed s (128 * line) then .next s
  else match hostView s line with
    | .host => .next (setHostState (cleanLine (drainWaiting s line) line) line 2)
    | _ => .next s

/-- A host write to one line's bytes: owners are revoked, and every copy goes from every view before the acknowledgement
(R357). -/
def hostWriteBytes (s : State) (pa : Nat) (bs : List Byte) : State :=
  let s := (linesOf pa bs.length).foldl (fun s line =>
    match hostView s line with
    | .flipping x => processLine s x line
    | .device => drainWaiting s line
    | .host => setHostState (drainWaiting s line) line 0) s
  let s := homeWriteBytes s pa bs anyRegion
  (linesOf pa bs.length).foldl cleanLine s

/-- A line of host memory that the device neither owns nor holds. -/
def hostOnly (s : State) (line : Nat) : Bool :=
  !s.ms.hostOwn.contains line && (lineSt s line).m.isNone && (lineSt s line).s == 0

/-- HOST_WRITE: to the exposed range (R357), or to a line of host memory of which the device holds nothing (DESIGN CHOICE,
log 30). -/
def execHostWrite (pa : Nat) (bs : List Byte) (s : State) : Out :=
  if bs.isEmpty then .next s
  else if isHostPa pa then
    .next (if isHostPa (pa + bs.length - 1) && (linesOf pa bs.length).all (hostOnly s) then
      { s with mem := memPut s.mem pa bs } else s)
  else if s.plat.linksUp = 0 ∨ !exposedRange s pa bs.length then .next s
  else .next (hostWriteBytes s pa bs)

/-- HOST_WRITEBACK: the host gives up a line that it holds in M (R357, R369). -/
def execHostWriteback (line : Nat) (data : List Byte) (s : State) : Out :=
  if hostState s line ≠ 2 ∨ data.length ≠ 128 then .next s
  else .next (setHostState (homeWriteBytes s (128 * line) data anyRegion) line 0)

/-- SNOOP_RESPONSE: the host answers the snoop of a line, with its data when it holds M (R357, R359, R369). -/
def execSnoopResponse (line : Nat) (data : List Byte) (s : State) : Out :=
  match s.ms.snoops.find? (fun e => e.1 == line) with
  | none => .next s
  | some e =>
    if hostState s line = 2 ∧ data.length ≠ 128 then .next s
    else
      let held := hostState s line
      let s := if held = 2 then homeWriteBytes s (128 * line) data anyRegion else s
      let s := modMs s (fun m => { m with snoops := m.snoops.filter (fun x => x.1 != line) })
      let s := setHostState s line (if e.2 then 0 else min held 1)
      let s := if e.2 then modMs s (fun m => { m with flips := m.flips.map (fun y =>
          if y.begun && !y.toHost && y.block == line / 32 && !y.done.contains line then { y with done := y.done ++ [line] } else y) })
        else s
      .next (flipSnoop s (line / 32))

/-! ## Host memory (R354) -/

/-- HOST_SNOOP: a line of host memory is returned and every copy removed before the answer (R354). -/
def execHostSnoop (line : Nat) (s : State) : Out :=
  if !isHostPa (128 * line) then .next s
  else
    let s := cleanLine (drainWaiting s line) line
    .next (modMs s (fun m => { m with hostOwn := m.hostOwn.filter (· != line) }))

/-- HOST_OWNERSHIP_GRANT: the home link holds a line with ownership, and its data as the host gives them when the device
holds nothing of the line (R354). -/
def execHostOwnershipGrant (line : Nat) (data : List Byte) (s : State) : Out :=
  if !isHostPa (128 * line) || s.plat.linksUp == 0 || s.ms.hostOwn.contains line then .next s
  else
    let s := if hostOnly s line && data.length == 128 then { s with mem := memPut s.mem (128 * line) data } else s
    .next (modMs s (fun m => { m with hostOwn := m.hostOwn ++ [line], hostAsk := m.hostAsk.filter (fun e => e.1 != line) }))

/-! ## Replicated pages (R351, R352) -/

/-- REPLICA_COLLAPSE: every replica and every copy of the page goes, and the page enters the collapse table, once there is
room (R351, R352). -/
def execReplicaCollapse (page : Nat) (s : State) : Out :=
  match s.ms.collapsing.find? (fun e => e.1 == page) with
  | none => .next s
  | some e =>
    if 4096 ≤ s.ms.collapse.length then .next s
    else
      let s := dropRange s (4096 * page) (2 ^ e.2)
      .next (modMs s (fun m =>
        { m with l2 := m.l2.filter (fun x => !decide (4096 * page ≤ 128 * x.line ∧ 128 * x.line < 4096 * page + 2 ^ e.2)),
                 collapsing := m.collapsing.erase e, collapse := m.collapse ++ [e] }))

end Sys2Proof.Machine
end

