-- ==== Sys2Proof/Machine/Platform.lean ====
section
/-! DEFINITION. The platform (R329 to R332, R370 to R375): the paddock controller, grants and thermal limits, boot, recovery
and attestation, and the move to full service. -/

namespace Sys2Proof.Machine

open Sys2Proof

/-! ## Read-only words of the host's window (R319, R320, R329, R337, R355, R370) -/

/-- Cores that a paddock holds on a die. -/
def padOnDie (s : State) (p d : Nat) : Nat :=
  (s.cores.filter (fun c => c.2.pad == some p && dieOf c.1 == d)).length

/-- A paddock's minimum is not met on some die of the service state. -/
def padUnmet (s : State) (p : Nat) : Bool :=
  padInUse s p && (List.range (if s.plat.svc = 2 then 4 else 1)).any (fun d => decide (padOnDie s p d < (pad s p).min.toNat))

def padFlags (s : State) (p : Nat) : W32 :=
  BitVec.ofNat 32 ((if padInUse s p then 1 else 0) + (if padUnmet s p then 2 else 0))

def padCoresWord (s : State) (p : Nat) : W32 :=
  BitVec.ofNat 32 ((List.range 4).foldl (fun n d => n + padOnDie s p d * 256 ^ d) 0)

def ctxStat (s : State) : W32 := BitVec.ofNat 32 ((if s.plat.ctxErr then 2 else 0) + s.plat.ctxEcode * 256)

def svcStatWord (s : State) : W32 :=
  BitVec.ofNat 32 (s.plat.svc % 4 + (if s.plat.hbmErr then 4 else 0) + (if s.plat.trip then 8 else 0))

/-- PKG_INFO: user cores, stacks in service, and the two clocks (R370, R371). -/
def pkgInfo (s : State) : W64 :=
  if s.plat.svc = 2 then nat64 (252 + 12 * 2 ^ 8 + 700 * 2 ^ 16 + 1400 * 2 ^ 28)
  else if s.plat.svc = 1 then nat64 (63 + 350 * 2 ^ 16 + 700 * 2 ^ 28)
  else 0

def biasStat (s : State) : W32 := if s.ms.flips.isEmpty then 0 else 1

/-- A word of COLLAPSE_LIST (R352). -/
def collapseWord (s : State) (i : Nat) : W64 := match s.ms.collapse[i]? with | some p => nat64 (4096 * p.1 + 1) | none => 0

def cejStatusWord (s : State) : W32 :=
  BitVec.ofNat 32 ((if s.plat.cej.ackErr then 1 else 0) + (if cejFull s then 2 else 0)
    + (if s.plat.cej.counters.isEmpty then 0 else 4))

/-- CEJ_AKEYHASH: zero when no key is installed. -/
def akeyHash (s : State) : BitVec 384 := if s.plat.cej.akey.isEmpty then 0 else Config.sha384 s.plat.cej.akey

/-! ## Paddocks (R329) -/

/-- User cores of the service state (R8, R371). -/
def userCore (s : State) (c : Nat) : Bool := decide (c < 256 ∧ c % 64 ≠ 0) && decide (s.plat.svc = 2 ∨ dieOf c = 0)

/-- Cores of a die that a paddock holds once every marked core has moved. -/
def padHeld (s : State) (p d : Nat) : Nat :=
  (s.cores.filter (fun c => dieOf c.1 == d && (match c.2.marked with | some m => m == p | none => c.2.pad == some p))).length

/-- The lowest-numbered paddock in use whose minimum is not met on a die. -/
def firstUnmet (s : State) (d : Nat) : Option Nat :=
  (List.range 64).find? (fun p => padInUse s p && decide (padHeld s p d < (pad s p).min.toNat))

/-- Fold-cycles delivered to a paddock over the last 1 ms, as they stand at the controller's latest multiple of 50 µs and since.
-/
def recent (s : State) (p : Nat) : Nat :=
  if (pad s p).hist.length < 21 then (pad s p).deliv.toNat else ((pad s p).deliv - (pad s p).hist.headD 0).toNat

/-- How far a paddock is above its share of the package's fold-cycles, in units of 2^-16 of a fold-cycle (R329). -/
def aboveShare (s : State) (p : Nat) : Int :=
  65536 * (recent s p : Int) - (pad s p).share.toNat * (((List.range 64).foldl (fun n q => n + recent s q) 0 : Nat) : Int)

/-- The paddocks in use that could give a core of a die, and those that could take one, within their minimum and maximum. -/
def padGives (s : State) (p d : Nat) : Bool := padInUse s p && decide ((pad s p).min.toNat < padHeld s p d)
def padTakes (s : State) (p d : Nat) : Bool := padInUse s p && decide (padHeld s p d < (pad s p).max.toNat)

def furthestAbove (s : State) (p d : Nat) : Bool :=
  padGives s p d && (List.range 64).all (fun q => !padGives s q d || decide (aboveShare s q ≤ aboveShare s p))

def furthestBelow (s : State) (p d : Nat) : Bool :=
  padTakes s p d && decide (aboveShare s p < 0)
    && (List.range 64).all (fun q => !padTakes s q d || decide (aboveShare s p ≤ aboveShare s q))

/-- Whether the controller of a die may give a core to a paddock (R329): a paddock with an unmet minimum comes first, the lowest
number first, and takes also from a higher-numbered paddock at its own minimum; a core that no paddock holds goes to a paddock
below its share; and once in 50 µs a core goes from the paddock furthest above its share to the one furthest below. Which of
several equals gives or takes is the event's choice. A core on which a CORES grid keeps room for its later stages, whose folds are
placed there (R190), stays. -/
def padMove (s : State) (c p : Nat) : Bool :=
  let d := dieOf c
  (coreKept s c).slots == 0 && match (coreAt s c).pad, firstUnmet s d with
  | none, some q => q == p && padTakes s p d
  | none, none => padTakes s p d && decide (aboveShare s p < 0)
  | some o, some q => q == p && padTakes s p d && (padGives s o d || !padInUse s o || decide (q < o))
  | some o, none => furthestBelow s p d && furthestAbove s o d && decide (0 < aboveShare s o)
      && decide ((die s d).moved < s.plat.ts.toNat / 50000)

/-- PADDOCK_REBALANCE: a core is marked to move; it moves once it has no fold of its old paddock (R329). -/
def execPaddockRebalance (c p : Nat) (s : State) : Out :=
  if !userCore s c || (coreAt s c).marked.isSome || (coreAt s c).pad == some p || !padMove s c p then .next s
  else
    let s := if (coreAt s c).pad.isNone then s else modDie s (dieOf c) (fun d => { d with moved := s.plat.ts.toNat / 50000 })
    .next (joinPaddock (modCore s c (fun co => { co with marked := some p })) c)

/-! ## Grants and temperature (R374, R375) -/

/-- GRANT of a core: 0 while its die is throttled, else no lower than the floor of its paddock (R329, R375). -/
def setGrant (s : State) (c grant : Nat) : State :=
  let fl := match (coreAt s c).pad with | some p => (pad s p).tokens | none => 0
  modCore s c (fun co => { co with grant := if (die s (dieOf c)).throttled then 0 else max grant fl })

/-- The grant of a paddock's cores when the paddock with the largest share in use has `g`: in proportion to its share, rounded
down, and `g` for a paddock without a share and for a core of no paddock (R374; DESIGN CHOICE, log 14). -/
def shareGrant (s : State) (pd : Option Nat) (g : Nat) : Nat :=
  let share := fun (p : Nat) => if padInUse s p then (pad s p).share.toNat else 0
  let top := (List.range 64).foldl (fun m p => max m (share p)) 0
  match pd with
  | some p => if share p = 0 then g else g * share p / top
  | none => g

/-- The token floor: the largest t of 0 to 8 for which the power predicted with every core of every paddock in use at GRANT t
stays within PWR_CAP (R374), and 0 where it does for none: no grant lies below 0. -/
def tokenFloor (cap : Nat) (predicted : Vector (BitVec 12) 9) : Nat :=
  ((List.range 9).reverse.find? (fun t => decide ((predicted.toList.getD t 0).toNat ≤ cap))).getD 0

/-- GRANT_RECOMPUTE: firmware sets every user core's grant, the floor of every paddock, and the measured power. The predictions
are arguments: that of the module power with the grants, which stays within PWR_CAP, and that with every core of the paddocks in
use at GRANT t, for t from 0 to 8, which gives the floor below which no grant lies (R374; log 14). -/
def execGrantRecompute (predicted : BitVec 12) (grant : BitVec 4) (floors : Vector (BitVec 12) 9) (power : BitVec 12) (s : State) :
    Out :=
  if 8 < grant.toNat ∨ s.plat.pwrCap.toNat < predicted.toNat then .next s
  else
    let s := modPlat s (fun x => { x with pwrNow := power.setWidth 32 })
    let s := (List.range 64).foldl (fun s p => modPad s p (fun x => { x with tokens := tokenFloor s.plat.pwrCap.toNat floors })) s
    .next (((List.range 256).filter (userCore s)).foldl (fun s c => setGrant s c (shareGrant s (coreAt s c).pad grant.toNat)) s)

/-- A die's temperature, and the hottest one (R370). -/
def setTemp (s : State) (d : Nat) (t : BitVec 8) : State :=
  let s := modDie s d (fun x => { x with temp := t.toNat })
  modPlat s (fun p => { p with tempMax := BitVec.ofNat 32 ((List.range 4).foldl (fun m i => max m (die s i).temp) 0) })

/-- THERMAL_THROTTLE: above 95 °C every core of the die has GRANT 0 (R375). -/
def execThermalThrottle (d : Fin 4) (t : BitVec 8) (s : State) : Out :=
  let s := setTemp s d.val t
  if t.toNat ≤ 95 then .next s
  else
    let s := modDie s d.val (fun x => { x with throttled := true })
    .next ((List.range 64).foldl (fun s i => modCore s (64 * d.val + i) (fun co => { co with grant := 0 })) s)

/-- The grant of another die's core of the same paddock, not throttled: the cores of one paddock have equal grants (R374). -/
def peerGrant (s : State) (d : Nat) (pd : Option Nat) : Option Nat :=
  ((List.range 256).find? (fun c => userCore s c && dieOf c != d && !(die s (dieOf c)).throttled && (coreAt s c).pad == pd)).map
    (fun c => (coreAt s c).grant)

/-- THERMAL_RECOVER: below 90 °C the die's cores have grants again (R375): those of their paddocks' cores on other dies, or else
in proportion to the shares. With them the power that firmware predicts stays within PWR_CAP (R374; log 14). -/
def execThermalRecover (d : Fin 4) (t : BitVec 8) (grant : BitVec 4 × BitVec 12) (s : State) : Out :=
  let s := setTemp s d.val t
  if 90 ≤ t.toNat ∨ !(die s d.val).throttled ∨ 8 < grant.1.toNat ∨ s.plat.pwrCap.toNat < grant.2.toNat then .next s
  else
    let s := modDie s d.val (fun x => { x with throttled := false })
    .next (((List.range 64).map (64 * d.val + ·)).foldl (fun s c =>
      setGrant s c ((peerGrant s d.val (coreAt s c).pad).getD (shareGrant s (coreAt s c).pad grant.1.toNat))) s)

/-! ## Boot, reset, recovery (R330, R331) -/

/-- The image in the module's flash. -/
def flashOf (s : State) : List Byte := match s.plat.fw.flash with | some i => i | none => Config.flashImage

/-- The mask ROM's checks of an image (R330). -/
def imageGood (i : List Byte) : Bool :=
  Config.sha384 (Config.imageKey i) == Config.fusedKeyHash
    && Config.ecdsaVerify (Config.imageKey i) (Config.sha384 i) (Config.imageSignature i)
    && decide (Config.fusedMinVersion ≤ Config.imageVersion i)

/-- Every register at its reset value. Memory keeps its bytes (DESIGN CHOICE, log 11), the flash its image, and TRIP stays
until software or power-on clears it (R370). -/
def resetRegs (s : State) : State :=
  { State.reset with
    mem := s.mem
    plat := { State.reset.plat with trip := s.plat.trip, fw := { State.reset.plat.fw with flash := s.plat.fw.flash } }
    sched := s.sched
    seq := s.seq
    freeIx := s.freeIx }

/-- The mask ROM waits for an image (R331). -/
def enterRecovery (s : State) : State := modPlat (resetRegs s) (fun p => { p with fw := { p.fw with recovery := true } })

/-- The first entry of the journal has kind 3 and sequence 0 (R333). -/
def cejStart (s : State) : State := cejPut s s.plat.ts (0xA * 1024) 3 0 (nat64 s.plat.fw.secVersion) 0 0

/-- Boot: the image is verified, measured and placed, and firmware starts reduced service; otherwise the mask ROM enters
recovery (R330, R331). -/
def bootModule (s : State) : State :=
  let i := flashOf s
  let s := resetRegs s
  if imageGood i then
    cejStart (modPlat s (fun p => { p with
      svc := 1
      fw := { p.fw with secVersion := Config.imageVersion i, measurements := [Config.sha384 i] } }))
  else enterRecovery s

/-- MODULE_RESET (R330). -/
def execModuleReset (s : State) : Out := .next (bootModule s)

/-- THERMAL_TRIP: above 105 °C every fold stops without being saved, and the module resets with TRIP set (R375). -/
def execThermalTrip (d : Fin 4) (t : BitVec 8) (s : State) : Out :=
  let s := setTemp s d.val t
  if t.toNat ≤ 105 then .next s else .next (bootModule (modPlat s (fun p => { p with trip := true })))

/-- RECOVERY: the mask ROM is in recovery, or the host requests it; an image that verifies is written to flash and the module
resets, and any other is discarded (R331). -/
def execRecovery (image : List Byte) (s : State) : Out :=
  let s := if s.plat.fw.recovery then s else enterRecovery s
  if imageGood image then .next (bootModule (modPlat s (fun p => { p with fw := { p.fw with flash := some image } })))
  else .next s

/-! ## Attestation (R332) -/

/-- The device's feature mask as bytes (R344, R371). -/
def featureMask (s : State) : List Byte :=
  leBytes 64 ((List.range 512).foldl (fun n b => n + if deviceHas s b then 2 ^ b else 0) 0)

/-- The signed part of a report; the manual gives the order of its parts no layout (DESIGN CHOICE, log 13). -/
def reportBody (s : State) (nonce : BitVec 256) : List Byte :=
  leBytes 32 nonce.toNat ++ s.plat.fw.measurements.flatMap (fun m => beBytes 48 m.toNat) ++ leBytes 4 s.plat.fw.secVersion
    ++ featureMask s

/-- ATTESTATION_REQUEST (R332); in recovery only the recovery mailbox answers (R331). -/
def execAttestationRequest (nonce : BitVec 256) (s : State) : Out :=
  if s.plat.svc = 0 then .next s
  else
    let b := reportBody s nonce
    .next (modPlat s (fun p => { p with fw := { p.fw with report := b ++ beBytes 96 (Config.identitySign (Config.sha384 b)).toNat } }))

/-! ## The move to full service (R372, R373) -/

/-- The journal's unacknowledged entries, and the last entry, which the next chain needs, move to the region of full
service (R373). -/
def moveCej (s : State) : State :=
  let c := s.plat.cej
  let first := if c.head = c.tail then c.tail.toNat - 1 else c.head.toNat
  (List.range (c.tail.toNat - first)).foldl (fun s i =>
    let q := first + i
    { s with mem := memPut s.mem (0x2FFC000000 + 64 * (q % 1048576)) (memBytes s.mem (0x3FC00000 + 64 * (q % 65536)) 64) }) s

/-- Steps 2 to 4: the region grows, so that counters which waited for space are appended (R336, R373); every context's journal
notes the new state, and the physical function's service vector is raised (its number is the model's, log 5). -/
def enterFull (s : State) : State :=
  let s := modPlat (moveCej s) (fun p => { p with svc := 2, moving := false })
  let s := cejFlush s.plat.cej.counters.length (cejCheckpoint s)
  let a := (svcStatWord s).setWidth 64
  let s := (s.ctxs.filter (fun k => k.2.live)).foldl (fun s k => evjAppend s k.1 8 0 0 a 0) s
  raiseIrq s 0 0

/-- FULL_SERVICE_TRANSITION: firmware first pre-empts every resident fold and places none; once none is resident the package
enters full service. A stack that failed training keeps it in reduced service (R372). Firmware reserves the HBM of the bias
table where it chooses (R356). -/
def execFullServiceTransition (training : Training) (s : State) : Out :=
  if s.plat.svc ≠ 1 ∨ s.plat.hbmErr then .next s
  else match training with
    | .failed _ => .next (modPlat s (fun p => { p with hbmErr := true, moving := false }))
    | .trained biasTable =>
      let here := s.folds.filter (fun e => (coreOf e.2).isSome)
      if here.isEmpty then .next (enterFull (modPlat s (fun p => { p with biasTab := some biasTable })))
      else .next (here.foldl (fun s e => stopFold s e.1 .preempt) (modPlat s (fun p => { p with moving := true })))

/-! ## The host's window (R4, R319, R320, R331) -/

/-- The word of a register of the window: a WO register reads as zero (R4). -/
def regWord (s : State) (r : HostReg) : W64 :=
  match r with
  | .ctxPad c => nat64 (ctx s c).pad
  | .qBase q => (queue s q).base
  | .qSize q => (queue s q).size.setWidth 64
  | .qCtl q => (queue s q).ctl.setWidth 64
  | .qResv q => (queue s q).resv.setWidth 64
  | .qVec q => (queue s q).vec.setWidth 64
  | .qStat q => (queue s q).stat.setWidth 64
  | .qHead q => nat64 (qheadWord (queue s q))
  | .padMin p => (pad s p).min.setWidth 64
  | .padMax p => (pad s p).max.setWidth 64
  | .padShare p => (pad s p).share.setWidth 64
  | .padDeliv p => (pad s p).deliv
  | .padCores p => (padCoresWord s p).setWidth 64
  | .padTokens p => nat64 (pad s p).tokens
  | .padFlags p => (padFlags s p).setWidth 64
  | .ctxReg c n => ctxRegRead s c n
  | .coreReg c n => coreRegRead s c n
  | .evjBase c => (ctx s c).evj.base
  | .evjSize c => (ctx s c).evj.size.setWidth 64
  | .evjHead c => (ctx s c).evj.head.setWidth 64
  | .evjTail c => (ctx s c).evj.tail.setWidth 64
  | .evjLost c => (ctx s c).evj.lost.setWidth 64
  | .evjVec c => (ctx s c).evj.vec.setWidth 64
  | .dirtyEn c => if (ctx s c).dirty.en then 1 else 0
  | .dirtyBase c => (ctx s c).dirty.base
  | .dirtySize c => (ctx s c).dirty.size.setWidth 64
  | .dirtyHead c => (ctx s c).dirty.head.setWidth 64
  | .dirtyTail c => (ctx s c).dirty.tail.setWidth 64
  | .dirtyLost c => (ctx s c).dirty.lost.setWidth 64
  | .hdmBase => s.plat.hdmBase
  | .hdmSize => s.plat.hdmSize
  | .hdmCtl => if s.plat.hdmEn then 1 else 0
  | .biasStat => (biasStat s).setWidth 64
  | .collapseList i => collapseWord s i
  | .pwrCap => s.plat.pwrCap.setWidth 64
  | .pwrNow => s.plat.pwrNow.setWidth 64
  | .tempMax => s.plat.tempMax.setWidth 64
  | .pkgInfo => pkgInfo s
  | .svcStat => (svcStatWord s).setWidth 64
  | .ctxStat => (ctxStat s).setWidth 64
  | .cejStatus => (cejStatusWord s).setWidth 64
  | .cejBase => nat64 (cejBase s)
  | .cejSize => nat64 (cejSize s)
  | .cejHead => s.plat.cej.head.setWidth 64
  | .cejTail => s.plat.cej.tail.setWidth 64
  | .hashEn fn => if tgetD s.plat.hashEn fn false then 1 else 0
  | .hashList fn _ => nat64 (tgetD s.plat.hashes fn []).length
  | .numVfs => nat64 s.plat.vfs
  | .localNode => s.plat.localNode.setWidth 64
  | .nodeRoute n => (tgetD s.plat.nodeRoute n 0).setWidth 64
  | .cejAkeyHash w => nat64 (ofLe (((beBytes 48 (akeyHash s).toNat).drop (8 * w.val)).take 8))
  | .ctxCmd | .qDoor _ | .qImport _ | .qExport _ | .cejAck => 0

/-- A context, or the context of a queue, belongs to a function (R319, R320). -/
def ownsCtx (s : State) (fn c : Nat) : Bool := (ctx s c).live && (ctx s c).owner == fn
def ownsQueue (s : State) (fn q : Nat) : Bool := ownsCtx s fn (queueCtx (queue s q))

/-- Whether a virtual function reaches a register: the registers and queues of the contexts that it owns, and no other
context's; the registers of the package are the physical function's (R319, R320, R329, R345). -/
def fnReg (s : State) (fn : Nat) (r : HostReg) : Bool :=
  match r with
  | .ctxReg c _ | .evjBase c | .evjSize c | .evjHead c | .evjTail c | .evjLost c | .evjVec c | .dirtyEn c | .dirtyBase c
  | .dirtySize c | .dirtyHead c | .dirtyTail c | .dirtyLost c => ownsCtx s fn c
  | .qBase q | .qCtl q | .qSize q | .qResv q | .qVec q | .qDoor q | .qHead q | .qStat q | .qImport q | .qExport q => ownsQueue s fn q
  | _ => false

/-- What a function reads in its window: a virtual function the registers that it reaches, and zero elsewhere (DESIGN CHOICE,
log 27). In recovery only the recovery mailbox answers (R331). -/
def hostRegRead (s : State) (fn : Nat) (r : HostReg) : W64 :=
  if s.plat.fw.recovery then 0 else if fn = 0 ∨ fnReg s fn r then regWord s r else 0

/-- Bytes of the Corrected-Error Journal as the host reads them through BAR 4 of the physical function, which maps the region in
use from offset 0 (R337); beyond the region they read as zero (DESIGN CHOICE, log 27). -/
def cejWindow (s : State) (off n : Nat) : List Byte :=
  if s.plat.fw.recovery then List.replicate n 0
  else (List.range n).map (fun i =>
    if off + i < 64 * cejSize s then (memBytes s.mem (cejBase s + off + i) 1).headD 0 else 0)

/-- A function's write of QCTL does not set EN for a context that the function does not own (R319): the rest of the write takes
effect. While EN is 1, CTX is not written (R320). -/
def ownEnable (s : State) (fn q : Nat) (v : W32) : W32 :=
  if fn = 0 ∨ queueEn (queue s q) ∨ ownsCtx s fn (bits v 27 16) then v else v &&& 0xFFFFFFFE

/-- An instruction of the host as the window of a function passes it on. -/
def throughWindow (s : State) (fn : Nat) (i : Instr) : Instr :=
  match i with
  | .registerWrite (.qCtl q) v => .registerWrite (.qCtl q) ((ownEnable s fn q (v.setWidth 32)).setWidth 64)
  | .queueEnable q v =>
    if bitOf (ownEnable s fn q (v ||| 1)) 0 then .queueEnable q v
    else .registerWrite (.qCtl q) ((ownEnable s fn q v).setWidth 64)
  | i => i

/-- An access of the host through the window of a function, 0 for the physical one: whether it reaches what it names. In
recovery only the recovery mailbox answers (R331). -/
def windowAllows (fn : Nat) (i : Instr) (s : State) : Bool :=
  let pf := fn == 0
  match i with
  | .recovery _ => pf
  | .registerWrite r _ => !s.plat.fw.recovery && (pf || fnReg s fn r)
  | .qdoor q | .qstatErrClear q | .qexport q _ | .qimport q _ | .queueEnable q _ =>
    !s.plat.fw.recovery && (pf || ownsQueue s fn q)
  | .odwWrite c _ | .fpevLimitWrite c _ _ | .dirtyEnable c | .foldcmdResume c _ | .foldcmdKill c _ | .foldcmdRerun c _ =>
    !s.plat.fw.recovery && (pf || ownsCtx s fn c)
  | .contextCreate _ _ | .contextDestroy _ | .hdmEnable | .cejAck _ _ | .cejAkeyInstall _ _ | .attestationRequest _ =>
    !s.plat.fw.recovery && pf
  | _ => pf

/-! ## Uncorrectable errors (R298) -/

/-- Data with an uncorrectable error are consumed: the fold takes UCE at the consuming instruction, with FADDR giving the
location, no datum is passed on, and the journal notes event 0x0010 (R298, R334). -/
def consumeError (s : State) (x : Consumer) (unit : BitVec 16) (loc : W64) : State :=
  let note := fun (s : State) => cejRaise s unit 0x0010 loc 0
  match x with
  | .word f k l =>
    match issuing? { s with cur := some (f, k) } with
    | some c => if c.g.lanes.contains l then note (faultHere s c cUCE (some l) loc) else s
    | none => s
  | .load f k ix =>
    match (flock? s f k).bind (fun fl => fl.loads[ix]?) with
    | some e =>
      let tid := (thread? s f k e.lane).map (·.tid)
      note (partDone (dropLoad (foldFault s f k cUCE 0 tid false e.pc loc) f k e) f k e.op [])
    | none => s
  | .entry f k =>
    match (flock? s f k).map (·.fifo) with
    | some (e :: _) =>
      if isStore e then s
      else
        let tid := (thread? s f k e.lane).map (·.tid)
        note (partDone (popFifo (foldFault s f k cUCE 0 tid false e.pc loc) f k) f k e.op [])
    | _ => s
  | .tentative f k l =>
    match (flock? s f k).bind (fun fl => firstTent fl l) with
    | some e =>
      if isStore e then s
      else
        let tid := (thread? s f k e.lane).map (·.tid)
        note (partDone (dropTent (foldFault s f k cUCE 0 tid false e.pc loc) f k e) f k e.op [])
    | none => s
  | .matrix c => match mxConsume s c loc with
    | some t => note t
    | none => s
  | .command d e ix =>
    match (engineQ s d e)[ix]? with
    | some y => note (endCommand s d e ix y cUCE loc)
    | none => s

end Sys2Proof.Machine
end

