-- ==== Sys2Proof/Machine/Issue.lean ====
section
/-! DEFINITION. Issue (R121, R122, R296, R302, R376): the selection of a flock's group, the fetch of its next word, the checks
that a word meets before its meaning (R22, R38, R45, R47, R48, R117, R130), and the passing of time (R10, R11, R200, R305,
R329). -/

namespace Sys2Proof.Machine

open Sys2Proof

/-! ## Selection (R121) -/

/-- The candidates of a flock: those in trap mode when there are any. -/
def candidates (fl : Flock) : Tab Thread :=
  let cand := fl.threads.filter (fun t => !t.2.exited && t.2.park == .none)
  let trap := cand.filter (fun t => t.2.trap.mode)
  if trap.isEmpty then cand else trap

/-- The lowest PC of some threads. -/
def lowestPc : Tab Thread → Option VA
  | [] => none
  | t :: r => match lowestPc r with
    | none => some t.2.pc
    | some p => if p.toNat < t.2.pc.toNat then some p else some t.2.pc

/-- A thread put into a list in ascending thread index: after a REORDER lanes are not in that order (R14, R145). -/
def insTid (x : Nat × Thread) : Tab Thread → Tab Thread
  | [] => [x]
  | y :: r => if x.2.tid ≤ y.2.tid then x :: y :: r else y :: insTid x r

/-- The lanes of the group that a flock selects, in ascending thread index. -/
def selectLanes (fl : Flock) : List Nat :=
  match lowestPc (candidates fl) with
  | none => []
  | some p => (((candidates fl).filter (fun t => t.2.pc == p)).foldr insTid []).map (·.1)

/-- A flock without a group selects one (R121). -/
def selectGroup (s : State) (f k : Nat) : State :=
  modFlock s f k (fun fl =>
    match fl.group with
    | some _ => fl
    | none => if (selectLanes fl).isEmpty then fl else { fl with group := some (freshGroup (selectLanes fl)) })

/-! ## Whether a flock may dispatch (R133, R296, R302) -/

/-- A flock of a stopping fold: only in the three cycles that begin with the fault's, and not when it has faulted itself. -/
def haltAllows (s : State) (fo : Fold) (fl : Flock) : Bool :=
  match fo.halt with
  | none => true
  | some h => h.reason == .fault && !h.stopped && decide (fl.skid < 3 ∧ s.plat.cycles / 20 ≤ h.cyc + 2)

def mayDispatch (s : State) (fo : Fold) (fl : Flock) : Bool :=
  fo.active && (coreOf fo).isSome && fl.fault.isNone && haltAllows s fo fl

/-- A word that a flock dispatches counts among those of its cycle, and while its fold halts in its skid (R296, R297). A group
that waits at a word it has dispatched dispatches nothing, and a flock dispatches at most one word in a cycle (R17). -/
def countSkid (s : State) (f k : Nat) : State :=
  let cyc := cycleNow s
  let halting := match fold? s f with | some fo => fo.halt.isSome | none => false
  modFlock s f k (fun fl =>
    if !atBoundary fl then fl
    else { fl with skid := if halting && (fl.sentCyc != cyc || fl.sentIn == 0) then fl.skid + 1 else fl.skid, sentCyc := cyc,
                   sentIn := if fl.sentCyc = cyc then fl.sentIn + 1 else 1 })

/-! ## The checks of a word (R45, R47, R48) -/

/-- The codes below 1536 that a word's operand fields hold, the V registers among them (R18). A field that an instruction
does not use is 0, and so is a field that holds no register. -/
def vCodes (i : Instr) : List Nat :=
  let named := fun (o : Opd) => match o with | .v n => [n.val] | _ => []
  match i with
  | .pair _ _ _ _ _ _ vd va vb _ => named vd ++ named va ++ named vb
  | _ =>
    let third := match i with
      | .vmad _ _ _ _ _ c | .vmadw _ _ _ _ _ c => named c
      | .vfma _ _ _ _ _ c _ _ => named c
      | .reorder _ _ b n => named b ++ (named b).map (fun x => x + n.toNat - 1)
      | _ => []
    match encodeFields i with
    | some x => third ++ [x.d.toNat, x.a.toNat, x.b.toNat].filter (· < 1536)
    | none => third

/-- A V code outside the flock's allocation (R38). -/
def outsideAllocation (valloc : Nat) (i : Instr) : Bool := (vCodes i).any (fun n => decide (n ≠ 0 ∧ valloc ≤ n))

/-- The instructions that end a clause (R22). -/
def endsClause : Instr → Bool
  | .bra .. | .brx .. | .call .. | .ret .. | .exit .. | .cvg .. | .reorder .. | .tret .. | .tretSkip .. | .tretTo ..
  | .trap .. | .haltf .. => true
  | _ => false

def sfuOp : Instr → Bool
  | .vfdiv .. | .vfsqrt .. | .vfrcp .. | .vfrsqrt .. | .vfexp2 .. | .vflog2 .. | .vfsinpi .. | .vfcospi .. | .vftanh .. => true
  | _ => false

/-- The long-latency instructions (R26): their hints, none for the others. -/
def longHints : Instr → Option Hd
  | .vfdiv h .. | .vfsqrt h .. | .vfrcp h .. | .vfrsqrt h .. | .vfexp2 h .. | .vflog2 h .. | .vfsinpi h .. | .vfcospi h ..
  | .vftanh h .. | .ld h .. | .st h .. | .ldl h .. | .stl h .. | .lds h .. | .sts h .. | .ldc h .. | .ldx h .. | .stx h ..
  | .bpf h _ _ _ none | .cflush h .. | .xlat h .. | .launch h .. | .take h .. | .mxcmd h .. | .mxtab h .. | .cpy h ..
  | .atom h .. | .acas h .. | .red h .. | .bflipDev h .. | .bflipHost h .. => some h
  | .qpush h d _ => match d with
    | .q n => if n.val = 11 then none else some h
    | _ => none
  | _ => none

/-- A long-latency instruction whose selected slot is 15 (R45). -/
def slotMissing (g : Group) (i : Instr) : Bool :=
  match longHints i with
  | some h => (slotFlag g h).isNone
  | none => false

/-- The words of a clause before the n-th that decode. -/
def wordsBefore (s : State) (c : Cx) (n : Nat) : List Instr :=
  (List.range (n - 1)).filterMap (fun j =>
    match (clauseWord s c.c c.fo.ctx c.g c.hdr (c.hdr + 12 * BitVec.ofNat 57 (j + 1))).2 with
    | .ok w => match decode w with | .ok i => some i | .error _ => none
    | .error _ => none)

/-- The tokens that a clause needs for some of its words (R117, R130). -/
def heavyNeed (is : List Instr) : Nat :=
  4 * (is.filter submitsMatrix).length + (if is.any needsF64 then 1 else 0)

/-- The word at which the clause's running need first exceeds its heavy field (R117, R130). -/
def overHeavy (s : State) (c : Cx) (i : Instr) : Bool :=
  (needsF64 i || submitsMatrix i)
    && decide (c.g.heavy < heavyNeed (wordsBefore s c ((c.pc - c.hdr).toNat / 12) ++ [i]))

/-- The ILLOP conditions that depend on the flock and its clause (R22, R38, R45, R130). -/
def wordBad (s : State) (c : Cx) (i : Instr) : Bool :=
  (endsClause i && !isLast c) || slotMissing c.g i || outsideAllocation c.fl.valloc i || overHeavy s c i

/-- The feature that a word needs and the device lacks in reduced service (R47, R344, R371). -/
def missingFeature (s : State) (i : Instr) : Option Nat :=
  if s.plat.svc = 2 then none
  else match i with
    | .mxcmd .. | .mxcommit .. | .mxwait .. | .mxtab .. => some 16
    | .qpush _ d _ => if d = .q 0 then some 16 else none
    | .qpop _ _ a => if a = .q 1 then some 16 else none
    | i => if sfuOp i && needsF64 i then some 3 else none

/-- The hints and the guard of a word that may need a missing feature. -/
def featHd : Instr → Option Hd
  | .mxcmd h .. | .mxcommit h .. | .mxwait h .. | .mxtab h .. | .qpush h .. | .qpop h .. => some h
  | i => if sfuOp i then longHints i else none

/-! ## One dispatch -/

/-- What a dispatch comes to: it is done, or a word's meaning runs. -/
inductive Dispatch where
  | done (s : State)
  | run (s : State) (i : Instr)
  deriving DecidableEq, Repr

/-- A fault at the fetch or the decode of a word: the faulting thread is the group's lowest (R45, R153, R295). FADDR is the
word's address for PAGE and PROT and 0 for ILLOP (R301). `word` is a fault of a word, and not of a clause header,
which the flock reaches in a later cycle than its word before (R17). -/
def fetchFault (s : State) (c : Cx) (cause : Nat) (hpc a : VA) (word : Bool) : State :=
  let s := if word then s else modFlock s c.f c.k (fun fl => { fl with sentIn := 0 })
  foldFault s c.f c.k cause 0 (c.g.lanes.head?.map (tidOf c)) false hpc (if cause = cILLOP then 0 else a.setWidth 64) word

/-- The PC that the halt record gives for a header that is none: the transfer instruction for a bad target, else the header
(R46). -/
def badTarget (c : Cx) : VA :=
  match c.g.lanes.head?.bind (tget? c.fl.threads) with
  | some t => t.via.getD c.hdr
  | none => c.hdr

/-- A word at a clause header's place that is no header, or a header with an illegal field (R45, R46). -/
def headerFault (s : State) (c : Cx) (w : W96) : State :=
  fetchFault s c cILLOP (if isHdrWord w then c.hdr else badTarget c) c.hdr false

/-- The clause header of a group that has not started (R45, R121). -/
def dispatchHeader (s : State) (c : Cx) : Dispatch :=
  match fetchWord s c.c c.fo.ctx c.hdr with
  | (s, .error cause) => .done (fetchFault s c cause c.hdr c.hdr false)
  | (s, .ok w) =>
    match decode w with
    | .ok (.clauseStart hd) => .run s (.clauseStart hd)
    | _ => .done (headerFault s c w)

/-- The target operand of a word that transfers through a register, read before the checks of its other fields (R48,
position 2): BRX, RET, CALL with X, TRET.TO. -/
def targetOpd (w : W96) : Option Opd :=
  let f := fieldsOf w
  let op := f.opcode.toNat
  if op = 3 ∨ op = 5 ∨ (op = 4 ∧ f.aux.getLsbD 40) ∨ (op = 0x2C1 ∧ f.aux.extractLsb' 32 2 = 2) then opdOf f.a else none

/-- The lowest thread of a group, guard true, whose transfer target is not a multiple of 4, with the target. An operand that
no target can be read from is left to the later checks. -/
def targetBad (c : Cx) (w : W96) : Option (Nat × VA) :=
  match targetOpd w with
  | none => none
  | some a =>
    let inside := match a with | .v n => decide (n.val < c.fl.valloc) | _ => true
    if !WellFormed.addrOk a || !inside then none
    else
      let tgt := fun l => (rdV c l .u64 a).setWidth 57
      ((execLanes c (hdOf (fieldsOf w).guard 0)).find? (fun l => (tgt l).toNat % 4 != 0)).map (fun l => (l, tgt l))

/-- FEAT in every thread whose guard is true; the others go on (R47). -/
def takeFeat (s : State) (c : Cx) (i : Instr) (bit : Nat) : Option State :=
  match featHd i with
  | none => none
  | some h => if (execLanes c h).isEmpty then none else some (advance (takeTraps s c cFEAT bit (execLanes c h)) c h)

/-- A word of a started clause (R48). -/
def dispatchWord (s : State) (c : Cx) : Dispatch :=
  match clauseWord s c.c c.fo.ctx c.g c.hdr c.pc with
  | (s, .error cause) => .done (fetchFault s c cause c.pc c.pc true)
  | (s, .ok w) =>
    match targetBad c w with
    | some (l, t) => .done (faultHere s c cALIGN (some l) (t.setWidth 64))
    | none =>
      match decode w with
      | .error _ => .done (fetchFault s c cILLOP c.pc c.pc true)
      | .ok (.clauseStart _) => .done (fetchFault s c cILLOP c.pc c.pc true)
      | .ok i =>
        if wordBad s c i then .done (fetchFault s c cILLOP c.pc c.pc true)
        else match (missingFeature s i).bind (takeFeat s c i) with
          | some s => .done s
          | none => .run s i

/-- The first lane of a group in which a late FPTHR is due; a group that waits has passed its boundary (R376). -/
def lateLane (c : Cx) : Option Nat :=
  if atBoundary c.fl then
    c.g.lanes.find? (fun l => match tget? c.fl.threads l with | some t => (lateDue t).isSome | none => false)
  else none

/-- A flock dispatches (R121, R296): it selects a group when it has none, takes a late trap that is due, starts its clause,
or issues its next word. -/
def dispatch (s : State) (f k : Nat) : Dispatch :=
  match fold? s f, flock? s f k with
  | some fo, some fl =>
    if !mayDispatch s fo fl then .done s
    else
      let s := selectGroup { s with cur := some (f, k) } f k
      match issuing? s with
      | none => .done s
      | some c =>
        match lateLane c with
        | some l => .done (takeLate s f k l)
        | none =>
          if c.g.started then dispatchWord (countSkid (modFlock s f k (fun fl => { fl with yielded := false })) f k) c
          else dispatchHeader s c
  | _, _ => .done s

/-! ## Time (R10, R11) -/

/-- Twentieths of an arithmetic cycle in a nanosecond (R10, R371). -/
def cycleRate (s : State) : Nat := if s.plat.svc = 2 then 14 else 7

/-- A flock held in LWAIT whose condition does not hold yet. -/
def lwaitHeld (s : State) (g : Nat) (fl : Flock) : Bool :=
  match fl.hold with
  | .lwait n => decide (n < hdrGet s g hLIVE 4)
  | _ => false

/-- Whether the watchdog time of a resident fold counts (R305). -/
def wdogCounts (s : State) (fo : Fold) : Bool :=
  !((fo.flocks.filter (fun k => !(liveLanes k.2).isEmpty)).all (fun k => lwaitHeld s fo.grid k.2)
      && fo.flocks.any (fun k => !(liveLanes k.2).isEmpty))

/-- The times of a fold (R200, R305). -/
def tickFold (s : State) (n : Nat) (fo : Fold) : Fold :=
  if (coreOf fo).isNone then fo
  else { fo with taskTime := if fo.isTask then fo.taskTime + n else fo.taskTime,
                 wdogTime := if wdogCounts s fo then fo.wdogTime + n else fo.wdogTime }

/-- Active folds of a paddock. -/
def activeIn (s : State) (p : Nat) : Nat :=
  (s.folds.filter (fun e => e.2.active && (match coreOf e.2 with | some c => (coreAt s c).pad == some p | none => false))).length

/-- Fold-cycles delivered to the paddocks over some whole cycles (R329). -/
def deliver (s : State) (whole : Nat) : State :=
  (List.range 64).foldl (fun s p =>
    if whole * activeIn s p = 0 then s
    else modPad s p (fun x => { x with deliv := x.deliv + nat64 (whole * activeIn s p) })) s

/-- Whole cycles that pass in the next n nanoseconds. -/
def wholeCycles (s : State) (n : Nat) : Nat := (s.plat.cycles + cycleRate s * n) / 20 - s.plat.cycles / 20

/-- The multiples of 50 µs that the next n nanoseconds reach, counted from now: the last twenty-one, in order. -/
def boundaries (s : State) (n : Nat) : List Nat :=
  let last := (s.plat.ts.toNat + n) / 50000
  let k := min 21 (last - s.plat.ts.toNat / 50000)
  (List.range k).map (fun i => 50000 * (last + 1 - k + i) - s.plat.ts.toNat)

/-- At each multiple of 50 µs the paddock controllers note what has been delivered by then, for the measure over the last 1 ms
(R329). What the n nanoseconds deliver is in PAD_DELIV. -/
def sample (s : State) (n : Nat) : State :=
  match boundaries s n with
  | [] => s
  | bs => { s with pads := s.pads.map (fun e =>
      let h := e.2.hist ++ bs.map (fun b => e.2.deliv - nat64 ((wholeCycles s n - wholeCycles s b) * activeIn s e.1))
      (e.1, { e.2 with hist := h.drop (h.length - 21) })) }

/-- Time passes by n nanoseconds. -/
def tick (s : State) (n : Nat) : State :=
  let s := sample (deliver s (wholeCycles s n)) n
  { s with
    folds := s.folds.map (fun e => (e.1, tickFold s n e.2))
    plat := { s.plat with ts := s.plat.ts + nat64 n, cycles := s.plat.cycles + cycleRate s * n } }

/-! ## Caches -/

/-- A translation that a core or a die caches is dropped (R154). -/
def dropTlb (s : State) (ag : Agent) (c va : Nat) : State := modTlb s ag (·.filter (fun e => !covers e c va))

/-- An instruction word, which only a flock that has fetched it runs; every other instruction is a step of another agent. -/
def isWord : Instr → Bool
  | .prologueGo _ | .prologueCancel _ | .prologueRepeat _ _ => false
  | i => (encode i).isSome

end Sys2Proof.Machine
end

