-- ==== Sys2Proof/Machine/Dispatch.lean ====
section
/-! DEFINITION. One arm per instruction: a direct call of its meaning. -/

namespace Sys2Proof.Machine

open Sys2Proof

def exec (i : Instr) (s : State) : Host.Outcome State Fault Refusal :=
  match i with
  -- group 0x0 (R136)
  | .nop h => Sys2Proof.Machine.execNop h s
  | .bra h c off => Sys2Proof.Machine.execBra h c off s
  | .brx h a => Sys2Proof.Machine.execBrx h a s
  | .call h d t => Sys2Proof.Machine.execCall h d t s
  | .ret h a => Sys2Proof.Machine.execRet h a s
  | .exit h => Sys2Proof.Machine.execExit h s
  | .cvg h a => Sys2Proof.Machine.execCvg h a s
  | .cvgset h d => Sys2Proof.Machine.execCvgset h d s
  | .elect h d a => Sys2Proof.Machine.execElect h d a s
  | .vote h m d a neg => Sys2Proof.Machine.execVote h m d a neg s
  | .reorder h a base count => Sys2Proof.Machine.execReorder h a base count s
  | .yield h => Sys2Proof.Machine.execYield h s
  | .waitf h mask => Sys2Proof.Machine.execWaitf h mask s
  -- group 0x1 (R73)
  | .smov h t d b => Sys2Proof.Machine.execSmov h t d b s
  | .sadd h t d a b => Sys2Proof.Machine.execSadd h t d a b s
  | .ssub h t d a b => Sys2Proof.Machine.execSsub h t d a b s
  | .smul h t d a b => Sys2Proof.Machine.execSmul h t d a b s
  | .smulh h t d a b => Sys2Proof.Machine.execSmulh h t d a b s
  | .sdiv h t d a b => Sys2Proof.Machine.execSdiv h t d a b s
  | .srem h t d a b => Sys2Proof.Machine.execSrem h t d a b s
  | .sand h t d a b => Sys2Proof.Machine.execSand h t d a b s
  | .sor h t d a b => Sys2Proof.Machine.execSor h t d a b s
  | .sxor h t d a b => Sys2Proof.Machine.execSxor h t d a b s
  | .snot h t d a => Sys2Proof.Machine.execSnot h t d a s
  | .sshl h t d a b => Sys2Proof.Machine.execSshl h t d a b s
  | .sshr h t d a b => Sys2Proof.Machine.execSshr h t d a b s
  | .ssar h t d a b => Sys2Proof.Machine.execSsar h t d a b s
  | .smin h t d a b => Sys2Proof.Machine.execSmin h t d a b s
  | .smax h t d a b => Sys2Proof.Machine.execSmax h t d a b s
  | .scmp h t c d a b => Sys2Proof.Machine.execScmp h t c d a b s
  | .ssel h t d a b c neg => Sys2Proof.Machine.execSsel h t d a b c neg s
  | .sclz h t d a => Sys2Proof.Machine.execSclz h t d a s
  | .spopc h t d a => Sys2Proof.Machine.execSpopc h t d a s
  | .sbfx h t d a b => Sys2Proof.Machine.execSbfx h t d a b s
  | .sbfi h t d a b => Sys2Proof.Machine.execSbfi h t d a b s
  | .slea h t d a b sh => Sys2Proof.Machine.execSlea h t d a b sh s
  -- group 0x2 (R77)
  | .vmov h t d b => Sys2Proof.Machine.execVmov h t d b s
  | .vadd h t d a b sat => Sys2Proof.Machine.execVadd h t d a b sat s
  | .vsub h t d a b sat => Sys2Proof.Machine.execVsub h t d a b sat s
  | .vmul h t d a b => Sys2Proof.Machine.execVmul h t d a b s
  | .vmulh h t d a b => Sys2Proof.Machine.execVmulh h t d a b s
  | .vmad h t d a b c => Sys2Proof.Machine.execVmad h t d a b c s
  | .vmadw h t d a b c => Sys2Proof.Machine.execVmadw h t d a b c s
  | .vdiv h t d a b => Sys2Proof.Machine.execVdiv h t d a b s
  | .vrem h t d a b => Sys2Proof.Machine.execVrem h t d a b s
  | .vand h t d a b => Sys2Proof.Machine.execVand h t d a b s
  | .vor h t d a b => Sys2Proof.Machine.execVor h t d a b s
  | .vxor h t d a b => Sys2Proof.Machine.execVxor h t d a b s
  | .vnot h t d a => Sys2Proof.Machine.execVnot h t d a s
  | .vshl h t d a b => Sys2Proof.Machine.execVshl h t d a b s
  | .vshr h t d a b => Sys2Proof.Machine.execVshr h t d a b s
  | .vsar h t d a b => Sys2Proof.Machine.execVsar h t d a b s
  | .vmin h t d a b => Sys2Proof.Machine.execVmin h t d a b s
  | .vmax h t d a b => Sys2Proof.Machine.execVmax h t d a b s
  | .vabs h t d a sat => Sys2Proof.Machine.execVabs h t d a sat s
  | .vneg h t d a sat => Sys2Proof.Machine.execVneg h t d a sat s
  | .vaddc h t d a b ciEn ci co => Sys2Proof.Machine.execVaddc h t d a b ciEn ci co s
  | .vsubb h t d a b ciEn ci co => Sys2Proof.Machine.execVsubb h t d a b ciEn ci co s
  | .vcmp h t c d a b => Sys2Proof.Machine.execVcmp h t c d a b s
  | .vsel h t d a b p neg => Sys2Proof.Machine.execVsel h t d a b p neg s
  | .vclz h t d a => Sys2Proof.Machine.execVclz h t d a s
  | .vpopc h t d a => Sys2Proof.Machine.execVpopc h t d a s
  | .vbfx h t d a b => Sys2Proof.Machine.execVbfx h t d a b s
  | .vbfi h t d a b => Sys2Proof.Machine.execVbfi h t d a b s
  | .vprmb h d a b sel => Sys2Proof.Machine.execVprmb h d a b sel s
  | .vlea h t d a b sh => Sys2Proof.Machine.execVlea h t d a b sh s
  | .vext h t d a w => Sys2Proof.Machine.execVext h t d a w s
  | .vdp4 h t d a b sat => Sys2Proof.Machine.execVdp4 h t d a b sat s
  -- group 0x3 (R83)
  | .pand h d a b na nb => Sys2Proof.Machine.execPand h d a b na nb s
  | .por h d a b na nb => Sys2Proof.Machine.execPor h d a b na nb s
  | .pxor h d a b na nb => Sys2Proof.Machine.execPxor h d a b na nb s
  | .pnot h d a => Sys2Proof.Machine.execPnot h d a s
  | .pmov h dir d a => Sys2Proof.Machine.execPmov h dir d a s
  | .shfl h t m d a b pv => Sys2Proof.Machine.execShfl h t m d a b pv s
  | .vtos h t d a b => Sys2Proof.Machine.execVtos h t d a b s
  | .stov h t d a hi => Sys2Proof.Machine.execStov h t d a hi s
  | .vspec h d a => Sys2Proof.Machine.execVspec h d a s
  | .sspec h d a => Sys2Proof.Machine.execSspec h d a s
  -- group 0x4 (R104)
  | .vfadd h t d a b rm sat => Sys2Proof.Machine.execVfadd h t d a b rm sat s
  | .vfsub h t d a b rm sat => Sys2Proof.Machine.execVfsub h t d a b rm sat s
  | .vfmul h t d a b rm sat => Sys2Proof.Machine.execVfmul h t d a b rm sat s
  | .vfma h t d a b c rm sat => Sys2Proof.Machine.execVfma h t d a b c rm sat s
  | .vfmin h t d a b => Sys2Proof.Machine.execVfmin h t d a b s
  | .vfmax h t d a b => Sys2Proof.Machine.execVfmax h t d a b s
  | .vfcmp h t c d a b => Sys2Proof.Machine.execVfcmp h t c d a b s
  | .vfabs h t d a => Sys2Proof.Machine.execVfabs h t d a s
  | .vfneg h t d a => Sys2Proof.Machine.execVfneg h t d a s
  | .vfclass h t nar d a => Sys2Proof.Machine.execVfclass h t nar d a s
  | .vfdot h t nar d a b rm sat => Sys2Proof.Machine.execVfdot h t nar d a b rm sat s
  | .vfred h t d a rm => Sys2Proof.Machine.execVfred h t d a rm s
  | .vfscale h t d a b rm sat => Sys2Proof.Machine.execVfscale h t d a b rm sat s
  -- group 0x5 (R111, R112)
  | .vfdiv h t d a b rm sat => Sys2Proof.Machine.execVfdiv h t d a b rm sat s
  | .vfsqrt h t d a rm sat => Sys2Proof.Machine.execVfsqrt h t d a rm sat s
  | .vfrcp h t d a rm sat => Sys2Proof.Machine.execVfrcp h t d a rm sat s
  | .vfrsqrt h t d a rm sat => Sys2Proof.Machine.execVfrsqrt h t d a rm sat s
  | .vfexp2 h t d a rm sat => Sys2Proof.Machine.execVfexp2 h t d a rm sat s
  | .vflog2 h t d a rm sat => Sys2Proof.Machine.execVflog2 h t d a rm sat s
  | .vfsinpi h t d a rm sat => Sys2Proof.Machine.execVfsinpi h t d a rm sat s
  | .vfcospi h t d a rm sat => Sys2Proof.Machine.execVfcospi h t d a rm sat s
  | .vftanh h t d a rm sat => Sys2Proof.Machine.execVftanh h t d a rm sat s
  | .vcvt h dt st nar d a rm sat => Sys2Proof.Machine.execVcvt h dt st nar d a rm sat s
  | .vpack8 h nar st d a b rm sat => Sys2Proof.Machine.execVpack8 h nar st d a b rm sat s
  | .vunpk8 h dt nar d a rm sat => Sys2Proof.Machine.execVunpk8 h dt nar d a rm sat s
  | .vfrnd h t d a rm => Sys2Proof.Machine.execVfrnd h t d a rm s
  | .vqscale h nar d a b rm sat => Sys2Proof.Machine.execVqscale h nar d a b rm sat s
  -- group 0x6 (R166)
  | .ld h sgn d a m => Sys2Proof.Machine.execLd h sgn d a m s
  | .st h a b m => Sys2Proof.Machine.execSt h a b m s
  | .ldl h sgn d a m => Sys2Proof.Machine.execLdl h sgn d a m s
  | .stl h a b m => Sys2Proof.Machine.execStl h a b m s
  | .lds h sgn d a m => Sys2Proof.Machine.execLds h sgn d a m s
  | .sts h a b m => Sys2Proof.Machine.execSts h a b m s
  | .ldc h sgn d a m => Sys2Proof.Machine.execLdc h sgn d a m s
  | .ldx h t d a m => Sys2Proof.Machine.execLdx h t d a m s
  | .stx h t a b m => Sys2Proof.Machine.execStx h t a b m s
  | .pref h a l2 off => Sys2Proof.Machine.execPref h a l2 off s
  | .bpf h a b die bar => Sys2Proof.Machine.execBpf h a b die bar s
  | .cflush h a b m => Sys2Proof.Machine.execCflush h a b m s
  | .xlat h d a off => Sys2Proof.Machine.execXlat h d a off s
  | .cbinit h d a buf count => Sys2Proof.Machine.execCbinit h d a buf count s
  | .cbwait h d buf => Sys2Proof.Machine.execCbwait h d buf s
  | .cbrel h buf => Sys2Proof.Machine.execCbrel h buf s
  | .cbacq h d buf => Sys2Proof.Machine.execCbacq h d buf s
  | .cbpub h buf => Sys2Proof.Machine.execCbpub h buf s
  -- group 0x7 (R209)
  | .launch h d a b pp => Sys2Proof.Machine.execLaunch h d a b pp s
  | .lwait h d b => Sys2Proof.Machine.execLwait h d b s
  | .dchk h d level => Sys2Proof.Machine.execDchk h d level s
  | .tdom h d => Sys2Proof.Machine.execTdom h d s
  | .rgrow h d n => Sys2Proof.Machine.execRgrow h d n s
  | .salloc h d b => Sys2Proof.Machine.execSalloc h d b s
  | .sfree h b => Sys2Proof.Machine.execSfree h b s
  | .tsplit h d => Sys2Proof.Machine.execTsplit h d s
  | .take h a off => Sys2Proof.Machine.execTake h a off s
  | .srel h => Sys2Proof.Machine.execSrel h s
  -- group 0x8 (R166, R237)
  | .qpush h d a => Sys2Proof.Machine.execQpush h d a s
  | .qpop h d a => Sys2Proof.Machine.execQpop h d a s
  | .mxcmd h a => Sys2Proof.Machine.execMxcmd h a s
  | .mxcommit h d report => Sys2Proof.Machine.execMxcommit h d report s
  | .mxwait h b => Sys2Proof.Machine.execMxwait h b s
  | .mxtab h a slot => Sys2Proof.Machine.execMxtab h a slot s
  | .cpy h m a engine => Sys2Proof.Machine.execCpy h m a engine s
  -- group 0x9 (R253)
  | .fence h o scope => Sys2Proof.Machine.execFence h o scope s
  | .atom h t d a b m => Sys2Proof.Machine.execAtom h t d a b m s
  | .acas h t d a b scope pp o off => Sys2Proof.Machine.execAcas h t d a b scope pp o off s
  | .red h t a b m => Sys2Proof.Machine.execRed h t a b m s
  | .hinit h a b off => Sys2Proof.Machine.execHinit h a b off s
  | .harrive h d a b off => Sys2Proof.Machine.execHarrive h d a b off s
  | .hdrop h a off => Sys2Proof.Machine.execHdrop h a off s
  | .hwait h a b off => Sys2Proof.Machine.execHwait h a b off s
  | .bar h b id => Sys2Proof.Machine.execBar h b id s
  | .monitor h a m => Sys2Proof.Machine.execMonitor h a m s
  | .mwait h d b => Sys2Proof.Machine.execMwait h d b s
  | .tstamp h d => Sys2Proof.Machine.execTstamp h d s
  -- group 0xA (R282)
  | .tbegin h c off => Sys2Proof.Machine.execTbegin h c off s
  | .tend h => Sys2Proof.Machine.execTend h s
  | .tabort h v => Sys2Proof.Machine.execTabort h v s
  | .tstat h d clr => Sys2Proof.Machine.execTstat h d clr s
  | .tnarrow h a b => Sys2Proof.Machine.execTnarrow h a b s
  | .tposG h d => Sys2Proof.Machine.execTposG h d s
  | .tposF h d => Sys2Proof.Machine.execTposF h d s
  | .tposB h d => Sys2Proof.Machine.execTposB h d s
  | .tposVac h b => Sys2Proof.Machine.execTposVac h b s
  -- group 0xB (R309)
  | .trap h code => Sys2Proof.Machine.execTrap h code s
  | .tret h => Sys2Proof.Machine.execTret h s
  | .tretSkip h => Sys2Proof.Machine.execTretSkip h s
  | .tretTo h a => Sys2Proof.Machine.execTretTo h a s
  | .sysr h d reg b => Sys2Proof.Machine.execSysr h d reg b s
  | .sysw h reg a b => Sys2Proof.Machine.execSysw h reg a b s
  | .beacon h b => Sys2Proof.Machine.execBeacon h b s
  | .bflipDev h a => Sys2Proof.Machine.execBflipDev h a s
  | .bflipHost h a => Sys2Proof.Machine.execBflipHost h a s
  | .evmark h a code => Sys2Proof.Machine.execEvmark h a code s
  | .haltf h code => Sys2Proof.Machine.execHaltf h code s
  -- group 0xF (R41)
  | .pair h sop vop sd sa sb vd va vb t => Sys2Proof.Machine.execPair h sop vop sd sa sb vd va vb t s
  -- the ends of a prologue, read by the front end of a die (R326, R327)
  | .prologueGo die => Sys2Proof.Machine.execPrologueGo die s
  | .prologueCancel die => Sys2Proof.Machine.execPrologueCancel die s
  | .prologueRepeat die n => Sys2Proof.Machine.execPrologueRepeat die n s
  -- the clause header (R23, R24)
  | .clauseStart c => Sys2Proof.Machine.execClauseStart c s
  -- the steps of the other agents
  | .swapPoint core => Sys2Proof.Machine.execSwapPoint core s
  | .loadPerform fold flock ix => Sys2Proof.Machine.execLoadPerform fold flock ix s
  | .storeDrain fold flock scr => Sys2Proof.Machine.execStoreDrain fold flock scr s
  | .ownershipRequest core line => Sys2Proof.Machine.execOwnershipRequest core line s
  | .regApply home => Sys2Proof.Machine.execRegApply home s
  | .ownershipApply home => Sys2Proof.Machine.execOwnershipApply home s
  | .invApply src dst => Sys2Proof.Machine.execInvApply src dst s
  | .atomicPerform fold flock => Sys2Proof.Machine.execAtomicPerform fold flock s
  | .lineWriteback core line => Sys2Proof.Machine.execLineWriteback core line s
  | .sfuResult fold flock ix => Sys2Proof.Machine.execSfuResult fold flock ix s
  | .copyStart die engine => Sys2Proof.Machine.execCopyStart die engine s
  | .copyComplete die engine ix => Sys2Proof.Machine.execCopyComplete die engine ix s
  | .bpfComplete fold flock ix => Sys2Proof.Machine.execBpfComplete fold flock ix s
  | .cflushComplete fold flock ix => Sys2Proof.Machine.execCflushComplete fold flock ix s
  | .matrixEntryStart core => Sys2Proof.Machine.execMatrixEntryStart core s
  | .matrixStepComplete core => Sys2Proof.Machine.execMatrixStepComplete core s
  | .tableLoadComplete core => Sys2Proof.Machine.execTableLoadComplete core s
  | .lateFpthr fold flock lane => Sys2Proof.Machine.execLateFpthr fold flock lane s
  | .fpevWindowClear ctx => Sys2Proof.Machine.execFpevWindowClear ctx s
  | .regroup fold role => Sys2Proof.Machine.execRegroup fold role s
  | .foldRetire fold => Sys2Proof.Machine.execFoldRetire fold s
  | .foldPlacement fold core => Sys2Proof.Machine.execFoldPlacement fold core s
  | .gridStart grid frame => Sys2Proof.Machine.execGridStart grid frame s
  | .gridReport grid => Sys2Proof.Machine.execGridReport grid s
  | .penMove queue => Sys2Proof.Machine.execPenMove queue s
  | .stageRelease fold => Sys2Proof.Machine.execStageRelease fold s
  | .taskTimeExhaust fold => Sys2Proof.Machine.execTaskTimeExhaust fold s
  | .taskSplit fold => Sys2Proof.Machine.execTaskSplit fold s
  | .taskCommit fold => Sys2Proof.Machine.execTaskCommit fold s
  | .wdAnswer grid => Sys2Proof.Machine.execWdAnswer grid s
  | .frontierUpdate core ctx f => Sys2Proof.Machine.execFrontierUpdate core ctx f s
  | .tentativeEntryApply fold flock lane => Sys2Proof.Machine.execTentativeEntryApply fold flock lane s
  | .narrowingMessage ix => Sys2Proof.Machine.execNarrowingMessage ix s
  | .vCommit fold flock lane => Sys2Proof.Machine.execVCommit fold flock lane s
  | .eCommit fold flock lane => Sys2Proof.Machine.execECommit fold flock lane s
  | .oCommit ctx => Sys2Proof.Machine.execOCommit ctx s
  | .barrierUpdateApply fold off => Sys2Proof.Machine.execBarrierUpdateApply fold off s
  | .monitorWake fold flock => Sys2Proof.Machine.execMonitorWake fold flock s
  | .preempt fold => Sys2Proof.Machine.execPreempt fold s
  | .priorityPreempt fold => Sys2Proof.Machine.execPriorityPreempt fold s
  | .foldSave fold => Sys2Proof.Machine.execFoldSave fold s
  | .foldRestore fold core => Sys2Proof.Machine.execFoldRestore fold core s
  | .wdogExpire fold => Sys2Proof.Machine.execWdogExpire fold s
  | .foldcmdResume ctx image => Sys2Proof.Machine.execFoldcmdResume ctx image s
  | .foldcmdKill ctx image => Sys2Proof.Machine.execFoldcmdKill ctx image s
  | .foldcmdRerun ctx image => Sys2Proof.Machine.execFoldcmdRerun ctx image s
  | .qdoor queue => Sys2Proof.Machine.execQdoor queue s
  | .packetTake queue => Sys2Proof.Machine.execPacketTake queue s
  | .packetLaunch queue ix => Sys2Proof.Machine.execPacketLaunch queue ix s
  | .packetSignal queue ix => Sys2Proof.Machine.execPacketSignal queue ix s
  | .packetWait queue ix => Sys2Proof.Machine.execPacketWait queue ix s
  | .waitPoll queue ix => Sys2Proof.Machine.execWaitPoll queue ix s
  | .packetTlbinv queue ix => Sys2Proof.Machine.execPacketTlbinv queue ix s
  | .packetLoad queue ix place => Sys2Proof.Machine.execPacketLoad queue ix place s
  | .packetNop queue ix => Sys2Proof.Machine.execPacketNop queue ix s
  | .queueEnable queue v => Sys2Proof.Machine.execQueueEnable queue v s
  | .qstatErrClear queue => Sys2Proof.Machine.execQstatErrClear queue s
  | .qexport queue addr => Sys2Proof.Machine.execQexport queue addr s
  | .qimport queue addr => Sys2Proof.Machine.execQimport queue addr s
  | .contextCreate ctx owner => Sys2Proof.Machine.execContextCreate ctx owner s
  | .contextDestroy ctx => Sys2Proof.Machine.execContextDestroy ctx s
  | .odwWrite ctx v => Sys2Proof.Machine.execOdwWrite ctx v s
  | .fpevLimitWrite ctx num v => Sys2Proof.Machine.execFpevLimitWrite ctx num v s
  | .dirtyEnable ctx => Sys2Proof.Machine.execDirtyEnable ctx s
  | .hdmEnable => Sys2Proof.Machine.execHdmEnable s
  | .registerWrite r v => Sys2Proof.Machine.execRegisterWrite r v s
  | .cejEvent src code loc syn => Sys2Proof.Machine.execCejEvent src code loc syn s
  | .cejCoalesceExpire ix => Sys2Proof.Machine.execCejCoalesceExpire ix s
  | .cejAck addr a => Sys2Proof.Machine.execCejAck addr a s
  | .evqDrain core => Sys2Proof.Machine.execEvqDrain core s
  | .paddockRebalance core pad => Sys2Proof.Machine.execPaddockRebalance core pad s
  | .grantRecompute predicted grant floor power => Sys2Proof.Machine.execGrantRecompute predicted grant floor power s
  | .thermalThrottle die temp => Sys2Proof.Machine.execThermalThrottle die temp s
  | .thermalRecover die temp grant => Sys2Proof.Machine.execThermalRecover die temp grant s
  | .thermalTrip die temp => Sys2Proof.Machine.execThermalTrip die temp s
  | .moduleReset => Sys2Proof.Machine.execModuleReset s
  | .recovery image => Sys2Proof.Machine.execRecovery image s
  | .attestationRequest nonce => Sys2Proof.Machine.execAttestationRequest nonce s
  | .cejAkeyInstall key sig => Sys2Proof.Machine.execCejAkeyInstall key sig s
  | .fullServiceTransition training => Sys2Proof.Machine.execFullServiceTransition training s
  | .linkLoss l => Sys2Proof.Machine.execLinkLoss l s
  | .linkRetrain l => Sys2Proof.Machine.execLinkRetrain l s
  | .requestTimeout ix => Sys2Proof.Machine.execRequestTimeout ix s
  | .flitRetry port syn => Sys2Proof.Machine.execFlitRetry port syn s
  | .peerRequest port node tag ctx op => Sys2Proof.Machine.execPeerRequest port node tag ctx op s
  | .hostRead pa n => Sys2Proof.Machine.execHostRead pa n s
  | .hostReadOwn line => Sys2Proof.Machine.execHostReadOwn line s
  | .hostWrite pa bytes => Sys2Proof.Machine.execHostWrite pa bytes s
  | .hostWriteback line data => Sys2Proof.Machine.execHostWriteback line data s
  | .snoopResponse line data => Sys2Proof.Machine.execSnoopResponse line data s
  | .hostSnoop line => Sys2Proof.Machine.execHostSnoop line s
  | .bflipComplete block => Sys2Proof.Machine.execBflipComplete block s
  | .replicaCollapse page => Sys2Proof.Machine.execReplicaCollapse page s
  | .memorySideStoreApply stack => Sys2Proof.Machine.execMemorySideStoreApply stack s
  | .peerResponse ix a => Sys2Proof.Machine.execPeerResponse ix a s
  | .hostOwnershipGrant line data => Sys2Proof.Machine.execHostOwnershipGrant line data s
  | .launchComplete fold flock ix => Sys2Proof.Machine.execLaunchComplete fold flock ix s
  | .xlatComplete fold flock ix => Sys2Proof.Machine.execXlatComplete fold flock ix s
  | .enginePageFault die engine ix => Sys2Proof.Machine.execEnginePageFault die engine ix s

end Sys2Proof.Machine
end

