-- ==== Sys2Proof/Machine/Setup.lean ====
section
/-! DEFINITION. The smallest machine whose next step fetches a given word: what a launch would have set up (R181 to R184,
R190), written out (log 32). -/

namespace Sys2Proof.Machine

open Sys2Proof

/-- The context of the set-up: one leaf maps the first GiB of device memory, readable, writable and executable, at its own
address (R152). -/
def setupRoot : Nat := 0x200000
def setupTable : Nat := 0x400000
def setupHdr : VA := 0x1000
def setupLeaf : W64 := 0x1F

def setupCtx : Ctx := { Ctx.reset with live := true, ptroot := nat64 setupRoot }

def setupRecord : Record :=
  { kdesc := 64, nx := 1, ny := 1, nz := 1, stages := 1, mode := 0, tx := 1, ty := 1, tz := 1, pencap := 16, body := 0,
    scratch := 0, grain := 0, dlo := 0, dhi := 0, fan := 0, wbuf := 0, tallow := 0, rd := [], wr := [] }

def setupKDesc : KDesc :=
  { entry := setupHdr, constAddr := 0, constLen := 0, tokens := 8, roles := [{ code := 0, flocks := 1, regs := 1536 }] }

def setupGrid : Grid :=
  { id := 1, ctx := 0, queue := 0, packet := none, parent := none, record := setupRecord, sib := 0, ts := 0, src := 0,
    kd := setupKDesc, display := List.replicate 8 0, level := 0, phase := .started, frame := none, order := 0,
    firstStarted := true, allDone := false, wdNext := 0, queries := [], base := none, status := 0, committed := 0,
    resv := none }

/-- The group of a clause of one word that has started, with flags F0 and F1 to count on and 8 tokens declared. -/
def setupGroup : Group :=
  { lanes := [0], started := true, len := 1, slotA := 0, slotB := 1, heavy := 8, yield := 0, tok := 0, f64 := false }

/-- A flock of one thread: inside the clause at its word, or at the header of a clause. -/
def setupFlock (atHeader : Bool) : Flock :=
  let t := newThread 0 setupHdr
  { newFlock setupGrid 0 with
    threads := [(0, { t with pc := if atHeader then setupHdr else setupHdr + 12 })]
    group := if atHeader then none else some setupGroup }

def setupFold (atHeader : Bool) : Fold :=
  { newFold State.reset 0 setupGrid 0 0 0 0 0 0 with
    place := .resident 1 0, active := true, flocks := [(0, setupFlock atHeader)] }

/-- The word stands in memory, at the place of a header or of a word. -/
def setupCode (s : State) (w : W96) : State :=
  let a := if isHdrWord w then setupHdr else setupHdr + 12
  let s := homeWriteBytes s setupRoot (leBytes 8 (setupTable + 1)) anyRegion
  let s := homeWriteBytes s setupTable (leBytes 8 setupLeaf.toNat) anyRegion
  homeWriteBytes s a.toNat (wordBytes w) anyRegion

/-- A machine in full service whose one flock issues next, and fetches the word. -/
def setup (s : State) (w : W96) : State :=
  let s := setupCode s w
  let s := modCtx s 0 (fun _ => setupCtx)
  let s := modCore s 1 (fun _ => { Core.reset with pad := some 0 })
  { s with
    folds := tput s.folds 0 (setupFold (isHdrWord w))
    grids := tput s.grids 0 setupGrid
    plat := { s.plat with svc := 2 }
    sched := [.issue 0 0]
    cur := none }

end Sys2Proof.Machine
end

