-- ==== Sys2Proof/Machine/Step.lean ====
section
/-! DEFINITION. The step: the agent that the schedule names moves. -/

namespace Sys2Proof.Machine

open Sys2Proof

/-- A flock dispatches, and the word that it fetched runs; it does neither while one of its accesses must wait (R351, R357). -/
def issueStep (s : State) (f k : Nat) : Host.Outcome State Fault Refusal :=
  settleOut s (match dispatch s f k with
    | .done t => .next t
    | .run t i => exec i t)

/-- One choice of the schedule. An instruction word is no step of another agent. -/
def stepChoice (x : Choice) (s : State) : Host.Outcome State Fault Refusal :=
  match x with
  | .issue f k => issueStep s f k
  | .event i => if isWord i || !windowAllows 0 i s then .next s else settleOut s (exec i s)
  | .host fn i => if isWord i || !windowAllows fn i s then .next s else settleOut s (exec (throughWindow s fn i) s)
  | .uce x unit loc => settleOut s (.next (consumeError s x unit loc))
  | .tlbDrop ag c va => .next (dropTlb s ag c va)
  | .l2Evict d slice c => .next (evictL2 s d slice c)
  | .rsp src dst => settleOut s (.next (takeRsp s src dst))
  | .tick n => .next (tick s n)

/-- The step (log 2): the head of the schedule; with an empty schedule a nanosecond passes and the flock that issued last
issues again. The counter of free values advances. -/
def step (s : State) : Host.Outcome State Fault Refusal :=
  let s := { s with freeIx := s.freeIx + 1 }
  match s.sched with
  | x :: r => stepChoice x { s with sched := r }
  | [] =>
    match s.cur with
    | some (f, k) => issueStep (tick s 1) f k
    | none => .next (tick s 1)

/-- The state with an instruction's word where the step fetches next. -/
def State.withFetchWord (s : State) (nbits w : Nat) : State := setup s (BitVec.ofNat 96 (w % 2 ^ nbits))

end Sys2Proof.Machine
end

