-- ==== Sys2Proof/Machine/Exact.lean ====
section
/-! DEFINITION. The arithmetic of R70 to R82 on exact numbers, as the rules write it; statements use it beside the operations
on words that the meanings use. -/

namespace Sys2Proof.Machine

open Sys2Proof

/-- An exact number read from n bits, signed or not (R70, R71). -/
def num {n : Nat} (sg : Bool) (x : BitVec n) : Int := if sg then x.toInt else (x.toNat : Int)

/-- The quotient and the remainder of R75. -/
def quot {n : Nat} (sg : Bool) (x y : BitVec n) : BitVec n :=
  if y = 0 then BitVec.allOnes n else BitVec.ofInt n ((num sg x).tdiv (num sg y))

def remd {n : Nat} (sg : Bool) (x y : BitVec n) : BitVec n :=
  if y = 0 then x else BitVec.ofInt n (num sg x - num sg y * (num sg x).tdiv (num sg y))

/-- The field of R76: its width after the clamp, the extract and the insert. -/
def fieldW (n : Nat) (k : W64) : Nat := if bits k 7 0 ≥ n then 0 else min (bits k 15 8) (n - bits k 7 0)

def extract {n : Nat} (sg : Bool) (a : BitVec n) (k : W64) : BitVec n :=
  let w := fieldW n k
  let r := a.toNat / 2 ^ bits k 7 0 % 2 ^ w
  if w = 0 then 0
  else if sg ∧ 2 ^ (w - 1) ≤ r then BitVec.ofInt n ((r : Int) - (2 ^ w : Nat)) else BitVec.ofNat n r

def insert {n : Nat} (d a : BitVec n) (k : W64) : BitVec n :=
  let m := BitVec.ofNat n ((2 ^ fieldW n k - 1) * 2 ^ bits k 7 0)
  (d &&& ~~~m) ||| (BitVec.ofNat n (a.toNat * 2 ^ bits k 7 0) &&& m)

/-- The shifts of R74 on n bits by b[7:0]. -/
def shl {n : Nat} (a : BitVec n) (b : W64) : BitVec n := if n ≤ bits b 7 0 then 0 else BitVec.ofNat n (a.toNat * 2 ^ bits b 7 0)
def shr {n : Nat} (a : BitVec n) (b : W64) : BitVec n := if n ≤ bits b 7 0 then 0 else BitVec.ofNat n (a.toNat / 2 ^ bits b 7 0)
def sar {n : Nat} (a : BitVec n) (b : W64) : BitVec n :=
  if n ≤ bits b 7 0 then (if a.toInt < 0 then BitVec.allOnes n else 0) else BitVec.ofInt n (a.toInt / (2 ^ bits b 7 0 : Nat))

/-- The conditions of R70 on exact numbers. -/
def holdsCond (k : Cond) (x y : Int) : Bool :=
  match k with
  | .eq => decide (x = y)
  | .ne => decide (x ≠ y)
  | .lt => decide (x < y)
  | .le => decide (x ≤ y)
  | .gt => decide (x > y)
  | .ge => decide (x ≥ y)

/-- The number of leading zeros of n bits, n for zero. -/
def clz {n : Nat} (x : BitVec n) : Nat := if x.toNat = 0 then n else n - 1 - Nat.log2 x.toNat

/-- The number of one bits. -/
def ones {n : Nat} (x : BitVec n) : Nat := ((List.range n).map (fun i => x.toNat / 2 ^ i % 2)).sum

/-- An exact number brought into the range of n bits (R78). -/
def clampTo (n : Nat) (sg sat : Bool) (v : Int) : Int :=
  if sat then
    (if sg then max (-(2 ^ (n - 1) : Nat)) (min ((2 ^ (n - 1) : Nat) - 1) v) else max 0 (min ((2 ^ n : Nat) - 1) v))
  else v

/-- Byte k of VPRMB's result (R80). -/
def permPick (a b : W32) (sel : BitVec 16) (k : Nat) : Byte :=
  let nib := sel.toNat / 16 ^ k % 16
  let p := if nib % 8 < 4 then a.extractLsb' (8 * (nib % 8)) 8 else b.extractLsb' (8 * (nib % 8 - 4)) 8
  if nib < 8 then p else if p.toNat < 128 then 0 else 0xFF

/-- VDP4's sum of products of bytes (R82). -/
def dotBytes (sg : Bool) (a b : W32) : Int :=
  num sg (a.extractLsb' 0 8) * num sg (b.extractLsb' 0 8) + num sg (a.extractLsb' 8 8) * num sg (b.extractLsb' 8 8)
    + num sg (a.extractLsb' 16 8) * num sg (b.extractLsb' 16 8) + num sg (a.extractLsb' 24 8) * num sg (b.extractLsb' 24 8)

/-- The lane that SHFL reads for lane i (R85). -/
def shflFrom (m : ShflMode) (i y : Nat) : Int :=
  match m with
  | .idx => y
  | .up => (i : Int) - y
  | .down => (i : Int) + y
  | .xor => (Nat.xor i y : Nat)

end Sys2Proof.Machine
end

