-- ==== Sys2Proof/Machine/Observe.lean ====
section
/-! DEFINITION. What can be read of a state, part by part, and what it means that a step leaves such a part alone: the words
in which frames are stated. -/

namespace Sys2Proof.Machine

open Sys2Proof

/-! ## Reading -/

/-- Register Vn of lane l of flock k of fold f. -/
def vregAt (s : State) (f k l n : Nat) : W32 := match flock? s f k with | some fl => vreg fl n l | none => 0

/-- Register Sn of a flock. -/
def sregAt (s : State) (f k n : Nat) : W64 := match flock? s f k with | some fl => sreg fl n | none => 0

/-- Predicate Pn of a lane. -/
def predAt (s : State) (f k l : Nat) (n : Fin 8) : Bool := match thread? s f k l with | some t => readP t n | none => false

/-- Completion flag Fn of a flock. -/
def flagAt (s : State) (f k n : Nat) : Nat := match flock? s f k with | some fl => flagVal fl n | none => 0

/-- A byte of a fold's scratchpad. -/
def scrAt (s : State) (f a : Nat) : Byte := match fold? s f with | some fo => scrByte fo a | none => 0

/-- The registers of a thread that a trap writes (R292), and those of its region (R266). -/
def trapAt (s : State) (f k l : Nat) : Option TrapSt := (thread? s f k l).map (·.trap)
def regAt (s : State) (f k l : Nat) : Option RegSt := (thread? s f k l).map (·.reg)

/-- The PC of a lane. -/
def pcAt (s : State) (f k l : Nat) : Option VA := (thread? s f k l).map (·.pc)

/-- The clause header of a lane, how it is parked, and whether it has exited. -/
def hdrAt (s : State) (f k l : Nat) : Option VA := (thread? s f k l).map (·.hdr)
def parkAt (s : State) (f k l : Nat) : Option Park := (thread? s f k l).map (·.park)
def exitedAt (s : State) (f k l : Nat) : Option Bool := (thread? s f k l).map (·.exited)

/-- What a flock waits for. -/
def holdAt (s : State) (f k : Nat) : Hold := match flock? s f k with | some fl => fl.hold | none => .none

/-- The barrier that holds a flock, and whether it has released it (R261). -/
def barOf (s : State) (f k : Nat) : Option (Nat × Bool) := (flock? s f k).bind (·.bar)

/-- The issue group of a flock. -/
def groupAt (s : State) (f k : Nat) : Option Group := (flock? s f k).bind (·.group)

/-! ## Leaving parts alone -/

/-- Every V register but those of a set. -/
def SameV (s t : State) (p : Nat → Nat → Nat → Nat → Prop) : Prop :=
  ∀ f k l n, n < 1536 → ¬ p f k l n → vregAt t f k l n = vregAt s f k l n

/-- Every S register but those of a set. -/
def SameS (s t : State) (p : Nat → Nat → Nat → Prop) : Prop := ∀ f k n, ¬ p f k n → sregAt t f k n = sregAt s f k n

/-- Every predicate but those of a set. -/
def SameP (s t : State) (p : Nat → Nat → Nat → Fin 8 → Prop) : Prop :=
  ∀ f k l n, ¬ p f k l n → predAt t f k l n = predAt s f k l n

/-- Every completion flag. -/
def SameFlags (s t : State) : Prop := ∀ f k n, flagAt t f k n = flagAt s f k n

/-- Every byte of device and host memory as its home returns it, and every byte of every scratchpad. -/
def SameMem (s t : State) : Prop := (∀ a, homeByte t a = homeByte s a) ∧ ∀ f a, scrAt t f a = scrAt s f a

/-- The numerical events of a region that has counted some, with its context (R1; log 35). -/
def regEvs (s : State) (rid : Nat) : Option (Nat × Tab Nat) :=
  (tget? s.ms.regions rid).bind (fun r => if r.evs = [] then none else some (r.ctx, r.evs))

/-- A region that has counted events of a context has ended: an abort takes them back (R1; log 35). -/
def Ended (s t : State) (cx : Nat) : Prop := ∃ rid e, regEvs s rid = some (cx, e) ∧ regEvs t rid = none

/-- Every system register of every context (R308), but for the event counters where a region that has counted events has ended;
the events of every region that has not ended; the grant of every core, and the registers of the platform. -/
def SameSpecial (s t : State) : Prop :=
  (∀ cx n, 0x010 ≤ n ∨ ¬ Ended s t cx → ctxRegRead t cx n = ctxRegRead s cx n) ∧
  (∀ rid, regEvs t rid = regEvs s rid ∨ regEvs t rid = none) ∧
  (∀ c, coreRegRead t c 0x080 = coreRegRead s c 0x080) ∧ t.plat = s.plat

/-- Every trap register of every thread. -/
def SameTrap (s t : State) : Prop := ∀ f k l, trapAt t f k l = trapAt s f k l

/-- No set of registers. -/
def noV : Nat → Nat → Nat → Nat → Prop := fun _ _ _ _ => False
def noS : Nat → Nat → Nat → Prop := fun _ _ _ => False
def noP : Nat → Nat → Nat → Fin 8 → Prop := fun _ _ _ _ => False

/-- Every V, S and predicate register and every trap register. -/
def KeptRegs (s t : State) : Prop := SameV s t noV ∧ SameS s t noS ∧ SameP s t noP ∧ SameTrap s t

/-- The V registers that an operand of n registers names in the lanes of a list. -/
def destV (c : Cx) (ls : List Nat) (n : Nat) (d : Opd) : Nat → Nat → Nat → Nat → Prop := fun f k l r =>
  f = c.f ∧ k = c.k ∧ l ∈ ls ∧ match d with
    | .v i => i.val ≤ r ∧ r < i.val + n
    | _ => False

/-- The S register that an operand names. -/
def destS (c : Cx) (d : Opd) : Nat → Nat → Nat → Prop := fun f k r =>
  f = c.f ∧ k = c.k ∧ match d with
    | .s i => r = i.val
    | _ => False

/-- The predicate that an operand names in the lanes of a list; P0 is no destination. -/
def destP (c : Cx) (ls : List Nat) (d : Opd) : Nat → Nat → Nat → Fin 8 → Prop := fun f k l r =>
  f = c.f ∧ k = c.k ∧ l ∈ ls ∧ match d with
    | .p i => r = i ∧ i ≠ 0
    | _ => False

/-! ## An instruction that runs -/

/-- The flock that issues is c, inside a clause that it has started (R121), and the lanes whose guard is true are ex, at least one
of them (R28). -/
def Issues (s : State) (c : Cx) (h : Hd) (ex : List Nat) : Prop :=
  issuing? s = some c ∧ execLanes c h = ex ∧ ex ≠ [] ∧ c.g.started = true

/-- The group stands at its next word (R21): a thread of it, but for one whose region is doomed and which the end of a clause
sends to its abort target (R272). -/
def AtNext (s t : State) (c : Cx) : Prop :=
  ∀ l ∈ c.g.lanes, ∀ th, thread? s c.f c.k l = some th → (isLast c = true → th.reg.doom = false ∨ th.trap.mode = true) →
    pcAt t c.f c.k l = some (nextWord c).1

/-- Nothing changes but where groups stand: registers, flags, memory, the system registers and the trap registers are as they
were. -/
def OnlyPlace (s t : State) : Prop :=
  SameV s t noV ∧ SameS s t noS ∧ SameP s t noP ∧ SameFlags s t ∧ SameMem s t ∧ SameSpecial s t ∧ SameTrap s t

/-- The clause has ended: each lane of the group, but for one that a doomed region sends elsewhere (R272), stands at the head of
a clause. -/
def AtHeads (s t : State) (c : Cx) (p : Nat → VA) : Prop :=
  groupAt t c.f c.k = none ∧
  ∀ l ∈ c.g.lanes, ∀ th, thread? s c.f c.k l = some th → th.reg.doom = false ∨ th.trap.mode = true →
    pcAt t c.f c.k l = some (p l) ∧ hdrAt t c.f c.k l = some (p l)

/-- Nothing but V registers of one set, S registers of a second and predicates of a third changes. -/
def OnlyRegs (s t : State) (v : Nat → Nat → Nat → Nat → Prop) (u : Nat → Nat → Nat → Prop)
    (p : Nat → Nat → Nat → Fin 8 → Prop) : Prop :=
  SameV s t v ∧ SameS s t u ∧ SameP s t p ∧ SameFlags s t ∧ SameMem s t ∧ SameSpecial s t ∧ SameTrap s t

/-- A value stands in the S register an operand names; ZERO holds nothing (R37). -/
def HasS (t : State) (c : Cx) (d : Opd) (v : W64) : Prop := ∀ n, d = .s n → sregAt t c.f c.k n.val = v

/-- A value of n registers stands in the V registers an operand names in a lane, its low half in the lower (R18, R68). -/
def HasV (t : State) (c : Cx) (l n : Nat) (d : Opd) (v : W64) : Prop :=
  ∀ r, d = .v r → vregAt t c.f c.k l r.val = v.setWidth 32 ∧
    (n = 2 → vregAt t c.f c.k l (r.val + 1) = v.extractLsb' 32 32)

/-- A truth value stands in the predicate an operand names in a lane; P0 takes none (R68). -/
def HasP (t : State) (c : Cx) (l : Nat) (d : Opd) (b : Bool) : Prop := ∀ n, d = .p n → n ≠ 0 → predAt t c.f c.k l n = b

/-- The instruction completes with a value in its S register, and changes nothing else. -/
def YieldsS (i : Instr) (s : State) (c : Cx) (d : Opd) (v : W64) : Prop :=
  ∃ t, exec i s = .next t ∧ HasS t c d v ∧ OnlyRegs s t noV (destS c d) noP ∧ AtNext s t c

/-- The instruction completes with a value of n registers in each executing lane, and changes nothing else. -/
def YieldsV (i : Instr) (s : State) (c : Cx) (ex : List Nat) (n : Nat) (d : Opd) (v : Nat → W64) : Prop :=
  ∃ t, exec i s = .next t ∧ (∀ l ∈ ex, HasV t c l n d (v l)) ∧ OnlyRegs s t (destV c ex n d) noS noP ∧ AtNext s t c

/-- No class of numerical events has an action in the context of the issuing fold (R100). -/
def Quiet (s : State) (c : Cx) : Prop := ∀ x < 8, fpevAction (ctx s c.fo.ctx).fpev x = 0

/-- A counter of events after n more: it stops at its greatest value (R100). -/
def satAdd (v : W32) (n : Nat) : W32 := BitVec.ofNat 32 (min (v.toNat + n) (2 ^ 32 - 1))

/-- How many of some masks hold a class. -/
def raised (ms : List (BitVec 8)) (x : Nat) : Nat := (ms.filter (fun m => bitOf m x)).length

/-- The numerical events of some threads have been counted in a context, each class once for each thread that raised it (R101):
the counter and the window counter of the class rise, and no other register of the numerical events changes, in any context. -/
def Counts (s t : State) (cx : Nat) (ms : List (BitVec 8)) : Prop :=
  (∀ x < 8, fpevCount (ctx t cx).fpev x = satAdd (fpevCount (ctx s cx).fpev x) (raised ms x) ∧
    fpevWin (ctx t cx).fpev x = satAdd (fpevWin (ctx s cx).fpev x) (raised ms x)) ∧
  (∀ k n, (k ≠ cx ∧ n < 0x010) ∨ (0x010 ≤ n ∧ n ≤ 0x01A) → ctxRegRead t k n = ctxRegRead s k n)

/-- The lanes whose events count: of a lane in a region, while the region lasts (R1, R101; log 35). -/
def counted (s : State) (c : Cx) (ex : List Nat) : List Nat :=
  ex.filter (fun l => !doomed c l && (match regionOf c l with
    | some r => (tget? s.ms.regions r).isSome
    | none => true))

/-- No region can end as a trap is taken: no class has an action, or no region of the issuing fold is under way. -/
def NoAbort (s : State) (c : Cx) (ex : List Nat) : Prop :=
  Quiet s c ∨ ((∀ l ∈ ex, liveRegion c l = false) ∧ ∀ e ∈ s.ms.regions, e.2.fold ≠ c.f)

/-- What a floating-point word leaves alone: registers outside its destinations, and, where no class has an action, memory, the
trap registers, every system register above the event counters, and the way to the next word. -/
def FpFrame (s t : State) (c : Cx) (v : Nat → Nat → Nat → Nat → Prop) (u : Nat → Nat → Nat → Prop)
    (p : Nat → Nat → Nat → Fin 8 → Prop) : Prop :=
  SameV s t v ∧ SameS s t u ∧ SameP s t p ∧ SameFlags s t ∧
    (Quiet s c → SameMem s t ∧ SameTrap s t ∧ AtNext s t c ∧ (∀ k n, 0x010 ≤ n → ctxRegRead t k n = ctxRegRead s k n) ∧
      (∀ i, coreRegRead t i 0x080 = coreRegRead s i 0x080) ∧ t.plat = s.plat)

/-- A floating-point instruction completes with a value of n registers in each executing lane, and the events m that each lane
raises are counted, where no trap of theirs ends a region, whose abort takes events back (R99, R101; log 35). -/
def YieldsF (i : Instr) (s : State) (c : Cx) (ex : List Nat) (n : Nat) (d : Opd) (v : Nat → W64) (m : Nat → BitVec 8) : Prop :=
  ∃ t, exec i s = .next t ∧ (∀ l ∈ ex, HasV t c l n d (v l)) ∧ FpFrame s t c (destV c ex n d) noS noP ∧
    (NoAbort s c ex → Counts s t c.fo.ctx ((counted s c ex).map m))

/-- The classes that any of n results raises. -/
def orEvs (n : Nat) (g : Nat → Res) : BitVec 8 := ((List.range n).map g).foldl (fun m r => m ||| r.2) 0

/-- The same with the elements of a value of a type (R71). -/
def YieldsE (i : Instr) (s : State) (c : Cx) (ex : List Nat) (t : Ty) (d : Opd) (g : Nat → Nat → BitVec (elemWidth t)) : Prop :=
  YieldsV i s c ex (width t) d (fun l => fromElems (elemWidth t) (elemCount t) (g l))

/-- The instruction completes with a predicate in each executing lane, and changes nothing else. -/
def YieldsP (i : Instr) (s : State) (c : Cx) (ex : List Nat) (d : Opd) (b : Nat → Bool) : Prop :=
  ∃ t, exec i s = .next t ∧ (∀ l ∈ ex, HasP t c l d (b l)) ∧ OnlyRegs s t noV noS (destP c ex d) ∧ AtNext s t c

/-- The instruction completes with a value and a predicate in each executing lane, and changes nothing else. -/
def YieldsVP (i : Instr) (s : State) (c : Cx) (ex : List Nat) (n : Nat) (d : Opd) (v : Nat → W64) (p : Fin 8)
    (b : Nat → Bool) : Prop :=
  ∃ t, exec i s = .next t ∧ (∀ l ∈ ex, HasV t c l n d (v l) ∧ HasP t c l (.p p) (b l)) ∧
    OnlyRegs s t (destV c ex n d) noS (destP c ex (.p p)) ∧ AtNext s t c

/-! ## Long-latency instructions as they issue -/

/-- The load set, the store FIFO, the scratchpad stores and the long-latency instructions of a flock. -/
def loadsAt (s : State) (f k : Nat) : List LEntry := match flock? s f k with | some fl => fl.loads | none => []
def fifoAt (s : State) (f k : Nat) : List FEntry := match flock? s f k with | some fl => fl.fifo | none => []
def scrStoresAt (s : State) (f k : Nat) : List FEntry := match flock? s f k with | some fl => fl.scr | none => []
def opsAt (s : State) (f k : Nat) : List LOp := match flock? s f k with | some fl => fl.ops | none => []

/-- The selected flag of the issuing flock counts one more, and no other flag changes (R26). -/
def Counted (s t : State) (c : Cx) (h : Hd) : Prop :=
  ∀ f k n, flagAt t f k n = flagAt s f k n +
    (if f = c.f ∧ k = c.k ∧ (slotFlag c.g h).map (·.val) = some n ∧ (flock? s f k).isSome = true then 1 else 0)

/-- An instruction is under way: its number, its flag, its address and the parts it still has to perform. -/
def UnderWay (t : State) (c : Cx) (h : Hd) (id left : Nat) (acq : Option Scope) : Prop :=
  ∃ o ∈ opsAt t c.f c.k, o.id = id ∧ o.left = left ∧ o.flag = slotFlag c.g h ∧ o.pc = c.pc ∧ o.acq = acq

/-- Pass 1 finds every executing lane's address, and no lane is in a region or doomed (R167, R270). -/
def PassOk (s : State) (c : Cx) (ex : List Nat) (chk : State → Nat → State × Checked) (s1 : State)
    (fs : List (Nat × Found)) : Prop :=
  pass1 s ex chk = (s1, .ok fs) ∧ (∀ l ∈ ex, doomed c l = false) ∧
    ∀ l ∈ ex, ∀ th, thread? s1 c.f c.k l = some th → th.reg.doom = false ∧ th.reg.live = false

/-- An instruction under way that acquires nothing and has raised no event, if it is there at all. -/
def Plain (s : State) (f k id : Nat) : Prop := ∀ o ∈ opsAt s f k, o.id = id → o.acq = none ∧ o.evs = []

/-- The data of a load stand in its destination (R167): sizes below 64 bits in one register, zero- or sign-extended, 64 bits in a
pair and 128 in four registers. -/
def HasLoad (t : State) (f k l : Nat) (sgn : Bool) (z : Size) (d : Opd) (bs : List Byte) : Prop :=
  ∀ r, d = .v r → match z with
    | .b8 => vregAt t f k l r.val = if sgn then (BitVec.ofNat 8 (ofLe bs)).signExtend 32 else BitVec.ofNat 32 (ofLe bs)
    | .b16 => vregAt t f k l r.val = if sgn then (BitVec.ofNat 16 (ofLe bs)).signExtend 32 else BitVec.ofNat 32 (ofLe bs)
    | .b32 => vregAt t f k l r.val = BitVec.ofNat 32 (ofLe bs)
    | .b64 => vregAt t f k l r.val = BitVec.ofNat 32 (ofLe bs) ∧
        vregAt t f k l (r.val + 1) = BitVec.ofNat 32 (ofLe bs / 2 ^ 32)
    | .b128 => ∀ i < 4, vregAt t f k l (r.val + i) = BitVec.ofNat 32 (bytesAt bs (4 * i) 4)

/-- The registers a load or an atomic may write. -/
def writtenV (f k l n : Nat) (d : Opd) : Nat → Nat → Nat → Nat → Prop := fun f' k' l' r =>
  f' = f ∧ k' = k ∧ l' = l ∧ match d with
    | .v i => i.val ≤ r ∧ r < i.val + n
    | _ => False

/-- A byte as a core's load sees it: from its view where the view knows it, else from the home (R245, M3). -/
def seenByte (s : State) (c a : Nat) (cm : BitVec 2) : Byte :=
  match viewWord s c (a / 4) with
  | some v => if cm ≠ 2 ∧ bitOf v.known (a % 4) = true then v.val.extractLsb' (8 * (a % 4)) 8 else homeByte s a
  | none => homeByte s a

/-- Issuing an access has changed no register, predicate, trap register or flag, and no byte or system register but what the
state s1 of its translations holds. -/
def NoAccess (s s1 t : State) (c : Cx) : Prop :=
  KeptRegs s t ∧ SameFlags s t ∧ SameMem s1 t ∧ SameSpecial s1 t ∧ groupAt t c.f c.k = groupAt s c.f c.k ∧
    loadsAt t c.f c.k = loadsAt s c.f c.k ∧ fifoAt t c.f c.k = fifoAt s c.f c.k ∧
    scrStoresAt t c.f c.k = scrStoresAt s c.f c.k ∧ opsAt t c.f c.k = opsAt s c.f c.k

/-- A byte as a core's load sees it in a task: the task's versions of its word lie over it (R199, R280). -/
def loadByte (s : State) (f c a : Nat) (cm : BitVec 2) (task : Bool) : Byte :=
  if task then (taskOverlay s f (a / 4) (seenVal s c (a / 4) cm)).extractLsb' (8 * (a % 4)) 8 else seenByte s c a cm

/-- What a part of a load reads, and the state that the reading leaves (R149, R245, R249): the bytes of the flock's own stores
before it, or, where none of them meets it, of the scratchpad or of memory as the core sees it, once the host's copy does not
stand in the way. -/
def Reads (s : State) (f c cx : Nat) (fl : Flock) (e : LEntry) (p : Place) (n : Nat) (bs : List Byte) (s' : State) : Prop :=
  (forward fl.fifo e.op p n = .got bs ∧ s' = s) ∨
  (forward fl.fifo e.op p n = .none ∧ match p with
    | .imm b => bs = b ∧ s' = s
    | .scratch o => bs = (List.range n).map (fun i => scrAt s f (o + i)) ∧ s' = s
    | .peer _ _ => False
    | p => ∃ pa cm, placePa p = some (pa, cm) ∧ biasReady s pa false = true ∧
        bs = (List.range n).map (fun i => loadByte s f c (pa + i) (effCmode s pa cm) e.task) ∧
        s' = (readCore s c f cx pa n (effCmode s pa cm) e.task e.strm).1)

/-- What issuing an access leaves alone: every register, predicate and trap register; and, once the translations have noted what
they note (the state s1), every byte and system register. The flag counts and the group moves on. -/
def IssueFrame (s s1 t : State) (c : Cx) (h : Hd) : Prop :=
  SameV s t noV ∧ SameS s t noS ∧ SameP s t noP ∧ SameTrap s t ∧ SameMem s1 t ∧ SameSpecial s1 t ∧ Counted s t c h ∧
    AtNext s1 t c

/-! ## Commands and events -/

/-- No executing lane is in a live region (R271). -/
def NoRegion (c : Cx) (ex : List Nat) : Prop := ∀ l ∈ ex, liveRegion c l = false

/-- An instruction of one part is under way (R26): its flag counts one more, the group moves on, and no register, byte or system
register has changed. -/
def Begins (s t : State) (c : Cx) (flag : Option (Fin 12)) (kind : OpKind) : Prop :=
  KeptRegs s t ∧ SameMem s t ∧ SameSpecial s t ∧ AtNext s t c ∧
  (∀ f k n, flagAt t f k n = flagAt s f k n +
    (if f = c.f ∧ k = c.k ∧ flag.map (·.val) = some n ∧ (flock? s f k).isSome = true then 1 else 0)) ∧
  ∃ o ∈ opsAt t c.f c.k, o.id = s.seq ∧ o.flag = flag ∧ o.pc = c.pc ∧ o.left = 1 ∧ o.kind = kind

/-- The word waits, and is executed again (R123). -/
def Waits (i : Instr) (s : State) (c : Cx) : Prop :=
  ∃ t, exec i s = .next t ∧ OnlyPlace s t ∧ groupAt t c.f c.k = some c.g ∧ ∀ l, pcAt t c.f c.k l = pcAt s c.f c.k l

/-- The word completes with no effect but to move the group on. -/
def Passes (i : Instr) (s : State) (c : Cx) : Prop := ∃ t, exec i s = .next t ∧ OnlyPlace s t ∧ AtNext s t c

/-- The word raises a fault and has no other effect (R295, R296): its group stays, and its fold, which has not stopped, stops with
the cause. -/
def Faults (i : Instr) (s : State) (c : Cx) (cause : BitVec 8) : Prop :=
  ∃ t, exec i s = .next t ∧ OnlyPlace s t ∧ groupAt t c.f c.k = some c.g ∧
    (∀ l ∈ c.g.lanes, pcAt t c.f c.k l = pcAt s c.f c.k l) ∧
    (c.fo.halt = none → (fold? t c.f).bind (fun fo => fo.halt.map (fun o => (o.reason, o.cause, o.pflock))) =
      some (.fault, cause, some c.k))

/-- A long-latency instruction is over (R26): it is gone, and its flag has dropped by one. -/
def Over (s t : State) (f k : Nat) (o : LOp) : Prop :=
  opsAt t f k = (opsAt s f k).filter (fun p => p.id != o.id) ∧
  ∀ n, flagAt t f k n = flagAt s f k n - (if o.flag.map (·.val) = some n then 1 else 0)

/-- Every byte of device and host memory is as its home returned it before, where the view of the word's owner does not hold the
word as a copy of another's, which in a run it never does (R243). -/
def KeptHome (s t : State) : Prop :=
  ∀ a, (∀ c v, ownerOf s (a / 4) = some c → viewWord s c (a / 4) = some v → v.st ≠ .copy) → homeByte t a = homeByte s a

/-- Nobody owns a word, and no grant of its line is on its way to a core. -/
abbrev NoOwner (s : State) (w : Nat) : Prop := ownerOf s w = none ∧ granted s (w / 32) = false

/-- Nobody owns a word of the lines that hold a range of bytes. -/
def Unowned (s : State) (pa n : Nat) : Prop := ∀ w, pa / 128 ≤ w / 32 → w / 32 ≤ (pa + n - 1) / 128 → NoOwner s w

/-- A core's L1 takes some lines without giving one up (R157). -/
abbrev Roomy (s : State) (c : Nat) (lines : List Nat) : Prop :=
  (coreAt s c).l1.length + (lines.eraseDups.filter (fun l => !inL1 s c l)).length ≤ l1Lines

/-- A word that no eviction changes at its home: no core has bytes of it to flush, a word that a core has registered is in no line
in M, and no grant of its line is on its way (R349; log 44). -/
def Tidy (s : State) (w : Nat) : Prop :=
  (∀ c v, viewWord s c w = some v → v.dirty = 0) ∧ ((∃ e ∈ s.ms.owners, e.1 = w) → (lineSt s (w / 32)).m = none) ∧
    granted s (w / 32) = false

/-- The same of the bytes of tidy words alone. -/
def KeptTidy (s t : State) : Prop :=
  ∀ a, Tidy s (a / 4) → (∀ c v, ownerOf s (a / 4) = some c → viewWord s c (a / 4) = some v → v.st ≠ .copy) →
    homeByte t a = homeByte s a

/-- A circular buffer of a fold (R165), and the same but for the operations that wait there. -/
def cbuf? (s : State) (f i : Nat) : Option CBuf := (fold? s f).bind (fun fo => tget? fo.cbufs i)
def bufAt (s : State) (f i : Nat) : Option CBuf := (cbuf? s f i).map (fun b => { b with waits := [], lastOp := none })

/-- The barrier updates that have reached a fold's objects, and one of its barriers. -/
def updsAt (s : State) (f : Nat) : List BarUpd := match fold? s f with | some fo => fo.upds | none => []
def barAt (s : State) (f i : Nat) : FBar := match fold? s f with | some fo => bar fo i | none => FBar.init

/-- A fold's place, and why it stops. -/
def placeAt (s : State) (f : Nat) : Option FPlace := (fold? s f).map (·.place)
def haltAt (s : State) (f : Nat) : Option Halt := (fold? s f).bind (·.halt)

/-- The step completes, and of the state it leaves a property holds. -/
def Does (i : Instr) (s : State) (p : State → Prop) : Prop := ∃ t, exec i s = .next t ∧ p t

/-- No register, predicate, trap register, flag or byte of memory changes. -/
def Steady (s t : State) : Prop := KeptRegs s t ∧ SameFlags s t ∧ SameMem s t

/-- No core keeps a copy of the words of a line but for what it wrote itself, and none owns a word of it. -/
def Clean (t : State) (line : Nat) : Prop :=
  ∀ w, w / 32 = line → ownerOf t w = none ∧ ∀ c v, viewWord t c w = some v → v.st = .copy → v.dirty ≠ 0

/-- The registers that the pending results of an instruction name (R111, R173, R210). -/
def pendV (f k : Nat) (res : List PendW) (n : Nat) (d : Opd) : Nat → Nat → Nat → Nat → Prop := fun f' k' l r =>
  f' = f ∧ k' = k ∧ (∃ w ∈ res, w.lane = l) ∧ match d with
    | .v i => i.val ≤ r ∧ r < i.val + n
    | _ => False

/-- The pending results of an instruction stand in the registers of their lanes, the low half in the lower. -/
def HasPend (t : State) (f k : Nat) (res : List PendW) (n : Nat) (d : Opd) : Prop :=
  ∀ w ∈ res, ∀ r, d = .v r → vregAt t f k w.lane r.val = w.val.setWidth 32 ∧
    (n = 2 → vregAt t f k w.lane (r.val + 1) = w.val.extractLsb' 32 32)

/-- A long-latency instruction of a flock by its number. -/
def opAt (s : State) (f k id : Nat) : Option LOp := (flock? s f k).bind (fun fl => op? fl id)

/-- The numbers of a table's parts rise, so that each names one part. -/
def Ordered {α : Type} (t : Tab α) : Prop := tsortedFrom 0 t = true

/-- Where a packet of a queue stands, by its number. -/
def packetGone (t : State) (q id : Nat) : Prop := packet? t q id = none

/-- A grid that stands in a queue's device list. -/
def Admitted (t : State) (g q : Nat) (packet : Option Nat) (r : Record) : Prop :=
  g ∈ (queue t q).device ∧
  (grid? t g).map (fun x => (x.phase, x.packet, x.parent, x.queue, x.record)) = some (.queued, packet, none, q, r)

/-- The guard and the hints of an instruction word (R27, R28); none for a clause header and for the steps of other agents. -/
def hintsOf : Instr → Option Hd
  | .nop h | .bra h .. | .brx h .. | .call h .. | .ret h .. | .exit h | .cvg h .. | .cvgset h .. | .elect h ..
  | .vote h .. | .reorder h .. | .yield h | .waitf h .. | .smov h .. | .sadd h .. | .ssub h .. | .smul h ..
  | .smulh h .. | .sdiv h .. | .srem h .. | .sand h .. | .sor h .. | .sxor h .. | .snot h .. | .sshl h .. | .sshr h ..
  | .ssar h .. | .smin h .. | .smax h .. | .scmp h .. | .ssel h .. | .sclz h .. | .spopc h .. | .sbfx h .. | .sbfi h ..
  | .slea h .. | .vmov h .. | .vadd h .. | .vsub h .. | .vmul h .. | .vmulh h .. | .vmad h .. | .vmadw h .. | .vdiv h ..
  | .vrem h .. | .vand h .. | .vor h .. | .vxor h .. | .vnot h .. | .vshl h .. | .vshr h .. | .vsar h .. | .vmin h ..
  | .vmax h .. | .vabs h .. | .vneg h .. | .vaddc h .. | .vsubb h .. | .vcmp h .. | .vsel h .. | .vclz h ..
  | .vpopc h .. | .vbfx h .. | .vbfi h .. | .vprmb h .. | .vlea h .. | .vext h .. | .vdp4 h .. | .pand h .. | .por h ..
  | .pxor h .. | .pnot h .. | .pmov h .. | .shfl h .. | .vtos h .. | .stov h .. | .vspec h .. | .sspec h ..
  | .vfadd h .. | .vfsub h .. | .vfmul h .. | .vfma h .. | .vfmin h .. | .vfmax h .. | .vfcmp h .. | .vfabs h ..
  | .vfneg h .. | .vfclass h .. | .vfdot h .. | .vfred h .. | .vfscale h .. | .vfdiv h .. | .vfsqrt h .. | .vfrcp h ..
  | .vfrsqrt h .. | .vfexp2 h .. | .vflog2 h .. | .vfsinpi h .. | .vfcospi h .. | .vftanh h .. | .vcvt h ..
  | .vpack8 h .. | .vunpk8 h .. | .vfrnd h .. | .vqscale h .. | .ld h .. | .st h .. | .ldl h .. | .stl h .. | .lds h ..
  | .sts h .. | .ldc h .. | .ldx h .. | .stx h .. | .pref h .. | .bpf h .. | .cflush h .. | .xlat h .. | .cbinit h ..
  | .cbwait h .. | .cbrel h .. | .cbacq h .. | .cbpub h .. | .launch h .. | .lwait h .. | .dchk h .. | .tdom h ..
  | .rgrow h .. | .salloc h .. | .sfree h .. | .tsplit h .. | .take h .. | .srel h | .qpush h .. | .qpop h ..
  | .mxcmd h .. | .mxcommit h .. | .mxwait h .. | .mxtab h .. | .cpy h .. | .fence h .. | .atom h .. | .acas h ..
  | .red h .. | .hinit h .. | .harrive h .. | .hdrop h .. | .hwait h .. | .bar h .. | .monitor h .. | .mwait h ..
  | .tstamp h .. | .tbegin h .. | .tend h | .tabort h .. | .tstat h .. | .tnarrow h .. | .tposG h .. | .tposF h ..
  | .tposB h .. | .tposVac h .. | .trap h .. | .tret h | .tretSkip h | .tretTo h .. | .sysr h .. | .sysw h ..
  | .beacon h .. | .bflipDev h .. | .bflipHost h .. | .evmark h .. | .haltf h .. | .pair h .. => some h
  | _ => none

end Sys2Proof.Machine
end

