-- ==== Sys2Proof/Certificates/Slice0/Obligations.lean ====
section
/-! DEFINITION. The statements for the provers. -/

section

open Sys2Proof Sys2Proof.Machine

/-! ## Vocabulary of the statements -/

/-- A group without a lock on the registers it names runs. -/
def Sys2Proof.Free (s : State) (c : Cx) (regs : List (Nat × Nat)) : Prop := windowLock s c regs = none

/-! ## Group 0x0 -/

/-- R137, R146, R147: NOP and YIELD only move the group on, and YIELD gives up the flock's turn; WAITF moves on when every flag
of its mask is zero and otherwise waits, changing nothing else. -/
def Obligations.NopYieldWaitf : Prop :=
  ∀ s c h ex, Issues s c h ex → ∀ m : BitVec 12,
    (∃ t, exec (.nop h) s = .next t ∧ OnlyPlace s t ∧ AtNext s t c) ∧
    (∃ t, exec (.yield h) s = .next t ∧ OnlyPlace s t ∧ AtNext s t c ∧ (flock? t c.f c.k).map (·.yielded) = some true) ∧
    ((∀ n < 12, m.getLsbD n = true → flagAt s c.f c.k n = 0) →
      ∃ t, exec (.waitf h m) s = .next t ∧ OnlyPlace s t ∧ AtNext s t c) ∧
    ((∃ n < 12, m.getLsbD n = true ∧ flagAt s c.f c.k n ≠ 0) →
      ∃ t, exec (.waitf h m) s = .next t ∧ OnlyPlace s t ∧ groupAt t c.f c.k = some c.g ∧
        ∀ l, pcAt t c.f c.k l = pcAt s c.f c.k l)

/-- R136, R138, R139, R140: a branch, a jump, a call and a return end the clause with each executing thread at its target, the
others at the next clause; CALL leaves the return address in d. A target of a register is a multiple of four.
R139, R140: a jump, a call or a return to an address that is no multiple of four raises ALIGN and moves no thread. -/
def Obligations.BranchesTransfer : Prop :=
  (∀ s c h ex, Issues s c h ex → ∀ (k : BraCond) (off : W32) (d a : Opd),
    let label := c.hdr + 12 * off.signExtend 57
    let next := c.hdr + 12 * BitVec.ofNat 57 (c.g.len + 1)
    let reg := fun l => (rdV c l .u64 a).setWidth 57
    let taken : Bool := match k with | .always => true | .nz o => decide (rdS c o ≠ 0) | .z o => decide (rdS c o = 0)
    (∃ t, exec (.bra h k off) s = .next t ∧ OnlyPlace s t ∧
      AtHeads s t c (fun l => if l ∈ ex ∧ taken = true then label else next)) ∧
    ((∀ l ∈ ex, (reg l).toNat % 4 = 0) → Free s c (regsT .u64 a) →
      (∃ t, exec (.brx h a) s = .next t ∧ OnlyPlace s t ∧ AtHeads s t c (fun l => if l ∈ ex then reg l else next)) ∧
      (∃ t, exec (.ret h a) s = .next t ∧ OnlyPlace s t ∧ AtHeads s t c (fun l => if l ∈ ex then reg l else next))) ∧
    ((∀ l ∈ ex, (reg l).toNat % 4 = 0) → Free s c (regsT .u64 d ++ regsT .u64 a) →
      ∃ t, exec (.call h d (.reg a)) s = .next t ∧ (∀ l ∈ ex, HasV t c l 2 d (next.setWidth 64)) ∧
        OnlyRegs s t (destV c ex 2 d) noS noP ∧ AtHeads s t c (fun l => if l ∈ ex then reg l else next)) ∧
    (Free s c (regsT .u64 d) →
      ∃ t, exec (.call h d (.label off)) s = .next t ∧ (∀ l ∈ ex, HasV t c l 2 d (next.setWidth 64)) ∧
        OnlyRegs s t (destV c ex 2 d) noS noP ∧ AtHeads s t c (fun l => if l ∈ ex then label else next))) ∧
  (∀ s c h ex, Issues s c h ex → ∀ (d a : Opd) (l : Nat), l ∈ ex → ((rdV c l .u64 a).setWidth 57 : VA).toNat % 4 ≠ 0 →
    ∀ i ∈ [Instr.brx h a, .ret h a, .call h d (.reg a)],
    ∃ t, exec i s = .next t ∧ OnlyPlace s t ∧ (∀ j ∈ c.g.lanes, pcAt t c.f c.k j = pcAt s c.f c.k j) ∧
      ((flock? s c.f c.k).bind (·.fault) = none → (flock? t c.f c.k).bind (fun fl => fl.fault.map (·.cause)) = some 0x16) ∧
      ((fold? s c.f).bind (·.halt) = none →
        (fold? t c.f).bind (fun fo => fo.halt.map (fun o => (o.reason, o.cause, o.pflock))) = some (.fault, 0x16, some c.k)))

/-- R125, R141, R145: EXIT ends each executing thread, CVG parks those that its token names until every thread the token names
is parked with it or gone, and REORDER parks with the key and the range; the others stand at the next clause. -/
def Obligations.ParkingAndExit : Prop :=
  ∀ s c h ex, Issues s c h ex → (∀ l ∈ ex, doomed c l = false ∧ liveRegion c l = false) →
    ∀ (a base : Opd) (count : BitVec 11),
    let next := c.hdr + 12 * BitVec.ofNat 57 (c.g.len + 1)
    (∃ t, exec (.exit h) s = .next t ∧ OnlyPlace s t ∧ AtHeads s t c (fun _ => next) ∧
      ∀ l ∈ ex, exitedAt t c.f c.k l = some true ∧ parkAt t c.f c.k l = some .none) ∧
    (let tok := rdS c a
     let mine := fun l => decide (bits tok 60 56 = c.k ∧ bits tok 55 48 = c.fo.epoch.toNat) && tok.getLsbD l
     ∃ t, exec (.cvg h a) s = .next t ∧ OnlyPlace s t ∧ AtHeads s t c (fun _ => next) ∧
      let all := ∀ i < 32, tok.getLsbD i = true → exitedAt s c.f c.k i ≠ some false ∨ parkAt s c.f c.k i = some (.cvg tok) ∨
        (i ∈ ex ∧ mine i = true)
      ∀ l ∈ ex, mine l = true →
        (all → parkAt t c.f c.k l = some .none) ∧ (¬ all → parkAt t c.f c.k l = some (.cvg tok))) ∧
    ((∀ l ∈ ex, inTrap c l = false) →
      Free s c (regsT .u32 a ++ [((match base with | .v n => n.val | _ => 0), count.toNat)]) →
      ∃ t, exec (.reorder h a base count) s = .next t ∧ OnlyPlace s t ∧ AtHeads s t c (fun _ => next) ∧
        ∀ l ∈ ex, parkAt t c.f c.k l =
          some (.reorder (rd32 c l a) (match base with | .v n => n.val | _ => 0) count.toNat))

/-- R124, R143, R144: CVGSET gives a token of the executing lanes, ELECT names the thread of the lowest index, and VOTE gathers
its predicate over the executing threads. -/
def Obligations.VotingYields : Prop :=
  ∀ s c h ex, Issues s c h ex → ∀ (d a : Opd) (neg : Bool),
    let p := fun l => xor (rdPred c l a) neg
    YieldsP (.vote h .any d a neg) s c ex d (fun _ => decide (∃ l ∈ ex, p l = true)) ∧
    YieldsP (.vote h .all d a neg) s c ex d (fun _ => decide (∀ l ∈ ex, p l = true)) ∧
    (∃ m : W64, (∀ i < 64, m.getLsbD i = (decide (i ∈ ex) && p i)) ∧ YieldsS (.vote h .ballot d a neg) s c d m) ∧
    YieldsS (.vote h .count d a neg) s c d (BitVec.ofNat 64 (ex.filter p).length) ∧
    (∃ t m, exec (.cvgset h d) s = .next t ∧ OnlyRegs s t noV (destS c d) noP ∧ AtNext s t c ∧ HasS t c d m ∧
      (flock? t c.f c.k).map (·.serial) = some (c.fl.serial + 1) ∧
      (ex.Nodup → (∀ l ∈ ex, l < 32) → c.k < 256 →
        bits m 63 56 = c.k ∧ bits m 55 48 = c.fo.epoch.toNat ∧ bits m 47 32 = c.fl.serial.toNat ∧
        ∀ i < 32, m.getLsbD i = decide (i ∈ ex))) ∧
    (∃ t, ∃ b ∈ ex, (∀ l ∈ ex, tidOf c b ≤ tidOf c l) ∧ exec (.elect h d a) s = .next t ∧
      OnlyRegs s t noV (destS c a) (destP c ex d) ∧ AtNext s t c ∧ HasS t c a (BitVec.ofNat 64 b) ∧
      ∀ l ∈ ex, HasP t c l d (decide (l = b)))

/-- R21, R23, R24: a clause starts when the flags of its wait mask are zero and its tokens are granted: its words are fetched as a
unit, the group takes the header's length, slots, heavy and yield fields, its threads stand at the first word, and nothing else
moves but what the fetches note. -/
def Obligations.ClauseStartTakesHeader : Prop :=
  ∀ s c (hd : ClauseHdr), issuing? s = some c → c.g.started = false →
    (∀ n < 12, hd.wait.getLsbD n = true → flagAt s c.f c.k n = 0) → grantOk s c (tokenRequest s c hd).1 = true →
    let q := fetchClause s c.c c.fo.ctx c.hdr hd.len.toNat
    ∀ g0, groupAt q.1 c.f c.k = some g0 →
    ∃ t g, exec (.clauseStart hd) s = .next t ∧ KeptRegs s t ∧ SameFlags s t ∧ SameMem q.1 t ∧ SameSpecial q.1 t ∧
      groupAt t c.f c.k = some g ∧ g.lanes = g0.lanes ∧ g.started = true ∧ g.len = hd.len.toNat ∧ g.slotA = hd.slotA ∧
      g.slotB = hd.slotB ∧ g.heavy = hd.heavy.toNat ∧ g.yield = hd.yield ∧ g.words = q.2 ∧
      (c.pc = c.hdr → ∀ l ∈ g0.lanes, ∀ th, thread? q.1 c.f c.k l = some th → pcAt t c.f c.k l = some (c.hdr + 12)) ∧
      (coreAt t c.c).held = (coreAt q.1 c.c).held + (tokenRequest s c hd).1

/-! ## Traps -/

/-- Where a thread stands after it took a trap (R292, R293). -/
def Sys2Proof.Trapped (t : State) (c : Cx) (l : Nat) (entry : VA) (tcause : Nat) (resume : VA) : Prop :=
  pcAt t c.f c.k l = some entry ∧
  ∃ x, trapAt t c.f c.k l = some x ∧ x.mode = true ∧ x.tcause = BitVec.ofNat 32 tcause ∧ x.tpc = c.pc.setWidth 64 ∧
    x.rpc = resume ∧ x.npc = (nextWord c).1

/-- R293, R310: TRAP sends each executing thread that is not in trap mode to TRAPVEC, with the cause and the code in TCAUSE, its
own address in TPC and the next word as resume PC; no register, flag, byte or other thread's trap register changes. -/
def Obligations.TrapEntersHandler : Prop :=
  ∀ s c h ex (code : BitVec 16), Issues s c h ex → c.g.lanes.Nodup → (∀ l ∈ ex, inTrap c l = false) →
    ((ctx s c.fo.ctx).trapvec.setWidth 57 : VA) ≠ 0 →
    ∃ t, exec (.trap h code) s = .next t ∧
      SameV s t noV ∧ SameS s t noS ∧ SameP s t noP ∧ SameFlags s t ∧ SameMem s t ∧ SameSpecial s t ∧
      (∀ f k l, ¬ (f = c.f ∧ k = c.k ∧ l ∈ ex) → trapAt t f k l = trapAt s f k l) ∧
      ∀ l ∈ ex, Trapped t c l ((ctx s c.fo.ctx).trapvec.setWidth 57) (code.toNat * 65536 + 0x01) (nextWord c).1

/-- R89, R160, R232, R293: a vector word of groups 0x2 to 0x5, a special function excepted, that names a register of a locked
window performs nothing; each executing thread takes RLOCK with the entry's index and resumes at the word itself. The
floating-point words are stated for threads that take no REPRO, which comes first (R378). That VTOS and VFRED, whose destination
is an S register, take RLOCK too is the model's reading (log 17): R67 and R89 count them among the uniform words. -/
def Obligations.LockedWindowTraps : Prop :=
  ∀ s c h ex j, Issues s c h ex → c.g.lanes.Nodup → (∀ l ∈ ex, inTrap c l = false) →
    ((ctx s c.fo.ctx).trapvec.setWidth 57 : VA) ≠ 0 →
    let locks := fun (i : Instr) (regs : List (Nat × Nat)) => windowLock s c regs = some j →
      ∃ u, exec i s = .next u ∧
        SameV s u noV ∧ SameS s u noS ∧ SameP s u noP ∧ SameFlags s u ∧ SameMem s u ∧ SameSpecial s u ∧
        ∀ l ∈ ex, Trapped u c l ((ctx s c.fo.ctx).trapvec.setWidth 57) (j * 65536 + 0x02) c.pc
    (∀ i regs e, hintsOf i = some h → intHalf i = some (regs, e) → locks i regs) ∧
    (∀ i regs e, hintsOf i = some h → fpHalf i = some (regs, e) → reproLanes s c ex = [] → locks i regs) ∧
    ∀ (t st : Ty) (m : ShflMode) (d a b : Opd) (y : Src) (p : Fin 8) (n : Fin 48) (hi sat : Bool) (rm : Rm) (nar : BitVec 6),
      locks (.shfl h t m d a y p) (regsT t d ++ regsT t a ++ regsSrc .u32 y) ∧
      locks (.vtos h t d a y) (regsT t a) ∧
      locks (.stov h t d a hi) (regsT t d) ∧
      locks (.vspec h d (.spec n)) (regsT (if specWide n.val then .u64 else .u32) d) ∧
      (reproLanes s c ex = [] →
        locks (.vfred h t d a rm) (regsT t a) ∧
        locks (.vcvt h t st nar d a rm sat) (regsT t d ++ regsT st a) ∧
        locks (.vpack8 h nar st d a b rm sat) (regsT .u32 d ++ regsT .u32 a ++ regsT .u32 b) ∧
        locks (.vunpk8 h t nar d a rm sat) (regsT .u64 d ++ regsT .u32 a) ∧
        locks (.vfrnd h t d a rm) (regsT t d ++ regsT t a) ∧
        locks (.vqscale h nar d a b rm sat) (regsT .u32 d ++ regsT .u32 a))

/-- R293, R296, R299: TRAP in a thread that is in trap mode, or with no handler, stops the fold instead: its flock records cause
TRAP, with NEST for a thread in trap mode, and its fold halts for a fault.
R297, R316: HALTF stops the fold: the flock's halt record holds the code, the cause HALTF and the header of the next clause,
and the address of the HALTF is the fault address. -/
def Obligations.FoldsStopForFaults : Prop :=
  (∀ s c h l (code : BitVec 16), Issues s c h [l] → c.fl.fault = none → c.fo.halt = none →
    (inTrap c l = true ∨ ((ctx s c.fo.ctx).trapvec.setWidth 57 : VA) = 0) →
    ∃ t, exec (.trap h code) s = .next t ∧
      SameV s t noV ∧ SameS s t noS ∧ SameP s t noP ∧ SameFlags s t ∧ SameMem s t ∧ SameTrap s t ∧
      (flock? t c.f c.k).bind (fun fl => fl.fault.map (fun x => (x.cause, x.nest, x.tid, x.hpc))) =
        some (0x01, inTrap c l, some (tidOf c l), c.pc) ∧
      (fold? t c.f).bind (fun fo => fo.halt.map (fun o => (o.reason, o.cause, o.pflock))) = some (.fault, 0x01, some c.k)) ∧
  (∀ s c h ex (code : BitVec 16), Issues s c h ex → c.fl.fault = none → c.fo.halt = none →
    ∃ t, exec (.haltf h code) s = .next t ∧ OnlyPlace s t ∧
      (flock? t c.f c.k).bind (fun fl => fl.fault.map (fun x => (x.cause, x.detail, x.hpc))) =
        some (0x19, code, c.hdr + 12 * BitVec.ofNat 57 (c.g.len + 1)) ∧
      ((∀ l ∈ ex, liveRegion c l = false) → (fold? t c.f).bind (fun fo => fo.halt.map (fun o => (o.reason, o.cause, o.pflock, o.faddr))) =
        some (.fault, 0x19, some c.k, c.pc.setWidth 64)))

/-- R311: the returns take each executing thread of trap mode out of it, TRET at its resume PC, TRET.SKIP at the word after the
trapping one, TRET.TO at the operand; a thread whose region is doomed goes to its abort target instead (R272). -/
def Obligations.TrapReturns : Prop :=
  ∀ s c h ex, Issues s c h ex → c.g.lanes.Nodup → (∀ l ∈ ex, inTrap c l = true) → ∀ (a : Opd),
    let back := fun (i : Instr) (p : Nat → Thread → VA) =>
      ∃ t, exec i s = .next t ∧ SameV s t noV ∧ SameS s t noS ∧ SameP s t noP ∧ SameFlags s t ∧ SameMem s t ∧
        SameSpecial s t ∧ (∀ f k l, ¬ (f = c.f ∧ k = c.k ∧ l ∈ ex) → trapAt t f k l = trapAt s f k l) ∧
        ∀ l ∈ ex, ∀ th, thread? s c.f c.k l = some th →
          (trapAt t c.f c.k l).map (·.mode) = some false ∧
          pcAt t c.f c.k l = some (if th.reg.doom then th.reg.target else p l th)
    back (.tret h) (fun _ th => th.trap.rpc) ∧
    back (.tretSkip h) (fun _ th => if th.trap.late then th.trap.rpc else th.trap.npc) ∧
    ((∀ l ∈ ex, ((rdV c l .u64 a).setWidth 57 : VA).toNat % 4 = 0) → Free s c (regsT .u64 a) →
      back (.tretTo h a) (fun l _ => (rdV c l .u64 a).setWidth 57))

/-! ## Group 0x1 -/

/-- R73: the scalar moves, sums, products, minima, maxima and SLEA complete, each with the value of its row in d, and change
nothing else. R73, R74: the scalar logic, shifts, comparison, selection and counts complete in the same way. -/
def Obligations.ScalarYields : Prop :=
  (∀ s c h ex, Issues s c h ex → ∀ (t : Ty) (d a : Opd) (b : Src) (sh : BitVec 6),
    let x := rdS c a
    let y := rdSrcS c t b
    let sg := signedTy t
    YieldsS (.smov h t d b) s c d y ∧
    YieldsS (.sadd h t d a b) s c d (BitVec.ofNat 64 (x.toNat + y.toNat)) ∧
    YieldsS (.ssub h t d a b) s c d (BitVec.ofInt 64 ((x.toNat : Int) - y.toNat)) ∧
    YieldsS (.smul h t d a b) s c d (BitVec.ofNat 64 (x.toNat * y.toNat)) ∧
    YieldsS (.smulh h t d a b) s c d (BitVec.ofInt 64 (num sg x * num sg y / (2 ^ 64 : Nat))) ∧
    YieldsS (.smin h t d a b) s c d (if num sg x ≤ num sg y then x else y) ∧
    YieldsS (.smax h t d a b) s c d (if num sg x ≤ num sg y then y else x) ∧
    YieldsS (.slea h t d a b sh) s c d (BitVec.ofNat 64 (x.toNat + y.toNat * 2 ^ sh.toNat))) ∧
  (∀ s c h ex, Issues s c h ex → ∀ (t : Ty) (d a : Opd) (b : Src) (k : Cond) (r : Fin 128) (neg : Bool),
    let x := rdS c a
    let y := rdSrcS c t b
    YieldsS (.sand h t d a b) s c d (x &&& y) ∧
    YieldsS (.sor h t d a b) s c d (x ||| y) ∧
    YieldsS (.sxor h t d a b) s c d (x ^^^ y) ∧
    YieldsS (.snot h t d a) s c d (BitVec.ofNat 64 (2 ^ 64 - 1 - x.toNat)) ∧
    YieldsS (.sshl h t d a b) s c d (shl x y) ∧
    YieldsS (.sshr h t d a b) s c d (shr x y) ∧
    YieldsS (.ssar h t d a b) s c d (sar x y) ∧
    YieldsS (.scmp h t k d a b) s c d (if holdsCond k (num (signedTy t) x) (num (signedTy t) y) then 1 else 0) ∧
    YieldsS (.ssel h t d a b r neg) s c d (if xor (decide (sregAt s c.f c.k r.val ≠ 0)) neg then x else y) ∧
    YieldsS (.sclz h t d a) s c d (BitVec.ofNat 64 (clz x)) ∧
    YieldsS (.spopc h t d a) s c d (BitVec.ofNat 64 (ones x)))

/-- R75: SDIV, SREM, VDIV and VREM complete with the quotient and the remainder of the table, whatever the divisor. -/
def Obligations.DivisionYields : Prop :=
  ∀ s c h ex, Issues s c h ex → ∀ (t : Ty) (d a : Opd) (b : Src),
    let sg := signedTy t
    YieldsS (.sdiv h t d a b) s c d (quot sg (rdS c a) (rdSrcS c t b)) ∧
    YieldsS (.srem h t d a b) s c d (remd sg (rdS c a) (rdSrcS c t b)) ∧
    (Free s c (binRegs t d a b) →
      YieldsE (.vdiv h t d a b) s c ex t d (fun l e => quot sg (elemOf _ (rdV c l t a) e) (elemOf _ (rdSrc c l t b) e)) ∧
      YieldsE (.vrem h t d a b) s c ex t d (fun l e => remd sg (elemOf _ (rdV c l t a) e) (elemOf _ (rdSrc c l t b) e)))

/-- R76: SBFX, SBFI, VBFX and VBFI complete with the field that the control word names. -/
def Obligations.BitFieldYields : Prop :=
  ∀ s c h ex, Issues s c h ex → ∀ (t : Ty) (d a : Opd) (b : Src),
    let sg := signedTy t
    YieldsS (.sbfx h t d a b) s c d (extract sg (rdS c a) (rdSrcS c t b)) ∧
    YieldsS (.sbfi h t d a b) s c d (insert (rdS c d) (rdS c a) (rdSrcS c t b)) ∧
    (Free s c (binRegs t d a b) →
      YieldsE (.vbfx h t d a b) s c ex t d (fun l e => extract sg (elemOf _ (rdV c l t a) e) (rdSrc c l t b)) ∧
      YieldsE (.vbfi h t d a b) s c ex t d (fun l e =>
        insert (elemOf _ (rdV c l t d) e) (elemOf _ (rdV c l t a) e) (rdSrc c l t b)))

/-! ## Group 0x2 -/

/-- R78: VADD, VSUB, VABS and VNEG complete with each element's exact result, clamped with SAT. -/
def Obligations.VectorSumYields : Prop :=
  ∀ s c h ex, Issues s c h ex → ∀ (t : Ty) (d a : Opd) (b : Src) (sat : Bool),
    let sg := signedTy t
    let n := elemWidth t
    let x := fun l e => num sg (elemOf n (rdV c l t a) e)
    let y := fun l e => num sg (elemOf n (rdSrc c l t b) e)
    (Free s c (binRegs t d a b) →
      YieldsE (.vadd h t d a b sat) s c ex t d (fun l e => BitVec.ofInt n (clampTo n sg sat (x l e + y l e))) ∧
      YieldsE (.vsub h t d a b sat) s c ex t d (fun l e => BitVec.ofInt n (clampTo n sg sat (x l e - y l e)))) ∧
    (Free s c (regsT t d ++ regsT t a) →
      YieldsE (.vabs h t d a sat) s c ex t d (fun l e => BitVec.ofInt n (clampTo n sg sat |x l e|)) ∧
      YieldsE (.vneg h t d a sat) s c ex t d (fun l e => BitVec.ofInt n (clampTo n sg sat (-x l e))))

/-- R77, R82: the products complete: VMUL keeps the low half and VMULH the high half of each element's exact product, VMAD and
VMADW add c, and VDP4 adds four products of bytes to d. -/
def Obligations.VectorProductYields : Prop :=
  ∀ s c h ex, Issues s c h ex → ∀ (t : Ty) (d a b k : Opd) (j : Src) (sat : Bool),
    let sg := signedTy t
    let n := elemWidth t
    let x := fun l e => elemOf n (rdV c l t a) e
    (Free s c (binRegs t d a j) →
      YieldsE (.vmul h t d a j) s c ex t d (fun l e => BitVec.ofNat n ((x l e).toNat * (elemOf n (rdSrc c l t j) e).toNat)) ∧
      YieldsE (.vmulh h t d a j) s c ex t d (fun l e =>
        BitVec.ofInt n (num sg (x l e) * num sg (elemOf n (rdSrc c l t j) e) / (2 ^ n : Nat))) ∧
      (t = .i32 ∨ t = .u32 → YieldsV (.vdp4 h t d a j sat) s c ex 1 d (fun l =>
        (BitVec.ofInt 32 (clampTo 32 sg sat (num sg ((rdV c l t d).setWidth 32)
          + dotBytes sg ((rdV c l t a).setWidth 32) ((rdSrc c l t j).setWidth 32)))).setWidth 64))) ∧
    (Free s c (regsT t d ++ regsT t a ++ regsT t b ++ regsT t k) →
      YieldsE (.vmad h t d a b k) s c ex t d (fun l e =>
        BitVec.ofNat n ((x l e).toNat * (elemOf n (rdV c l t b) e).toNat + (elemOf n (rdV c l t k) e).toNat))) ∧
    (Free s c (regsT .u64 d ++ regsT t a ++ regsT t b ++ regsT .u64 k) →
      YieldsV (.vmadw h t d a b k) s c ex 2 d (fun l =>
        BitVec.ofInt 64 (num sg ((rdV c l t a).setWidth 32) * num sg ((rdV c l t b).setWidth 32) + (rdV c l .u64 k).toNat)))

/-- R74, R77: the moves, the bitwise instructions, the shifts and the lesser and greater complete, element by element. -/
def Obligations.VectorLogicYields : Prop :=
  ∀ s c h ex, Issues s c h ex → ∀ (t : Ty) (d a : Opd) (b : Src),
    let sg := signedTy t
    let n := elemWidth t
    let x := fun l e => elemOf n (rdV c l t a) e
    let y := fun l e => elemOf n (rdSrc c l t b) e
    (Free s c (regsT t d ++ regsSrc t b) → YieldsV (.vmov h t d b) s c ex (width t) d (fun l => rdSrc c l t b)) ∧
    (Free s c (regsT t d ++ regsT t a) →
      YieldsE (.vnot h t d a) s c ex t d (fun l e => BitVec.ofNat n (2 ^ n - 1 - (x l e).toNat))) ∧
    (Free s c (binRegs t d a b) →
      YieldsE (.vand h t d a b) s c ex t d (fun l e => x l e &&& y l e) ∧
      YieldsE (.vor h t d a b) s c ex t d (fun l e => x l e ||| y l e) ∧
      YieldsE (.vxor h t d a b) s c ex t d (fun l e => x l e ^^^ y l e) ∧
      YieldsE (.vshl h t d a b) s c ex t d (fun l e => shl (x l e) (rdSrc c l t b)) ∧
      YieldsE (.vshr h t d a b) s c ex t d (fun l e => shr (x l e) (rdSrc c l t b)) ∧
      YieldsE (.vsar h t d a b) s c ex t d (fun l e => sar (x l e) (rdSrc c l t b)) ∧
      YieldsE (.vmin h t d a b) s c ex t d (fun l e => if num sg (x l e) ≤ num sg (y l e) then x l e else y l e) ∧
      YieldsE (.vmax h t d a b) s c ex t d (fun l e => if num sg (x l e) ≤ num sg (y l e) then y l e else x l e))

/-- R70, R77, R80, R81: comparing, selecting, counting, permuting bytes, forming an address and extending complete. -/
def Obligations.VectorSelectYields : Prop :=
  ∀ s c h ex, Issues s c h ex → ∀ (t : Ty) (d a o : Opd) (b : Src) (k : Cond) (p : Fin 8) (neg : Bool) (sel : BitVec 16)
    (sh : BitVec 3) (w : ExtW),
    let sg := signedTy t
    let n := elemWidth t
    let x := fun l => elemOf n (rdV c l t a) 0
    (Free s c (regsT t a ++ regsSrc t b) →
      YieldsP (.vcmp h t k d a b) s c ex d (fun l => holdsCond k (num sg (x l)) (num sg (elemOf n (rdSrc c l t b) 0)))) ∧
    (Free s c (binRegs t d a b) →
      YieldsV (.vsel h t d a b p neg) s c ex (width t) d (fun l =>
        if xor (predAt s c.f c.k l p) neg then rdV c l t a else rdSrc c l t b)) ∧
    (Free s c (regsT .u32 d ++ regsT t a) →
      YieldsV (.vclz h t d a) s c ex 1 d (fun l => BitVec.ofNat 64 (clz (x l))) ∧
      YieldsV (.vpopc h t d a) s c ex 1 d (fun l => BitVec.ofNat 64 (ones (x l)))) ∧
    (Free s c (regsT .u32 d ++ regsT .u32 a ++ regsT .u32 o) →
      YieldsV (.vprmb h d a o sel) s c ex 1 d (fun l =>
        (permPick (rd32 c l a) (rd32 c l o) sel 3 ++ permPick (rd32 c l a) (rd32 c l o) sel 2
          ++ permPick (rd32 c l a) (rd32 c l o) sel 1 ++ permPick (rd32 c l a) (rd32 c l o) sel 0 : BitVec 32).setWidth 64)) ∧
    (Free s c (regsT .u64 d ++ regsT .u64 a ++ regsSrc t b) →
      YieldsV (.vlea h t d a b sh) s c ex 2 d (fun l =>
        BitVec.ofInt 64 ((rdV c l .u64 a).toNat + num sg ((rdSrc c l t b).setWidth 32) * (2 ^ sh.toNat : Nat)))) ∧
    (Free s c (regsT t d ++ regsT t a) → t = .i32 ∨ t = .u32 ∨ t = .i64 ∨ t = .u64 →
      YieldsE (.vext h t d a w) s c ex t d (fun l _ => BitVec.ofInt n (num sg ((rdV c l t a).setWidth (extWidth w)))))

/-- R79: VADDC and VSUBB complete with the sum or the difference and the carry or borrow out. -/
def Obligations.CarryYields : Prop :=
  ∀ s c h ex, Issues s c h ex → ∀ (t : Ty) (d a : Opd) (b : Src) (en : Bool) (ci co : Fin 8),
    Free s c (binRegs t d a b) →
    let n := elemWidth t
    let cin := fun l => if en ∧ predAt s c.f c.k l ci then 1 else 0
    let sum := fun l => (rdV c l t a).toNat + (rdSrc c l t b).toNat + cin l
    let dif := fun l => ((rdV c l t a).toNat : Int) - (rdSrc c l t b).toNat - cin l
    YieldsVP (.vaddc h t d a b en ci co) s c ex (width t) d (fun l => BitVec.ofNat 64 (sum l % 2 ^ n)) co
      (fun l => decide (sum l ≥ 2 ^ n)) ∧
    YieldsVP (.vsubb h t d a b en ci co) s c ex (width t) d (fun l => BitVec.ofInt 64 (dif l % (2 ^ n : Nat))) co
      (fun l => decide (dif l < 0))

/-! ## Group 0x3 -/

/-- R83, R84: the predicate instructions complete.
R85, R86: SHFL, VTOS and STOV complete. That SHFL takes an immediate as its 32 bits as they stand, whatever the type, is the
model's reading (log 17). -/
def Obligations.PredicatesAndExchangeYield : Prop :=
  (∀ s c h ex, Issues s c h ex → ∀ (d a b : Opd) (na nb : Bool),
    let x := fun l => xor (rdPred c l a) na
    let y := fun l => xor (rdPred c l b) nb
    YieldsP (.pand h d a b na nb) s c ex d (fun l => x l && y l) ∧
    YieldsP (.por h d a b na nb) s c ex d (fun l => x l || y l) ∧
    YieldsP (.pxor h d a b na nb) s c ex d (fun l => xor (x l) (y l)) ∧
    YieldsP (.pnot h d a) s c ex d (fun l => !rdPred c l a) ∧
    YieldsP (.pmov h .toP d a) s c ex d (fun l => (rdS c a).getLsbD l) ∧
    (∃ m : W64, (∀ i < 64, m.getLsbD i = (decide (i ∈ ex) && rdPred c i a)) ∧ YieldsS (.pmov h .toS d a) s c d m)) ∧
  (∀ s c h ex, Issues s c h ex → ∀ (t : Ty) (d a : Opd) (b : Src) (m : ShflMode) (pv : Fin 8) (hi : Bool),
    (Free s c (regsT t d ++ regsT t a ++ regsSrc .u32 b) →
      let y := fun l => match b with | .reg o => (rd32 c l o).toNat | .imm w => w.toNat
      let j := fun l => shflFrom m l (y l)
      let ok := fun l => decide (0 ≤ j l ∧ j l < 32 ∧ (j l).toNat ∈ ex)
      YieldsVP (.shfl h t m d a b pv) s c ex (width t) d (fun l => if ok l then rdV c (j l).toNat t a else rdV c l t a) pv ok) ∧
    (Free s c (regsT t a) →
      YieldsS (.vtos h t d a b) s c d
        (let j := (rdSrcS c t b).toNat
         if j ∈ ex then (if t = .i32 then ((rdV c j t a).setWidth 32).signExtend 64 else rdV c j t a) else 0)) ∧
    (Free s c (regsT t d) →
      YieldsV (.stov h t d a hi) s c ex (width t) d (fun _ =>
        if hi then ((rdS c a).extractLsb' 32 32).setWidth 64 else rdS c a)))

/-- R87, R39: VSPEC and SSPEC complete with the special's value: the thread's indices, the sizes of fold and grid, the fold's
indices, the grid, the stage, the role, the flock, the lane, the range of a task, the core, the die and the source, the region's
and the trap's registers, the level and the V registers. -/
def Obligations.SpecialsYield : Prop :=
  ∀ s c h ex, Issues s c h ex → ∀ (d : Opd) (n : Fin 48),
    (Free s c (regsT (if specWide n.val then .u64 else .u32) d) →
      YieldsV (.vspec h d (.spec n)) s c ex (if specWide n.val then 2 else 1) d (fun l => specVal c l n.val)) ∧
    YieldsS (.sspec h d (.spec n)) s c d (specVal c (ex.headD 0) n.val) ∧
    ∀ l th, tget? c.fl.threads l = some th →
      let r := c.gr.record
      specVal c l 0 = BitVec.ofNat 64 (th.tid % r.tx) ∧
      specVal c l 1 = BitVec.ofNat 64 (th.tid / r.tx % r.ty) ∧
      specVal c l 2 = BitVec.ofNat 64 (th.tid / (r.tx * r.ty)) ∧
      specVal c l 3 = BitVec.ofNat 64 th.tid ∧
      specVal c l 4 = BitVec.ofNat 64 r.tx ∧ specVal c l 5 = BitVec.ofNat 64 r.ty ∧ specVal c l 6 = BitVec.ofNat 64 r.tz ∧
      specVal c l 7 = BitVec.ofNat 64 c.fo.x ∧ specVal c l 8 = BitVec.ofNat 64 c.fo.y ∧ specVal c l 9 = BitVec.ofNat 64 c.fo.z ∧
      specVal c l 10 = BitVec.ofNat 64 r.nx ∧ specVal c l 11 = BitVec.ofNat 64 r.ny ∧ specVal c l 12 = BitVec.ofNat 64 r.nz ∧
      specVal c l 13 = c.gr.id ∧ specVal c l 14 = BitVec.ofNat 64 c.fo.stage ∧ specVal c l 15 = BitVec.ofNat 64 c.fl.role ∧
      specVal c l 16 = BitVec.ofNat 64 c.k ∧ specVal c l 17 = BitVec.ofNat 64 l ∧
      specVal c l 18 = (if c.fo.isTask then c.fo.lo else 0) ∧ specVal c l 19 = (if c.fo.isTask then c.fo.hi else 0) ∧
      specVal c l 20 = BitVec.ofNat 64 c.gr.sib ∧
      specVal c l 21 = BitVec.ofNat 64 (c.c % 64) ∧ specVal c l 22 = BitVec.ofNat 64 (dieOf c.c) ∧
      specVal c l 23 = BitVec.ofNat 64 (coreSrc c.c) ∧
      specVal c l 24 = th.reg.blo ∧ specVal c l 25 = th.reg.bhi ∧ specVal c l 26 = th.reg.tpos ∧
      specVal c l 27 = (tstatus th.reg).setWidth 64 ∧ specVal c l 28 = BitVec.ofNat 64 c.gr.level ∧
      specVal c l 29 = BitVec.ofNat 64 c.fl.valloc ∧ specVal c l 30 = th.trap.tcause.setWidth 64 ∧
      specVal c l 31 = th.trap.tpc

/-! ## Groups 0x4 and 0x5 -/

/-- A floating-point word that takes neither REPRO nor RLOCK (R118, R232). -/
def Sys2Proof.FpRuns (s : State) (c : Cx) (h : Hd) (ex : List Nat) (regs : List (Nat × Nat)) : Prop :=
  Issues s c h ex ∧ reproLanes s c ex = [] ∧ Free s c regs

/-- The elements of a result in a float type, each an operation on the elements of the operands with its random word. -/
def Sys2Proof.elems (t : Ty) (c : Cx) (l : Nat) (g : Nat → W32 → Res) : W64 :=
  fromElems (elemWidth t) (elemCount t) (fun e => BitVec.ofNat _ (g e (laneWord c l (elemCount t) e)).1)

/-- A floating-point instruction completes with a result of a type in each executing lane, element by element, and with the
events of its elements counted (R99, R101, R105). -/
def Sys2Proof.YieldsR (i : Instr) (s : State) (c : Cx) (ex : List Nat) (t : Ty) (d : Opd) (g : Nat → Nat → W32 → Res) : Prop :=
  YieldsF i s c ex (width t) d (fun l => elems t c l (g l))
    (fun l => orEvs (elemCount t) (fun e => g l e (laneWord c l (elemCount t) e)))

/-- R99, R101, R105, R109: the sums and products complete with the exact result of the operands rounded once, and the events of
each thread are counted. For which operands beside a NaN VFDOT raises INV is the model's reading (log 37), and so is that the
events of a region that has ended do not count (log 35). -/
def Obligations.FpArithmeticYields : Prop :=
  ∀ s c h ex (t : Ty) (d a b k : Opd) (j : Src) (rm : Rm) (sat : Bool) (nar : BitVec 6),
    let F := fmtOf t 0
    let x := fun l e => fsrc c l t a e
    let y := fun l e => fsrcB c l t j e
    (FpRuns s c h ex (binRegs t d a j) →
      YieldsR (.vfadd h t d a j rm sat) s c ex t d (fun l e w =>
        runOp F rm sat w [x l e, y l e] (exactSum [x l e, y l e])) ∧
      YieldsR (.vfsub h t d a j rm sat) s c ex t d (fun l e w =>
        runOp F rm sat w [x l e, y l e] (exactSum [x l e, fvFlip (y l e)])) ∧
      YieldsR (.vfmul h t d a j rm sat) s c ex t d (fun l e w =>
        runOp F rm sat w [x l e, y l e] (xvOfMul (x l e) (y l e)))) ∧
    (FpRuns s c h ex (regsT t d ++ regsT t a ++ regsT t b ++ regsT t k) →
      YieldsR (.vfma h t d a b k rm sat) s c ex t d (fun l e w =>
        runOp F rm sat w [x l e, fsrc c l t b e, fsrc c l t k e] (exactFma (x l e) (fsrc c l t b e) (fsrc c l t k e)))) ∧
    (FpRuns s c h ex (regsT t d ++ regsT t a ++ regsSrc .i32 j) →
      YieldsR (.vfscale h t d a j rm sat) s c ex t d (fun l e w =>
        runOp F rm sat w [x l e] (exactScale (x l e) ((rdSrc c l .i32 j).setWidth 32).toInt))) ∧
    (FpRuns s c h ex (regsT .f32 d ++ regsT .u32 a ++ regsT .u32 b) →
      YieldsR (.vfdot h t nar d a b rm sat) s c ex .f32 d (fun l _ w =>
        opBlock fF32 rm sat w (fsrc c l .f32 d 0) ((List.range (if t = .b8 then 4 else 2)).map (fun q =>
          (fvElem (fmtOf t nar) (rdV c l .u32 a) q, fvElem (fmtOf t nar) (rdV c l .u32 b) q)))))

/-- R99, R101, R106, R107, R108, R110: the lesser and greater, the comparison, the signs, the class and the sum over a flock
complete, with their events counted: the signs and the class raise none, and the sum counts once. That the events of a region that
has ended do not count is the model's reading (log 35). -/
def Obligations.FpSelectYields : Prop :=
  ∀ s c h ex (t : Ty) (d a : Opd) (j : Src) (k : FCond) (rm : Rm) (nar : BitVec 6),
    let F := fmtOf t 0
    let x := fun l e => fcode t (rdV c l t a) e
    let y := fun l e => fcode t (rdSrc c l t j) e
    (FpRuns s c h ex (binRegs t d a j) →
      YieldsR (.vfmin h t d a j) s c ex t d (fun l e _ => opMinMax F false (x l e) (y l e)) ∧
      YieldsR (.vfmax h t d a j) s c ex t d (fun l e _ => opMinMax F true (x l e) (y l e))) ∧
    (FpRuns s c h ex (regsT t a ++ regsSrc t j) →
      let r := fun l => opFcmp k (fsrc c l t a 0) (fsrcB c l t j 0)
      ∃ u, exec (.vfcmp h t k d a j) s = .next u ∧ (∀ l ∈ ex, HasP u c l d (r l).1) ∧
        FpFrame s u c noV noS (destP c ex d) ∧
        (NoAbort s c ex → Counts s u c.fo.ctx ((counted s c ex).map (fun l => (r l).2)))) ∧
    (FpRuns s c h ex (regsT t d ++ regsT t a) →
      YieldsR (.vfabs h t d a) s c ex t d (fun l e _ => (signOp false t (x l e), 0)) ∧
      YieldsR (.vfneg h t d a) s c ex t d (fun l e _ => (signOp true t (x l e), 0))) ∧
    (FpRuns s c h ex (regsT .u32 d ++ regsT t a) →
      YieldsF (.vfclass h t nar d a) s c ex 1 d (fun l =>
        BitVec.ofNat 64 (opClass (fmtOf t nar) (fvElem (fmtOf t nar) (rdV c l t a) 0))) (fun _ => 0)) ∧
    (FpRuns s c h ex (regsT t a) →
      let r := redTree F rm ((List.range 32).map (fun i => if i ∈ ex then fcode t (rdV c i t a) 0 else 0))
      ∃ u, exec (.vfred h t d a rm) s = .next u ∧ HasS u c d (BitVec.ofNat 64 r.1) ∧
        FpFrame s u c noV (destS c d) noP ∧
        (NoAbort s c ex → Counts s u c.fo.ctx ((counted s c [ex.headD 0]).map (fun _ => r.2))))

/-- R99, R101, R113, R114, R115: the conversions complete, with their events counted; VQSCALE also writes the shared scale to its
S register. That a NaN becomes an integer with INV alone is the model's reading (log 37), and what an infinity gives with SAT in a
binary8 format that has infinities, and that a negative value in an unsigned format raises no OVF, are its choices (log 43). -/
def Obligations.ConversionYields : Prop :=
  ∀ s c h ex (t st : Ty) (d a b : Opd) (rm : Rm) (sat : Bool) (nar : BitVec 6),
    (FpRuns s c h ex (regsT t d ++ regsT st a) →
      let r := fun l => convert t st nar rm sat (laneWord c l 1 0) (rdV c l st a)
      YieldsF (.vcvt h t st nar d a rm sat) s c ex (width t) d (fun l => BitVec.ofNat 64 (r l).1) (fun l => (r l).2)) ∧
    (FpRuns s c h ex (regsT .u32 d ++ regsT .u32 a ++ regsT .u32 b) →
      let r := fun l q => toFloat (fB8 nar) rm sat (laneWord c l 4 q)
        (fvElem (fmtOf st 0) (rdV c l .u32 (if q < 2 then a else b)) (q % 2))
      YieldsF (.vpack8 h nar st d a b rm sat) s c ex 1 d (fun l => fromElems 8 4 (fun q => BitVec.ofNat 8 (r l q).1))
        (fun l => orEvs 4 (r l))) ∧
    (FpRuns s c h ex (regsT .u64 d ++ regsT .u32 a) →
      let r := fun l q => toFloat (fmtOf t 0) rm sat (laneWord c l 4 q) (fvElem (fB8 nar) (rdV c l .u32 a) q)
      YieldsF (.vunpk8 h t nar d a rm sat) s c ex 2 d (fun l => fromElems 16 4 (fun q => BitVec.ofNat 16 (r l q).1))
        (fun l => orEvs 4 (r l))) ∧
    (FpRuns s c h ex (regsT t d ++ regsT t a) →
      YieldsR (.vfrnd h t d a rm) s c ex t d (fun l e w => opRnd (fmtOf t 0) rm w (fcode t (rdV c l t a) e))) ∧
    (FpRuns s c h ex (regsT .u32 d ++ regsT .u32 a) →
      let x := fun l => fsrc c l .f32 a 0
      ∃ u, exec (.vqscale h nar d a b rm sat) s = .next u ∧
        FpFrame s u c (destV c ex 1 d) (destS c b) noP ∧
        match sharedScale (fB8 nar) (ex.map x) with
        | none => HasS u c b 0xFF ∧ (∀ l ∈ ex, HasV u c l 1 d 0) ∧
            (NoAbort s c ex → Counts s u c.fo.ctx ((counted s c ex).map (fun l =>
              sigEv [x l] ||| (if some l = ex.head? then evFMTNAN else 0))))
        | some E =>
            let r := fun l => toFloat (fB8 nar) rm sat (laneWord c l 1 0) (unscale E (x l))
            HasS u c b (BitVec.ofNat 64 E) ∧
            (∀ l ∈ ex, HasV u c l 1 d (fromElems 8 1 (fun _ => BitVec.ofNat 8 (r l).1))) ∧
            (NoAbort s c ex → Counts s u c.fo.ctx ((counted s c ex).map (fun l => (r l).2))))

/-- R95: a value that a format holds is rounded to itself, in every mode, with no event. -/
def Obligations.RoundKeepsRepresentable : Prop :=
  ∀ (t : Ty) (nar : BitVec 6) (rm : Rm) (w : W32) (x : Nat), t = .f64 ∨ t = .f32 ∨ t = .f16 ∨ t = .bf16 →
    x < 2 ^ (fmtOf t nar).width → isNan (fvOf (fmtOf t nar) x) = false →
      toFloat (fmtOf t nar) rm false w (fvOf (fmtOf t nar) x) = (x, 0)

/-- R26, R111: a special function issues: it is under way with one result for each executing lane, the exact value rounded once,
and its events, its flag counts, and no register changes yet. The exact values of the functions that R111 names rest on the
model's reading of them (log 19), and that a thread whose region has been aborted counts none on its reading of R1 (log 35). -/
def Obligations.SfuIssues : Prop :=
  ∀ s c h ex (t : Ty) (d a b : Opd) (rm : Rm) (sat : Bool), Issues s c h ex → reproLanes s c ex = [] →
    flagFull c.fl c.g h = false →
    let x := fun l => fsrc c l t a 0
    let issues := fun (i : Instr) (vs : Nat → List Fv) (f : Nat → Exact) =>
      ∃ u, exec i s = .next u ∧ IssueFrame s s u c h ∧
        ∃ o ∈ opsAt u c.f c.k, o.id = s.seq ∧ o.flag = slotFlag c.g h ∧ o.pc = c.pc ∧ o.left = ex.length ∧
          let r := fun l => runOp (fmtOf t 0) rm sat (laneWord c l 1 0) (vs l) (f l)
          o.kind = .sfu t d (ex.map (fun l => { lane := l, pred := none, val := nat64 (r l).1 })) ∧
            o.evs = laneEvs c (ex.map (fun l => { lane := l, mask := (r l).2 }))
    (Free s c (regsT t d ++ regsT t a ++ regsT t b) →
      issues (.vfdiv h t d a b rm sat) (fun l => [x l, fsrc c l t b 0]) (fun l => exactDiv (x l) (fsrc c l t b 0))) ∧
    (Free s c (regsT t d ++ regsT t a) →
      issues (.vfsqrt h t d a rm sat) (fun l => [x l]) (fun l => exactSqrt (x l)) ∧
      issues (.vfrcp h t d a rm sat) (fun l => [x l]) (fun l => exactDiv (.num false 1 0) (x l)) ∧
      issues (.vfrsqrt h t d a rm sat) (fun l => [x l]) (fun l => exactRsqrt (x l)) ∧
      issues (.vfexp2 h t d a rm sat) (fun l => [x l]) (fun l => exactExp2 (x l)) ∧
      issues (.vflog2 h t d a rm sat) (fun l => [x l]) (fun l => exactLog2 (x l)) ∧
      issues (.vfsinpi h t d a rm sat) (fun l => [x l]) (fun l => exactSinPi (x l)) ∧
      issues (.vfcospi h t d a rm sat) (fun l => [x l]) (fun l => exactCosPi (x l)) ∧
      issues (.vftanh h t d a rm sat) (fun l => [x l]) (fun l => exactTanh (x l)))

/-! ## Group 0x6: loads and stores as they issue -/

/-- R26, R150, R167, R245: a load whose addresses are all found joins the load set, one entry for each executing lane in ascending
order with the place its address found; no register changes until it is performed. A load of a peer's word acquires at SYSTEM
scope, whatever its scope field.
R149, R168: LDC joins with the bytes that the constant section holds, on one page or on two. -/
def Obligations.LoadsIssue : Prop :=
  ∀ s c h ex, Issues s c h ex → flagFull c.fl c.g h = false →
    ∀ (t : Ty) (sgn : Bool) (d a : Opd) (m : Am) (x : Al) (s1 : State) (fs : List (Nat × Found)),
    let issues := fun (i : Instr) (regs : List (Nat × Nat)) (chk : State → Nat → State × Checked) (size n : Found → Nat)
        (kind : Found → LKind) (strm : Bool) (acq : Option Scope) =>
      PassOk s c ex chk s1 fs → Free s1 c regs → (∀ e ∈ fs, accessLock s1 c e.2 (size e.2) false = none) →
      ∃ u, exec i s = .next u ∧ IssueFrame s s1 u c h ∧ UnderWay u c h s1.seq fs.length acq ∧
        loadsAt u c.f c.k = c.fl.loads ++ fs.map (fun e =>
          { op := s1.seq, lane := e.1, place := e.2.place, n := n e.2, kind := kind e.2, task := c.fo.isTask, rid := none,
            strm := strm, va := e.2.va, pc := c.pc, sent := false, ts := s1.plat.ts })
    let peer := fs.any (fun e => match e.2.place with | .peer _ _ => true | _ => false)
    let acq := fun (o : Order) (sc : Scope) => if o = .acq ∨ o = .acqrel then some (if peer then Scope.system else sc) else none
    let n := fun (_ : Found) => sizeBytes m.size
    issues (.ld h sgn d a m) (dataRegs m.size d ++ regsT .u64 a)
      (fun s l => checkGlobal s c (rdAddr c l a + m.off.signExtend 64) (sizeBytes m.size) .load false) n n
      (fun _ => .raw sgn m.size d) m.strm (acq m.order m.scope) ∧
    issues (.ldl h sgn d a x) (dataRegs x.size d ++ regsT .u32 a) (fun s l => checkLex s c l a x false)
      (fun _ => sizeBytes x.size) (fun _ => sizeBytes x.size) (fun _ => .raw sgn x.size d) false (acq x.order .die) ∧
    issues (.lds h sgn d a m) (dataRegs m.size d ++ regsT .u32 a) (fun s l => checkScr s c l a m.off (sizeBytes m.size)) n n
      (fun _ => .raw sgn m.size d) false (acq m.order (if m.scope = .flock then .flock else .fold)) ∧
    issues (.ldc h sgn d a m) (dataRegs m.size d ++ regsT .u32 a) (fun s l => checkConst s c l a m.off (sizeBytes m.size)) n
      (fun e => e.n) (fun e => .const sgn m.size d (e.tail.getD (.imm [], 0)).1 (e.tail.getD (.imm [], 0)).2) false none ∧
    issues (.ldx h t d a m) (regsT t d ++ regsT .u64 a)
      (fun s l => checkElem s c (rdAddr c l a + m.off.signExtend 64) .load) (fun e => elemBytes (foundFmt e))
      (fun e => elemBytes (foundFmt e)) (fun e => .elem t (foundFmt e) (foundScale e) d) m.strm (acq m.order m.scope)

/-- R26, R150, R167, R245, R255: a store or an atomic whose addresses are all found joins the store FIFO, or the scratchpad
stores, one entry for each executing lane with the bytes its operand holds, at SYSTEM scope where it reaches a peer; no byte of
memory changes until it is performed, but that the entries of the pages become DIRTY (R152; log 36 gives the moment). R155,
R169: STX to a page without block scales joins the store FIFO, one element for each executing lane, its operand converted to the
page's format; an I32 outside an integer page's range leaves a byte that the spec does not state (log 8). -/
def Obligations.StoresIssue : Prop :=
  (∀ s c h ex, Issues s c h ex → flagFull c.fl c.g h = false → c.fl.fifo.length + ex.length ≤ 64 →
    ∀ (t : Ty) (d a b : Opd) (m : Am) (x : Al) (y : At) (p : Fin 8) (o : Order) (sc : Scope) (off : W32) (s1 : State)
      (fs : List (Nat × Found)),
    let scr := fun (e : FEntry) => match e.place with | .scratch _ => true | _ => false
    let issues := fun (i : Instr) (regs : List (Nat × Nat)) (chk : State → Nat → State × Checked) (n : Nat)
        (data : Nat → List Byte) (act : Nat → Act) (order : Order) (scope : Scope) (task strm : Bool) (acq : Option Scope) =>
      PassOk s c ex chk s1 fs → Free s1 c regs → (∀ e ∈ fs, accessLock s1 c e.2 n true = none) →
      let es := fs.map (fun e => (
        { op := s1.seq, lane := e.1, place := e.2.place, data := data e.1, act := act e.1, order := order,
          scope := peerScope e.2.place scope, task := task && c.fo.isTask, rid := none, va := e.2.va, pc := c.pc, sent := false,
          ts := s1.plat.ts, strm := strm } : FEntry))
      ∃ u, exec i s = .next u ∧ IssueFrame s (markFound s1 c fs) u c h ∧ UnderWay u c h s1.seq fs.length acq ∧
        fifoAt u c.f c.k = c.fl.fifo ++ es.filter (fun e => !scr e) ∧ scrStoresAt u c.f c.k = c.fl.scr ++ es.filter scr
    let peer := fs.any (fun e => match e.2.place with | .peer _ _ => true | _ => false)
    let acq := fun (o : Order) (sc : Scope) => if o = .acq ∨ o = .acqrel then some (if peer then Scope.system else sc) else none
    let n := if t = .i64 ∨ t = .u64 ∨ t = .f64 then 8 else 4
    let quiet := isFloatTy t = true → bitOf (ctx s1 c.fo.ctx).fpev.numctl 0 = false
    issues (.st h a b m) (dataRegs m.size b ++ regsT .u64 a)
      (fun s l => checkGlobal s c (rdAddr c l a + m.off.signExtend 64) (sizeBytes m.size) .store true) (sizeBytes m.size)
      (fun l => rdData c l m.size b) (fun _ => .store) m.order m.scope true m.strm none ∧
    issues (.stl h a b x) (dataRegs x.size b ++ regsT .u32 a) (fun s l => checkLex s c l a x true) (sizeBytes x.size)
      (fun l => rdData c l x.size b) (fun _ => .store) x.order .die (x.level != 0) false none ∧
    issues (.sts h a b m) (dataRegs m.size b ++ regsT .u32 a) (fun s l => checkScr s c l a m.off (sizeBytes m.size))
      (sizeBytes m.size) (fun l => rdData c l m.size b) (fun _ => .store) m.order
      (if m.scope = .flock then .flock else .fold) false false none ∧
    (quiet →
      issues (.atom h t d a b y) (regsT t d ++ regsT .u64 a ++ regsT t b)
        (fun s l => checkGlobal s c (rdAddr c l a + y.off.signExtend 64) n .atomic true) n
        (fun l => leBytes n (rdV c l t b).toNat) (fun _ => .atom t y.aop d) y.order y.scope true false (acq y.order y.scope) ∧
      issues (.red h t a b y) (regsT .u64 a ++ regsT t b)
        (fun s l => checkGlobal s c (rdAddr c l a + y.off.signExtend 64) n .atomic true) n
        (fun l => leBytes n (rdV c l t b).toNat) (fun _ => .red t y.aop) y.order y.scope true false (acq y.order y.scope) ∧
      issues (.acas h t d a b sc p o off) (regsT t d ++ regsT .u64 a ++ regsT t b)
        (fun s l => checkGlobal s c (rdAddr c l a + off.signExtend 64) n .atomic true) n
        (fun l => leBytes n (rdV c l t b).toNat) (fun l => .cas t (leBytes n (rdV c l t d).toNat) d p) o sc true false
        (acq o sc))) ∧
  (∀ s c h ex, Issues s c h ex → flagFull c.fl c.g h = false → c.fl.fifo.length + ex.length ≤ 64 →
    ∀ (t : Ty) (a b : Opd) (m : Ax) (s1 : State) (fs : List (Nat × Found)),
    PassOk s c ex (fun s l => checkElem s c (rdAddr c l a + m.off.signExtend 64) .store) s1 fs →
    Free s1 c (regsT t b ++ regsT .u64 a) → (∀ e ∈ fs, accessLock s1 c e.2 (elemBytes (foundFmt e.2)) true = none) →
    (∀ e ∈ fs, foundScale e.2 = none) →
    ∃ u, exec (.stx h t a b m) s = .next u ∧ IssueFrame s (markFound s1 c fs) u c h ∧
      UnderWay u c h s1.seq fs.length none ∧ scrStoresAt u c.f c.k = c.fl.scr ∧
      fifoAt u c.f c.k = c.fl.fifo ++ fs.map (fun e => (
        { op := s1.seq, lane := e.1, place := e.2.place, act := .store, order := m.order, scope := m.scope,
          task := c.fo.isTask, rid := none, va := e.2.va, pc := c.pc, sent := false, ts := s1.plat.ts,
          data := leBytes (elemBytes (foundFmt e.2)) (stxRes t (foundFmt e.2) m.rm m.sat (laneWord c e.1 1 0)
            (rdV c e.1 t b)).1 } : FEntry)))

/-- R149, R167, R168, R255: an access of an executing lane at an address that is no multiple of its size raises ALIGN when every
thread before it in the group, in ascending thread index, finds its own: the fold stops for the fault of that thread, with the
address as fault address, and the access has no effect in any thread. -/
def Obligations.MisalignedAccessFaults : Prop :=
  ∀ s c h p l r, Issues s c h (p ++ l :: r) → (∀ i ∈ p ++ l :: r, doomed c i = false) → flagFull c.fl c.g h = false →
    ∀ (t : Ty) (sgn : Bool) (d a b : Opd) (m : Am) (x : Al) (y : At) (q : Fin 8) (o : Order) (sc : Scope) (off : W32)
      (s1 : State) (fs : List (Nat × Found)),
    (flock? s1 c.f c.k).bind (·.fault) = none → haltAt s1 c.f = none →
    let faults := fun (i : Instr) (chk : State → Nat → State × Checked) (n : Nat) (ea : W64) =>
      pass1 s p chk = (s1, .ok fs) → ea.toNat % n ≠ 0 →
      ∃ u, exec i s = .next u ∧ NoAccess s s1 u c ∧ (∀ j ∈ c.g.lanes, pcAt u c.f c.k j = pcAt s c.f c.k j) ∧
        (flock? u c.f c.k).bind (fun fl => fl.fault.map (fun x => (x.cause, x.tid, x.hpc))) =
          some (0x16, some (tidOf c l), c.pc) ∧
        (haltAt u c.f).map (fun o => (o.reason, o.cause, o.pflock, o.faddr)) = some (.fault, 0x16, some c.k, ea)
    let room := c.fl.fifo.length + (p ++ l :: r).length ≤ 64
    let z := sizeBytes m.size
    let ea := rdAddr c l a + m.off.signExtend 64
    let lex := BitVec.ofNat 64 ((dispReg c x.level.val).toNat + (x.off.toNat + (rd32 c l a).toNat * 2 ^ x.scale.val))
    let scr := ((rd32 c l a + m.off).toNat : W64)
    let n := if t = .i64 ∨ t = .u64 ∨ t = .f64 then 8 else 4
    faults (.ld h sgn d a m) (fun s l => checkGlobal s c (rdAddr c l a + m.off.signExtend 64) z .load false) z ea ∧
    (dispReg c x.level.val ≠ 0 →
      faults (.ldl h sgn d a x) (fun s l => checkLex s c l a x false) (sizeBytes x.size) lex) ∧
    faults (.lds h sgn d a m) (fun s l => checkScr s c l a m.off z) z scr ∧
    faults (.ldc h sgn d a m) (fun s l => checkConst s c l a m.off z) z scr ∧
    faults (.sts h a b m) (fun s l => checkScr s c l a m.off z) z scr ∧
    (room →
      faults (.st h a b m) (fun s l => checkGlobal s c (rdAddr c l a + m.off.signExtend 64) z .store true) z ea ∧
      (dispReg c x.level.val ≠ 0 →
        faults (.stl h a b x) (fun s l => checkLex s c l a x true) (sizeBytes x.size) lex) ∧
      faults (.atom h t d a b y) (fun s l => checkGlobal s c (rdAddr c l a + y.off.signExtend 64) n .atomic true) n
        (rdAddr c l a + y.off.signExtend 64) ∧
      faults (.red h t a b y) (fun s l => checkGlobal s c (rdAddr c l a + y.off.signExtend 64) n .atomic true) n
        (rdAddr c l a + y.off.signExtend 64) ∧
      faults (.acas h t d a b sc q o off) (fun s l => checkGlobal s c (rdAddr c l a + off.signExtend 64) n .atomic true) n
        (rdAddr c l a + off.signExtend 64))

/-! ## The memory machine -/

/-- R149, R167, R199, R245, R246, R249: LOAD_PERFORM of a load outside a region writes what it reads to its destination, nothing
else to any register, and the load leaves the load set; no byte of memory or of a scratchpad changes, but for bytes under software
management that a full L1 flushes as it gives up a line (the model's reading, log 44). LD, LDL and LDS read one
part, LDC up to two, and LDX an element and the scale byte of its block. In a task the bytes lie under the task's versions.
R361: a load of a peer's word is sent to the peer on a port to it; R362: a load of host memory ends in error while no host link
is in service. -/
def Obligations.LoadPerformWrites : Prop :=
  ∀ s f k ix fo fl c (e : LEntry), fold? s f = some fo → flock? s f k = some fl → coreOf fo = some c →
    fl.loads[ix]? = some e → e.sent = false → e.rid = none → loadOrder fl e = true →
    let gone := fun (t : State) => loadsAt t f k = fl.loads.filter (fun x => !(x.op == e.op && x.lane == e.lane))
    let mem := fun (t : State) (m : BitVec 8) =>
      Plain s f k e.op → m = 0 → (∀ g a, scrAt t g a = scrAt s g a) ∧ KeptTidy s t ∧
        (s.ms.rsps = [] → Roomy s c ((loadPas e).flatMap (fun x => (splitWords x.1 (List.replicate x.2 0)).map (fun w => w.1 / 32))) →
          KeptHome s t)
    let performs := fun (n : Nat) (d : Opd) (m : BitVec 8) (p : State → Prop) =>
      ∃ t, exec (.loadPerform f k ix) s = .next t ∧ p t ∧ SameV s t (writtenV f k e.lane n d) ∧ SameS s t noS ∧
        SameP s t noP ∧ SameTrap s t ∧ gone t ∧ mem t m
    let raw := fun (sgn : Bool) (z : Size) (d : Opd) (bs : List Byte) =>
      performs (match z with | .b128 => 4 | .b64 => 2 | _ => 1) d 0 (fun t => HasLoad t f k e.lane sgn z d bs)
    let elem := fun (t : Ty) (d : Opd) (r : Res) =>
      performs (width t) d r.2 (fun u => ∀ v, d = .v v → vregAt u f k e.lane v.val = (BitVec.ofNat 64 r.1).setWidth 32 ∧
        (width t = 2 → vregAt u f k e.lane (v.val + 1) = (BitVec.ofNat 64 r.1).extractLsb' 32 32))
    (∀ bs s1, (∀ x ∈ loadPas e, sideAhead s f k e.op x.1 x.2 = false) →
      (noHost s = false ∨ ∀ x ∈ loadPas e, isHostPa x.1 = false) → Reads s f c fo.ctx fl e e.place e.n bs s1 →
      (∀ sgn z d, e.kind = .raw sgn z d → raw sgn z d bs) ∧
      (∀ sgn z d tail m b2 s2, e.kind = .const sgn z d tail m → (∀ node va, e.place ≠ .peer node va) → Reads s1 f c fo.ctx fl e tail m b2 s2 →
        raw sgn z d (bs ++ b2)) ∧
      (∀ t fmt d, e.kind = .elem t fmt none d → elem t d (ldxRes t fmt (ofLe bs) none)) ∧
      (∀ t fmt sp d q b2 s2, e.kind = .elem t fmt (some sp) d →
        ((∃ pa cm z, e.place = .dev pa cm z ∧ q = .dev sp cm z) ∨ (∃ pa, e.place = .host pa ∧ q = .host sp)) →
        Reads s1 f c fo.ctx fl e q 1 b2 s2 → elem t d (ldxRes t fmt (ofLe bs) (some (ofLe b2))))) ∧
    (∀ node va port, e.place = .peer node va → forward fl.fifo e.op e.place e.n = .none → peerAhead fl e.op e.lane node = false →
      portFor s f k node = some port →
      ∃ t, exec (.loadPerform f k ix) s = .next t ∧ KeptRegs s t ∧ SameFlags s t ∧ SameMem s t ∧
        loadsAt t f k = fl.loads.map (fun x => if x.op = e.op ∧ x.lane = e.lane then { x with sent := true } else x) ∧
        t.ms.peerReqs = s.ms.peerReqs ++ [
          { fold := f, flock := k, op := e.op, lane := e.lane, isLoad := true, node := node, va := va, port := port,
            ts := s.plat.ts, tag := BitVec.ofNat 16 s.seq, what := .load va e.n }]) ∧
    ((∀ node va, e.place ≠ .peer node va) → noHost s = true → (∃ x ∈ loadPas e, isHostPa x.1 = true) → fo.halt = none →
      ∃ t, exec (.loadPerform f k ix) s = .next t ∧ SameV s t noV ∧ SameS s t noS ∧ SameP s t noP ∧ SameTrap s t ∧ gone t ∧
        (haltAt t f).map (fun o => (o.reason, o.cause, o.pflock, o.faddr)) = some (.fault, 0x17, some k, e.va))

/-- R245, R246: STORE_DRAIN of the oldest scratchpad store writes its bytes at its offset and no other byte of any scratchpad;
no register, and no byte of memory of a store that acquires nothing, changes.
R243, R245: STORE_DRAIN of a store to device memory whose lines the core's L1 can hold takes it from the FIFO and changes no byte
outside those it stores, but for bytes that a full L1 flushes as it gives up a line (the model's reading, log 44); where the core
owns every word of a hardware-coherent page, the home answers with the stored bytes from then on. -/
def Obligations.StoresDrain : Prop :=
  (∀ s f k fl (e : FEntry) r o, flock? s f k = some fl → fl.scr = e :: r → e.place = .scratch o →
    (releases e.order = true → releaseReady s f k e.op e.scope = true) →
    (∀ x ∈ fl.loads, x.op < e.op → ∀ q, x.place ≠ .scratch q) → Plain s f k e.op →
    ∃ t, exec (.storeDrain f k true) s = .next t ∧ scrStoresAt t f k = r ∧
      SameV s t noV ∧ SameS s t noS ∧ SameP s t noP ∧ SameTrap s t ∧ (∀ a, homeByte t a = homeByte s a) ∧
      (∀ a, scrAt t f a = if o ≤ a ∧ a < o + e.data.length then e.data.getD (a - o) 0 else scrAt s f a) ∧
      ∀ g a, g ≠ f → scrAt t g a = scrAt s g a) ∧
  (∀ s f k fo fl c (e : FEntry) r pa cm z, fold? s f = some fo → flock? s f k = some fl → coreOf fo = some c → fl.fifo = e :: r →
    e.place = .dev pa cm z → isHostPa pa = false → e.act = .store → e.task = false → headReady s f k fl e = true →
    collapseReady s pa cm = true → canDrain s c pa e.data.length (effCmode s pa cm) = true →
    ownFlipping s c pa e.data.length = false → Plain s f k e.op →
    (effCmode s pa cm ≠ 2 → l1Fits s c (entryLines e) = true) →
    ∃ t, exec (.storeDrain f k false) s = .next t ∧ fifoAt t f k = r ∧
      SameV s t noV ∧ SameS s t noS ∧ SameP s t noP ∧ SameTrap s t ∧
      (∀ a, ¬ (pa ≤ a ∧ a < pa + e.data.length) → (effCmode s pa cm = 2 ∨ Roomy s c (entryLines e) ∨ Tidy s (a / 4)) →
        homeByte t a = homeByte s a) ∧
      (effCmode s pa cm = 0 → Roomy s c (entryLines e) → (∀ a, pa ≤ a → a < pa + e.data.length → ownerOf s (a / 4) = some c) →
        ∀ i < e.data.length, homeByte t (pa + i) = e.data.getD i 0))

/-- R101, R251, R256, R257: ATOMIC_PERFORM at words that the core owns, or that nobody owns, and where no earlier request stands
at the home, gives the old value to its destination and leaves the new value at the home; a comparison that fails writes
nothing. Its events are counted. Which of several requests is the earlier one is the model's reading of R251 (log 45); that the
new value of an exchange is its operand bit for bit, and which operand's signalling NaN raises INV there, are its choices (logs
46 and 43). -/
def Obligations.AtomicPerforms : Prop :=
  ∀ s f k fo fl c (e : FEntry) r pa cm z, fold? s f = some fo → flock? s f k = some fl → coreOf fo = some c → fl.fifo = e :: r →
    e.place = .dev pa cm z → isHostPa pa = false → isStore e = false → e.sent = false → e.task = false → e.rid = none →
    atomReady s c f k fl e = true → collapseReady s pa cm = true → flipping s pa = false →
    biasReady s pa true = true → 0 < e.data.length → e.data.length ≤ 8 →
    ((effCmode s pa cm = 0 ∧ ∀ a, pa ≤ a → a < pa + e.data.length → ownerOf s (a / 4) = some c) ∨
      ((∀ a, pa ≤ a → a < pa + e.data.length → NoOwner s (a / 4)) ∧
        earlierAtHome s (homeOf s pa cm) e.ts (coreSrc c) (fun g j => g == f && j == k) = false)) →
    let n := e.data.length
    let old := BitVec.ofNat 64 (homeNat s pa n)
    let x := atomEffect e.act e.data old
    ∃ t, exec (.atomicPerform f k) s = .next t ∧ fifoAt t f k = r ∧ SameS s t noS ∧ SameTrap s t ∧
      (match e.act with
      | .atom ty _ d => SameP s t noP ∧ SameV s t (writtenV f k e.lane (width ty) d) ∧
          ∀ v, d = .v v → vregAt t f k e.lane v.val = old.setWidth 32 ∧
            (width ty = 2 → vregAt t f k e.lane (v.val + 1) = old.extractLsb' 32 32)
      | .cas ty cmp d p => SameV s t (writtenV f k e.lane (width ty) d) ∧
          (∀ v, d = .v v → vregAt t f k e.lane v.val = old.setWidth 32 ∧
            (width ty = 2 → vregAt t f k e.lane (v.val + 1) = old.extractLsb' 32 32)) ∧
          SameP s t (fun f' k' l' q => f' = f ∧ k' = k ∧ l' = e.lane ∧ q = p ∧ p ≠ 0) ∧
          (p ≠ 0 → (thread? s f k e.lane).isSome = true → predAt t f k e.lane p = decide (old.toNat = ofLe cmp))
      | _ => SameV s t noV ∧ SameP s t noP) ∧
      (Plain s f k e.op → Counts s t fo.ctx [x.2] ∧
        ((∀ i < 8, fpevAction (ctx s fo.ctx).fpev i = 0) →
          (∀ i < n, homeByte t (pa + i) = (x.1.getD (homeBytes s pa n)).getD i 0) ∧
          ∀ a, ¬ (pa ≤ a ∧ a < pa + n) → homeByte t a = homeByte s a))

/-- R245, R348, R349: REG_APPLY of a registration makes its core the owner, gives the home the bytes it carries over the last
value, and takes the message from the slice.
R245, R246: MEMORY_SIDE_STORE_APPLY writes the bytes of the store that its base die applies next, at words that nobody owns,
and no others. -/
def Obligations.HomesApplyStores : Prop :=
  (∀ s h i (m : Msg) c w v mask, nextMsg s h = some (i, m) → m.kind = .reg c w v mask → (lineSt s (w / 32)).m = none →
    biasReady s (4 * w) true = true → Plain s m.fold m.flock m.op →
    ∃ t, exec (.regApply h) s = .next t ∧ ownerOf t w = some c ∧ t.ms.msgs = s.ms.msgs.eraseIdx i ∧
      memWord t w = mergeBytes mask v (if ownerOf s w = some c then memWord s w else homeVal s w) ∧
      SameV s t noV ∧ SameS s t noS ∧ SameP s t noP ∧ SameTrap s t) ∧
  (∀ s stack i (m : Msg) pa bs, nextMsg s (.base stack) = some (i, m) → m.kind = .side pa bs → Plain s m.fold m.flock m.op →
    (∀ a, pa ≤ a → a < pa + bs.length → NoOwner s (a / 4)) → biasReady s pa true = true →
    ∃ t, exec (.memorySideStoreApply stack) s = .next t ∧ t.ms.msgs = s.ms.msgs.eraseIdx i ∧
      (∀ j < bs.length, homeByte t (pa + j) = bs.getD j 0) ∧
      (∀ a, ¬ (pa ≤ a ∧ a < pa + bs.length) → homeByte t a = homeByte s a) ∧
      SameV s t noV ∧ SameS s t noS ∧ SameP s t noP ∧ SameTrap s t)

/-- R242, R245, R349, R354: ownership of a line is asked for, granted, and given up. OWNERSHIP_REQUEST sends a request to the
line's home, with the time stamp of the store that needs it; OWNERSHIP_APPLY puts the line in M for its core, tells every die of
S and sends the grant, and asks the host first for a line of host memory; the head of a link FIFO of grants reaches its core,
whose view then owns every word; LINE_WRITEBACK writes every word home, empties the view and leaves the line in I, telling every
die that has read it, its own among them (the model's reading, log 45); INV_APPLY removes the copies of its line from its die.
-/
def Obligations.LineOwnershipMoves : Prop :=
  (∀ s c line f k e, (lineSt s line).m ≠ some c → s.ms.msgs.any (fun m => m.kind == .own c line) = false →
    lineWanted s c line = some (f, k, e) →
    ∃ t, exec (.ownershipRequest c line) s = .next t ∧ t.mem = s.mem ∧ t.folds = s.folds ∧
      t.ms.msgs = s.ms.msgs ++ [
        { home := homeOf s (128 * line) 0, src := coreSrc c, ts := e.ts, fold := f, flock := k, op := e.op,
          kind := .own c line, sent := s.plat.ts }]) ∧
  (∀ s h i (m : Msg) c line, nextMsg s h = some (i, m) → m.kind = .own c line →
    (isHostPa (128 * line) = true → s.ms.hostOwn.contains line = true) →
    biasReady s (128 * line) true = true → (lineSt s line).m = none →
    ∃ t, exec (.ownershipApply h) s = .next t ∧ lineSt t line = { m := some c, s := 0 } ∧ t.folds = s.folds ∧
      t.ms.msgs = s.ms.msgs.eraseIdx i ∧
      t.ms.invs = s.ms.invs ++ ((List.range 4).filter (fun d => (lineSt s line).s.getLsbD d)).map
        (fun d => { src := invSrc s line, dst := d, line := line }) ∧
      t.ms.rsps = s.ms.rsps ++ [{ src := invSrc s line, dst := dieOf c, core := c, line := line }] ∧
      ∀ j < 32, ownerOf t (32 * line + j) = none ∧ memWord t (32 * line + j) = homeVal s (32 * line + j)) ∧
  (∀ s src dst g r, s.sched = .rsp src dst :: r → s.ms.need = [] →
    s.ms.rsps.find? (fun g => g.src == src && g.dst == dst) = some g → Roomy s g.core [g.line] →
    ∃ t, step s = .next t ∧ t.mem = s.mem ∧ t.folds = s.folds ∧ t.ms.rsps = s.ms.rsps.erase g ∧ t.ms.lines = s.ms.lines ∧
      (∀ i ∈ t.ms.invs, ¬ (i.dst = dst ∧ i.line = g.line ∧ i.src < 6)) ∧
      ∀ j < 32, viewWord t g.core (32 * g.line + j) =
        some { st := .owned, val := memWord s (32 * g.line + j), known := 15, dirty := 0 }) ∧
  (∀ s h i (m : Msg) c line, nextMsg s h = some (i, m) → m.kind = .own c line → isHostPa (128 * line) = true →
    s.ms.hostOwn.contains line = false → (∀ x ∈ s.ms.hostAsk, x.1 ≠ line) →
    ∃ t, exec (.ownershipApply h) s = .next t ∧ t.ms.hostAsk = s.ms.hostAsk ++ [(line, s.plat.ts)] ∧ t.ms.msgs = s.ms.msgs ∧
      t.mem = s.mem ∧ t.folds = s.folds) ∧
  (∀ s c line, ownsLine s c line = true →
    ∃ t, exec (.lineWriteback c line) s = .next t ∧ lineSt t line = { m := none, s := 0 } ∧ t.folds = s.folds ∧
      t.ms.invs = s.ms.invs ++ ((List.range 4).filter (fun d => (lineSt s line).s.getLsbD d)).map
        (fun d => { src := invSrc s line, dst := d, line := line }) ∧
      (∀ j < 32, memWord t (32 * line + j) = homeVal s (32 * line + j) ∧ viewWord t c (32 * line + j) = none) ∧
      ∀ a, a / 128 ≠ line → memByte t.mem a = memByte s.mem a) ∧
  (∀ s src dst v i, s.ms.invs.zipIdx.find? (fun e => e.1.src == src && e.1.dst == dst) = some (v, i) →
    ∃ t, exec (.invApply src dst) s = .next t ∧ t.ms.invs = s.ms.invs.eraseIdx i ∧ t.mem = s.mem ∧ t.folds = s.folds ∧
      ∀ c w x, dieOf c = dst → w / 32 = v.line → viewWord t c w = some x → x.st = .copy → x.dirty ≠ 0)

/-! ## Group 0x6: prefetches, flushes, translations, circular buffers -/

/-- R165, R170 to R174: PREF changes no register and moves the group on; BPF and CFLUSH get under way; XLAT gets under way with
its answers, the fields of the leaf and, on core 0 of a die, the translated physical address; the five instructions of circular
buffers do to the buffer what R165 says and answer in d, or wait, in the order of arrival and of flocks. CBINIT of a buffer that
is not held with count 0 answers 1, the model's choice (log 43). -/
def Obligations.Group6CommandsRun : Prop :=
  ∀ s c h ex, Issues s c h ex → NoRegion c ex → ∀ (d a b : Opd) (l2 : Bool) (off : W32) (dn : Fin 4) (bar : Option (BitVec 20))
    (m : FlushMode) (buf : Fin 16) (count : BitVec 9),
    let x := rdS c a
    let y := rdS c b
    let lo := bits x 56 0 / 256 * 256
    let len := (bits x 56 0 + y.toNat + 255) / 256 * 256 - lo
    let n := count.toNat
    let fresh : CBuf :=
      { base := bits x 19 0, slot := bits x 39 20, count := n, free := n, filled := 0, prod := 0, cons := 0, taken := [], done := [] }
    let inits := fun (v : W64) (z : Option CBuf) =>
      ∃ t, exec (.cbinit h d a buf count) s = .next t ∧ HasS t c d v ∧ OnlyRegs s t noV (destS c d) noP ∧ AtNext s t c ∧
        bufAt t c.f buf.val = z
    (Free s c (regsT .u64 a) →
      ∃ t, exec (.pref h a l2 off) s = .next t ∧ KeptRegs s t ∧ SameFlags s t ∧
        (isLast c = false ∨ s.ms.regions = [] → AtNext s t c)) ∧
    (nodeOf x = 0 → flagFull c.fl c.g h = false →
      ∃ t, exec (.cflush h a b m) s = .next t ∧ Begins s t c (slotFlag c.g h) (.cflush x y.toNat m)) ∧
    (nodeOf x = 0 → y.toNat ≤ 2 ^ 30 → storesPerformed s c.f c.k = true → (bar = none → flagFull c.fl c.g h = false) →
      (∀ o, bar = some o → len < 2 ^ 24 ∧ o.toNat + 8 ≤ c.fo.scrSize) →
      ∃ t, exec (.bpf h a b dn bar) s = .next t ∧
        Begins s t c (if bar.isSome then none else slotFlag c.g h) (.bpf (nat64 lo) len dn.val (bar.map BitVec.toNat))) ∧
    (flagFull c.fl c.g h = false → Free s c (regsT .u64 d ++ regsT .u64 a) →
      ∃ t, exec (.xlat h d a off) s = .next t ∧ KeptRegs s t ∧ Counted s t c h ∧
        ∃ o ∈ opsAt t c.f c.k, o.id = s.seq ∧ o.flag = slotFlag c.g h ∧ o.pc = c.pc ∧ o.left = 1 ∧
        ∃ res, o.kind = .xlat d res ∧ res.map (·.lane) = ex.filter (fun l => !doomed c l) ∧
          let ea := fun (l : Nat) => rdAddr c l a + off.signExtend 64
          let pa := fun (e : TlbE) (l : Nat) => leafAddr e.leaf / 2 ^ e.size * 2 ^ e.size + (ea l).toNat % 2 ^ e.size
          let val := fun (e : TlbE) (l : Nat) =>
            BitVec.ofNat 64 (2 ^ 63 + bits e.leaf 8 8 * 2 ^ 62 + bits e.leaf 10 9 * 2 ^ 60 + bits e.leaf 59 58 * 2 ^ 58
              + bits e.leaf 57 52 * 2 ^ 52 + bits e.leaf 3 3 * 2 ^ 51 + bits e.leaf 2 2 * 2 ^ 50 + bits e.leaf 1 1 * 2 ^ 49
              + (if c.c % 64 = 0 then pa e l % 2 ^ 48 / 2 ^ 12 * 2 ^ 12 else 0) + e.size)
          (∀ w ∈ res, nodeOf (ea w.lane) ≠ 0 → w.val = 0) ∧
          ((∀ l ∈ ex, nodeOf (ea l) = 0 → (tlbFind s (.core c.c) c.fo.ctx (ea l).toNat).isSome = true) →
            ∀ w ∈ res, ∀ e, nodeOf (ea w.lane) = 0 → tlbFind s (.core c.c) c.fo.ctx (ea w.lane).toNat = some e →
              w.val = if mappedPa s (pa e w.lane) then val e w.lane else 0) ∧
          ∀ l, ex = [l] → nodeOf (ea l) = 0 → ∀ w ∈ res,
            (∀ s1 z, lookup s (.core c.c) c.fo.ctx (ea l).toNat = (s1, .error z) → w.val = 0) ∧
            ∀ s1 e, lookup s (.core c.c) c.fo.ctx (ea l).toNat = (s1, .ok e) →
              w.val = if mappedPa s1 (pa e l) then val e l else 0) ∧
    (c.fo.scrSize < bits x 19 0 + n * bits x 39 20 → Faults (.cbinit h d a buf count) s c 0x12) ∧
    (cbDescOk x = false → bits x 19 0 + n * bits x 39 20 ≤ c.fo.scrSize → Faults (.cbinit h d a buf count) s c 0x10) ∧
    (cbDescOk x = true → bits x 19 0 + n * bits x 39 20 ≤ c.fo.scrSize →
      (bufAt s c.f buf.val = none → n = 0 → inits 1 none) ∧
      (bufAt s c.f buf.val = none → n ≠ 0 → buffersHeld s c.c < 16 → inits 1 (some fresh)) ∧
      (bufAt s c.f buf.val = none → n ≠ 0 → 16 ≤ buffersHeld s c.c → inits 0 none) ∧
      ∀ z, bufAt s c.f buf.val = some z → z.taken = [] →
        (n = 0 → inits 1 none) ∧ (n ≠ 0 → inits 1 (some fresh))) ∧
    ∀ w, cbuf? s c.f buf.val = some w → 0 < w.count →
      let z := { w with waits := [], lastOp := none }
      let turn := ∀ x ∈ bufBefore w (cycleNow s) c.k, bufAble w x.op = false
      (z.filled ≠ 0 → turn → YieldsS (.cbwait h d buf) s c d (nat64 (z.base + z.cons * z.slot))) ∧
      (z.filled = 0 ∨ ¬ turn → Waits (.cbwait h d buf) s c ∧ ∀ t, exec (.cbwait h d buf) s = .next t →
        (cbuf? t c.f buf.val).map (·.waits) = some (bufJoin w (cycleNow s) c.k .wait).waits) ∧
      (z.filled ≠ 0 → ∃ t, exec (.cbrel h buf) s = .next t ∧ OnlyPlace s t ∧ AtNext s t c ∧ bufAt t c.f buf.val =
        some { z with filled := z.filled - 1, cons := (z.cons + 1) % z.count, free := z.free + 1 }) ∧
      (z.free ≠ 0 → turn → ∃ t, exec (.cbacq h d buf) s = .next t ∧ HasS t c d (nat64 (z.base + z.prod * z.slot)) ∧
        OnlyRegs s t noV (destS c d) noP ∧ AtNext s t c ∧ bufAt t c.f buf.val =
          some { z with free := z.free - 1, prod := (z.prod + 1) % z.count, taken := z.taken ++ [(z.prod, none)] }) ∧
      (z.free = 0 ∨ ¬ turn → Waits (.cbacq h d buf) s c ∧ ∀ t, exec (.cbacq h d buf) s = .next t →
        (cbuf? t c.f buf.val).map (·.waits) = some (bufJoin w (cycleNow s) c.k .take).waits) ∧
      ∀ i r, z.taken = (i, none) :: r → z.done = [] → i = (z.cons + z.filled) % z.count →
        ∃ t, exec (.cbpub h buf) s = .next t ∧ OnlyPlace s t ∧ AtNext s t c ∧
          bufAt t c.f buf.val = some { z with taken := r, filled := z.filled + 1 }

/-! ## Group 0x7 -/

/-- R194, R195, R210: LAUNCH of one thread gets under way with its status: a child that has been created and stands in the queue,
or the code of the refusal; its record is the thread's 128 bytes of scratchpad.
R211 to R218: the other instructions of group 0x7 complete, or wait, as their rows say.
That the context of a queue alone makes it the launcher's, and that the end of LWAIT acquires, are the model's readings (log 26),
and so is the number of the first grid of a context (log 9). -/
def Obligations.LaunchFamilyRuns : Prop :=
  (∀ s c h l, Issues s c h [l] → c.fo.isTask = false → flagFull c.fl c.g h = false → storesPerformed s c.f c.k = true →
    doomed c l = false → liveRegion c l = false → ∀ (d a b : Opd) (pp : Fin 8),
    let o := (rd32 c l a).toNat
    let rb := scrBytes c.fo o 128
    let q := targetQueue s c (rdS c b)
    let penned := hdrGet s c.fo.grid hPENCOUNT 2
    q < 4096 → o % 16 = 0 → o + 128 ≤ c.fo.scrSize → Free s c (regsT .u64 d ++ regsT .u32 a) →
    lockedBy (coreAt s c.c) (.scratch c.f) o (o + 128) false = none →
    let gives := fun (v : W64) (ok : Bool) (more : State → Prop) =>
      ∃ t, exec (.launch h d a b pp) s = .next t ∧ KeptRegs s t ∧ Counted s t c h ∧ more t ∧
        ∃ p ∈ opsAt t c.f c.k, p.id = s.seq ∧ p.flag = slotFlag c.g h ∧ p.pc = c.pc ∧ p.left = 1 ∧
          p.kind = .launch d pp [{ lane := l, val := v, pred := some ok }]
    (recordOk rb = false → gives (nat64 (2 ^ 63 + 2)) false (fun t => t.grids = s.grids)) ∧
    (recordOk rb = true → queueCtx (queue s q) ≠ c.fo.ctx → gives (nat64 (2 ^ 63 + 3)) false (fun t => t.grids = s.grids)) ∧
    (recordOk rb = true → queueCtx (queue s q) = c.fo.ctx → penned = 0 → deviceSlots s q < 64 → grid? s (s.seq + 1) = none →
      gives (nat64 (ctx s c.fo.ctx).gridNext) true (fun t =>
        s.seq + 1 ∈ (queue t q).device ∧ ∃ g, grid? t (s.seq + 1) = some g ∧ g.id = nat64 (ctx s c.fo.ctx).gridNext ∧
          g.parent = some c.fo.grid ∧ g.queue = q ∧ g.phase = .queued ∧ g.record = parseRecord rb)) ∧
    (recordOk rb = true → queueCtx (queue s q) = c.fo.ctx → ¬ (penned = 0 ∧ deviceSlots s q < 64) → penned < c.gr.record.pencap →
      grid? s (s.seq + 1) = none →
      gives (nat64 (ctx s c.fo.ctx).gridNext) true (fun t =>
        ∃ g, grid? t (s.seq + 1) = some g ∧ g.id = nat64 (ctx s c.fo.ctx).gridNext ∧ g.parent = some c.fo.grid ∧ g.queue = q ∧
          g.phase = .penned)) ∧
    (recordOk rb = true → queueCtx (queue s q) = c.fo.ctx → penned ≠ 0 → c.gr.record.pencap ≤ penned →
      gives (nat64 (2 ^ 63 + 1)) false (fun t => t.grids = s.grids))) ∧
  (∀ s c h ex, Issues s c h ex → NoRegion c ex → ∀ (d a : Opd) (b : Src) (level : Fin 8) (n : BitVec 5) (off : W32),
    let k := (rdSrcS c .u64 b).toNat
    let live := hdrGet s c.fo.grid hLIVE 4
    let grain := c.gr.record.grain
    let o := (rdS c a + off.signExtend 64).toNat % 2 ^ 32
    let grows := fun (v : Bool) (va : Nat) =>
      ∃ t, exec (.rgrow h d n) s = .next t ∧ (∀ l ∈ ex, HasP t c l d v) ∧ OnlyRegs s t noV noS (destP c ex d) ∧ AtNext s t c ∧
        (flock? t c.f c.k).map (·.valloc) = some va
    let room := fun (z : Need) => (growFold s c z).isSome
    (c.fo.isTask = false → live ≤ k →
      ∃ t, exec (.lwait h d b) s = .next t ∧ HasS t c d (nat64 (hdrGet s c.fo.grid hNFAIL 4)) ∧ SameV s t noV ∧
        SameS s t (destS c d) ∧ SameP s t noP ∧ SameFlags s t ∧ SameTrap s t ∧ SameSpecial s t ∧ t.mem = s.mem ∧
        AtNext s t c ∧ KeptHome s t ∧ ∀ f a, scrAt t f a = scrAt s f a) ∧
    (c.fo.isTask = false → k < live → Waits (.lwait h d b) s c) ∧
    YieldsP (.dchk h d level) s c ex d (fun _ => decide (dispReg c level.val ≠ 0)) ∧
    (∃ t, exec (.tdom h d) s = .next t ∧ AtNext s t c ∧
      OnlyRegs s t noV (fun f k' r => f = c.f ∧ k' = c.k ∧ match d with | .s i => i.val ≤ r ∧ r ≤ i.val + 3 | _ => False) noP ∧
      ∀ i, d = .s i → sregAt t c.f c.k i.val = (if c.fo.isTask then c.fo.lo else 0) ∧
        sregAt t c.f c.k (i.val + 1) = (if c.fo.isTask then c.fo.hi else 0) ∧
        sregAt t c.f c.k (i.val + 2) = (if c.fo.isTask ∧ c.gr.record.tallow ≠ 0 then
          BitVec.ofNat 64 (c.gr.record.tallow - c.fo.taskTime) else BitVec.allOnes 64) ∧
        sregAt t c.f c.k (i.val + 3) = (if c.fo.isTask ∧ c.gr.record.wbuf ≠ 0 then
          BitVec.ofNat 64 (c.gr.record.wbuf * 1024 - bufferUse s c.f) else BitVec.allOnes 64)) ∧
    (64 * n.toNat ≤ c.fl.valloc → grows true c.fl.valloc) ∧
    (c.fl.valloc < 64 * n.toNat →
      (room { Need.zero with blocks := (64 * n.toNat - c.fl.valloc) / 64 } = true → grows true (64 * n.toNat)) ∧
      (room { Need.zero with blocks := (64 * n.toNat - c.fl.valloc) / 64 } = false → c.fo.isTask = false →
        grows false c.fl.valloc)) ∧
    (k % 512 = 0 → 512 ≤ k → k ≤ 786432 →
      (room { Need.zero with scr := k } = true →
        ∃ t, exec (.salloc h d b) s = .next t ∧ HasS t c d (nat64 c.fo.scrSize) ∧ SameV s t noV ∧ SameS s t (destS c d) ∧
          SameP s t noP ∧ SameFlags s t ∧ SameSpecial s t ∧ SameTrap s t ∧ AtNext s t c ∧ (∀ x, homeByte t x = homeByte s x) ∧
          (∀ f x, f ≠ c.f → scrAt t f x = scrAt s f x) ∧
          (∀ x, scrAt t c.f x = if x < c.fo.scrSize then scrAt s c.f x else 0) ∧ (fold? t c.f).map (fun fo => (fo.scrSize, fo.scrAdded)) = some (c.fo.scrSize + k, c.fo.scrAdded + k)) ∧
      (room { Need.zero with scr := k } = false → c.fo.isTask = false →
        YieldsS (.salloc h d b) s c d (BitVec.allOnes 64)) ∧
      (k ≤ c.fo.scrAdded → scrHeld s c (c.fo.scrSize - k) c.fo.scrSize = false →
        ∃ t, exec (.sfree h b) s = .next t ∧ KeptRegs s t ∧ SameFlags s t ∧ SameSpecial s t ∧ AtNext s t c ∧
          (∀ x, homeByte t x = homeByte s x) ∧ (∀ f x, f ≠ c.f → scrAt t f x = scrAt s f x) ∧
          (∀ x, scrAt t c.f x = if x < c.fo.scrSize - k then scrAt s c.f x else 0) ∧
          (fold? t c.f).map (fun fo => (fo.scrSize, fo.scrAdded)) = some (c.fo.scrSize - k, c.fo.scrAdded - k))) ∧
    (c.fo.isTask = true →
      let len := (c.fo.hi - c.fo.lo).toNat
      let mid := c.fo.lo + nat64 (grain * max 1 (len / 2 / grain))
      (len ≤ grain → YieldsS (.tsplit h d) s c d c.fo.hi) ∧
      (grain < len → fold? s s.seq = none → (∀ e ∈ s.ms.regions, e.2.fold ≠ c.f) →
        ∃ t, exec (.tsplit h d) s = .next t ∧ HasS t c d mid ∧ OnlyRegs s t noV (destS c d) noP ∧ AtNext s t c ∧
          (fold? t c.f).map (fun fo => (fo.lo, fo.hi)) = some (c.fo.lo, mid) ∧
          (fold? t s.seq).map (fun fo => (fo.grid, fo.place, fo.lo, fo.hi)) = some (c.fo.grid, .waiting, mid, c.fo.hi))) ∧
    (c.fo.isTask = false → o % 4 = 0 → o + 4 ≤ c.fo.scrSize → flagFull c.fl c.g h = false →
      ∃ t, exec (.take h a off) s = .next t ∧ Begins s t c (slotFlag c.g h) (.take o) ∧
        (grid? t c.fo.grid).map (·.queries) = some (c.gr.queries ++
          [{ fold := c.f, flock := c.k, op := s.seq, src := coreSrc c.c, ts := s.plat.ts, count := false, slot := some o }])) ∧
    (∃ t, exec (.srel h) s = .next t ∧ OnlyPlace s t ∧ AtNext s t c ∧ (fold? t c.f).map (·.relPend) =
      some (if c.fo.released = false ∧ c.fo.relPend = none ∧ c.fo.stage + 1 < c.gr.record.stages then some (c.k, s.seq)
        else c.fo.relPend)))

/-! ## Group 0x8 -/

/-- R161, R163, R175, R208, R222, R223, R230, R237, R238: the commands of the queues and of the matrix engine enter their queues
with their words, the batches close and are waited for, and QPOP takes the flock's oldest report or answer. That an entry of EVQ
takes the time stamp of its push is the model's reading (log 41), and so is that a command of no bytes completes at once (log
22). -/
def Obligations.QueueAndMatrixCommandsRun : Prop :=
  ∀ s c h ex, Issues s c h ex → NoRegion c ex → ∀ (d a : Opd) (rep : Bool) (b : Src16) (slot : Fin 4) (m : CpyMode) (e : Fin 8),
    let x := rdS c a
    let roleOk := c.fl.role ≠ 1 ∧ c.fl.role ≠ 3
    let placed := fun (i : Instr) (w : MxWork) =>
      ∃ t, exec i s = .next t ∧ Begins s t c (slotFlag c.g h) .matrix ∧
        (∃ en : MxEntry, (coreAt t c.c).mxq = (coreAt s c.c).mxq ++ [en] ∧ en.fold = c.f ∧ en.flock = c.k ∧ en.op = s.seq ∧
          en.work = w ∧ en.batch = c.fl.batch.ctr ∧ en.seq = c.fl.batch.seq) ∧
        (flock? t c.f c.k).map (fun fl => (fl.batch.ctr, fl.batch.openCount, fl.batch.openLeft)) =
          some (c.fl.batch.ctr, c.fl.batch.openCount + 1, c.fl.batch.openLeft + 1)
    let block := scrBytes c.fo (bits x 19 0) 64
    let p := { mxParse block with rows := mxRows c.fo (mxParse block) }
    (roleOk → mxWordCheck c.fo x = none → (∀ z r, c.fl.hold ≠ .mx z r) → mxRoom h s c = true →
      mxCheck c.fo c.fl.valloc (mxParse block) = none →
      (∀ r ∈ pendingRegs c.fl, ¬ (r.1 < p.wbase + p.win ∧ p.wbase < r.1 + r.2)) →
      lockRoom (coreAt s c.c) (mxLocks c.f c.k 0 p).length = true →
      let w := MxWork.step block p.rows (if bitOf x 44 then some (bits x 43 24) else none) (sregAt s c.f c.k 127)
      placed (.mxcmd h a) w ∧ placed (.qpush h (.q 0) a) w) ∧
    (roleOk → x.toNat % 8 = 0 → x.toNat + 384 ≤ c.fo.scrSize → mxRoom h s c = true → lockRoom (coreAt s c.c) 1 = true →
      placed (.mxtab h a slot) (.table x.toNat slot.val)) ∧
    (roleOk → (coreAt s c.c).mxq.length < 16 →
      ∃ t, exec (.mxcommit h d rep) s = .next t ∧ HasS t c d (c.fl.batch.ctr.setWidth 64) ∧
        OnlyRegs s t noV (destS c d) noP ∧ AtNext s t c ∧
        (flock? t c.f c.k).map (fun fl => (fl.batch.ctr, fl.batch.seq, fl.batch.openCount, fl.batch.openLeft)) =
          some (c.fl.batch.ctr + 1, c.fl.batch.seq + 1, 0, 0)) ∧
    (let ago := (c.fl.batch.ctr - BitVec.ofNat 16 (rdSrc16 c b)).toNat
     let done := ago = 0 ∨ 32768 < ago ∨ ∀ z ∈ c.fl.batch.closed, c.fl.batch.seq < z.seq + ago
     (done → Passes (.mxwait h b) s c) ∧ (¬ done → Waits (.mxwait h b) s c)) ∧
    (bits x 63 1 = 0 → bitOf c.gr.record.mode 3 = false → flagFull c.fl c.g h = false → wdqUse s c.c < 8 →
      ∃ t, exec (.qpush h (.q 10) a) s = .next t ∧ Begins s t c (slotFlag c.g h) .query ∧
        (grid? t c.fo.grid).map (·.queries) = some (c.gr.queries ++
          [{ fold := c.f, flock := c.k, op := s.seq, src := coreSrc c.c, ts := s.plat.ts, count := bitOf x 0, slot := none }])) ∧
    (∀ n, a = .s n → (coreAt s c.c).evq.length < 64 →
      ∃ t, exec (.qpush h (.q 11) a) s = .next t ∧ OnlyPlace s t ∧ AtNext s t c ∧ (coreAt t c.c).evq = (coreAt s c.c).evq ++
        [{ ctx := c.fo.ctx, grid := c.gr.id, w0 := sregAt s c.f c.k n.val, w1 := sregAt s c.f c.k (n.val + 1), ts := s.plat.ts }]) ∧
    (∀ p v r, (∀ o ∈ p, ¬ (o.fold = c.f ∧ o.flock = c.k)) →
      ((coreAt s c.c).mxs = p ++ { fold := c.f, flock := c.k, val := v } :: r →
        ∃ t, exec (.qpop h d (.q 1)) s = .next t ∧ HasS t c d v ∧ OnlyRegs s t noV (destS c d) noP ∧ AtNext s t c ∧
          (coreAt t c.c).mxs = p ++ r) ∧
      ((coreAt s c.c).wdq = p ++ { fold := c.f, flock := c.k, val := v } :: r →
        ∃ t, exec (.qpop h d (.q 10)) s = .next t ∧ HasS t c d v ∧ OnlyRegs s t noV (destS c d) noP ∧ AtNext s t c ∧
          (coreAt t c.c).wdq = p ++ r)) ∧
    ((∀ o ∈ (coreAt s c.c).mxs, ¬ (o.fold = c.f ∧ o.flock = c.k)) → Waits (.qpop h d (.q 1)) s c) ∧
    ∀ n w0 w1 w2 w3 z, a = .s n → w0 = sregAt s c.f c.k n.val → w1 = sregAt s c.f c.k (n.val + 1) →
      w2 = sregAt s c.f c.k (n.val + 2) → ∀ i,
      (∃ qn : Fin 32, qn.val = e.val + 2 ∧ i = Instr.qpush h (.q qn) a ∧ w3 = sregAt s c.f c.k (n.val + 3)) ∨
      (i = Instr.cpy h m a e ∧ w3 = (sregAt s c.f c.k (n.val + 3) &&& ~~~(0x300#64)) |||
        (match m with | .d1 => 0x000 | .d2 => 0x100 | .fill => 0x200 | .gather => 0x300)) →
      copyDesc w0 w1 w2 w3 = some z → c.fl.role ≠ 2 → c.fl.role ≠ 3 → copyCheck s c z = none →
      flagFull c.fl c.g h = false → copyReady s c e.val z = true →
      (slotTurn s c z = false → Waits i s c) ∧
      (z.bytes = 0 → z.dst ≠ .buf → Passes i s c) ∧
      (z.bytes = 0 → z.dst = .buf → slotTurn s c z = true → ∀ b, bufAt s c.f z.dbase = some b →
        ∃ t, exec i s = .next t ∧ OnlyPlace s t ∧ AtNext s t c ∧
          bufAt t c.f z.dbase = some (cbPublish (cbTake b (some s.seq)).2 (fun y => y.2 == some s.seq))) ∧
      (z.bytes ≠ 0 → slotTurn s c z = true →
        ∃ t q, exec i s = .next t ∧ Begins s t c (slotFlag c.g h) .copy ∧
          engineQ t (dieOf c.c) e.val = joinQueue q (engineQ s (dieOf c.c) e.val) ∧ q.fold = c.f ∧ q.flock = c.k ∧
          q.op = s.seq ∧ q.core = c.c ∧ q.ts = s.plat.ts ∧ q.slot = copySlot c.fo z ∧
          q.c0 = w0 ∧ q.c1 = w1 ∧ q.c2 = w2 ∧ q.c3 = w3 ∧ q.data = none)

/-! ## Group 0x9: fences, barriers, monitors -/

/-- R244, R254: a fence waits for its release action, takes its acquire action, and moves on; an acquire at DIE scope or above
leaves the core no copy of a word of its die but for what it wrote itself. No register or byte changes.
R150, R262, R263: MONITOR watches the word its address names, at SYSTEM scope when it is a peer's, MWAIT waits while the word
holds the expected value and else gives it, MONITOR_WAKE wakes a waiter, and TSTAMP gives the time. That MWAIT sends a load to
the peer for each reading of its word, and waits for the answer, is the model's reading (log 24). -/
def Obligations.FencesAndMonitorsWork : Prop :=
  (∀ s c h ex, Issues s c h ex → NoRegion c ex → ∀ (o : Order) (sc : Scope),
    (releases o = true → releaseNow s c sc = true) →
      (∃ t, exec (.fence h o sc) s = .next t ∧ KeptRegs s t ∧ SameFlags s t ∧ SameSpecial s t ∧ t.mem = s.mem ∧ AtNext s t c ∧
        KeptHome s t ∧ (∀ f a, scrAt t f a = scrAt s f a) ∧
        (acquires o = true → sc ≠ .flock → sc ≠ .fold → ∀ w v, homeDie (4 * w) = dieOf c.c → viewWord t c.c w = some v →
          v.st = .copy → v.dirty ≠ 0)) ∧
    (∀ sc', releases o = true → releaseNow s c sc' = false → Waits (.fence h o sc') s c)) ∧
  ((∀ s c h ex, Issues s c h ex → NoRegion c ex → ∀ (d a b : Opd) (m : Am),
    let ea := rdS c a + m.off.signExtend 64
    YieldsS (.tstamp h d) s c d s.plat.ts ∧
    (∀ s1 x, checkGlobal s c ea (sizeBytes m.size) .load false = (s1, .ok x) →
      ∃ t, exec (.monitor h a m) s = .next t ∧ KeptRegs s t ∧ SameFlags s t ∧ SameMem s1 t ∧ SameSpecial s1 t ∧
        AtNext s1 t c ∧ (flock? t c.f c.k).map (·.mon) =
          some { valid := true, addr := ea, place := x.place, n := sizeBytes m.size, got := none,
                 scope := match x.place with | .peer _ _ => .system | _ => m.scope }) ∧
    (∀ node va, c.fl.mon.valid = true → c.fl.mon.place = .peer node va → c.fl.mon.got = none →
      (∀ x ∈ c.fl.loads, x.kind ≠ .watch) → (∀ z, c.fl.hold ≠ .mwait z false) →
      ∃ t e, exec (.mwait h d b) s = .next t ∧ KeptRegs s t ∧ SameFlags s t ∧ SameMem s t ∧ SameSpecial s t ∧
        groupAt t c.f c.k = some c.g ∧ loadsAt t c.f c.k = c.fl.loads ++ [e] ∧ e.kind = .watch ∧ e.place = .peer node va ∧
        e.n = c.fl.mon.n ∧ e.sent = false ∧ ∀ l, pcAt t c.f c.k l = pcAt s c.f c.k l) ∧
    (c.fl.mon.valid = true → ∀ s1 v, monRead s c c.fl.mon = (s1, some v) →
      let expected := if c.fl.mon.n = 8 then rdS c b else ((rdS c b).setWidth 32).setWidth 64
      let gives := ∃ t, exec (.mwait h d b) s = .next t ∧ HasS t c d v ∧ SameV s t noV ∧ SameS s t (destS c d) ∧ SameP s t noP ∧
        SameTrap s t ∧ SameFlags s t ∧ AtNext s1 t c
      (∀ p, c.fl.mon.place = .host p → s.plat.linksUp ≠ 0) →
      ((∃ z, c.fl.hold = .mwait z true) → gives) ∧
      ((∀ z w, c.fl.hold ≠ .mwait z w) →
        (v ≠ expected → gives) ∧
        (v = expected → ∃ t, exec (.mwait h d b) s = .next t ∧ KeptRegs s t ∧ SameFlags s t ∧
          holdAt t c.f c.k = .mwait expected false ∧ ∀ l, pcAt t c.f c.k l = pcAt s1 c.f c.k l))) ∧
    (c.fl.mon.valid = true → ∀ p, c.fl.mon.place = .host p → isHostPa p = true → s.plat.linksUp = 0 →
      (∀ z, c.fl.hold ≠ .mwait z false) → c.fo.halt = none →
      ∃ t, exec (.mwait h d b) s = .next t ∧ KeptRegs s t ∧ SameFlags s t ∧
        (haltAt t c.f).map (fun o => (o.reason, o.cause, o.pflock, o.faddr)) = some (.fault, 0x17, some c.k, c.fl.mon.addr))) ∧
  ∀ s f k fl e w, flock? s f k = some fl → fl.hold = .mwait e w →
    ∃ t, exec (.monitorWake f k) s = .next t ∧ OnlyPlace s t ∧ holdAt t f k = .mwait e true)

/-- R258 to R261, R365: HINIT writes the object, HARRIVE and HDROP send their update, HWAIT waits for the generation, the updates
of an object are applied as one, and BAR holds its group until the arrivals reach N. That HINIT takes its own flock's earlier
updates of the object with it, that updates which have reached an object before it is next updated are one cycle's, and that
HARRIVE gives the generation of the object as it issues, are the model's readings (log 38). -/
def Obligations.BarriersWork : Prop :=
  (∀ s c h ex, Issues s c h ex → NoRegion c ex → ∀ (d a : Opd) (b : Src16) (x : TxCnt) (off : BitVec 20) (bc : BarCnt) (i : Fin 4),
    let o := ((rdS c a).toNat + off.toNat) % 2 ^ 32
    let obj := BitVec.ofNat 64 (ofLe (scrBytes c.fo o 8))
    let n := rdSrc16 c b
    let tx := match x with | .none => 0 | .tx (.imm w) => w.toNat | .tx (.reg r) => bits (rdS c r) 23 0
    (o % 8 = 0 → o + 8 ≤ c.fo.scrSize →
      (n ≠ 0 → ∃ t, exec (.hinit h a b off) s = .next t ∧ KeptRegs s t ∧ SameFlags s t ∧ SameSpecial s t ∧ AtNext s t c ∧
        (∀ p, homeByte t p = homeByte s p) ∧ (∀ f p, f ≠ c.f → scrAt t f p = scrAt s f p) ∧
        updsAt t c.f = c.fo.upds.filter (fun u => !(u.off == o && (u.src.map (·.1) == some c.k))) ∧
        ∀ p, scrAt t c.f p = if o ≤ p ∧ p < o + 8 then (leBytes 8 (n * 2 ^ 40 + n * 2 ^ 24)).getD (p - o) 0 else scrAt s c.f p) ∧
      (n = 0 → Faults (.hinit h a b off) s c 0x10) ∧
      (releaseNow s c .fold = true →
        (∃ t, exec (.harrive h d a x off) s = .next t ∧ HasS t c d (nat64 (bits obj 63 56)) ∧
          OnlyRegs s t noV (destS c d) noP ∧ AtNext s t c ∧ updsAt t c.f = c.fo.upds ++
            [{ src := some (c.k, s.seq), off := o, arr := ex.length, leaves := 0, delta := tx }]) ∧
        (∃ t, exec (.hdrop h a off) s = .next t ∧ OnlyPlace s t ∧ AtNext s t c ∧ updsAt t c.f = c.fo.upds ++
            [{ src := some (c.k, s.seq), off := o, arr := 0, leaves := ex.length, delta := 0 }])) ∧
      (bits obj 63 56 ≠ n % 256 → Passes (.hwait h a b off) s c) ∧
      (bits obj 63 56 = n % 256 → Waits (.hwait h a b off) s c)) ∧
    ((∃ j, c.fl.bar = some (j, true)) → Passes (.bar h bc i) s c) ∧
    ((∃ j, c.fl.bar = some (j, false)) → Waits (.bar h bc i) s c) ∧
    (c.fl.bar = none → ∀ z, z = barAt s c.f i.val →
      let n := match bc with | .none => 0 | .reg r => bits (rdS c r) 15 0 | .imm w => w.toNat
      let full := if n = 0 then liveThreads c.fo else n
      let bad := 1024 < n ∨ (0 < z.arrived ∧ z.operand ≠ n) ∨ (n ≠ 0 ∧ n < z.arrived + ex.length)
      (bad → Faults (.bar h bc i) s c 0x10) ∧
      (¬ bad → releaseNow s c .fold = false → Waits (.bar h bc i) s c) ∧
      (¬ bad → releaseNow s c .fold = true →
      ∃ t, exec (.bar h bc i) s = .next t ∧ OnlyPlace s t ∧ (∀ l, pcAt t c.f c.k l = pcAt s c.f c.k l) ∧
        (z.arrived + ex.length < full → barOf t c.f c.k = some (i.val, false) ∧
          (barAt t c.f i.val).arrived = z.arrived + ex.length ∧ (barAt t c.f i.val).held = z.held ++ [c.k]) ∧
        (full ≤ z.arrived + ex.length → barAt t c.f i.val = FBar.init ∧
          ∀ k ∈ z.held ++ [c.k], (flock? s c.f k).isSome = true → barOf t c.f k = some (i.val, true))))) ∧
  ∀ s f fo o u, fold? s f = some fo → fo.upds.filter (fun x => x.off == o) = [u] →
    let obj := BitVec.ofNat 64 (ofLe (scrBytes fo o 8))
    let quota := bits obj 55 40 - u.leaves
    let owed : Int := (bits obj 39 24 : Int) - u.arr - u.leaves
    let debt := (((bits obj 23 0 : Int) + u.delta) % (2 ^ 24 : Nat)).toNat
    let new := if owed ≤ 0 ∧ debt = 0 then (bits obj 63 56 + 1) % 256 * 2 ^ 56 + quota * 2 ^ 40 + quota * 2 ^ 24
      else bits obj 63 56 * 2 ^ 56 + quota * 2 ^ 40 + (max owed 0).toNat * 2 ^ 24 + debt
    ∃ t, exec (.barrierUpdateApply f o) s = .next t ∧ KeptRegs s t ∧ SameFlags s t ∧ (∀ p, homeByte t p = homeByte s p) ∧
      (∀ g p, g ≠ f → scrAt t g p = scrAt s g p) ∧ updsAt t f = fo.upds.filter (fun x => x.off != o) ∧
      ∀ p, scrAt t f p = if o ≤ p ∧ p < o + 8 then (leBytes 8 new).getD (p - o) 0 else scrAt s f p

/-! ## Group 0xA and the region events -/

/-- The region of a lane is known: the table holds it for the thread that stands there. -/
def Sys2Proof.LaneRegion (s : State) (f k l : Nat) (th : Thread) (r : Region) : Prop :=
  thread? s f k l = some th ∧ region? s th.reg.rid = some r ∧ regionThread s r = some (k, l, th) ∧ r.fold = f

/-- R266, R269, R283: TBEGIN begins a region in each executing thread that is not doomed: live, of its class, with its bounds
and its abort target, and with nothing read. R284: TEND of a thread seals a V or E region, or sends an O region to wait for its
position, and holds the group until the commit; in a task of an ORDER launch the region is pending and the group moves on; so it
does with no region. That TEND waits, for a region of any class, until the region's accesses have reached their homes is the
model's reading (log 34). -/
def Obligations.RegionsBeginAndEnd : Prop :=
  (∀ s c h ex, Issues s c h ex → releaseNow s c .die = true → (∀ l ∈ ex, liveRegion c l = false ∧ inTrap c l = false) →
    ∀ (k : TClass) (off : W32), (c.fo.isTask = true → ∃ b, k = .o b ∧ bitOf c.gr.record.mode 4 = true) →
    (∀ b, k = .o b → Free s c (regsT .u64 b) ∧ ∀ l ∈ ex, keyValid s c (rdV c l .u64 b).toNat = true) →
    let base := (ctx s c.fo.ctx).od.base
    ∃ t, exec (.tbegin h k off) s = .next t ∧ KeptRegs s t ∧ SameFlags s t ∧ SameMem s t ∧ SameSpecial s t ∧ AtNext s t c ∧
      ∀ l ∈ ex, doomed c l = false → ∃ r R, regAt t c.f c.k l = some r ∧ region? t r.rid = some R ∧
        r.live = true ∧ r.target = c.hdr + 12 * off.signExtend 57 ∧
        R.phase = .live ∧ R.fold = c.f ∧ R.tid = tidOf c l ∧ R.reads = [] ∧ R.touchR = [] ∧ R.touchW = [] ∧ R.cls = r.cls ∧
        match k with
        | .v => r.cls = 0 ∧ r.blo = 0 ∧ r.bhi = nat64 (2 ^ 48 - 1)
        | .e => r.cls = 1 ∧ r.blo = nat64 (tgetD (coreAt s c.c).frontier c.fo.ctx 0) ∧ r.bhi = nat64 (2 ^ 48 - 1)
        | .o b => r.cls = 2 ∧ R.key = (rdV c l .u64 b).toNat ∧ r.blo = nat64 ((base + (rdV c l .u64 b).toNat) % 2 ^ 48) ∧ r.bhi = r.blo) ∧
  (∀ s c h l, Issues s c h [l] → doomed c l = false →
    (∀ rids, c.fl.hold = .tend rids → (∀ r ∈ rids, region? s r = none) → Passes (.tend h) s c) ∧
    ((∀ rids, c.fl.hold ≠ .tend rids) →
      (liveRegion c l = false → Passes (.tend h) s c) ∧
      (∀ th, thread? s c.f c.k l = some th → th.reg.live = true → regionQuiet s th.reg.rid = false → Waits (.tend h) s c) ∧
      ∀ th r, LaneRegion s c.f c.k l th r → th.reg.live = true → regionQuiet s th.reg.rid = true →
        let holds := fun (p : RPhase) => ∃ t, exec (.tend h) s = .next t ∧ OnlyPlace s t ∧ holdAt t c.f c.k = .tend [th.reg.rid] ∧
          (region? t th.reg.rid).map (·.phase) = some p ∧ pcAt t c.f c.k l = pcAt s c.f c.k l
        let od := (ctx s r.ctx).od
        let stamps := ∀ t, exec (.tend h) s = .next t →
          (region? t th.reg.rid).map (fun r => (r.ts, r.src)) = some (s.plat.ts, coreSrc c.c)
        (r.cls ≠ 2 → holds .sealed ∧ stamps) ∧
        (r.cls = 2 → inOrderTask c = false → od.f ≤ r.pos → (∀ p ∈ od.pendO, p.1 ≠ r.pos) → r.pos ∉ od.vacated → od.window ≠ none →
          holds .waitO ∧ stamps) ∧
        (r.cls = 2 → inOrderTask c = true →
          ∃ t, exec (.tend h) s = .next t ∧ OnlyPlace s t ∧ AtNext s t c ∧ (region? t th.reg.rid).map (·.phase) = some .pending ∧
            (regAt t c.f c.k l).map (fun x => (x.live, x.pend, x.tpos)) = some (false, true, th.reg.blo))))

/-- R266, R272, R285, R286, R287: TABORT leaves the user code and ends a live region; TSTAT gives TSTATUS, and with CLR clears its
codes; TNARROW narrows an E region's bounds; the TPOS words give the position, the frontier and the base.
R279, R287: TPOS.VAC vacates a position of the open window: the frontier passes it when it stands there, and else the position
is kept; with no window it has no effect. -/
def Obligations.RegionWordsRun : Prop :=
  (∀ s c h ex, Issues s c h ex → (∀ l ∈ ex, doomed c l = false) → ∀ (d a b : Opd) (v : BitVec 8) (clr : Bool),
    let od := (ctx s c.fo.ctx).od
    (NoRegion c ex → ∃ t, exec (.tabort h v) s = .next t ∧ OnlyPlace s t ∧ AtNext s t c ∧
      ∀ l ∈ ex, (regAt t c.f c.k l).map (·.user) = some v) ∧
    (∀ l th r, ex = [l] → LaneRegion s c.f c.k l th r → th.reg.live = true → r.phase ≠ .pending → isLast c = false →
      th.trap.mode = false →
      ∃ t, exec (.tabort h v) s = .next t ∧ KeptRegs s t ∧ SameFlags s t ∧ SameMem s t ∧ SameSpecial s t ∧ AtNext s t c ∧
        region? t th.reg.rid = none ∧
        (regAt t c.f c.k l).map (fun x => (x.user, x.code, x.live, x.doom)) = some (v, 4, false, true)) ∧
    (Free s c (regsT .u32 d) →
      YieldsV (.tstat h d clr) s c ex 1 d (fun l => match regAt s c.f c.k l with
        | some r => (r.user ++ 0#4 ++ r.code ++ r.count ++ 0#3 ++ BitVec.ofBool r.doom ++ r.cls ++ BitVec.ofBool r.pend
            ++ BitVec.ofBool r.live : BitVec 32).setWidth 64
        | none => 0) ∧
      ∃ t, exec (.tstat h d true) s = .next t ∧ ∀ l ∈ ex,
        (regAt t c.f c.k l).map (fun x => (x.user, x.code, x.count)) = some (0, 0, 0)) ∧
    (Free s c (regsT .u64 a ++ regsT .u64 b) →
      (NoRegion c ex → Passes (.tnarrow h a b) s c) ∧
      ∀ l th r, ex = [l] → LaneRegion s c.f c.k l th r → th.reg.live = true → r.cls = 1 → r.phase = .live →
        let lo := max th.reg.blo.toNat (bits (rdV c l .u64 a) 47 0)
        let hi := if rdV c l .u64 b = BitVec.allOnes 64 then th.reg.bhi.toNat else min th.reg.bhi.toNat (bits (rdV c l .u64 b) 47 0)
        lo ≤ hi → ∃ t, exec (.tnarrow h a b) s = .next t ∧ OnlyPlace s t ∧ AtNext s t c ∧
          (regAt t c.f c.k l).map (fun x => (x.blo, x.bhi)) = some (nat64 lo, nat64 hi)) ∧
    (Free s c (regsT .u64 d) → YieldsV (.tposG h d) s c ex 2 d (fun l => ((regAt s c.f c.k l).map (·.tpos)).getD 0)) ∧
    YieldsS (.tposF h d) s c d (nat64 od.f) ∧
    YieldsS (.tposB h d) s c d (if od.holder = some c.fo.grid ∨ od.window ≠ none then nat64 od.base else BitVec.allOnes 64)) ∧
  (∀ s c h ex, Issues s c h ex → (∀ l ∈ ex, doomed c l = false) → c.fo.isTask = false → ∀ (b : Src),
    let od := (ctx s c.fo.ctx).od
    let k := (rdSrcS c .u64 b).toNat
    let p := od.base + k
    (od.window = none → Passes (.tposVac h b) s c) ∧
    ∀ n, od.window = some n → k < n → (∀ q ∈ od.pendO, q.1 ≠ p) → od.f ∉ od.vacated → p ∉ od.vacated →
      ∃ t, exec (.tposVac h b) s = .next t ∧ KeptRegs s t ∧ SameFlags s t ∧ SameMem s t ∧ AtNext s t c ∧
        (p < od.f → (ctx t c.fo.ctx).od = od) ∧
        (od.f < p → (ctx t c.fo.ctx).od = { od with vacated := od.vacated ++ [p] }) ∧
        (p = od.f → od.vacated = [] → (ctx t c.fo.ctx).od.f = od.f + 1))

/-- R267, R268, R270, R273, R276, R277, R279: the steps of the arbiter. V_COMMIT, E_COMMIT and O_COMMIT end a region that may
commit, with its position, and move the frontier; NARROWING_MESSAGE changes a bound, or leaves none; FRONTIER_UPDATE raises what a
core knows; TENTATIVE_ENTRY_APPLY makes an entry a version of its region. A message that a tentative entry waits for performs one
part of its instruction. A region that writes host memory with no link in service is left out (log 35). -/
def Obligations.RegionEventsAct : Prop :=
  (∀ s f k l th r, LaneRegion s f k l th r → th.reg.live = true →
    let rid := th.reg.rid
    let od := (ctx s r.ctx).od
    let vs := s.ms.vers.filter (fun v => v.owner == .region rid)
    let ends := fun (i : Instr) (pos : W64) =>
      ∃ t, exec i s = .next t ∧ KeptRegs s t ∧ SameFlags s t ∧ region? t rid = none ∧
        (regAt t f k l).map (fun x => (x.live, x.tpos)) = some (false, pos) ∧ (∀ v ∈ t.ms.vers, v.owner ≠ .region rid) ∧
        ((vs.map (·.word)).Nodup → (∀ v ∈ vs, homeVal t v.word = mergeBytes v.mask v.val (homeVal s v.word)) ∧
          ∀ w, (∀ v ∈ vs, v.word ≠ w) → homeVal t w = homeVal s w)
    (∀ v ∈ vs, NoOwner s v.word ∧ biasReady s (4 * v.word) true = true ∧ collapseReady s (4 * v.word) v.cmode = true ∧
      wordLost s v.word = false) →
    commitsOver s r.fold = false →
    (r.phase = .sealed → regionQuiet s rid = true → earlierCommit s r.ts r.src = false →
      (r.cls = 0 → ends (.vCommit f k l) (BitVec.allOnes 64)) ∧
      (r.cls = 1 → od.holder = none → od.window = none → (∀ n ∈ s.ms.narrow, n.rid ≠ rid) →
        let g := max th.reg.blo.toNat od.f
        g ≤ th.reg.bhi.toNat → g ≠ 2 ^ 48 - 1 → ends (.eCommit f k l) (nat64 g) ∧
          ∀ t, exec (.eCommit f k l) s = .next t → (ctx t r.ctx).od.f = g + 1)) ∧
    (r.phase = .waitO → r.cls = 2 → earlierCommit s r.ts r.src = false → od.window ≠ none →
      od.pendO.find? (fun p => p.1 == od.f) = some (od.f, rid) → od.vacated = [] →
      ends (.oCommit r.ctx) (nat64 od.f) ∧ ∀ t, exec (.oCommit r.ctx) s = .next t → (ctx t r.ctx).od.f = od.f + 1)) ∧
  (∀ s ix (n : Narrow) f k l th r, s.ms.narrow[ix]? = some n → LaneRegion s f k l th r → th.reg.rid = n.rid →
    let lo := if n.lower then max th.reg.blo.toNat n.bound else th.reg.blo.toNat
    let hi := if n.lower then th.reg.bhi.toNat else min th.reg.bhi.toNat (n.bound - 1)
    (lo ≤ hi → (n.lower = true ∨ n.bound ≠ 0) →
      ∃ t, exec (.narrowingMessage ix) s = .next t ∧ KeptRegs s t ∧ (n.part = none → OnlyPlace s t) ∧
        t.ms.narrow = s.ms.narrow.eraseIdx ix ∧
        (∀ g j op o, n.part = some (g, j, op) → opAt s g j op = some o → Plain s g j op → SameMem s t ∧ SameSpecial s t ∧
          (o.left ≤ 1 → Over s t g j o) ∧ (1 < o.left → SameFlags s t ∧ (opAt t g j op).map (·.left) = some (o.left - 1))) ∧
        (regAt t f k l).map (fun x => (x.blo, x.bhi)) = some (nat64 lo, nat64 hi)) ∧
    (hi < lo ∨ (n.lower = false ∧ n.bound = 0) → r.phase ≠ .pending →
      ∃ t, exec (.narrowingMessage ix) s = .next t ∧ KeptRegs s t ∧ (n.part = none → SameFlags s t ∧ SameMem s t) ∧
        region? t n.rid = none ∧ (regAt t f k l).map (fun x => (x.live, x.code)) = some (false, 1))) ∧
  (∀ s c cx (f : Pos), (∃ m ∈ s.ms.fronts, m.ctx = cx ∧ m.core = c ∧ m.f = f.toNat) →
    ∃ t, exec (.frontierUpdate c cx f) s = .next t ∧ OnlyPlace s t ∧ t.ms.fronts.length + 1 = s.ms.fronts.length ∧
      tgetD (coreAt t c).frontier cx 0 = max (tgetD (coreAt s c).frontier cx 0) f.toNat) ∧
  ∀ s f k l fl e r pa cm z rid, flock? s f k = some fl → firstTent fl l = some e → e.rid = some rid → e.place = .dev pa cm z →
    (isHostPa pa = true → noHost s = false) → e.act = .store → Plain s f k e.op → region? s rid = some r → r.cls = 0 →
    flipping s pa = false → (releases e.order = true → releaseReady s f k e.op e.scope = true) →
    earlierLoad s f k e.op = false → (fold? s f).map (·.isTask) = some false →
    ∃ t, exec (.tentativeEntryApply f k l) s = .next t ∧ KeptRegs s t ∧ (∀ a, homeByte t a = homeByte s a) ∧
      (flock? t f k).map (·.tent) = some (fl.tent.erase e) ∧
      t.ms.vers.map (fun v => (v.owner, v.word, v.mask, v.val)) = s.ms.vers.map (fun v => (v.owner, v.word, v.mask, v.val)) ++
        (splitWords pa e.data).map (fun w => (VOwner.region rid, w.1, w.2.1, w.2.2))

/-! ## Group 0xB: system registers, beacons, bias; and pairs -/

/-- R308, R312: SYSR gives the register's value to who may read it; SYSW leaves the bits that the register has, and every other
register of every context, and ignores a register that is only read; any other access raises ILLOP or PROT. R100: a write of a
limit or of the actions, where FPEV_WINDOW is 0, clears the window counters; R178: the frame pool is fixed while the context has
a frame; R267: a write of ODW opens a window at the frontier, where the domain is free. R305, R306, R314, R315, R358, R359:
BEACON that exceeds the beacon is progress, EVMARK leaves its mark in the core's EVQ, and BFLIP of a block begins a flip, or,
where the block has the bias already, is over at once. That the mark has the time of its push is the model's reading (log 41),
and which bits of FPOOL_SIZE a write keeps is its choice (log 28). -/
def Obligations.SystemGroupRuns : Prop :=
  (∀ s c h ex, Issues s c h ex → NoRegion c ex → ∀ (d a : Opd) (reg : BitVec 12) (b : CtxOpd),
    let n := reg.toNat
    let cx := match b with | .own => c.fo.ctx | .other o => bits (rdS c o) 11 0
    let cr := match b with | .own => c.c | .other o => c.c / 64 * 64 + bits (rdS c o) 17 12
    let v := rdS c a
    let od := (ctx s cx).od
    let alive := b = .own ∨ n = 0x080 ∨ n = 0x081 ∨ n = 0x023 ∨ (ctx s cx).live = true
    let sets := fun (x : W64) (others : Nat → Prop) => ∃ t, exec (.sysw h reg a b) s = .next t ∧ KeptRegs s t ∧ SameFlags s t ∧
      SameMem s t ∧ AtNext s t c ∧ ctxRegRead t cx n = x ∧
      (∀ cx' n', ¬ (cx' = cx ∧ n' = n) → ¬ (cx' = cx ∧ others n') → ctxRegRead t cx' n' = ctxRegRead s cx' n') ∧
      (∀ i, coreRegRead t i 0x080 = coreRegRead s i 0x080) ∧ t.plat = s.plat ∧
      ∀ n', n ≠ 0x032 → n ≠ 0x051 → others n' → ctxRegRead t cx n' = 0
    let writes := fun (mask : W64) => sets (v &&& mask) (fun _ => False)
    let restarts := fun (n' : Nat) => (ctx s cx).fpev.window = 0 ∧ 0x008 ≤ n' ∧ n' ≤ 0x00F
    (isListed n = true → privileged c = true ∨ (b = .own ∧ n ≠ 0x040 ∧ n ≠ 0x060 ∧ n ≠ 0x061) → alive →
      YieldsS (.sysr h d reg b) s c d
        (if n = 0x023 then (if privileged c then 1 else 0)
         else if n = 0x080 then BitVec.ofNat 64 (coreAt s cr).grant
         else if n = 0x081 then BitVec.ofNat 64 (coreAt s cr).held
         else ctxRegRead s cx n)) ∧
    (privileged c = true → alive →
      (∀ x mask, (x, mask) ∈ [((0x018 : Nat), BitVec.allOnes 64), (0x020, 0x01FFFFFFFFFFFFFF#64), (0x021, 0x01FFFFFFFFFFFFF8#64),
          (0x022, BitVec.allOnes 64), (0x01A, 1), (0x040, 0x0000FFFFFFE00000#64), (0x041, 0xFFFFFFFF#64), (0x060, BitVec.allOnes 64),
          (0x061, BitVec.allOnes 64)] → n = x → writes mask) ∧
      (n ≤ 0x007 → writes 0xFFFFFFFF#64) ∧
      (0x010 ≤ n → n ≤ 0x017 → sets (v &&& 0xFFFFFFFF) restarts) ∧
      (n = 0x019 → sets (v &&& 0xFFFF) restarts) ∧
      (n = 0x032 → (bits v 47 0 ≠ 0 ∧ od.holder = none ∧ od.window = none ∧ od.f + bits v 47 0 ≤ 2 ^ 48 - 1 →
          sets (nat64 (2 ^ 63 + bits v 47 0)) (fun n' => n' = 0x031) ∧
            ∀ t, exec (.sysw h reg a b) s = .next t → ctxRegRead t cx 0x031 = nat64 od.f) ∧
        (bits v 47 0 = 0 ∨ od.holder ≠ none ∨ od.window ≠ none ∨ 2 ^ 48 - 1 < od.f + bits v 47 0 → Passes (.sysw h reg a b) s c)) ∧
      (framesOf s cx = [] → (n = 0x050 → writes 0x01FFFFFFFFE00000#64) ∧
        (n = 0x051 → sets (v &&& 0xFFFFFFFFFFE00000#64) (fun n' => n' = 0x052))) ∧
      (framesOf s cx ≠ [] → n = 0x050 ∨ n = 0x051 → Passes (.sysw h reg a b) s c) ∧
      (n = 0x080 → bits (rdS c a) 3 0 ≤ 8 →
        ∃ t, exec (.sysw h reg a b) s = .next t ∧ KeptRegs s t ∧ SameFlags s t ∧ SameMem s t ∧ AtNext s t c ∧
          coreRegRead t cr 0x080 = BitVec.ofNat 64 (bits v 3 0) ∧ (∀ cx' n', ctxRegRead t cx' n' = ctxRegRead s cx' n') ∧
          (∀ i, i ≠ cr → coreRegRead t i 0x080 = coreRegRead s i 0x080) ∧ t.plat = s.plat) ∧
      (n = 0x080 → 8 < bits v 3 0 → Passes (.sysw h reg a b) s c) ∧
      (n ∈ [0x008, 0x00F, 0x023, 0x030, 0x031, 0x033, 0x044, 0x047, 0x052, 0x081, 0x090] → Passes (.sysw h reg a b) s c)) ∧
    (n ≤ 0x007 → b = .own → writes 0xFFFFFFFF#64) ∧
    (isListed n = true → privileged c = true → ¬ alive → Faults (.sysr h d reg b) s c 0x12 ∧ Faults (.sysw h reg a b) s c 0x12) ∧
    (isListed n = false → Faults (.sysr h d reg b) s c 0x10 ∧ Faults (.sysw h reg a b) s c 0x10) ∧
    (isListed n = true → privileged c = false →
      (b ≠ .own ∨ n = 0x040 ∨ n = 0x060 ∨ n = 0x061 → Faults (.sysr h d reg b) s c 0x12) ∧
      (b ≠ .own ∨ 0x007 < n → Faults (.sysw h reg a b) s c 0x12))) ∧
  (∀ s c h ex, Issues s c h ex → NoRegion c ex → ∀ (a : Opd) (b : Src) (code : BitVec 16) (toHost : Bool),
    let v := rdSrcS c .u64 b
    let x := rdS c a
    let flip := if toHost then Instr.bflipHost h a else Instr.bflipDev h a
    (∃ t, exec (.beacon h b) s = .next t ∧ OnlyPlace s t ∧ AtNext s t c ∧ (fold? t c.f).map (fun fo => (fo.beacon, fo.wdogTime)) =
      some (if c.fo.beacon.toNat < v.toNat then (v, 0) else (c.fo.beacon, c.fo.wdogTime))) ∧
    ((coreAt s c.c).evq.length < 64 →
      ∃ t, exec (.evmark h a code) s = .next t ∧ OnlyPlace s t ∧ AtNext s t c ∧ (coreAt t c.c).evq = (coreAt s c.c).evq ++
        [{ ctx := c.fo.ctx, grid := c.gr.id, w0 := nat64 (0x10000 + code.toNat), w1 := x, ts := s.plat.ts }]) ∧
    (64 ≤ (coreAt s c.c).evq.length → Waits (.evmark h a code) s c) ∧
    ∀ s1 tr, c.fo.isTask = false → bits x 63 57 = 0 → flagFull c.fl c.g h = false →
      translate s (.core c.c) c.fo.ctx (bits x 56 0) .store = (s1, .ok tr) → exposed s1 tr.pa = true →
      (∀ y ∈ s1.ms.flips, y.block ≠ tr.pa / 4096 ∧ y.op ≠ s1.seq) → (∀ o ∈ opsAt s c.f c.k, o.id ≠ s1.seq) →
      (hostBias s1 (tr.pa / 4096) ≠ toHost →
        ∃ t, exec flip s = .next t ∧ IssueFrame s s1 t c h ∧ UnderWay t c h s1.seq 1 none ∧
          ∃ y ∈ t.ms.flips, y.block = tr.pa / 4096 ∧ y.begun = true ∧ y.toHost = toHost ∧ y.op = s1.seq ∧ y.done = []) ∧
      (hostBias s1 (tr.pa / 4096) = toHost →
        ∃ t, exec flip s = .next t ∧ KeptRegs s t ∧ SameFlags s t ∧ SameMem s1 t ∧ SameSpecial s1 t ∧ AtNext s1 t c ∧
          t.ms.flips = s1.ms.flips ∧ opsAt t c.f c.k = opsAt s c.f c.k))

/-- R41, R42, R88: a pair whose vector half is an integer instruction does what that instruction does, and writes its S register
with the scalar operation on the values before the pair. -/
def Obligations.PairRunsBothHalves : Prop :=
  ∀ s c h ex, Issues s c h ex → ∀ (sop : Fin 23) (vop : PairOp) (sd sa : Fin 128) (sb : PairB) (vd va vb : Opd) (t : Ty)
    (i : Instr) (regs : List (Nat × Nat)) (e : Eff),
    WellFormed.pairVector h vop vd va vb t = some i → intHalf i = some (regs, e) → Free s c regs →
    let x := sregAt s c.f c.k sa.val
    let y := match sb with | .reg n => sregAt s c.f c.k n.val | .imm w => w.signExtend 64
    ∃ u w, exec i s = .next u ∧ exec (.pair h sop vop sd sa sb vd va vb t) s = .next w ∧
      (∀ f k l n, vregAt w f k l n = vregAt u f k l n) ∧ (∀ f k l n, predAt w f k l n = predAt u f k l n) ∧
      SameS s w (fun f k n => f = c.f ∧ k = c.k ∧ n = sd.val) ∧
      sregAt w c.f c.k sd.val = pairScalar sop (sregAt s c.f c.k 0) (sregAt s c.f c.k sd.val) x y ∧
      SameFlags s w ∧ SameMem s w ∧ SameSpecial s w ∧ SameTrap s w ∧ AtNext s w c

/-- R28, R131: a word whose guard is false in every thread of its group has no effect but to move the group on, and a jump or an
EXIT among them moves it to the next clause. -/
def Obligations.GuardedOffPasses : Prop :=
  ∀ s c i h, issuing? s = some c → hintsOf i = some h → execLanes c h = [] → Passes i s c

/-! ## Engines -/

/-- R26, R111, R171 to R173, R210, R222, R226, R227, R229, R233, R358: the results of the special functions, of LAUNCH and of
XLAT are written and their flags drop; CFLUSH, BPF and BFLIP complete; the matrix engine starts an entry, completes a step, which
changes no register outside its window, and installs a table. -/
def Obligations.EnginesComplete : Prop :=
  (∀ s f k ix fl (o : LOp), flock? s f k = some fl → fl.ops[ix]? = some o →
    (∀ t d res, o.kind = .sfu t d res → (res.map (·.lane)).Nodup →
      Does (.sfuResult f k ix) s (fun u => HasPend u f k res (width t) d ∧ Over s u f k o ∧
        SameV s u (pendV f k res (width t) d) ∧ SameS s u noS ∧ SameP s u noP ∧ (Plain s f k o.id → SameTrap s u ∧ SameMem s u))) ∧
    (∀ d p res, o.kind = .launch d p res → (res.map (·.lane)).Nodup →
      Does (.launchComplete f k ix) s (fun u => HasPend u f k res 2 d ∧ Over s u f k o ∧ SameV s u (pendV f k res 2 d) ∧
        SameS s u noS ∧ ∀ w ∈ res, ∀ b, w.pred = some b → p ≠ 0 → (thread? s f k w.lane).isSome = true →
          predAt u f k w.lane p = b)) ∧
    (∀ d res, o.kind = .xlat d res → (res.map (·.lane)).Nodup →
      Does (.xlatComplete f k ix) s (fun u => HasPend u f k res 2 d ∧ Over s u f k o ∧ SameV s u (pendV f k res 2 d) ∧
        SameS s u noS ∧ SameP s u noP)) ∧
    (∀ fo c va len m, fold? s f = some fo → coreOf fo = some c → o.kind = .cflush va len m → o.evs = [] → o.acq = none →
      let r := mappedLines s (.core c) fo.ctx (bits va 56 0) len
      Does (.cflushComplete f k ix) s (fun u => (∀ x ∈ opsAt u f k, x.id ≠ o.id) ∧
        ((∀ l ∈ r.2, ∀ c', (lineSt r.1 l.1).m = some c' → ∀ x ∈ residents r.1 c', ∀ y ∈ x.2.flocks, y.2.fifo = []) →
          KeptRegs s u ∧ Over s u f k o) ∧
        ((∀ l ∈ r.2, ∀ w, w / 32 = l.1 → NoOwner r.1 w) →
          ∀ l ∈ r.2, ∀ w v, w / 32 = l.1 → viewWord u c w = some v → v.st = .copy → m = .wb ∧ v.dirty = 0))) ∧
    ∀ fo va len dn bar, fold? s f = some fo → o.kind = .bpf va len dn bar →
      let r := mappedLines s (.die dn) fo.ctx va.toNat len
      Does (.bpfComplete f k ix) s (fun u => KeptRegs s u ∧ Over s u f k o ∧
        updsAt u f = fo.upds ++ (match bar with
          | some b => [{ src := none, off := b, arr := 1, leaves := 0, delta := -(len : Int) }]
          | none => []) ∧
        (fo.halt = none →
          let held := fun (l : Nat × BitVec 2) => l.2 ≠ 2 → ∃ e ∈ u.ms.l2, e.die = dn ∧ e.line = l.1
          (∀ l, r.2.getLast? = some l → held l) ∧
          ((r.1.ms.l2.filter (fun e => e.die == dn)).length + r.2.length ≤ sliceLines → ∀ l ∈ r.2, held l)))) ∧
  (∀ s block (x : Flip) o, flipOf s block = some x → (∀ y ∈ s.ms.flips, y.block = block → y.op = x.op) →
    opAt s x.fold x.flock x.op = some o → o.left = 1 →
    (x.toHost = true →
      Does (.bflipComplete block) s (fun u => hostBias u block = true ∧ flipOf u block = none ∧
        ((∀ l, l / 32 = block → (lineSt s l).m = none) → KeptRegs s u ∧ Over s u x.fold x.flock o ∧
          (o.acq = none → o.evs = [] → ∀ w, w / 1024 = block → w / 32 ∉ x.done → ownerOf u w = none)))) ∧
    (x.toHost = false → (∀ l, l / 32 = block → l ∈ x.done) →
      Does (.bflipComplete block) s (fun u => KeptRegs s u ∧ hostBias u block = false ∧ flipOf u block = none ∧
        Over s u x.fold x.flock o))) ∧
  (∀ s c, (coreAt s c).mxRun = false → (coreAt s c).mxq ≠ [] →
    Does (.matrixEntryStart c) s (fun u => OnlyPlace s u ∧ (coreAt u c).mxRun = true ∧ (coreAt u c).mxq = (coreAt s c).mxq)) ∧
  ∀ s c (e : MxEntry) r fo fl o, (coreAt s c).mxRun = true → (coreAt s c).mxq = e :: r → fold? s e.fold = some fo →
    flock? s e.fold e.flock = some fl → op? fl e.op = some o →
    let ends := fun (u : State) => (coreAt u c).mxq = r ∧ (coreAt u c).mxRun = false ∧ Over s u e.fold e.flock o ∧
      SameS s u noS ∧ SameP s u noP
    (∀ block rows arrive s127, e.work = .step block rows arrive s127 →
      let p := { mxParse block with rows := rows }
      p.wbase + p.win ≤ 1536 →
      Does (.matrixStepComplete c) s (fun u => ends u ∧
        SameV s u (fun f k _ n => f = e.fold ∧ k = e.flock ∧ p.wbase ≤ n ∧ n < p.wbase + p.win) ∧
        updsAt u e.fold = fo.upds ++ (match arrive with
          | some b => [{ src := none, off := b, arr := 1, leaves := 0, delta := 0 }]
          | none => []) ∧
        (p.hasEpi = false → ∀ a, scrAt u e.fold a = scrAt s e.fold a) ∧
        ∀ m n, m < p.m → n < p.n → p.inside m n = true →
          let q := p.place m n
          let sum := (mxSum p fo m n (if p.load then mxWin p fl m n else 0)).1
          vregAt u e.fold e.flock q.2 q.1 = BitVec.ofNat 32 sum ∧
          (p.wide = true → vregAt u e.fold e.flock q.2 (q.1 + 1) = BitVec.ofNat 32 (sum / 2 ^ 32)))) ∧
    ∀ off slot, e.work = .table off slot →
      Does (.tableLoadComplete c) s (fun u => ends u ∧ SameV s u noV ∧
        ∀ i < 95, (fold? u e.fold).map (fun x => tableWord x slot i) = some (BitVec.ofNat 32 (ofLe (scrBytes fo (off + 4 * i) 4))))

/-- R162, R164, R250: an engine reads the source of the next command of its queue, a scratchpad range row by row or a pattern;
a command that has been read writes its bytes, leaves its queue, releases its locks, drops its flag and arrives at its barrier;
a page that ends a command stops the fold with its cause and address. That a command is read whole and written whole is the
model's choice (log 22). -/
def Obligations.CopyEngineWorks : Prop :=
  (∀ s dn e (x : CopyCmd) i fo d, (engineQ s dn e).zipIdx.find? (fun y => y.1.data.isNone) = some (x, i) →
    fold? s x.fold = some fo → cmdDesc x = some d →
    let reads := fun (data : List (Nat × List Byte)) =>
      Does (.copyStart dn e) s (fun u => OnlyPlace s u ∧ engineQ u dn e = (engineQ s dn e).set i { x with data := some data })
    (d.src = some .scratch → reads ((List.range d.rows).map (fun r =>
      (dstRow fo d x.slot r, scrBytes fo (d.sbase + 16 * d.sstr * r) d.rb)))) ∧
    (d.src = none → reads [(dstRow fo d x.slot 0, (List.range d.rb).map (fun j => x.c0.extractLsb' (8 * (j % 8)) 8))]) ∧
    ∀ s1 rows, readRows s x fo d = (s1, some rows) →
      Does (.copyStart dn e) s (fun u => KeptRegs s1 u ∧ SameFlags s1 u ∧ SameMem s1 u ∧ engineQ u dn e =
        (engineQ s dn e).set i { x with data := some (rows.zipIdx.map (fun r => (dstRow fo d x.slot r.2, r.1))) })) ∧
  ∀ s dn e ix (x : CopyCmd) fo d o, (engineQ s dn e)[ix]? = some x → fold? s x.fold = some fo → cmdDesc x = some d →
    opAt s x.fold x.flock x.op = some o →
    (∀ data, x.data = some data →
      let ends := fun (u : State) => engineQ u dn e = (engineQ s dn e).eraseIdx ix ∧ Over s u x.fold x.flock o ∧
        (∀ l ∈ (coreAt u x.core).locks, l.2.op ≠ x.op) ∧ SameV s u noV ∧ SameS s u noS ∧ SameP s u noP ∧
        updsAt u x.fold = fo.upds ++
          (if d.kind = 1 then [{ src := none, off := d.bar, arr := 1, leaves := 0, delta := -(d.bytes : Int) }] else [])
      (d.dst ≠ .global →
        Does (.copyComplete dn e ix) s (fun u => ends u ∧
          ∀ a bs, data = [(a, bs)] → ∀ p, scrAt u x.fold p = if a ≤ p ∧ p < a + bs.length then bs.getD (p - a) 0 else scrAt s x.fold p)) ∧
      (d.dst = .global → ∀ s1, writeRows s x fo d data = (s1, true) →
        Does (.copyComplete dn e ix) s (fun u => ends u ∧
          ∀ a bs s2 pa cm z, data = [(a, bs)] → fo.isTask = false → o.acq = none → o.evs = [] →
            rowRuns s (cmdAgent x) fo.ctx [(a, bs.length)] .store = (s2, .ok [[(pa, bs.length, cm, z)]]) → Unowned s2 pa bs.length →
            ∀ j < bs.length, homeByte u (pa + j) = bs.getD j 0))) ∧
    ∀ cause fa, copyError s x = some (cause, fa) → fo.halt = none →
      Does (.enginePageFault dn e ix) s (fun u => KeptRegs s u ∧ SameFlags s u ∧ engineQ u dn e = (engineQ s dn e).eraseIdx ix ∧
        opsAt u x.fold x.flock = opsAt s x.fold x.flock ∧
        (haltAt u x.fold).map (fun h => (h.reason, h.cause, h.pflock, h.faddr)) =
          some (.fault, BitVec.ofNat 8 cause, some x.flock, fa) ∧
        (fold? u x.fold).map (·.parked) = some (fo.parked ++ [(e, { x with data := none })]))

/-! ## Folds -/

/-- R100, R134, R145, R302, R307, R328, R376: PREEMPT, PRIORITY_PREEMPT and WDOG_EXPIRE stop a resident fold; at a swap point a
group swaps when its active fold stalls long or has been active at two points; a late FPTHR sends its thread to the handler, to
resume where it stood, or, of a region that it ends outside a clause, at the abort target (the model's reading, log 16); REGROUP
places the parked threads of a role anew, sorted by key. -/
def Obligations.FoldsStopAndMove : Prop :=
  (∀ s f fo, fold? s f = some fo → fo.halt = none → (coreOf fo).isSome = true →
    let stops := fun (i : Instr) (v : Nat) (r : Reason) => Does i s (fun u => OnlyPlace s u ∧
      (haltAt u v).map (fun h => (h.reason, h.stopped, h.savets)) = some (r, true, s.plat.ts))
    stops (.preempt f) f .preempt ∧
    ∀ gr, grid? s fo.grid = some gr → fo.taskFin = false →
      (ctx s fo.ctx).wdogWindow ≠ 0 → (ctx s fo.ctx).wdogWindow.toNat ≤ fo.wdogTime →
      (fo.isTask = false ∨ gr.record.tallow = 0 ∨ fo.taskTime ≤ gr.record.tallow) → stops (.wdogExpire f) f .wdog) ∧
  (∀ s f fo v, Ordered s.folds → fold? s f = some fo → fo.place = .waiting → foldPrio s fo ≤ 1 →
    10000 ≤ (s.plat.ts - fo.since).toNat → preemptVictim s (ctx s fo.ctx).pad (foldPrio s fo) = some v →
    ∃ x, fold? s v = some x ∧ (coreOf x).isSome = true ∧ foldPrio s fo + 2 ≤ foldPrio s x ∧
      Does (.priorityPreempt f) s (fun u => OnlyPlace s u ∧ (haltAt u v).map (·.reason) = some .preempt)) ∧
  (∀ s c, Ordered s.folds →
    (s.plat.cycles / 20 % 32 ≠ 0 → exec (.swapPoint c) s = .next s) ∧
    (s.plat.cycles / 20 % 32 = 0 → Does (.swapPoint c) s (fun u => OnlyPlace s u ∧
      u = (List.range 8).foldl (fun s g => swapGroup s c g) s)) ∧
    ∀ g a fa p, (groupFolds s c g).find? (fun e => e.2.active) = some (a, fa) →
      oldest ((groupFolds s c g).filter (fun e => !e.2.active && foldReady s e.1 e.2)) = some p →
      let u := swapGroup s c g
      (stalledLong s a fa = true ∨ 2 ≤ fa.q → (fold? u a).map (·.active) = some false ∧ (fold? u p).map (·.active) = some true) ∧
      (stalledLong s a fa = false → fa.q < 2 → (fold? u a).map (fun x => (x.active, x.q)) = some (true, fa.q + 1))) ∧
  (∀ s cx, (ctx s cx).live = true → (ctx s cx).fpev.window ≠ 0 → s.plat.ts.toNat % (ctx s cx).fpev.window.toNat = 0 →
    Does (.fpevWindowClear cx) s (fun u => KeptRegs s u ∧ SameFlags s u ∧ SameMem s u ∧
      ∀ n < 8, ctxRegRead u cx (8 + n) = 0 ∧ ctxRegRead u cx n = ctxRegRead s cx n)) ∧
  (∀ s f k l fo fl t x, fold? s f = some fo → flock? s f k = some fl → thread? s f k l = some t →
    (coreOf fo).isSome = true → (∀ g, fl.group = some g → l ∈ g.lanes → atBoundary fl = true) → lateDue t = some x →
    ((ctx s fo.ctx).trapvec.setWidth 57 : VA) ≠ 0 →
    let enters := fun (resume : VA) => Does (.lateFpthr f k l) s (fun u => SameV s u noV ∧ SameS s u noS ∧ SameP s u noP ∧
      SameFlags s u ∧ pcAt u f k l = some ((ctx s fo.ctx).trapvec.setWidth 57) ∧
      (trapAt u f k l).map (fun z => (z.mode, z.tcause, z.tpc, z.rpc, z.npc, z.late)) =
        some (true, BitVec.ofNat 32 (x.cls * 65536 + 0x03), x.pc.setWidth 64, resume, resume, true))
    (t.reg.live = false → enters t.pc) ∧
    ∀ r, LaneRegion s f k l t r → t.reg.live = true → r.phase ≠ .pending →
      (inClause fl l = true → enters t.pc) ∧ (inClause fl l = false → enters t.reg.target)) ∧
  ∀ s f (role : Fin 4) fo, fold? s f = some fo → fo.halt = none → Ordered fo.flocks →
    let fs := roleFlocks fo role.val
    let ps := parkedThreads fs
    regroupReady fs = true → (∀ p ∈ ps, p.base + p.count ≤ 1536 ∧ ∀ e ∈ fs, p.base + p.count ≤ e.2.valloc) →
    ps.Pairwise (fun a b => a.key < b.key ∨ (a.key = b.key ∧ a.tid ≤ b.tid)) ∧
    Does (.regroup f role) s (fun u => (fold? u f).map (·.epoch) = some (fo.epoch + 1) ∧ SameS s u noS ∧ SameFlags s u ∧
      ∀ n p j fl t, ps[n]? = some p → fs[n / 32]? = some (j, fl) → thread? s f p.flock p.lane = some t →
        thread? u f j (n % 32) = some { t with park := .none } ∧
        ∀ i < p.count, vregAt u f j (n % 32) (p.base + i) = vregAt s f p.flock p.lane (p.base + i))

/-- R133, R141, R182, R201, R202, R299, R303, R304, R339: a waiting fold is placed with its flocks at their start; a fold whose
threads have ended retires, and its release lets the next stage begin; a stopped and drained fold is saved and restored with its
registers; the handler's commands resume, kill and run again. Where an image lies and how its private part is kept is the
model's choice (logs 9 and 12); that a resume of a fold which was only pre-empted does nothing, and that a kill or a re-run
takes any saved fold, are its readings (log 39). -/
def Obligations.FoldsLive : Prop :=
  (∀ s f c fo gr slot, fold? s f = some fo → grid? s fo.grid = some gr → pickSlot s c = some slot → placeable s f c = true →
    s.folds.any (fun e => e.1 != f && placeable s e.1 c && placedBefore s e.1 f) = false →
    Does (.foldPlacement f c) s (fun u => placeAt u f = some (.resident c slot) ∧
      (fold? u f).map (·.flocks) = some (startFlocks gr))) ∧
  (∀ s f fo gr, fold? s f = some fo → grid? s fo.grid = some gr → (coreOf fo).isSome = true → fo.halt = none →
    fo.exhausted = false → fo.taskFin = false → (∀ e ∈ fo.flocks, liveLanes e.2 = []) → drained s f fo = true →
    Does (.foldRetire f) s (fun u =>
      (fo.isTask = false → fold? u f = none ∧
        (fo.released = false → fo.stage + 1 < gr.record.stages → fold? s s.seq = none →
          (fold? u s.seq).map (fun x => (x.grid, x.x, x.y, x.z, x.stage, x.place)) =
            some (fo.grid, fo.x, fo.y, fo.z, fo.stage + 1, .waiting))) ∧
      (fo.isTask = true → (fold? u f).map (fun x => (x.place, x.taskFin)) = some (.gone, true)))) ∧
  (∀ s f fo c h, fold? s f = some fo → coreOf fo = some c → fo.halt = some h → h.reason ≠ .exhaust → h.reason ≠ .taskAbort →
    drained s f fo = true → (∀ e ∈ s.ms.regions, e.2.fold = f → e.2.phase = .pending) →
    Does (.foldSave f) s (fun u => placeAt u f = some .saved ∧ haltAt u f = some h ∧ KeptRegs s u ∧
      (∀ a, scrAt u f a = scrAt s f a) ∧ (∀ k n, flagAt u f k n = 0) ∧
      ∀ k, barOf s f k = none → groupAt u f k = none)) ∧
  (∀ s f c fo slot, fold? s f = some fo → pickSlot s c = some slot → restorable fo = true → restoreRoom s c fo = true →
    Does (.foldRestore f c) s (fun u => placeAt u f = some (.resident c slot) ∧ haltAt u f = none ∧ KeptRegs s u ∧ SameMem s u)) ∧
  ∀ s s1 cx a f fo h, imageFold s cx a = (s1, some (f, fo)) → fold? s1 f = some fo → fo.halt = some h →
    let killed := fun (i : Instr) => Does i s (fun u => fold? u f = none ∧
      (grid? u fo.grid).map (·.status) = (grid? s1 fo.grid).map (fun _ => 1))
    (h.reason = .preempt → exec (.foldcmdResume cx a) s = .next s1) ∧
    (h.reason ≠ .preempt → mayResume h.cause.toNat = true →
      Does (.foldcmdResume cx a) s (fun u => OnlyPlace s1 u ∧ haltAt u f = none ∧
        (fold? u f).map (·.wdogTime) = some (if h.reason = .wdog then 0 else fo.wdogTime))) ∧
    (h.reason ≠ .preempt → mayResume h.cause.toNat = false → killed (.foldcmdResume cx a)) ∧
    killed (.foldcmdKill cx a) ∧
    ((h.cause = 0x20 → fo.isTask = true → (grid? s1 fo.grid).isSome = true → fold? s1 s1.seq = none →
        Does (.foldcmdRerun cx a) s (fun u => fold? u f = none ∧
          (fold? u s1.seq).map (fun x => (x.grid, x.lo, x.hi, x.place)) = some (fo.grid, fo.lo, fo.hi, .waiting))) ∧
      (h.cause ≠ 0x20 ∨ fo.isTask = false → killed (.foldcmdRerun cx a)))

/-! ## Tasks and grids -/

/-- R181, R182, R191 to R202, R207, R217: a stage release, the exhaustion, the split and the commit of a task, the answer of a
work distributor, the start of a grid with its folds, its report, and the move of a pen's oldest entry to its queue. Grid
identifiers and frame addresses are the model's choice (log 9). -/
def Obligations.TasksAndGridsMove : Prop :=
  (∀ s f fo gr k op fl, fold? s f = some fo → grid? s fo.grid = some gr → fo.relPend = some (k, op) → flock? s f k = some fl →
    (∀ e ∈ fl.fifo ++ fl.scr ++ fl.tent, op ≤ e.op) → msgsBefore s f k op = false → fo.released = false → fo.isTask = false →
    fo.stage + 1 < gr.record.stages → fold? s s.seq = none →
    Does (.stageRelease f) s (fun u => OnlyPlace s u ∧ (fold? u f).map (fun x => (x.released, x.relPend)) = some (true, none) ∧
      (fold? u s.seq).map (fun x => (x.grid, x.x, x.y, x.z, x.stage, x.place)) =
        some (fo.grid, fo.x, fo.y, fo.z, fo.stage + 1, .waiting))) ∧
  (∀ s f fo gr, fold? s f = some fo → grid? s fo.grid = some gr → fo.isTask = true →
    (fo.taskFin = false → (coreOf fo).isSome = true → gr.record.tallow ≠ 0 → gr.record.tallow < fo.taskTime → fo.halt = none →
      Does (.taskTimeExhaust f) s (fun u => OnlyPlace s u ∧
        (fold? u f).map (fun x => (x.exhausted, x.halt.map (·.reason))) = some (true, some .exhaust))) ∧
    (fo.taskFin = false → drained s f fo = true → fo.exhausted = true →
      (fo.halt.map (·.reason) = some .exhaust ∨ (fo.place = .saved ∧ (fo.halt = none ∨ fo.halt.map (·.reason) = some .preempt))) →
      gr.status = 0 →
      let mid := fo.lo + nat64 (gr.record.grain * max 1 ((fo.hi - fo.lo).toNat / 2 / gr.record.grain))
      (gr.record.grain < (fo.hi - fo.lo).toNat → fold? s s.seq = none → fold? s (s.seq + 1) = none →
        Does (.taskSplit f) s (fun u => fold? u f = none ∧
          (fold? u s.seq).map (fun x => (x.grid, x.lo, x.hi, x.place)) = some (fo.grid, fo.lo, mid, .waiting) ∧
          (fold? u (s.seq + 1)).map (fun x => (x.grid, x.lo, x.hi, x.place)) = some (fo.grid, mid, fo.hi, .waiting))) ∧
      ((fo.hi - fo.lo).toNat ≤ gr.record.grain → fo.place ≠ .saved →
        Does (.taskSplit f) s (fun u => KeptRegs s u ∧
          (fold? u f).map (fun x => (x.exhausted, x.halt.map (fun h => (h.reason, h.cause)))) = some (false, some (.fault, 0x20)) ∧
          ∀ v ∈ u.ms.vers, v.owner ≠ .task f))) ∧
    (fo.taskFin = true → fo.lost = false → commitTurn s fo gr = true → s.ms.msgs.any (fun m => m.fold == f) = false →
      earlierCommit s fo.since fo.endSrc = false → commitHeld s (commitWords s f) = false →
      (∀ w ∈ commitWords s f, NoOwner s w.word ∧ wordLost s w.word = false) →
      Does (.taskCommit f) s (fun u => fold? u f = none ∧
        (grid? u fo.grid).map (·.committed) = some (gr.committed + (fo.hi - fo.lo)) ∧
        (isOrder gr.record = true → (ctx u fo.ctx).od.f = max (ctx s fo.ctx).od.f ((ctx s fo.ctx).od.f + (fo.hi - fo.lo).toNat)) ∧
        ∀ a b v, commitReds s f = [] → commitPeers s f = [] → commitVers s f = [(a, b, v)] →
          (∃ e ∈ s.folds, e.1 ≠ f ∧ e.2.grid = fo.grid) → homeVal u v.word = mergeBytes v.mask v.val (homeVal s v.word)))) ∧
  (∀ s g gr q c o, grid? s g = some gr → gr.queries = [q] → (fold? s q.fold).bind coreOf = some c →
    opAt s q.fold q.flock q.op = some o →
    let wx := gr.record.dlo.toNat
    let n := wx * gr.record.dhi.toNat
    let v := if q.count then nat64 (n - gr.wdNext)
      else if gr.wdNext < n then nat64 (gr.wdNext % wx + gr.wdNext / wx * 65536) else 0xFFFFFFFF
    Does (.wdAnswer g) s (fun u => KeptRegs s u ∧ Over s u q.fold q.flock o ∧
      (grid? u g).map (fun x => (x.queries, x.wdNext)) =
        some ([], if q.count = false ∧ gr.wdNext < n then gr.wdNext + 1 else gr.wdNext) ∧
      (∀ a, q.slot = some a → ∀ p, scrAt u q.fold p = if a ≤ p ∧ p < a + 4 then (leBytes 4 v.toNat).getD (p - a) 0
        else scrAt s q.fold p) ∧
      (q.slot = none → (coreAt u c).wdq = (coreAt s c).wdq ++ [{ fold := q.fold, flock := q.flock, val := v }]))) ∧
  (∀ s g gr, grid? s g = some gr → gr.phase = .started → gr.allDone = true →
    (isDetach gr.record = true ∨ hdrGet s g hLIVE 4 = 0) →
    Does (.gridReport g) s (fun u => (∀ x, grid? u g = some x → x.phase = .reported ∧ x.status = gr.status) ∧
      ((ctx s gr.ctx).od.holder = some g → (ctx u gr.ctx).od.holder = none))) ∧
  (∀ s g gr (frame : VA) s2 rd, grid? s g = some gr → nextStart s gr.queue = some g →
    frameFree s gr.ctx frame.toNat (frameBytes gr.record) = true →
    readKDesc (modQueue s gr.queue (fun q => { q with device := q.device.filter (· != g) })) (gr.queue % 4) gr.ctx gr.record.kdesc =
      (s2, rd) →
    (rd = none → Does (.gridStart g frame) s (fun u => ∀ x, grid? u g = some x → x.phase = .reported ∧ x.status = 2)) ∧
    ∀ kd, rd = some kd →
      let s3 := modGrid s2 g (fun x => { x with kd := kd })
      (refused s3 { gr with kd := kd } = true →
        Does (.gridStart g frame) s (fun u => ∀ x, grid? u g = some x → x.phase = .reported ∧ x.status = 2)) ∧
      ∀ s4 pages, refused s3 { gr with kd := kd } = false →
        framePages s3 (gr.queue % 4) gr.ctx frame.toNat (frameBytes gr.record) = (s4, some pages) →
        Does (.gridStart g frame) s (fun u =>
          (grid? u g).map (fun x => (x.phase, x.kd, x.display.headD 0)) = some (.started, kd, nat64 frame.toNat) ∧
          (gr.parent = none → (grid? u g).map (·.level) = some 0) ∧
          (∀ p pg, gr.parent = some p → p ≠ g → grid? s p = some pg → (grid? u g).map (·.level) = some (pg.level + 1)) ∧
          (isDivisible gr.record = false → ∀ i < gr.record.nx * gr.record.ny * gr.record.nz,
            (fold? u (s.seq + 1 + i)).map (fun x => (x.grid, x.x, x.y, x.z, x.stage, x.place)) =
              some (g, i % gr.record.nx, i / gr.record.nx % gr.record.ny, i / (gr.record.nx * gr.record.ny), 0, .waiting)))) ∧
  ∀ s q n g p pg fr, penNext s q = some (n, g) → g.parent = some p → grid? s p = some pg → pg.frame = some fr →
    q < 4096 → deviceSlots s q < 64 →
    Does (.penMove q) s (fun u => n ∈ (queue u q).device ∧ (grid? u n).map (fun x => (x.phase, x.record)) =
      some (.queued, parseRecord ((List.range 128).map (fun i =>
        homeByte s (framePa fr (fsize pg.record + 256 * hdrGet s p hPENHEAD 2 + i))))))

/-! ## Packets -/

/-- R322 to R327, R345: a packet that may start takes effect: NOP and SIGNAL complete, write their signal record (R324) and
raise their interrupt, or fail the packet where the record cannot be written, WAIT completes once its word meets its condition,
TLBINV leaves no cached translation of its range, LOAD writes its result, and LAUNCH admits its grid or runs its prologue, whose
end admits the grid or cancels it. An object that cannot stand at the place leaves the packet waiting. The table layouts that
LOAD reads are the model's (log 27), and so is the reading that a signal address with a bit above 56 fails its packet with code
0x33 (log 40). -/
def Obligations.PacketsRun : Prop :=
  (∀ s q ix ty (p : Packet) i, q < 4096 → packetAt s q ix ty = some p → packet? s q p.id = some p → packetReady s q p = true →
    (ty = 6 ∧ i = .packetNop q ix) ∨ (ty = 2 ∧ i = .packetSignal q ix) →
    let cx := queueCtx (queue s q)
    let st := startPacket s q p
    let a := pkNat p 0x80 8
    let record := leBytes 8 (packetStatus p + 8 * min p.launches 65535)
    a ≠ 0 →
    (∀ s1 s2, a < 2 ^ 57 → writeVirt st (.die (q % 4)) cx (a + 8) record = (s1, .ok ()) →
      writeVirt s1 (.die (q % 4)) cx a (leBytes 8 (pkNat p 0x88 8)) = (s2, .ok ()) →
      Does i s (fun u => packetGone u q p.id ∧ KeptRegs s u ∧ SameFlags s u ∧ u.mem = (dirtyRecord s2 cx a).mem ∧
        u.plat.irqs = s.plat.irqs ++ (if pkNat p 0x90 4 % 2 = 1 then [((ctx s cx).owner, bits (queue s q).vec 10 0)] else []))) ∧
    (2 ^ 57 ≤ a ∨ (∃ s1 e, writeVirt st (.die (q % 4)) cx (a + 8) record = (s1, .error e)) →
      Does i s (fun u => (queue u q).stat = BitVec.ofNat 32 (p.slot % 65536 * 65536 + 0x3301) ∧
        (packet? u q p.id).map (·.dead) = some true))) ∧
  (∀ s q ix ty (p : Packet), q < 4096 → packetAt s q ix ty = some p → packet? s q p.id = some p → packetReady s q p = true →
    pkNat p 0x80 8 = 0 →
    let cx := queueCtx (queue s q)
    let st := startPacket s q p
    let atOnce := fun (i : Instr) => Does i s (fun u => packetGone u q p.id ∧ u.mem = s.mem ∧ KeptRegs s u ∧ SameFlags s u ∧
      u.plat.irqs = s.plat.irqs ++ (if pkNat p 0x90 4 % 2 = 1 then [((ctx s cx).owner, bits (queue s q).vec 10 0)] else []))
    (ty = 6 → atOnce (.packetNop q ix)) ∧
    (ty = 2 → atOnce (.packetSignal q ix)) ∧
    (ty = 3 → ∀ s1 b, feRead st (q % 4) cx (pkNat p 0 8) 8 = (s1, some b) →
      Does (.packetWait q ix) s (fun u =>
        (waitMet p (ofLe b) = true → packetGone u q p.id) ∧
        (waitMet p (ofLe b) = false → (packet? u q p.id).map (·.started) = some true))) ∧
    (ty = 4 →
      let r := tlbRange p
      Does (.packetTlbinv q ix) s (fun u => packetGone u q p.id ∧
        ∀ ag, ∀ e ∈ agTlb u ag, e.ctx = cx → ¬ (e.base < r.2 ∧ r.1 < e.base + 2 ^ e.size))) ∧
    (ty = 5 → ∀ (place : VA × VA) s1 obj, place.1.toNat % 64 = 0 → pkNat p 0x10 8 < 2 ^ 57 →
      feRead st (q % 4) cx (pkNat p 0 8) (pkNat p 8 8) = (s1, some obj) →
      let lib := nat64 (pkNat p 0x18 8)
      let result := fun (s3 s4 : State) (r : List Byte) => writeVirt s3 (.die (q % 4)) cx (pkNat p 0x10 8) r = (s4, .ok ()) →
        Does (.packetLoad q ix place) s (fun u => packetGone u q p.id ∧ u.mem = s4.mem)
      (∀ code bit s2, checkObject s1 cx obj lib = .bad code bit →
        result s1 s2 (leBytes 8 code ++ leBytes 8 bit ++ leBytes 24 0)) ∧
      ∀ binds s3, checkObject s1 cx obj lib = .good binds →
        (placeObject s1 (q % 4) cx obj place = (s3, true) → ∀ s4,
          result (bindRoutines s3 (q % 4) cx binds) s4 (leBytes 16 0 ++ leBytes 8 (Config.objectHandle s1.freeIx obj).toNat
            ++ leBytes 8 place.1.toNat ++ leBytes 8 (bytesAt obj 0x4C 4))) ∧
        (placeObject s1 (q % 4) cx obj place = (s3, false) →
          exec (.packetLoad q ix place) s = .next { s with ms := { s.ms with need := s3.ms.need } }))) ∧
  (∀ s q ix (p : Packet), q < 4096 → packetAt s q ix 3 = some p → packet? s q p.id = some p → p.started = true → p.dead = false →
    pkNat p 0x80 8 = 0 → ∀ s1 b, feRead s (q % 4) (queueCtx (queue s q)) (pkNat p 0 8) 8 = (s1, some b) →
    Does (.waitPoll q ix) s (fun u => (waitMet p (ofLe b) = true → packetGone u q p.id) ∧
      (waitMet p (ofLe b) = false → packet? u q p.id = some p))) ∧
  (∀ s q ix (p : Packet), q < 4096 → packetAt s q ix 1 = some p → packet? s q p.id = some p → packetReady s q p = true →
    (pkProlen p = 0 → Does (.packetLaunch q ix) s (fun u => Admitted u s.seq q (some p.id) (parseRecord (p.bytes.take 128)) ∧
      (packet? u q p.id).map (fun x => (x.started, x.grid)) = some (true, some s.seq))) ∧
    (pkProlen p ≠ 0 → (die s (q % 4)).prologue = none → ∀ s1 regs pc n w,
      runPrologue q p 256 (startPacket s q p) (prologueRegs p) 0 0 = (s1, .at regs pc n w) →
      Does (.packetLaunch q ix) s (fun u => (die u (q % 4)).prologue =
        some { queue := q, packet := p.id, sregs := regs, pc := pc, executed := n, word := w }))) ∧
  (∀ s (d : Fin 4) x p i, prologueEnd s d.val = some (x, p, i) → x.queue < 4096 →
    let rb := (List.range 16).flatMap (fun j => leBytes 8 (tgetD x.sregs j 0).toNat)
    (∀ d', i = .prologueGo d' → recordOk rb = true →
      Does (.prologueGo d) s (fun u => Admitted u s.seq x.queue (some p.id) (parseRecord rb) ∧ (die u d.val).prologue = none)) ∧
    (∀ d', i = .prologueCancel d' → p.dead = false → pkNat p 0x80 8 = 0 →
      Does (.prologueCancel d) s (fun u => packetGone u x.queue p.id ∧ u.grids = s.grids ∧ (die u d.val).prologue = none)) ∧
    ∀ d' m, i = .prologueRepeat d' m → recordOk rb = true →
      Does (.prologueRepeat d m) s (fun u => Admitted u s.seq x.queue (some p.id) (parseRecord rb) ∧
        (die u d.val).prologue = none ∧
        (packet? u x.queue p.id).map (fun y => (y.repMax, y.launches)) = some (some m.toNat, p.launches + 1)))

/-! ## Queues, contexts and registers -/

/-- R320, R321, R325, R340, R341: a doorbell, the taking of a packet and its checks, the enabling of a queue, the clearing of its
error, and its export and import in the canonical form. That QIMPORT and QDOOR count only as EN stands is the model's reading
(log 40). -/
def Obligations.QueuesWork : Prop :=
  ∀ s q, q < 4096 →
    let x := queue s q
    (queueEn x = true → Does (.qdoor q) s (fun u => OnlyPlace s u ∧ (queue u q).door = true)) ∧
    (queueEn x = true → x.door = true → bitOf x.stat 0 = false → s.plat.moving = false → ∀ s1 b,
      feRead s (q % 4) (queueCtx x) (bits x.base 56 8 * 256 + 256 * x.head) 256 = (s1, some b) →
      let p := newPacket s.seq x.head b
      let next := if x.head + 1 < slotCount x then (x.head + 1, x.tag) else (0, x.tag % 255 + 1)
      (bytesAt b 255 1 ≠ x.tag → Does (.packetTake q) s (fun u => (queue u q).packets = x.packets ∧ (queue u q).door = false ∧
        (queue u q).head = x.head)) ∧
      (bytesAt b 255 1 = x.tag → packetCode p = 0 → Does (.packetTake q) s (fun u => (queue u q).packets = x.packets ++ [p] ∧
        ((queue u q).head, (queue u q).tag) = next ∧ (queue u q).stat = x.stat)) ∧
      (bytesAt b 255 1 = x.tag → packetCode p ≠ 0 → Does (.packetTake q) s (fun u => (queue u q).packets = x.packets ∧
        ((queue u q).head, (queue u q).tag) = next ∧
        (queue u q).stat = BitVec.ofNat 32 (x.head % 65536 * 65536 + packetCode p % 256 * 256 + 1)))) ∧
    (∀ v : W32, queueEn x = false → (ctx s (bits v 27 16)).live = true →
      Does (.queueEnable q v) s (fun u => OnlyPlace s u ∧ queueEn (queue u q) = true ∧ queueCtx (queue u q) = bits v 27 16 ∧
        queuePrio (queue u q) = bits v 3 1 ∧ queueResv (queue u q) = bitOf v 4 ∧
        ((queue u q).head, (queue u q).tag) = if x.imported then (x.head, x.tag) else (0, 1))) ∧
    (bitOf x.stat 0 = true → Does (.qstatErrClear q) s (fun u => OnlyPlace s u ∧ bitOf (queue u q).stat 0 = false ∧
      (queue u q).packets = x.packets.filter (fun p => !p.dead))) ∧
    ∀ a : VA, queueEn x = false →
      (x.packets.any (·.started) = false → ∀ s1, writeVirt s (.die (q % 4)) (queueCtx x) (a.toNat / 64 * 64)
          (leBytes 8 x.base.toNat ++ leBytes 4 x.size.toNat ++ leBytes 4 x.ctl.toNat ++ leBytes 4 x.resv.toNat
            ++ leBytes 4 x.vec.toNat ++ leBytes 4 (x.head % 65536 + x.tag % 256 * 65536) ++ leBytes 4 x.stat.toNat
            ++ List.replicate 32 0) = (s1, .ok ()) →
        exec (.qexport q a) s = .next s1) ∧
      ∀ s1 b, feRead s (q % 4) (queueCtx x) (a.toNat / 64 * 64) 64 = (s1, some b) →
        Does (.qimport q a) s (fun u => (queue u q).head = bytesAt b 24 2 ∧ (queue u q).tag = bytesAt b 26 1 ∧
          (queue u q).base = nat64 (bytesAt b 0 8) &&& 0x01FFFFFFFFFFFF00 ∧ (queue u q).size = BitVec.ofNat 32 (bytesAt b 8 4 % 32) ∧
          queueCtx (queue u q) = bytesAt b 14 2 % 4096 ∧ queueEn (queue u q) = false ∧ (queue u q).imported = true)

/-- R4, R100, R267, R319, R329, R337, R338, R342, R355, R360, R370: the commands of contexts and the writes of the host's
registers: a register takes the bits that it has, one that is only read takes none, and one that is only written reads as zero;
a number past the last queue, paddock or context names none; a function reads what it reaches; the log engine takes the oldest
entry of the EVQ whose turn it is, where no other die's stands before it. Which bits of HDM_SIZE a write keeps, and that there
are 64 virtual functions, are the model's choices (log 28), and so is what a function reads where it reaches nothing (log 27).
-/
def Obligations.RegistersWork : Prop :=
  (∀ s c owner, c < 4096 →
    ((ctx s c).live = false → owner ≤ s.plat.vfs → Does (.contextCreate c owner) s (fun u => Steady s u ∧
      ctx u c = { Ctx.reset with live := true, owner := owner } ∧ ctxStat u = 0)) ∧
    ((ctx s c).live = true → Does (.contextCreate c owner) s (fun u => u.ctxs = s.ctxs ∧ ctxStat u = 0x102)) ∧
    ((ctx s c).live = false → s.plat.vfs < owner → Does (.contextCreate c owner) s (fun u => u.ctxs = s.ctxs ∧ ctxStat u = 0x402)) ∧
    ((ctx s c).live = true → ctxInUse s c = false → Does (.contextDestroy c) s (fun u => Steady s u ∧
      (ctx u c).live = false ∧ ctxStat u = 0)) ∧
    ((ctx s c).live = false → Does (.contextDestroy c) s (fun u => u.ctxs = s.ctxs ∧ ctxStat u = 0x202)) ∧
    ((ctx s c).live = true → ctxInUse s c = true → Does (.contextDestroy c) s (fun u => u.ctxs = s.ctxs ∧ ctxStat u = 0x302))) ∧
  (∀ s c, (ctx s c).live = true →
    let k := ctx s c
    (∀ v : W64, k.od.holder = none → k.od.window = none → bits v 47 0 ≠ 0 → k.od.f + bits v 47 0 ≤ 2 ^ 48 - 1 →
      Does (.odwWrite c v) s (fun u => KeptRegs s u ∧ SameMem s u ∧ (ctx u c).od.window = some (bits v 47 0) ∧ (ctx u c).od.base = k.od.f ∧
        (ctx u c).od.f = k.od.f)) ∧
    (∀ (n : Nat) (v : W32), n < 8 → Does (.fpevLimitWrite c (0x010 + n) v) s (fun u => KeptRegs s u ∧ SameMem s u ∧
      ctxRegRead u c (0x010 + n) = v.setWidth 64 ∧ (k.fpev.window = 0 → ∀ m < 8, ctxRegRead u c (8 + m) = 0) ∧
      ∀ m < 8, ctxRegRead u c m = ctxRegRead s c m)) ∧
    (∀ v : W32, Does (.fpevLimitWrite c 0x019 v) s (fun u => KeptRegs s u ∧ SameMem s u ∧
      ctxRegRead u c 0x019 = (v.setWidth 16).setWidth 64)) ∧
    (k.dirty.en = false → Does (.dirtyEnable c) s (fun u => KeptRegs s u ∧ SameMem s u ∧ (ctx u c).dirty.en = true ∧
      (ctx u c).dirty.tail = k.dirty.head ∧ (ctx u c).dirty.head = k.dirty.head))) ∧
  (∀ s, s.plat.svc = 2 → s.plat.hdmEn = false → Does .hdmEnable s (fun u => KeptRegs s u ∧ SameMem s u ∧ u.plat.hdmEn = true ∧
    u.ms.biasHost = [])) ∧
  (∀ s (v : W64) (q p c : Nat), q < 4096 → p < 64 → c < 4096 →
    let w : W32 := v.setWidth 32
    let writes := fun (r : HostReg) (more : State → Prop) => Does (.registerWrite r v) s (fun u => Steady s u ∧ more u)
    writes (.qBase q) (fun u => queueEn (queue s q) = false → (queue u q).base = v &&& 0x01FFFFFFFFFFFF00) ∧
    writes (.qBase q) (fun u => queueEn (queue s q) = true → queue u q = queue s q) ∧
    writes (.qSize q) (fun u => (queueEn (queue s q) = false → (queue u q).size = w &&& 0x1F) ∧
      (queueEn (queue s q) = true → queue u q = queue s q)) ∧
    writes (.qCtl q) (fun u =>
      (queueEn (queue s q) = false → (ctx s (bits w 27 16)).live = true → queueCtx (queue u q) = bits w 27 16 ∧
        bits (queue u q).ctl 4 1 = bits w 4 1 ∧ queueEn (queue u q) = bitOf w 0) ∧
      (queueEn (queue s q) = false → (ctx s (bits w 27 16)).live = false → queueEn (queue u q) = false) ∧
      (queueEn (queue s q) = true → queueCtx (queue u q) = queueCtx (queue s q) ∧ bits (queue u q).ctl 4 1 = bits w 4 1 ∧
        queueEn (queue u q) = bitOf w 0)) ∧
    writes (.qResv q) (fun u => (queue u q).resv = w &&& 0xFFFF) ∧
    writes (.qVec q) (fun u => (queue u q).vec = w &&& 0x7FF) ∧
    writes (.padMin p) (fun u => 3 ≤ w.toNat → w.toNat ≤ 63 → (pad u p).min = w) ∧
    writes (.padMax p) (fun u => (pad s p).min.toNat ≤ w.toNat → w.toNat ≤ 63 → (pad u p).max = w) ∧
    writes (.padShare p) (fun u => (pad u p).share = w) ∧
    writes (.ctxPad c) (fun u => (∀ e ∈ s.queues, queueEn e.2 = true → queueCtx e.2 ≠ c) → (ctx u c).pad = bits v 5 0) ∧
    writes (.ctxReg c p) (fun u => u = if (ctx s c).live then ctxRegWrite s c p v else s) ∧
    writes (.coreReg c 0x080) (fun u => c < 256 → bits v 3 0 ≤ 8 → (coreAt u c).grant = bits v 3 0) ∧
    writes (.evjBase c) (fun u => (ctx s c).live = true → (ctx u c).evj.base = v) ∧
    writes (.evjHead c) (fun u => (ctx s c).live = true → (ctx u c).evj.head = w) ∧
    writes (.evjSize c) (fun u => (ctx s c).live = true → (ctx u c).evj.size = w) ∧
    writes (.evjVec c) (fun u => (ctx s c).live = true → (ctx u c).evj.vec = v.setWidth 11) ∧
    writes (.dirtyEn c) (fun u => (ctx s c).live = true → (ctx u c).dirty.en = bitOf v 0 ∧
      (bitOf v 0 = true → (ctx s c).dirty.en = false → (ctx u c).dirty.tail = (ctx s c).dirty.head)) ∧
    writes (.dirtyBase c) (fun u => (ctx s c).live = true → (ctx s c).dirty.en = false →
      (ctx u c).dirty.base = v &&& 0x01FFFFFFFFFFF000) ∧
    writes (.dirtySize c) (fun u => (ctx s c).live = true → (ctx s c).dirty.en = false → (ctx u c).dirty.size = w &&& 0x1F) ∧
    writes (.dirtyHead c) (fun u => (ctx s c).live = true → (ctx u c).dirty.head = w) ∧
    writes .hdmBase (fun u => s.plat.hdmEn = false → u.plat.hdmBase = v &&& 0x000000FFC0000000) ∧
    writes .hdmSize (fun u => s.plat.hdmEn = false → u.plat.hdmSize = v &&& 0xFFFFFFFFC0000000) ∧
    writes .hdmCtl (fun u => (bitOf v 0 = false → u.plat.hdmEn = false) ∧
      (bitOf v 0 = true → s.plat.svc = 2 → u.plat.hdmEn = true) ∧ (bitOf v 0 = true → s.plat.svc ≠ 2 → u.plat.hdmEn = s.plat.hdmEn)) ∧
    (∀ n, writes (.hashEn n) (fun u => tgetD u.plat.hashEn n false = bitOf v 0)) ∧
    (∀ n l, writes (.hashList n l) (fun u => tgetD u.plat.hashes n [] = l.take 1024)) ∧
    writes .numVfs (fun u => u.plat.vfs = min 64 v.toNat) ∧
    (∀ n < 128, writes (.nodeRoute n) (fun u => tgetD u.plat.nodeRoute n 0 = v.setWidth 18)) ∧
    writes .pwrCap (fun u => u.plat.pwrCap = BitVec.ofNat 32 (max 600 (min 1800 (bits v 11 0)))) ∧
    writes .cejStatus (fun u => bitOf v 0 = true → u.plat.cej.ackErr = false) ∧
    writes .svcStat (fun u => bitOf v 3 = true → u.plat.trip = false) ∧
    writes .localNode (fun u => bits v 6 0 ≠ 0 → u.plat.localNode = v.setWidth 7)) ∧
  (∀ s (v : W64) (q p c : Nat),
    (∀ r ∈ ([.ctxStat, .qHead q, .evjTail c, .evjLost c, .dirtyTail c, .dirtyLost c, .padDeliv p, .padCores p, .padTokens p,
        .padFlags p, .pwrNow, .tempMax, .pkgInfo, .biasStat, .collapseList p, .cejBase, .cejSize, .cejHead, .cejTail,
        .cejAkeyHash 0, .cejAkeyHash 1, .cejAkeyHash 2, .cejAkeyHash 3, .cejAkeyHash 4, .cejAkeyHash 5] : List HostReg),
      exec (.registerWrite r v) s = .next s) ∧
    (∀ fn, ∀ r ∈ ([.ctxCmd, .qDoor q, .qImport q, .qExport q, .cejAck] : List HostReg), hostRegRead s fn r = 0) ∧
    (∀ fn r, (s.plat.fw.recovery = true → hostRegRead s fn r = 0) ∧ (fn ≠ 0 → fnReg s fn r = false → hostRegRead s fn r = 0) ∧
      (s.plat.fw.recovery = false → fn = 0 ∨ fnReg s fn r = true → hostRegRead s fn r = regWord s r)) ∧
    (4096 ≤ q → ∀ r ∈ ([.qBase q, .qSize q, .qResv q, .qVec q] : List HostReg), Does (.registerWrite r v) s (fun u =>
      Steady s u ∧ u.queues = s.queues)) ∧
    (64 ≤ p → ∀ r ∈ ([.padMin p, .padMax p, .padShare p] : List HostReg), Does (.registerWrite r v) s (fun u =>
      Steady s u ∧ u.pads = s.pads)) ∧
    (4096 ≤ c → exec (.registerWrite (.ctxPad c) v) s = .next s) ∧
    exec (.registerWrite (.qDoor q) v) s = exec (.qdoor q) s ∧
    exec (.registerWrite (.qImport q) v) s = exec (.qimport q (v.setWidth 57)) s ∧
    exec (.registerWrite (.qExport q) v) s = exec (.qexport q (v.setWidth 57)) s ∧
    (bitOf v 0 = true → exec (.registerWrite (.qStat q) v) s = exec (.qstatErrClear q) s) ∧
    (bits v 13 12 = 1 → exec (.registerWrite .ctxCmd v) s = exec (.contextCreate (bits v 11 0) (bits v 22 16)) s) ∧
    (bits v 13 12 = 2 → exec (.registerWrite .ctxCmd v) s = exec (.contextDestroy (bits v 11 0)) s)) ∧
  ∀ s c (e : EvEnt) r, (coreAt s c).evq = e :: r → evqNext s (dieOf c) = some c → evqBefore s c e = false →
    let s0 := modDie (modCore s c (fun co => { co with evq := r })) (dieOf c) (fun d => { d with evTurn := c % 64 })
    Does (.evqDrain c) s (fun u => KeptRegs s u ∧ SameFlags s u ∧ (coreAt u c).evq = r ∧ (die u (dieOf c)).evTurn = c % 64 ∧
      let j := (ctx s e.ctx).evj
      (j.size.toNat ≤ (j.tail - j.head).toNat → u.mem = s.mem ∧ (ctx u e.ctx).evj.lost = satInc j.lost ∧ (ctx u e.ctx).evj.tail = j.tail) ∧
      (∀ s1, (j.tail - j.head).toNat < j.size.toNat → (ctx s e.ctx).dirty.en = false →
        writeVirt (evjNote s0 e.ctx e.ts (coreSrc c)) front e.ctx ((j.base.toNat + 32 * (j.tail.toNat % j.size.toNat)) % 2 ^ 57)
          (leBytes 8 e.ts.toNat ++ leBytes 8 ((if bitOf e.w0 16 then 1 else 9) + coreSrc c % 65536 * 2 ^ 16 + bits e.w0 15 0 * 2 ^ 32)
            ++ leBytes 8 e.w1.toNat ++ leBytes 8 e.grid.toNat) = (s1, .ok ()) →
        u.mem = s1.mem ∧ (ctx u e.ctx).evj.tail = j.tail + 1))

/-! ## The platform -/

/-- R329 to R337, R372 to R375: events reach the Corrected-Error Journal and leave it, acknowledged entries are freed, a key is
installed once; firmware sets grants and floors, throttles and recovers a die, answers attestation, boots, recovers, and moves the
package to full service. What the power meters, the thermal sensors and the cryptography give is an argument or an opaque constant
(the model's choices, logs 13 and 14); what a module reset leaves of memory, and the place of the bias table, are the model's too
(logs 11 and 41). -/
def Obligations.PlatformActs : Prop :=
  (∀ s (src code : BitVec 16) (loc syn : W64) (port : Fin 18), s.plat.cej.held.find? (fun h => h.src == src) = none →
    let held := fun (i : Instr) (src code : BitVec 16) (loc syn : W64) => Does i s (fun u => Steady s u ∧
      u.plat.cej.held = s.plat.cej.held ++
        [{ src := src, code := code, loc := loc, syn := syn, ts := s.plat.ts, last := s.plat.ts, count := 0 }])
    held (.cejEvent src code loc syn) src code loc syn ∧
    (src = BitVec.ofNat 16 (portSrc port.val) → held (.flitRetry port syn) src 0x0005 (BitVec.ofNat 64 port.val) syn)) ∧
  (∀ s src code loc syn h, s.plat.cej.held.find? (fun h => h.src == src) = some h → h.code = code → h.loc = loc →
    h.count + 1 < 2 ^ 24 - 1 →
    Does (.cejEvent src code loc syn) s (fun u => Steady s u ∧ u.plat.cej.tail = s.plat.cej.tail ∧
      u.plat.cej.held = s.plat.cej.held.map (fun x => if x.src == src then { h with count := h.count + 1, last := s.plat.ts } else x))) ∧
  (∀ s ix (h : CejHeld), s.plat.cej.held[ix]? = some h → 1000000 ≤ (s.plat.ts - h.ts).toNat → cejFull s = false →
    s.plat.cej.since + 1 < 4096 →
    (∀ x ∈ s.plat.cej.held, ¬ (x.ts.toNat < h.ts.toNat ∨ (x.ts = h.ts ∧ x.src.toNat < h.src.toNat))) →
    Does (.cejCoalesceExpire ix) s (fun u => KeptRegs s u ∧ u.plat.cej.held = s.plat.cej.held.eraseIdx ix ∧
      u.plat.cej.tail = s.plat.cej.tail + 1 ∧
      (memBytes u.mem (cejAt s s.plat.cej.tail.toNat) 40 = leBytes 8 h.ts.toNat ++ leBytes 2 h.src.toNat ++ leBytes 2 0
        ++ leBytes 2 h.code.toNat ++ leBytes 2 0 ++ leBytes 8 h.loc.toNat ++ leBytes 8 h.syn.toNat
        ++ leBytes 5 s.plat.cej.tail.toNat ++ leBytes 3 h.count))) ∧
  (∀ s (addr : W64) (a : CejAck), s.plat.cej.counters = [] → s.plat.cej.since < 4096 →
    let c := s.plat.cej
    let chain := beBytes 24 a.chain.toNat
    let good := c.akey ≠ [] ∧ (a.seq - c.head).toNat < (c.tail - c.head).toNat ∧
      (memBytes s.mem (cejAt s a.seq.toNat) 64).drop 40 = chain ∧
      Config.ecdsaVerify c.akey (Config.sha384 (leBytes 8 a.seq.toNat ++ chain)) a.sig = true
    Does (.cejAck addr a) s (fun u => Steady s u ∧
      (good → u.plat.cej.head = a.seq + 1 ∧ u.plat.cej.ackErr = c.ackErr) ∧
      (¬ good → u.plat.cej.head = c.head ∧ u.plat.cej.ackErr = true))) ∧
  (∀ s key sig,
    let takes := s.plat.cej.akey = [] ∨ Config.ecdsaVerify s.plat.cej.akey (Config.sha384 key) sig = true
    Does (.cejAkeyInstall key sig) s (fun u => Steady s u ∧ (takes → u.plat.cej.akey = key) ∧ (¬ takes → u = s))) ∧
  (∀ s c p, userCore s c = true → (coreAt s c).marked = none → padMove s c p = true →
    ((coreAt s c).pad = none → residents s c = [] →
      Does (.paddockRebalance c p) s (fun u => Steady s u ∧ (coreAt u c).pad = some p ∧ (coreAt u c).marked = none)) ∧
    ∀ o, (coreAt s c).pad = some o → o ≠ p → residents s c ≠ [] →
      Does (.paddockRebalance c p) s (fun u => Steady s u ∧ (coreAt u c).pad = some o ∧ (coreAt u c).marked = some p)) ∧
  (∀ s (predicted : BitVec 12) (g : BitVec 4) (preds : Vector (BitVec 12) 9) (w : BitVec 12),
    let within := fun (t : Nat) => (preds.toList.getD t 0).toNat ≤ s.plat.pwrCap.toNat
    (s.plat.pwrCap.toNat < predicted.toNat → exec (.grantRecompute predicted g preds w) s = .next s) ∧
    (g.toNat ≤ 8 → predicted.toNat ≤ s.plat.pwrCap.toNat → ∃ fl ≤ 8, (∀ t ≤ 8, within t → t ≤ fl) ∧ (fl = 0 ∨ within fl) ∧
      Does (.grantRecompute predicted g preds w) s (fun u => Steady s u ∧ u.plat.pwrNow = w.setWidth 32 ∧
        (∀ p < 64, (pad u p).tokens = fl) ∧
        ∀ c, userCore s c = true → (∀ p, (coreAt s c).pad = some p → p < 64) → (coreAt u c).grant =
          if (die s (dieOf c)).throttled then 0
          else max (shareGrant s (coreAt s c).pad g.toNat) (if (coreAt s c).pad = none then 0 else fl)))) ∧
  (∀ s (d : Fin 4) (t : BitVec 8) (g : BitVec 4 × BitVec 12),
    (95 < t.toNat → Does (.thermalThrottle d t) s (fun u => Steady s u ∧ (die u d.val).throttled = true ∧
      ∀ i < 64, (coreAt u (64 * d.val + i)).grant = 0)) ∧
    (t.toNat < 90 → (die s d.val).throttled = true → g.1.toNat ≤ 8 → g.2.toNat ≤ s.plat.pwrCap.toNat →
      Does (.thermalRecover d t g) s (fun u => Steady s u ∧ (die u d.val).throttled = false ∧
        ∀ i < 64, ∀ co, co = coreAt s (64 * d.val + i) → (coreAt u (64 * d.val + i)).grant =
          max ((peerGrant s d.val co.pad).getD (shareGrant s co.pad g.1.toNat)) (match co.pad with
            | some p => (pad s p).tokens
            | none => 0))) ∧
    (t.toNat < 90 → s.plat.pwrCap.toNat < g.2.toNat → Does (.thermalRecover d t g) s (fun u => Steady s u ∧
      ∀ c, (coreAt u c).grant = (coreAt s c).grant)) ∧
    (105 < t.toNat → Does (.thermalTrip d t) s (fun u => u.folds = [] ∧ u.plat.trip = true ∧
      ((imageGood (flashOf s) = true ∧ u.plat.svc = 1) ∨ (imageGood (flashOf s) = false ∧ u.plat.fw.recovery = true))))) ∧
  (∀ s, Does .moduleReset s (fun u => u.folds = [] ∧ u.grids = [] ∧ u.ctxs = [] ∧ u.queues = [] ∧
      (imageGood (flashOf s) = true → u.plat.svc = 1 ∧ u.plat.fw.measurements = [Config.sha384 (flashOf s)] ∧ u.plat.cej.tail = 1) ∧
      (imageGood (flashOf s) = false → u.plat.svc = 0 ∧ u.plat.fw.recovery = true ∧ u.mem = s.mem)) ∧
    ∀ image,
      Does (.recovery image) s (fun u =>
        (imageGood image = true → u.folds = [] ∧ u.plat.svc = 1 ∧ u.plat.fw.flash = some image ∧ u.plat.fw.recovery = false) ∧
        (imageGood image = false → s.plat.fw.recovery = false → u.folds = [] ∧ u.plat.svc = 0 ∧
          u.plat.fw.recovery = true ∧ u.plat.fw.flash = s.plat.fw.flash) ∧
        (imageGood image = false → s.plat.fw.recovery = true → u = s))) ∧
  (∀ s nonce, s.plat.svc ≠ 0 → ∃ sig : BitVec 768, Does (.attestationRequest nonce) s (fun u => Steady s u ∧
    u.plat.fw.report = leBytes 32 nonce.toNat ++ s.plat.fw.measurements.flatMap (fun m => beBytes 48 m.toNat)
      ++ leBytes 4 s.plat.fw.secVersion ++ featureMask s ++ beBytes 96 sig.toNat)) ∧
  ∀ s, s.plat.svc = 1 → s.plat.hbmErr = false →
    (∀ i, Does (.fullServiceTransition (.failed i)) s (fun u => Steady s u ∧ u.plat.svc = 1 ∧ u.plat.hbmErr = true)) ∧
    (∀ b, (∀ e ∈ s.folds, coreOf e.2 = none) → Does (.fullServiceTransition (.trained b)) s (fun u => KeptRegs s u ∧ SameFlags s u ∧
      u.plat.svc = 2 ∧ u.plat.moving = false ∧ u.plat.biasTab = some b)) ∧
    (∀ b f fo, fold? s f = some fo → (coreOf fo).isSome = true → (∀ e ∈ s.ms.regions, e.2.phase ≠ .pending) →
      Does (.fullServiceTransition (.trained b)) s (fun u => Steady s u ∧ u.plat.svc = 1 ∧ u.plat.moving = true ∧
        (fo.halt = none → (haltAt u f).map (·.reason) = some .preempt)))

/-! ## Links, peers and the host -/

/-- R354, R360 to R362: a link leaves service and returns; a request that has waited 100 ms ends in UCE; a peer's answer
completes its request, and its refusal raises PROT; a peer's request is performed once at the local home. What takes a request
out of its port when links move, and a peer request's place among the local requests, are the model's (logs 31 and 45); a task's
reading through its own versions is R199 (log 35). -/
def Obligations.LinksWork : Prop :=
  (∀ s n, n < 2 →
    (bitOf s.plat.linksUp n = true → Does (.linkLoss (.host n)) s (fun u => KeptRegs s u ∧ bitOf u.plat.linksUp n = false ∧
      bitOf u.plat.linksUp (1 - n) = bitOf s.plat.linksUp (1 - n) ∧
      (bitOf s.plat.linksUp (1 - n) = true → u.plat.linkHome = some (1 - n)))) ∧
    (bitOf s.plat.linksUp n = false → Does (.linkRetrain (.host n)) s (fun u => KeptRegs s u ∧ SameFlags s u ∧
      bitOf u.plat.linksUp n = true ∧ bitOf u.plat.linksUp (1 - n) = bitOf s.plat.linksUp (1 - n)))) ∧
  (∀ s n, n < 18 →
    (bitOf s.plat.portsUp n = true → Does (.linkLoss (.port n)) s (fun u => KeptRegs s u ∧
      (∀ m, bitOf u.plat.portsUp m = (bitOf s.plat.portsUp m && decide (m ≠ n))) ∧
      ((∀ r ∈ s.ms.peerReqs, r.port ≠ n) → u.ms.peerReqs = s.ms.peerReqs ∧ SameFlags s u) ∧
      ∀ r p, s.ms.peerReqs = [r] → r.port = n → portOf u r.node = some p → u.ms.peerReqs = [{ r with port := p }] ∧ SameFlags s u)) ∧
    (bitOf s.plat.portsUp n = false → s.plat.svc = 2 → Does (.linkRetrain (.port n)) s (fun u => KeptRegs s u ∧ SameFlags s u ∧
      ∀ m, bitOf u.plat.portsUp m = (bitOf s.plat.portsUp m || decide (m = n))))) ∧
  (∀ s ix r fo, s.ms.peerReqs[ix]? = some r → fold? s r.fold = some fo →
    let halts := fun (u : State) (cause : BitVec 8) => fo.halt = none →
      (haltAt u r.fold).map (fun h => (h.reason, h.cause, h.pflock, h.faddr)) = some (.fault, cause, some r.flock, reqVa r)
    (100000000 ≤ (s.plat.ts - r.ts).toNat → Does (.requestTimeout ix) s (fun u => KeptRegs s u ∧
      u.ms.peerReqs = s.ms.peerReqs.erase r ∧ halts u 0x17)) ∧
    ((s.plat.ts - r.ts).toNat < 100000000 → exec (.requestTimeout ix) s = .next s) ∧
    Does (.peerResponse ix .refused) s (fun u => KeptRegs s u ∧ u.ms.peerReqs = s.ms.peerReqs.erase r ∧ halts u 0x12) ∧
    (∀ o, r.isLoad = false → reqAtomic s r = none → opAt s r.fold r.flock r.op = some o → o.left = 1 →
      Does (.peerResponse ix .ack) s (fun u => KeptRegs s u ∧ u.ms.peerReqs = s.ms.peerReqs.erase r ∧ Over s u r.fold r.flock o)) ∧
    (∀ (e : LEntry) sgn z d (v : List Byte), r.isLoad = true → reqLoad s r = some e → e.kind = .raw sgn z d → v.length = e.n →
      Does (.peerResponse ix (.data v)) s (fun u => u.ms.peerReqs = s.ms.peerReqs.erase r ∧
        HasLoad u r.fold r.flock e.lane sgn z d (if e.task then peerOverlay s r.fold r.node r.va v else v) ∧
        SameV s u (writtenV r.fold r.flock e.lane (match z with | .b128 => 4 | .b64 => 2 | _ => 1) d) ∧ SameS s u noS ∧ SameP s u noP)) ∧
    ∀ (e : FEntry) t aop d (v : List Byte), reqLoad s r = none → reqAtomic s r = some e → e.act = .atom t aop d →
      v.length = e.data.length →
      Does (.peerResponse ix (.data v)) s (fun u => u.ms.peerReqs = s.ms.peerReqs.erase r ∧
        fifoAt u r.fold r.flock = (fifoAt s r.fold r.flock).drop 1 ∧ SameV s u (writtenV r.fold r.flock e.lane (width t) d) ∧
        ∀ n, d = .v n → vregAt u r.fold r.flock e.lane n.val =
          BitVec.ofNat 32 (ofLe (if e.task then peerOverlay s r.fold r.node r.va v else v)))) ∧
  ∀ s (port : Fin 18) node tag cx (va : VA), bitOf s.plat.portsUp port.val = true → (ctx s cx).live = true →
    (∀ (op : PeerOp), s.ms.served.any (fun x => x.node == node && x.tag == tag && x.op == op) = true →
      exec (.peerRequest port node tag cx op) s = .next s) ∧
    (∀ n s1 t, s.ms.served.any (fun x => x.node == node && x.tag == tag && x.op == .load va n) = false →
      translate s (.die (portDie port.val)) cx va.toNat .load = (s1, .ok t) → (isHostPa t.pa && noHost s1) = false →
      biasReady s1 t.pa false = true →
      earlierAtHome s1 (homeOf s1 t.pa (effCmode s1 t.pa (leafCmode t.leaf))) s1.plat.ts (portSrc port.val) (fun _ _ => false) = false →
      (lineSt s1 (t.pa / 128)).m = none →
      Does (.peerRequest port node tag cx (.load va n)) s (fun u => KeptRegs s u ∧ u.mem = s1.mem ∧
        { node := node, tag := tag, op := .load va n, answer := homeBytes s1 t.pa n, ok := true } ∈ u.ms.served)) ∧
    ∀ bs s1 t, bs ≠ [] → s.ms.served.any (fun x => x.node == node && x.tag == tag && x.op == .store va bs) = false →
      inFpool s cx va.toNat bs.length = false → translate s (.die (portDie port.val)) cx va.toNat .store = (s1, .ok t) →
      (isHostPa t.pa && noHost s1) = false → biasReady s1 t.pa true = true → effCmode s1 t.pa (leafCmode t.leaf) ≠ 3 →
      earlierAtHome s1 (homeOf s1 t.pa (effCmode s1 t.pa (leafCmode t.leaf))) s1.plat.ts (portSrc port.val) (fun _ _ => false) = false →
      Unowned s1 t.pa bs.length →
      Does (.peerRequest port node tag cx (.store va bs)) s (fun u => KeptRegs s u ∧ (∀ j < bs.length, homeByte u (t.pa + j) = bs.getD j 0) ∧
        { node := node, tag := tag, op := .store va bs, answer := [], ok := true } ∈ u.ms.served)

/-- R351, R352, R354, R357, R358, R359, R368, R369: the host's reads, writes, write-backs and snoops of a line take every copy
that stands in their way, and its data reach the home; a grant is kept at the link; a page that is collapsed loses every copy.
Where a write of host memory goes while the device holds the line is the model's choice (log 30). -/
def Obligations.HostWorks : Prop :=
  (∀ s line, s.plat.linksUp ≠ 0 → exposed s (128 * line) = true → (lineSt s line).m = none →
    (∀ pa n, n ≠ 0 → pa / 128 = line → (pa + n - 1) / 128 = line → exposedRange s pa n = true →
      (hostView s line = .device → exec (.hostRead pa n) s = .next s) ∧
      (hostView s line = .host → Does (.hostRead pa n) s (fun u => KeptRegs s u ∧ SameFlags s u ∧
        (∀ w, w / 32 = line → ownerOf u w = none) ∧ hostState u line = max 1 (hostState s line)))) ∧
    (hostView s line = .host → Does (.hostReadOwn line) s (fun u => KeptRegs s u ∧ SameFlags s u ∧ Clean u line ∧ hostState u line = 2)) ∧
    (hostView s line ≠ .host → exec (.hostReadOwn line) s = .next s)) ∧
  (∀ s pa (bs : List Byte), bs ≠ [] →
    (isHostPa pa = false → s.plat.linksUp ≠ 0 → exposedRange s pa bs.length = true → Unowned s pa bs.length →
      Does (.hostWrite pa bs) s (fun u => KeptRegs s u ∧ (∀ j < bs.length, homeByte u (pa + j) = bs.getD j 0) ∧
        ∀ line, pa / 128 ≤ line → line ≤ (pa + bs.length - 1) / 128 → Clean u line)) ∧
    (isHostPa pa = true → isHostPa (pa + bs.length - 1) = true → (∀ l ∈ linesOf pa bs.length, hostOnly s l = true) →
      Does (.hostWrite pa bs) s (fun u => KeptRegs s u ∧ ∀ a, memByte u.mem a =
        if pa ≤ a ∧ a < pa + bs.length then bs.getD (a - pa) 0 else memByte s.mem a))) ∧
  (∀ s line (data : List Byte), data.length = 128 → hostState s line = 2 → Unowned s (128 * line) 128 →
    let wrote := fun (u : State) => KeptRegs s u ∧ ∀ j < 128, homeByte u (128 * line + j) = data.getD j 0
    Does (.hostWriteback line data) s (fun u => wrote u ∧ hostState u line = 0) ∧
    ∀ inv, s.ms.snoops.find? (fun e => e.1 == line) = some (line, inv) → flipOf s (line / 32) = none →
      Does (.snoopResponse line data) s (fun u => wrote u ∧ hostState u line = (if inv then 0 else 1) ∧
        u.ms.snoops = s.ms.snoops.filter (fun e => e.1 != line))) ∧
  (∀ s line inv, hostState s line < 2 → s.ms.snoops.find? (fun e => e.1 == line) = some (line, inv) → flipOf s (line / 32) = none →
    Does (.snoopResponse line []) s (fun u => Steady s u ∧ hostState u line = (if inv then 0 else hostState s line) ∧
      u.ms.snoops = s.ms.snoops.filter (fun e => e.1 != line))) ∧
  (∀ s line, isHostPa (128 * line) = true →
    ((lineSt s line).m = none → Does (.hostSnoop line) s (fun u => KeptRegs s u ∧ SameFlags s u ∧ Clean u line ∧ line ∉ u.ms.hostOwn)) ∧
    ∀ data : List Byte, s.plat.linksUp ≠ 0 → line ∉ s.ms.hostOwn →
      Does (.hostOwnershipGrant line data) s (fun u => KeptRegs s u ∧ SameFlags s u ∧ line ∈ u.ms.hostOwn ∧
        (hostOnly s line = true → data.length = 128 → ∀ j < 128, memByte u.mem (128 * line + j) = data.getD j 0) ∧
        (hostOnly s line = false → u.mem = s.mem))) ∧
  ∀ s page z, s.ms.collapsing.find? (fun e => e.1 == page) = some (page, z) → s.ms.collapse.length < 4096 →
    Does (.replicaCollapse page) s (fun u => KeptRegs s u ∧ SameFlags s u ∧ u.mem = s.mem ∧ (page, z) ∈ u.ms.collapse ∧
      u.ms.collapsing = s.ms.collapsing.erase (page, z) ∧
      (∀ e ∈ u.ms.l2, ¬ (4096 * page ≤ 128 * e.line ∧ 128 * e.line < 4096 * page + 2 ^ z)) ∧
      ∀ c w v, 4096 * page ≤ 4 * w → 4 * w < 4096 * page + 2 ^ z → viewWord u c w = some v → v.st = .copy → v.dirty ≠ 0)

/-! ## The machine -/

/-- R11, R308, R319, R320, R329, R370: what the machine holds after module reset, where the spec says it: no context, grid or
fold, every queue disabled, the registers at their Reset values. That memory lists nothing is the model's (log 1). -/
def Obligations.ResetValues : Prop :=
  let s := State.reset
  s.mem = [] ∧ s.folds = [] ∧ s.grids = [] ∧ s.plat.ts = 0 ∧ s.plat.svc = 0 ∧ s.plat.trip = false ∧ s.plat.pwrCap = 1800 ∧
  s.plat.cej.head = 0 ∧ s.plat.cej.tail = 0 ∧ s.plat.cej.akey = [] ∧ s.plat.hdmEn = false ∧ s.plat.hdmSize = 0 ∧
  (∀ c, (ctx s c).live = false ∧ ctxRegRead s c 0x022 = 0x3B9ACA00 ∧ ctxRegRead s c 0x041 = 0xFFFFFFFF ∧
    (∀ n < 8, ctxRegRead s c (0x010 + n) = 0xFFFFFFFF) ∧
    ∀ n, n < 0x010 ∨ n ∈ [0x018, 0x019, 0x01A, 0x020, 0x021, 0x030, 0x031, 0x032, 0x033, 0x040, 0x044, 0x045, 0x046, 0x047, 0x050,
      0x051, 0x052, 0x060, 0x061, 0x090] → ctxRegRead s c n = 0) ∧
  (∀ c, coreRegRead s c 0x080 = 8 ∧ coreRegRead s c 0x081 = 0) ∧
  (∀ q, (queue s q).base = 0 ∧ (queue s q).size = 0 ∧ (queue s q).ctl = 0 ∧ (queue s q).resv = 0 ∧ (queue s q).head = 0 ∧
    (queue s q).stat = 0 ∧ (queue s q).vec = 0) ∧
  ∀ p, (pad s p).min = 3 ∧ (pad s p).max = 63 ∧ (pad s p).share = 0 ∧ (pad s p).deliv = 0 ∧ (pad s p).tokens = 8

/-- The memory after reset is in canonical form (the model's form of memory, log 1). -/
def Obligations.ResetMemoryCanonical : Prop := Memory.wf State.reset.mem = true

/-- Every step, whatever agent takes it, keeps memory in canonical form: addresses rise, and no listed byte is the byte that an
unlisted address reads as (the model's form of memory, log 1). -/
def Obligations.StepKeepsMemoryCanonical : Prop :=
  ∀ s t, Memory.wf s.mem = true → step s = .next t → Memory.wf t.mem = true

/-- R21, R23, R27, R28, R30 to R37, R41, R45: the encoding of every legal instruction word decodes to that instruction, with every
operand and modifier, and a word that decodes is the encoding of what it decodes to. -/
def Obligations.DecodeEncode : Prop :=
  (∀ i w, isWord i = true → WellFormed.wf i = true → encode i = some w → decode w = .ok i) ∧
  (∀ w i, decode w = .ok i → WellFormed.wf i = true ∧ encode i = some w) ∧
  ∀ w v i, decode w = .ok i → decode v = .ok i → w = v

/-- The guard and the hints of a word with neither, and of a word with a guard alone. -/
def Sys2Proof.noHints : Hd := { neg := false, gp := 0, slotB := false, reuse := false, last := false, yieldAfter := false }
def Sys2Proof.guardedBy (neg : Bool) (p : Fin 8) : Hd := { noHints with neg := neg, gp := p }

/-- R23, R27, R32, R33, R41, R75, R166, R209, R237, R253, R282, R309: the words that the spec writes out decode to the
instructions they stand for; a word of a group without instructions, of an unassigned operation, or with a reserved bit set
decodes to none. -/
def Obligations.SanityWords : Prop :=
  decode 0x00080047C000000000000000#96 = .ok (.clauseStart
    { len := 2, wait := 1, slotA := 1, slotB := 15, heavy := 0, yield := 0, tag := 0 }) ∧
  decode 0x206C40020050010000000010#96 = .ok (.vadd (guardedBy true 3) .i32 (.v 4) (.v 5) (.imm 16) false) ∧
  decode 0xF0030C1028101402C0638000#96 = .ok (.pair noHints 1 (.g4 3) 2 2 (.imm 1) (.v 10) (.v 11) (.v 12) .f32) ∧
  decode 0x1140C301E0400100FFFFFFF9#96 = .ok (.sdiv noHints .i64 (.s 3) (.s 4) (.imm 0xFFFFFFF9)) ∧
  decode 0x600000036020008200000040#96 = .ok (.ld noHints false (.v 6) (.s 2)
    { scope := .die, strm := false, order := .plain, size := .b32, off := 0x40 }) ∧
  decode 0x70000004002C060100000000#96 = .ok (.launch noHints (.v 8) (.v 2) (.s 3) 1) ∧
  decode 0x80C003038000000000000001#96 = .ok (.mxcommit noHints (.s 7) true) ∧
  decode 0x900000000000009000000000#96 = .ok (.fence noHints .rel .die) ∧
  decode 0xA00100000000050000000000#96 = .ok (.tbegin noHints (.o (.v 2)) 0) ∧
  decode 0xB00000000000000000000005#96 = .ok (.trap noHints 5) ∧
  decode 0xC00000000000000000000000#96 = .error .group ∧
  decode 0x038000000000000000000000#96 = .error .opNumber ∧
  decode 0xB00000000000000080000005#96 = .error .form

/-- R21, R45, R46, R48, R121, R296, R331: a step of a flock that may dispatch runs the instruction that the bytes at its
thread's PC decode to, or, at the head of a clause, the header that they decode to; bytes that decode to none raise ILLOP there.
A step of another agent runs its instruction, the host's through the window of a function, and where nothing is scheduled only
time passes (the model's schedule, log 2). A step that finds an access which must wait for the host or for a collapse takes its
effect back and asks (`settleOut`, R351 and R357). -/
def Obligations.StepRunsDecoded : Prop :=
  (∀ s f k r fo fl c, s.sched = .issue f k :: r → fold? s f = some fo → flock? s f k = some fl →
    let s0 := { s with freeIx := s.freeIx + 1, sched := r }
    let s1 := selectGroup { s0 with cur := some (f, k) } f k
    let s2 := countSkid (modFlock s1 f k (fun fl => { fl with yielded := false })) f k
    mayDispatch s0 fo fl = true → issuing? s1 = some c → lateLane c = none →
    (c.g.started = true → ∀ s3 w, clauseWord s2 c.c c.fo.ctx c.g c.hdr c.pc = (s3, .ok w) → targetBad c w = none →
      (∀ i, decode w = .ok i → (∀ hd, i ≠ .clauseStart hd) → wordBad s3 c i = false → missingFeature s3 i = none →
        step s = settleOut s0 (exec i s3)) ∧
      ((∀ i, decode w ≠ .ok i) → step s = settleOut s0 (.next (fetchFault s3 c 0x10 c.pc c.pc true)))) ∧
    (c.g.started = false → ∀ s3 w, fetchWord s1 c.c c.fo.ctx c.hdr = (s3, .ok w) →
      (∀ hd, decode w = .ok (.clauseStart hd) → step s = settleOut s0 (exec (.clauseStart hd) s3)) ∧
      ((∀ hd, decode w ≠ .ok (.clauseStart hd)) → step s = settleOut s0 (.next (headerFault s3 c w))))) ∧
  (∀ s i r, s.sched = .event i :: r →
    let s0 := { s with freeIx := s.freeIx + 1, sched := r }
    isWord i = false → windowAllows 0 i s0 = true → step s = settleOut s0 (exec i s0)) ∧
  (∀ s fn i r, s.sched = .host fn i :: r →
    let s0 := { s with freeIx := s.freeIx + 1, sched := r }
    isWord i = false → (windowAllows fn i s0 = true → step s = settleOut s0 (exec (throughWindow s0 fn i) s0)) ∧
      (windowAllows fn i s0 = false → step s = .next s0)) ∧
  ∀ s, s.sched = [] → s.cur = none → step s = .next (tick { s with freeIx := s.freeIx + 1 } 1)

end
end

