-- ==== Sys2Proof/Laws/Arith.lean ====
section
/-! SUPPORT. The operations on words that the integer meanings use are those of the rules on exact numbers. -/

namespace Sys2Proof.Machine

open Sys2Proof

theorem num_intVal {n : Nat} (sg : Bool) (x : BitVec n) : intVal sg x = num sg x := rfl

theorem intDiv_eq {n : Nat} (sg : Bool) (x y : BitVec n) : intDiv sg x y = quot sg x y := by
  unfold intDiv quot
  split
  · rfl
  · cases sg with
    | true =>
      simp only [num, if_true]
      apply BitVec.eq_of_toInt_eq
      rw [BitVec.toInt_sdiv, BitVec.toInt_ofInt]
    | false =>
      simp only [num]
      apply BitVec.eq_of_toNat_eq
      simp only [Bool.false_eq_true, if_false, BitVec.toNat_udiv]
      rw [Int.tdiv_eq_ediv_of_nonneg (Int.natCast_nonneg _), ← Int.natCast_ediv, BitVec.ofInt_natCast, BitVec.toNat_ofNat, Nat.mod_eq_of_lt]
      exact Nat.lt_of_le_of_lt (Nat.div_le_self _ _) x.isLt

theorem intRem_eq {n : Nat} (sg : Bool) (x y : BitVec n) : intRem sg x y = remd sg x y := by
  unfold intRem remd
  split
  · rfl
  · have e : ∀ a b : Int, a - b * a.tdiv b = a.tmod b := fun a b => by rw [Int.tmod_def]
    rw [e]
    cases sg with
    | true =>
      simp only [num, if_true]
      apply BitVec.eq_of_toInt_eq
      rw [BitVec.toInt_ofInt, ← BitVec.toInt_srem, BitVec.toInt_bmod_cancel]
    | false =>
      simp only [num]
      apply BitVec.eq_of_toNat_eq
      simp only [Bool.false_eq_true, if_false, BitVec.toNat_umod]
      rw [Int.tmod_eq_emod_of_nonneg (Int.natCast_nonneg _), ← Int.natCast_emod, BitVec.ofInt_natCast, BitVec.toNat_ofNat, Nat.mod_eq_of_lt (b := 2 ^ n)]
      exact Nat.lt_of_le_of_lt (Nat.mod_le _ _) x.isLt

theorem extractHigh (z : Int) (n : Nat) :
    (BitVec.ofInt (2 * n) z).extractLsb' n n = BitVec.ofInt n (z / (2 ^ n : Nat)) := by
  apply BitVec.eq_of_toNat_eq
  rw [BitVec.extractLsb'_toNat, BitVec.toNat_ofInt, BitVec.toNat_ofInt, Nat.shiftRight_eq_div_pow]
  have hp : (0 : Int) < (2 ^ n : Nat) := by exact_mod_cast Nat.two_pow_pos n
  have h2 : ((2 ^ (2 * n) : Nat) : Int) = (2 ^ n : Nat) * (2 ^ n : Nat) := by
    rw [Nat.two_mul, Nat.pow_add]; push_cast; rfl
  apply Int.natCast_inj.1
  rw [Int.natCast_emod, Int.natCast_ediv, Int.toNat_of_nonneg (Int.emod_nonneg _ (by rw [h2]; positivity)),
    Int.toNat_of_nonneg (Int.emod_nonneg _ hp.ne')]
  rw [h2]
  generalize ((2 ^ n : Nat) : Int) = q at hp ⊢
  have e : z % (q * q) = z - q * q * (z / (q * q)) := Int.emod_def _ _
  rw [e, show z - q * q * (z / (q * q)) = z + q * (-(q * (z / (q * q)))) by ring, Int.add_mul_ediv_left _ _ hp.ne',
    show -(q * (z / (q * q))) = q * (-(z / (q * q))) by ring, Int.add_mul_emod_self_left]

theorem mulHigh_eq {n : Nat} (sg : Bool) (x y : BitVec n) :
    mulHigh sg x y = BitVec.ofInt n (num sg x * num sg y / (2 ^ n : Nat)) := by
  unfold mulHigh
  cases sg with
  | true =>
    simp only [num, if_true]
    rw [← extractHigh, BitVec.ofInt_mul]
    congr 2
  | false =>
    simp only [num, Bool.false_eq_true, if_false]
    rw [← extractHigh, BitVec.ofInt_mul]
    congr 2 <;> apply BitVec.eq_of_toNat_eq <;> simp

theorem lessInt_eq {n : Nat} (sg : Bool) (x y : BitVec n) : lessInt sg x y = decide (num sg x < num sg y) := by
  cases sg <;> simp [lessInt, num, BitVec.slt, BitVec.ult]

theorem minInt_eq {n : Nat} (sg : Bool) (x y : BitVec n) : minInt sg x y = if num sg x ≤ num sg y then x else y := by
  unfold minInt
  rw [lessInt_eq]
  by_cases h : num sg x ≤ num sg y
  · rw [if_pos h, if_neg (by simpa using h)]
  · rw [if_neg h, if_pos (by simpa using h)]

theorem maxInt_eq {n : Nat} (sg : Bool) (x y : BitVec n) : maxInt sg x y = if num sg x ≤ num sg y then y else x := by
  unfold maxInt
  rw [lessInt_eq]
  by_cases h : num sg x ≤ num sg y
  · rw [if_pos h]
    split
    · rfl
    · next h' =>
      have : num sg x = num sg y := by simp at h'; omega
      cases sg
      · exact BitVec.eq_of_toNat_eq (by simpa [num] using this)
      · exact BitVec.eq_of_toInt_eq (by simpa [num] using this)
  · rw [if_neg h, if_neg (by simp; omega)]

theorem condInt_eq {n : Nat} (k : Cond) (sg : Bool) (x y : BitVec n) :
    condInt k sg x y = holdsCond k (num sg x) (num sg y) := by
  have inj : num sg x = num sg y ↔ x = y := by
    cases sg
    · simp [num, BitVec.toNat_inj]
    · simp [num, BitVec.toInt_inj]
  cases k <;> simp only [condInt, holdsCond, lessInt_eq] <;> rw [Bool.eq_iff_iff] <;> simp [inj]

theorem shiftL_eq {n : Nat} (x : BitVec n) (y : W64) : shiftL x y = shl x y := by
  unfold shiftL shl
  have : y.toNat % 256 = bits y 7 0 := by simp [bits]
  rw [this]
  apply BitVec.eq_of_toNat_eq
  split
  · next h => rw [BitVec.shiftLeft_eq_zero h]; rfl
  · rw [BitVec.toNat_shiftLeft, BitVec.toNat_ofNat, Nat.shiftLeft_eq]

theorem shiftR_eq {n : Nat} (x : BitVec n) (y : W64) : shiftR x y = shr x y := by
  unfold shiftR shr
  have : y.toNat % 256 = bits y 7 0 := by simp [bits]
  rw [this]
  apply BitVec.eq_of_toNat_eq
  split
  · next h => rw [BitVec.ushiftRight_eq_zero h]; rfl
  · rw [BitVec.toNat_ushiftRight, BitVec.toNat_ofNat, Nat.shiftRight_eq_div_pow, Nat.mod_eq_of_lt]
    exact Nat.lt_of_le_of_lt (Nat.div_le_self _ _) x.isLt

theorem shiftA_eq {n : Nat} (x : BitVec n) (y : W64) : shiftA x y = sar x y := by
  unfold shiftA sar
  have : y.toNat % 256 = bits y 7 0 := by simp [bits]
  rw [this]
  apply BitVec.eq_of_toInt_eq
  rw [BitVec.toInt_sshiftRight, Int.shiftRight_eq_div_pow]
  generalize bits y 7 0 = k
  have hp : (0 : Int) < (2 ^ k : Nat) := by exact_mod_cast Nat.two_pow_pos k
  have hlo : -(2 ^ (n - 1) : Nat) ≤ x.toInt := by have := BitVec.le_toInt x; exact_mod_cast this
  have hhi : x.toInt < (2 ^ (n - 1) : Nat) ∨ n = 0 := by
    rcases Nat.eq_zero_or_pos n with h | h
    · exact .inr h
    · left; have := BitVec.toInt_lt (x := x); exact_mod_cast this
  rcases hhi with hhi | h0
  · split
    · next h =>
      have hk : ((2 ^ (n - 1) : Nat) : Int) ≤ (2 ^ k : Nat) := by exact_mod_cast Nat.pow_le_pow_right (by omega) (by omega)
      split
      · next hn =>
        have hn1 : 0 < n := by
          rcases Nat.eq_zero_or_pos n with h | h
          · subst h; rw [show x = 0 from by ext i hi; omega] at hn; simp at hn
          · exact h
        have : x.toInt / (2 ^ k : Nat) = -1 := by
          apply Int.le_antisymm
          · have := Int.ediv_lt_of_lt_mul (a := x.toInt) (b := 0) hp (by simpa using hn); omega
          · exact (Int.le_ediv_iff_mul_le hp).2 (by omega)
        rw [this, BitVec.toInt_allOnes, if_pos hn1]
      · next hn =>
        rw [Int.ediv_eq_zero_of_lt (by omega) (by omega)]; simp
    · rw [BitVec.toInt_ofInt]
      have hb : (2 ^ n : Nat) = 2 * (2 ^ (n - 1) : Nat) := by
        cases n with
        | zero => rename_i h; omega
        | succ m => simp [Nat.pow_succ, Nat.mul_comm]
      have h1 : -((2 ^ (n - 1) : Nat) : Int) ≤ x.toInt / (2 ^ k : Nat) := by
        refine (Int.le_ediv_iff_mul_le hp).2 ?_
        nlinarith [Int.natCast_nonneg (2 ^ (n - 1))]
      have h2 : x.toInt / (2 ^ k : Nat) < ((2 ^ (n - 1) : Nat) : Int) := by
        refine Int.ediv_lt_of_lt_mul hp ?_
        nlinarith [Int.natCast_nonneg (2 ^ (n - 1))]
      rw [hb]
      generalize x.toInt / ((2 ^ k : Nat) : Int) = q at h1 h2
      generalize (2 ^ (n - 1) : Nat) = w at h1 h2
      rw [Int.bmod_eq_of_le (by omega) (by omega)]
  · subst h0
    have : x = 0 := by ext i hi; omega
    subst this
    simp

theorem takeWhile_range (p : Nat → Bool) (n k : Nat) (hk : k ≤ n) (h1 : ∀ i < k, p i = true) (h2 : k = n ∨ p k = false) :
    ((List.range n).takeWhile p).length = k := by
  obtain ⟨m, rfl⟩ := Nat.exists_eq_add_of_le hk
  rw [List.range_add, List.takeWhile_append_of_pos (by intro a ha; exact h1 a (List.mem_range.1 ha))]
  cases m with
  | zero => simp
  | succ m =>
    have : p k = false := by
      rcases h2 with h | h
      · omega
      · exact h
    simp [List.range_succ_eq_map, this]

theorem leadZeros_eq {n : Nat} (x : BitVec n) : leadZeros x = clz x := by
  unfold leadZeros clz
  split
  · next h =>
    have : x = 0 := BitVec.eq_of_toNat_eq (by simpa using h)
    subst this
    exact takeWhile_range _ _ _ (Nat.le_refl _) (by simp) (.inl rfl)
  · next h =>
    have hl : Nat.log2 x.toNat < n := (Nat.log2_lt h).2 x.isLt
    refine takeWhile_range _ _ _ (by omega) (fun i hi => ?_) (.inr ?_)
    · have : x.getLsbD (n - 1 - i) = false := by
        rw [BitVec.getLsbD]
        exact Nat.testBit_lt_two_pow ((Nat.log2_lt h).1 (by omega))
      simp [this]
    · have e : n - 1 - (n - 1 - Nat.log2 x.toNat) = Nat.log2 x.toNat := by omega
      rw [e, BitVec.getLsbD, Nat.testBit_log2 h]; rfl

theorem countOnes_eq {n : Nat} (x : BitVec n) : countOnes x = ones x := by
  unfold countOnes ones
  generalize List.range n = l
  induction l with
  | nil => rfl
  | cons i r ih =>
    rw [List.map_cons, List.sum_cons, ← ih, List.filter_cons]
    have : x.getLsbD i = decide (x.toNat / 2 ^ i % 2 = 1) := by
      rw [BitVec.getLsbD, Nat.testBit_eq_decide_div_mod_eq]
    rw [this]
    split <;> simp_all
    omega

theorem fieldWidth_eq (n : Nat) (k : W64) : fieldWidth n k = fieldW n k := by
  have h1 : k.toNat % 256 = bits k 7 0 := by simp [bits]
  have h2 : k.toNat / 256 % 256 = bits k 15 8 := by simp [bits, Nat.shiftRight_eq_div_pow]
  simp only [fieldWidth, fieldW, h1, h2, ge_iff_le]

theorem bitExtract_eq {n : Nat} (sg : Bool) (x : BitVec n) (k : W64) : bitExtract sg x k = extract sg x k := by
  have h1 : k.toNat % 256 = bits k 7 0 := by simp [bits]
  unfold bitExtract extract
  rw [fieldWidth_eq, h1]
  have hle : fieldW n k ≤ n := by unfold fieldW; split <;> omega
  generalize fieldW n k = w at hle ⊢
  generalize bits k 7 0 = p
  dsimp only
  by_cases hw : w = 0
  · rw [if_pos hw, if_pos hw]
  · rw [if_neg hw, if_neg hw]
    have hr : ((x >>> p).setWidth w).toNat = x.toNat / 2 ^ p % 2 ^ w := by
      rw [BitVec.toNat_setWidth, BitVec.toNat_ushiftRight, Nat.shiftRight_eq_div_pow]
    cases sg with
    | true =>
      simp only [if_true, true_and]
      rw [BitVec.signExtend, BitVec.toInt_eq_toNat_cond, hr]
      have e : 2 ^ w = 2 * 2 ^ (w - 1) := by
        cases w with
        | zero => omega
        | succ m => simp [Nat.pow_succ, Nat.mul_comm]
      generalize x.toNat / 2 ^ p % 2 ^ w = r
      by_cases hc : 2 ^ (w - 1) ≤ r
      · rw [if_pos hc, if_neg (by omega)]
      · rw [if_neg hc, if_pos (by omega), BitVec.ofInt_natCast]
    | false =>
      simp only [Bool.false_eq_true, if_false, false_and]
      apply BitVec.eq_of_toNat_eq
      rw [BitVec.toNat_setWidth, hr, BitVec.toNat_ofNat]

theorem bitInsert_eq {n : Nat} (d a : BitVec n) (k : W64) : bitInsert d a k = insert d a k := by
  have h1 : k.toNat % 256 = bits k 7 0 := by simp [bits]
  unfold bitInsert insert
  rw [fieldWidth_eq, h1]
  have hle : fieldW n k ≤ n := by unfold fieldW; split <;> omega
  generalize fieldW n k = w at hle ⊢
  generalize bits k 7 0 = p
  dsimp only
  have hm : (BitVec.allOnes n >>> (n - w)) <<< p = BitVec.ofNat n ((2 ^ w - 1) * 2 ^ p) := by
    apply BitVec.eq_of_toNat_eq
    rw [BitVec.toNat_shiftLeft, BitVec.toNat_ushiftRight, BitVec.toNat_allOnes, BitVec.toNat_ofNat, Nat.shiftLeft_eq,
      Nat.shiftRight_eq_div_pow]
    congr 2
    have : 2 ^ n = 2 ^ (n - w) * 2 ^ w := by rw [← Nat.pow_add]; congr 1; omega
    rw [this]
    have hq : 0 < 2 ^ (n - w) := Nat.two_pow_pos _
    have hr : 0 < 2 ^ w := Nat.two_pow_pos _
    rw [show 2 ^ (n - w) * 2 ^ w - 1 = (2 ^ (n - w) - 1) + 2 ^ (n - w) * (2 ^ w - 1) from by
      rw [Nat.mul_sub]; 
      have := Nat.le_mul_of_pos_right (2 ^ (n - w)) hr
      omega, Nat.add_mul_div_left _ _ hq, Nat.div_eq_of_lt (by omega), Nat.zero_add]
  have ha : a <<< p = BitVec.ofNat n (a.toNat * 2 ^ p) := by
    apply BitVec.eq_of_toNat_eq
    rw [BitVec.toNat_shiftLeft, BitVec.toNat_ofNat, Nat.shiftLeft_eq]
  rw [hm, ha]
  split
  · next hw => subst hw; simp
  · rfl

end Sys2Proof.Machine
end

