-- ==== Sys2Proof/Laws/Tables.lean ====
section
/-! SUPPORT. Reading a sparse table after each update of it: what holds of every table, sorted or not, and what keeps a
table sorted. -/

namespace Sys2Proof.Machine

open Sys2Proof

variable {α : Type}

/-! ## Reads after updates -/

theorem tget?_tput (t : Tab α) (i j : Nat) (x : α) : tget? (tput t i x) j = if j = i then some x else tget? t j := by
  induction t with
  | nil => simp [tput, tget?]
  | cons e r ih =>
    obtain ⟨k, v⟩ := e
    by_cases h1 : i = k
    · subst h1; by_cases hj : j = i <;> simp [tput, tget?, hj]
    · by_cases h2 : i < k
      · by_cases hj : j = i <;> simp [tput, h1, h2, tget?, hj]
      · by_cases hk : j = k
        · subst hk; simp [tput, h1, h2, tget?, Ne.symm h1]
        · simp [tput, h1, h2, tget?, hk, ih]

theorem tget?_tdel (t : Tab α) (i j : Nat) : tget? (tdel t i) j = if j = i then none else tget? t j := by
  induction t with
  | nil => simp [tdel, tget?]
  | cons e r ih =>
    obtain ⟨k, v⟩ := e
    simp only [tdel] at ih
    by_cases hk : k = i
    · subst hk
      by_cases hj : j = k
      · subst hj; simpa [tdel, tget?] using ih
      · simp [tdel, tget?, hj, ih]
    · by_cases hj : j = k
      · subst hj; simp [tdel, tget?, hk]
      · simp [tdel, tget?, hk, hj, ih]

theorem tgetD_tset [DecidableEq α] (t : Tab α) (i j : Nat) (x d : α) :
    tgetD (tset t i x d) j d = if j = i then x else tgetD t j d := by
  unfold tgetD tset
  by_cases hx : x = d
  · rw [if_pos hx, tget?_tdel]; split <;> simp [hx]
  · rw [if_neg hx, tget?_tput]; split <;> simp

theorem tgetD_tput (t : Tab α) (i j : Nat) (x d : α) : tgetD (tput t i x) j d = if j = i then x else tgetD t j d := by
  unfold tgetD; rw [tget?_tput]; split <;> simp

theorem tget?_tmod (t : Tab α) (i j : Nat) (g : α → α) :
    tget? (tmod t i g) j = if j = i then (tget? t j).map g else tget? t j := by
  unfold tmod
  cases h : tget? t i with
  | none => by_cases hj : j = i <;> simp [hj, h]
  | some x => simp only [tget?_tput]; by_cases hj : j = i <;> simp [hj, h]

theorem tget?_map (t : Tab α) (g : Nat × α → Nat × α) (hg : ∀ e, (g e).1 = e.1) (j : Nat) :
    tget? (t.map g) j = (tget? t j).map (fun x => (g (j, x)).2) := by
  induction t with
  | nil => simp [tget?]
  | cons e r ih =>
    obtain ⟨k, v⟩ := e
    have h := hg (k, v)
    rw [List.map_cons, ← Prod.mk.eta (p := g (k, v)), h]
    by_cases hj : j = k
    · subst hj; simp [tget?]
    · simp [tget?, hj, ih]

@[simp] theorem tget?_tput_self (t : Tab α) (i : Nat) (x : α) : tget? (tput t i x) i = some x := by simp [tget?_tput]

theorem tmod_none (t : Tab α) (i : Nat) (g : α → α) (h : tget? t i = none) : tmod t i g = t := by simp [tmod, h]

/-! ## Sorted tables -/

theorem tsortedFrom_mono {a b : Nat} (h : a ≤ b) : ∀ {t : Tab α}, tsortedFrom b t = true → tsortedFrom a t = true
  | [], _ => rfl
  | (k, v) :: r, ht => by
    simp only [tsortedFrom, Bool.and_eq_true, decide_eq_true_eq] at ht ⊢
    exact ⟨le_trans h ht.1, ht.2⟩

theorem tsortedFrom_tput {lo i : Nat} (h : lo ≤ i) (x : α) :
    ∀ {t : Tab α}, tsortedFrom lo t = true → tsortedFrom lo (tput t i x) = true
  | [], _ => by simp [tput, tsortedFrom, h]
  | (k, v) :: r, ht => by
    simp only [tsortedFrom, Bool.and_eq_true, decide_eq_true_eq] at ht
    unfold tput
    split
    · next e => subst e; simp [tsortedFrom, ht]
    · split
      · next e1 e2 => simp [tsortedFrom, h, ht.2]; omega
      · next e1 e2 =>
        have := tsortedFrom_tput (lo := k + 1) (i := i) (by omega) x ht.2
        simp [tsortedFrom, ht.1, this]

theorem tsortedFrom_tdel {i : Nat} : ∀ {lo : Nat} {t : Tab α}, tsortedFrom lo t = true → tsortedFrom lo (tdel t i) = true
  | _, [], _ => rfl
  | lo, (k, v) :: r, ht => by
    simp only [tsortedFrom, Bool.and_eq_true, decide_eq_true_eq] at ht
    have ih := tsortedFrom_tdel (i := i) ht.2
    by_cases hk : k = i
    · have : tdel ((k, v) :: r) i = tdel r i := by simp [tdel, hk]
      rw [this]; exact tsortedFrom_mono (by omega) ih
    · have : tdel ((k, v) :: r) i = (k, v) :: tdel r i := by simp [tdel, hk]
      rw [this]; simp [tsortedFrom, ht.1, ih]

theorem mem_tput {t : Tab α} {i : Nat} {x : α} {e : Nat × α} (h : e ∈ tput t i x) : e = (i, x) ∨ e ∈ t := by
  induction t with
  | nil => simpa [tput] using h
  | cons f r ih =>
    obtain ⟨k, v⟩ := f
    unfold tput at h
    split at h
    · simp at h; rcases h with h | h <;> simp [h]
    · split at h
      · simp at h; rcases h with h | h | h <;> simp [h]
      · simp at h
        rcases h with h | h
        · simp [h]
        · rcases ih h with h | h <;> simp [h]

end Sys2Proof.Machine
end

