-- ==== Sys2Proof/Laws/State.lean ====
section
/-! SUPPORT. What each named update of the state leaves alone, field by field, and what it does to the part it updates. -/

namespace Sys2Proof.Machine

open Sys2Proof

/-! ## A flock that nothing holds -/

@[simp] theorem unhold_threads (fl : Flock) : (unhold fl).threads = fl.threads := rfl
@[simp] theorem unhold_group (fl : Flock) : (unhold fl).group = fl.group := rfl
@[simp] theorem unhold_vregs (fl : Flock) : (unhold fl).vregs = fl.vregs := rfl
@[simp] theorem unhold_sregs (fl : Flock) : (unhold fl).sregs = fl.sregs := rfl
@[simp] theorem unhold_flags (fl : Flock) : (unhold fl).flags = fl.flags := rfl
@[simp] theorem unhold_fifo (fl : Flock) : (unhold fl).fifo = fl.fifo := rfl
@[simp] theorem unhold_loads (fl : Flock) : (unhold fl).loads = fl.loads := rfl
@[simp] theorem unhold_scr (fl : Flock) : (unhold fl).scr = fl.scr := rfl
@[simp] theorem unhold_tent (fl : Flock) : (unhold fl).tent = fl.tent := rfl
@[simp] theorem unhold_ops (fl : Flock) : (unhold fl).ops = fl.ops := rfl
@[simp] theorem unhold_batch (fl : Flock) : (unhold fl).batch = fl.batch := rfl
@[simp] theorem unhold_hold (fl : Flock) : (unhold fl).hold = .none := rfl
@[simp] theorem unhold_ex (fl : Flock) : (unhold fl).ex = none := rfl
@[simp] theorem unhold_bar (fl : Flock) : (unhold fl).bar = none := rfl

variable (s : State)

@[simp] theorem modFold_mem (f : Nat) (g : Fold → Fold) : (modFold s f g).mem = s.mem := rfl
@[simp] theorem modFold_ms (f : Nat) (g : Fold → Fold) : (modFold s f g).ms = s.ms := rfl
@[simp] theorem modFold_grids (f : Nat) (g : Fold → Fold) : (modFold s f g).grids = s.grids := rfl
@[simp] theorem modFold_cores (f : Nat) (g : Fold → Fold) : (modFold s f g).cores = s.cores := rfl
@[simp] theorem modFold_dies (f : Nat) (g : Fold → Fold) : (modFold s f g).dies = s.dies := rfl
@[simp] theorem modFold_ctxs (f : Nat) (g : Fold → Fold) : (modFold s f g).ctxs = s.ctxs := rfl
@[simp] theorem modFold_queues (f : Nat) (g : Fold → Fold) : (modFold s f g).queues = s.queues := rfl
@[simp] theorem modFold_pads (f : Nat) (g : Fold → Fold) : (modFold s f g).pads = s.pads := rfl
@[simp] theorem modFold_plat (f : Nat) (g : Fold → Fold) : (modFold s f g).plat = s.plat := rfl
@[simp] theorem modFold_sched (f : Nat) (g : Fold → Fold) : (modFold s f g).sched = s.sched := rfl
@[simp] theorem modFold_cur (f : Nat) (g : Fold → Fold) : (modFold s f g).cur = s.cur := rfl
@[simp] theorem modFold_seq (f : Nat) (g : Fold → Fold) : (modFold s f g).seq = s.seq := rfl
@[simp] theorem modFold_freeIx (f : Nat) (g : Fold → Fold) : (modFold s f g).freeIx = s.freeIx := rfl

@[simp] theorem modFlock_mem (f k : Nat) (g : Flock → Flock) : (modFlock s f k g).mem = s.mem := rfl
@[simp] theorem modFlock_ms (f k : Nat) (g : Flock → Flock) : (modFlock s f k g).ms = s.ms := rfl
@[simp] theorem modFlock_grids (f k : Nat) (g : Flock → Flock) : (modFlock s f k g).grids = s.grids := rfl
@[simp] theorem modFlock_cores (f k : Nat) (g : Flock → Flock) : (modFlock s f k g).cores = s.cores := rfl
@[simp] theorem modFlock_dies (f k : Nat) (g : Flock → Flock) : (modFlock s f k g).dies = s.dies := rfl
@[simp] theorem modFlock_ctxs (f k : Nat) (g : Flock → Flock) : (modFlock s f k g).ctxs = s.ctxs := rfl
@[simp] theorem modFlock_queues (f k : Nat) (g : Flock → Flock) : (modFlock s f k g).queues = s.queues := rfl
@[simp] theorem modFlock_pads (f k : Nat) (g : Flock → Flock) : (modFlock s f k g).pads = s.pads := rfl
@[simp] theorem modFlock_plat (f k : Nat) (g : Flock → Flock) : (modFlock s f k g).plat = s.plat := rfl
@[simp] theorem modFlock_sched (f k : Nat) (g : Flock → Flock) : (modFlock s f k g).sched = s.sched := rfl
@[simp] theorem modFlock_cur (f k : Nat) (g : Flock → Flock) : (modFlock s f k g).cur = s.cur := rfl
@[simp] theorem modFlock_seq (f k : Nat) (g : Flock → Flock) : (modFlock s f k g).seq = s.seq := rfl
@[simp] theorem modFlock_freeIx (f k : Nat) (g : Flock → Flock) : (modFlock s f k g).freeIx = s.freeIx := rfl

@[simp] theorem modThread_mem (f k l : Nat) (g : Thread → Thread) : (modThread s f k l g).mem = s.mem := rfl
@[simp] theorem modThread_ms (f k l : Nat) (g : Thread → Thread) : (modThread s f k l g).ms = s.ms := rfl
@[simp] theorem modThread_grids (f k l : Nat) (g : Thread → Thread) : (modThread s f k l g).grids = s.grids := rfl
@[simp] theorem modThread_cores (f k l : Nat) (g : Thread → Thread) : (modThread s f k l g).cores = s.cores := rfl
@[simp] theorem modThread_dies (f k l : Nat) (g : Thread → Thread) : (modThread s f k l g).dies = s.dies := rfl
@[simp] theorem modThread_ctxs (f k l : Nat) (g : Thread → Thread) : (modThread s f k l g).ctxs = s.ctxs := rfl
@[simp] theorem modThread_queues (f k l : Nat) (g : Thread → Thread) : (modThread s f k l g).queues = s.queues := rfl
@[simp] theorem modThread_pads (f k l : Nat) (g : Thread → Thread) : (modThread s f k l g).pads = s.pads := rfl
@[simp] theorem modThread_plat (f k l : Nat) (g : Thread → Thread) : (modThread s f k l g).plat = s.plat := rfl
@[simp] theorem modThread_sched (f k l : Nat) (g : Thread → Thread) : (modThread s f k l g).sched = s.sched := rfl
@[simp] theorem modThread_cur (f k l : Nat) (g : Thread → Thread) : (modThread s f k l g).cur = s.cur := rfl
@[simp] theorem modThread_seq (f k l : Nat) (g : Thread → Thread) : (modThread s f k l g).seq = s.seq := rfl
@[simp] theorem modThread_freeIx (f k l : Nat) (g : Thread → Thread) : (modThread s f k l g).freeIx = s.freeIx := rfl

@[simp] theorem modGrid_mem (n : Nat) (g : Grid → Grid) : (modGrid s n g).mem = s.mem := rfl
@[simp] theorem modGrid_ms (n : Nat) (g : Grid → Grid) : (modGrid s n g).ms = s.ms := rfl
@[simp] theorem modGrid_folds (n : Nat) (g : Grid → Grid) : (modGrid s n g).folds = s.folds := rfl
@[simp] theorem modGrid_cores (n : Nat) (g : Grid → Grid) : (modGrid s n g).cores = s.cores := rfl
@[simp] theorem modGrid_dies (n : Nat) (g : Grid → Grid) : (modGrid s n g).dies = s.dies := rfl
@[simp] theorem modGrid_ctxs (n : Nat) (g : Grid → Grid) : (modGrid s n g).ctxs = s.ctxs := rfl
@[simp] theorem modGrid_queues (n : Nat) (g : Grid → Grid) : (modGrid s n g).queues = s.queues := rfl
@[simp] theorem modGrid_pads (n : Nat) (g : Grid → Grid) : (modGrid s n g).pads = s.pads := rfl
@[simp] theorem modGrid_plat (n : Nat) (g : Grid → Grid) : (modGrid s n g).plat = s.plat := rfl
@[simp] theorem modGrid_sched (n : Nat) (g : Grid → Grid) : (modGrid s n g).sched = s.sched := rfl
@[simp] theorem modGrid_cur (n : Nat) (g : Grid → Grid) : (modGrid s n g).cur = s.cur := rfl
@[simp] theorem modGrid_seq (n : Nat) (g : Grid → Grid) : (modGrid s n g).seq = s.seq := rfl
@[simp] theorem modGrid_freeIx (n : Nat) (g : Grid → Grid) : (modGrid s n g).freeIx = s.freeIx := rfl

@[simp] theorem modCore_mem (n : Nat) (g : Core → Core) : (modCore s n g).mem = s.mem := rfl
@[simp] theorem modCore_ms (n : Nat) (g : Core → Core) : (modCore s n g).ms = s.ms := rfl
@[simp] theorem modCore_folds (n : Nat) (g : Core → Core) : (modCore s n g).folds = s.folds := rfl
@[simp] theorem modCore_grids (n : Nat) (g : Core → Core) : (modCore s n g).grids = s.grids := rfl
@[simp] theorem modCore_dies (n : Nat) (g : Core → Core) : (modCore s n g).dies = s.dies := rfl
@[simp] theorem modCore_ctxs (n : Nat) (g : Core → Core) : (modCore s n g).ctxs = s.ctxs := rfl
@[simp] theorem modCore_queues (n : Nat) (g : Core → Core) : (modCore s n g).queues = s.queues := rfl
@[simp] theorem modCore_pads (n : Nat) (g : Core → Core) : (modCore s n g).pads = s.pads := rfl
@[simp] theorem modCore_plat (n : Nat) (g : Core → Core) : (modCore s n g).plat = s.plat := rfl
@[simp] theorem modCore_sched (n : Nat) (g : Core → Core) : (modCore s n g).sched = s.sched := rfl
@[simp] theorem modCore_cur (n : Nat) (g : Core → Core) : (modCore s n g).cur = s.cur := rfl
@[simp] theorem modCore_seq (n : Nat) (g : Core → Core) : (modCore s n g).seq = s.seq := rfl
@[simp] theorem modCore_freeIx (n : Nat) (g : Core → Core) : (modCore s n g).freeIx = s.freeIx := rfl

@[simp] theorem modDie_mem (n : Nat) (g : Die → Die) : (modDie s n g).mem = s.mem := rfl
@[simp] theorem modDie_ms (n : Nat) (g : Die → Die) : (modDie s n g).ms = s.ms := rfl
@[simp] theorem modDie_folds (n : Nat) (g : Die → Die) : (modDie s n g).folds = s.folds := rfl
@[simp] theorem modDie_grids (n : Nat) (g : Die → Die) : (modDie s n g).grids = s.grids := rfl
@[simp] theorem modDie_cores (n : Nat) (g : Die → Die) : (modDie s n g).cores = s.cores := rfl
@[simp] theorem modDie_ctxs (n : Nat) (g : Die → Die) : (modDie s n g).ctxs = s.ctxs := rfl
@[simp] theorem modDie_queues (n : Nat) (g : Die → Die) : (modDie s n g).queues = s.queues := rfl
@[simp] theorem modDie_pads (n : Nat) (g : Die → Die) : (modDie s n g).pads = s.pads := rfl
@[simp] theorem modDie_plat (n : Nat) (g : Die → Die) : (modDie s n g).plat = s.plat := rfl
@[simp] theorem modDie_sched (n : Nat) (g : Die → Die) : (modDie s n g).sched = s.sched := rfl
@[simp] theorem modDie_cur (n : Nat) (g : Die → Die) : (modDie s n g).cur = s.cur := rfl
@[simp] theorem modDie_seq (n : Nat) (g : Die → Die) : (modDie s n g).seq = s.seq := rfl
@[simp] theorem modDie_freeIx (n : Nat) (g : Die → Die) : (modDie s n g).freeIx = s.freeIx := rfl

@[simp] theorem modCtx_mem (n : Nat) (g : Ctx → Ctx) : (modCtx s n g).mem = s.mem := rfl
@[simp] theorem modCtx_ms (n : Nat) (g : Ctx → Ctx) : (modCtx s n g).ms = s.ms := rfl
@[simp] theorem modCtx_folds (n : Nat) (g : Ctx → Ctx) : (modCtx s n g).folds = s.folds := rfl
@[simp] theorem modCtx_grids (n : Nat) (g : Ctx → Ctx) : (modCtx s n g).grids = s.grids := rfl
@[simp] theorem modCtx_cores (n : Nat) (g : Ctx → Ctx) : (modCtx s n g).cores = s.cores := rfl
@[simp] theorem modCtx_dies (n : Nat) (g : Ctx → Ctx) : (modCtx s n g).dies = s.dies := rfl
@[simp] theorem modCtx_queues (n : Nat) (g : Ctx → Ctx) : (modCtx s n g).queues = s.queues := rfl
@[simp] theorem modCtx_pads (n : Nat) (g : Ctx → Ctx) : (modCtx s n g).pads = s.pads := rfl
@[simp] theorem modCtx_plat (n : Nat) (g : Ctx → Ctx) : (modCtx s n g).plat = s.plat := rfl
@[simp] theorem modCtx_sched (n : Nat) (g : Ctx → Ctx) : (modCtx s n g).sched = s.sched := rfl
@[simp] theorem modCtx_cur (n : Nat) (g : Ctx → Ctx) : (modCtx s n g).cur = s.cur := rfl
@[simp] theorem modCtx_seq (n : Nat) (g : Ctx → Ctx) : (modCtx s n g).seq = s.seq := rfl
@[simp] theorem modCtx_freeIx (n : Nat) (g : Ctx → Ctx) : (modCtx s n g).freeIx = s.freeIx := rfl

@[simp] theorem modQueue_mem (n : Nat) (g : Queue → Queue) : (modQueue s n g).mem = s.mem := rfl
@[simp] theorem modQueue_ms (n : Nat) (g : Queue → Queue) : (modQueue s n g).ms = s.ms := rfl
@[simp] theorem modQueue_folds (n : Nat) (g : Queue → Queue) : (modQueue s n g).folds = s.folds := rfl
@[simp] theorem modQueue_grids (n : Nat) (g : Queue → Queue) : (modQueue s n g).grids = s.grids := rfl
@[simp] theorem modQueue_cores (n : Nat) (g : Queue → Queue) : (modQueue s n g).cores = s.cores := rfl
@[simp] theorem modQueue_dies (n : Nat) (g : Queue → Queue) : (modQueue s n g).dies = s.dies := rfl
@[simp] theorem modQueue_ctxs (n : Nat) (g : Queue → Queue) : (modQueue s n g).ctxs = s.ctxs := rfl
@[simp] theorem modQueue_pads (n : Nat) (g : Queue → Queue) : (modQueue s n g).pads = s.pads := rfl
@[simp] theorem modQueue_plat (n : Nat) (g : Queue → Queue) : (modQueue s n g).plat = s.plat := rfl
@[simp] theorem modQueue_sched (n : Nat) (g : Queue → Queue) : (modQueue s n g).sched = s.sched := rfl
@[simp] theorem modQueue_cur (n : Nat) (g : Queue → Queue) : (modQueue s n g).cur = s.cur := rfl
@[simp] theorem modQueue_seq (n : Nat) (g : Queue → Queue) : (modQueue s n g).seq = s.seq := rfl
@[simp] theorem modQueue_freeIx (n : Nat) (g : Queue → Queue) : (modQueue s n g).freeIx = s.freeIx := rfl

@[simp] theorem modPad_mem (n : Nat) (g : Paddock → Paddock) : (modPad s n g).mem = s.mem := rfl
@[simp] theorem modPad_ms (n : Nat) (g : Paddock → Paddock) : (modPad s n g).ms = s.ms := rfl
@[simp] theorem modPad_folds (n : Nat) (g : Paddock → Paddock) : (modPad s n g).folds = s.folds := rfl
@[simp] theorem modPad_grids (n : Nat) (g : Paddock → Paddock) : (modPad s n g).grids = s.grids := rfl
@[simp] theorem modPad_cores (n : Nat) (g : Paddock → Paddock) : (modPad s n g).cores = s.cores := rfl
@[simp] theorem modPad_dies (n : Nat) (g : Paddock → Paddock) : (modPad s n g).dies = s.dies := rfl
@[simp] theorem modPad_ctxs (n : Nat) (g : Paddock → Paddock) : (modPad s n g).ctxs = s.ctxs := rfl
@[simp] theorem modPad_queues (n : Nat) (g : Paddock → Paddock) : (modPad s n g).queues = s.queues := rfl
@[simp] theorem modPad_plat (n : Nat) (g : Paddock → Paddock) : (modPad s n g).plat = s.plat := rfl
@[simp] theorem modPad_sched (n : Nat) (g : Paddock → Paddock) : (modPad s n g).sched = s.sched := rfl
@[simp] theorem modPad_cur (n : Nat) (g : Paddock → Paddock) : (modPad s n g).cur = s.cur := rfl
@[simp] theorem modPad_seq (n : Nat) (g : Paddock → Paddock) : (modPad s n g).seq = s.seq := rfl
@[simp] theorem modPad_freeIx (n : Nat) (g : Paddock → Paddock) : (modPad s n g).freeIx = s.freeIx := rfl

@[simp] theorem modMs_mem (g : MemSys → MemSys) : (modMs s g).mem = s.mem := rfl
@[simp] theorem modMs_folds (g : MemSys → MemSys) : (modMs s g).folds = s.folds := rfl
@[simp] theorem modMs_grids (g : MemSys → MemSys) : (modMs s g).grids = s.grids := rfl
@[simp] theorem modMs_cores (g : MemSys → MemSys) : (modMs s g).cores = s.cores := rfl
@[simp] theorem modMs_dies (g : MemSys → MemSys) : (modMs s g).dies = s.dies := rfl
@[simp] theorem modMs_ctxs (g : MemSys → MemSys) : (modMs s g).ctxs = s.ctxs := rfl
@[simp] theorem modMs_queues (g : MemSys → MemSys) : (modMs s g).queues = s.queues := rfl
@[simp] theorem modMs_pads (g : MemSys → MemSys) : (modMs s g).pads = s.pads := rfl
@[simp] theorem modMs_plat (g : MemSys → MemSys) : (modMs s g).plat = s.plat := rfl
@[simp] theorem modMs_sched (g : MemSys → MemSys) : (modMs s g).sched = s.sched := rfl
@[simp] theorem modMs_cur (g : MemSys → MemSys) : (modMs s g).cur = s.cur := rfl
@[simp] theorem modMs_seq (g : MemSys → MemSys) : (modMs s g).seq = s.seq := rfl
@[simp] theorem modMs_freeIx (g : MemSys → MemSys) : (modMs s g).freeIx = s.freeIx := rfl

@[simp] theorem modPlat_mem (g : Platform → Platform) : (modPlat s g).mem = s.mem := rfl
@[simp] theorem modPlat_ms (g : Platform → Platform) : (modPlat s g).ms = s.ms := rfl
@[simp] theorem modPlat_folds (g : Platform → Platform) : (modPlat s g).folds = s.folds := rfl
@[simp] theorem modPlat_grids (g : Platform → Platform) : (modPlat s g).grids = s.grids := rfl
@[simp] theorem modPlat_cores (g : Platform → Platform) : (modPlat s g).cores = s.cores := rfl
@[simp] theorem modPlat_dies (g : Platform → Platform) : (modPlat s g).dies = s.dies := rfl
@[simp] theorem modPlat_ctxs (g : Platform → Platform) : (modPlat s g).ctxs = s.ctxs := rfl
@[simp] theorem modPlat_queues (g : Platform → Platform) : (modPlat s g).queues = s.queues := rfl
@[simp] theorem modPlat_pads (g : Platform → Platform) : (modPlat s g).pads = s.pads := rfl
@[simp] theorem modPlat_sched (g : Platform → Platform) : (modPlat s g).sched = s.sched := rfl
@[simp] theorem modPlat_cur (g : Platform → Platform) : (modPlat s g).cur = s.cur := rfl
@[simp] theorem modPlat_seq (g : Platform → Platform) : (modPlat s g).seq = s.seq := rfl
@[simp] theorem modPlat_freeIx (g : Platform → Platform) : (modPlat s g).freeIx = s.freeIx := rfl

@[simp] theorem modMs_ms (g : MemSys → MemSys) : (modMs s g).ms = g s.ms := rfl
@[simp] theorem modPlat_plat (g : Platform → Platform) : (modPlat s g).plat = g s.plat := rfl

/-! ## The caches of translations and the journal of corrected errors -/

@[simp] theorem modTlb_mem (ag : Agent) (g : List TlbE → List TlbE) : (modTlb s ag g).mem = s.mem := by cases ag <;> rfl
@[simp] theorem modTlb_ms (ag : Agent) (g : List TlbE → List TlbE) : (modTlb s ag g).ms = s.ms := by cases ag <;> rfl
@[simp] theorem modTlb_folds (ag : Agent) (g : List TlbE → List TlbE) : (modTlb s ag g).folds = s.folds := by cases ag <;> rfl
@[simp] theorem modTlb_grids (ag : Agent) (g : List TlbE → List TlbE) : (modTlb s ag g).grids = s.grids := by cases ag <;> rfl
@[simp] theorem modTlb_ctxs (ag : Agent) (g : List TlbE → List TlbE) : (modTlb s ag g).ctxs = s.ctxs := by cases ag <;> rfl
@[simp] theorem modTlb_queues (ag : Agent) (g : List TlbE → List TlbE) : (modTlb s ag g).queues = s.queues := by cases ag <;> rfl
@[simp] theorem modTlb_pads (ag : Agent) (g : List TlbE → List TlbE) : (modTlb s ag g).pads = s.pads := by cases ag <;> rfl
@[simp] theorem modTlb_plat (ag : Agent) (g : List TlbE → List TlbE) : (modTlb s ag g).plat = s.plat := by cases ag <;> rfl
@[simp] theorem modTlb_sched (ag : Agent) (g : List TlbE → List TlbE) : (modTlb s ag g).sched = s.sched := by cases ag <;> rfl
@[simp] theorem modTlb_cur (ag : Agent) (g : List TlbE → List TlbE) : (modTlb s ag g).cur = s.cur := by cases ag <;> rfl
@[simp] theorem modTlb_seq (ag : Agent) (g : List TlbE → List TlbE) : (modTlb s ag g).seq = s.seq := by cases ag <;> rfl
@[simp] theorem modTlb_freeIx (ag : Agent) (g : List TlbE → List TlbE) : (modTlb s ag g).freeIx = s.freeIx := by cases ag <;> rfl

@[simp] theorem modCej_mem (g : Cej → Cej) : (modCej s g).mem = s.mem := rfl
@[simp] theorem modCej_ms (g : Cej → Cej) : (modCej s g).ms = s.ms := rfl
@[simp] theorem modCej_folds (g : Cej → Cej) : (modCej s g).folds = s.folds := rfl
@[simp] theorem modCej_grids (g : Cej → Cej) : (modCej s g).grids = s.grids := rfl
@[simp] theorem modCej_cores (g : Cej → Cej) : (modCej s g).cores = s.cores := rfl
@[simp] theorem modCej_dies (g : Cej → Cej) : (modCej s g).dies = s.dies := rfl
@[simp] theorem modCej_ctxs (g : Cej → Cej) : (modCej s g).ctxs = s.ctxs := rfl
@[simp] theorem modCej_queues (g : Cej → Cej) : (modCej s g).queues = s.queues := rfl
@[simp] theorem modCej_pads (g : Cej → Cej) : (modCej s g).pads = s.pads := rfl
@[simp] theorem modCej_sched (g : Cej → Cej) : (modCej s g).sched = s.sched := rfl
@[simp] theorem modCej_cur (g : Cej → Cej) : (modCej s g).cur = s.cur := rfl
@[simp] theorem modCej_seq (g : Cej → Cej) : (modCej s g).seq = s.seq := rfl
@[simp] theorem modCej_freeIx (g : Cej → Cej) : (modCej s g).freeIx = s.freeIx := rfl
@[simp] theorem modCej_cej (g : Cej → Cej) : (modCej s g).plat.cej = g s.plat.cej := rfl

/-! ## Parts after an update of their own kind -/

theorem fold?_modFold (f j : Nat) (g : Fold → Fold) :
    fold? (modFold s f g) j = if j = f then (fold? s j).map g else fold? s j := tget?_tmod s.folds f j g

theorem grid?_modGrid (n j : Nat) (g : Grid → Grid) :
    grid? (modGrid s n g) j = if j = n then (grid? s j).map g else grid? s j := tget?_tmod s.grids n j g

theorem core_modCore (n j : Nat) (g : Core → Core) : coreAt (modCore s n g) j = if j = n then g (coreAt s j) else coreAt s j := by
  unfold coreAt modCore; rw [tgetD_tput]; split
  · next h => subst h; rfl
  · rfl

theorem die_modDie (n j : Nat) (g : Die → Die) : die (modDie s n g) j = if j = n then g (die s j) else die s j := by
  unfold die modDie; rw [tgetD_tput]; split
  · next h => subst h; rfl
  · rfl

theorem ctx_modCtx (n j : Nat) (g : Ctx → Ctx) : ctx (modCtx s n g) j = if j = n then g (ctx s j) else ctx s j := by
  unfold ctx modCtx; rw [tgetD_tput]; split
  · next h => subst h; rfl
  · rfl

theorem queue_modQueue (n j : Nat) (g : Queue → Queue) :
    queue (modQueue s n g) j = if j = n ∧ n < 4096 then g (queue s j) else queue s j := by
  unfold queue modQueue
  by_cases hn : n < 4096
  · simp only [hn, and_true, if_true, tgetD_tput]
    split
    · next h => subst h; rfl
    · rfl
  · simp only [hn, and_false, if_false]

theorem pad_modPad (n j : Nat) (g : Paddock → Paddock) :
    pad (modPad s n g) j = if j = n ∧ n < 64 then g (pad s j) else pad s j := by
  unfold pad modPad
  by_cases hn : n < 64
  · simp only [hn, and_true, if_true, tgetD_tput]
    split
    · next h => subst h; rfl
    · rfl
  · simp only [hn, and_false, if_false]

theorem flock?_modFlock (f k f' k' : Nat) (g : Flock → Flock) :
    flock? (modFlock s f k g) f' k' = if f' = f ∧ k' = k then (flock? s f' k').map g else flock? s f' k' := by
  unfold flock? modFlock
  rw [fold?_modFold]
  by_cases hf : f' = f
  · subst hf
    cases h : fold? s f' with
    | none => simp
    | some fo => simp [tget?_tmod]
  · simp [hf]

theorem thread?_modThread (f k l f' k' l' : Nat) (g : Thread → Thread) :
    thread? (modThread s f k l g) f' k' l' =
      if f' = f ∧ k' = k ∧ l' = l then (thread? s f' k' l').map g else thread? s f' k' l' := by
  unfold thread? modThread
  rw [flock?_modFlock]
  by_cases h : f' = f ∧ k' = k
  · obtain ⟨rfl, rfl⟩ := h
    cases hh : flock? s f' k' with
    | none => simp
    | some fl => simp [tget?_tmod]
  · have : ¬ (f' = f ∧ k' = k ∧ l' = l) := fun x => h ⟨x.1, x.2.1⟩
    rw [if_neg h, if_neg this]

/-! ## Registers of a flock -/

theorem sreg_setSreg (fl : Flock) (n m : Nat) (x : W64) : sreg (setSreg fl n x) m = if m = n then x else sreg fl m :=
  tgetD_tset fl.sregs n m x 0

theorem vkey_inj {n m l k : Nat} (hn : n < 4096) (hm : m < 4096) : vkey n l = vkey m k ↔ n = m ∧ l = k := by
  unfold vkey; omega

theorem vreg_setVreg (fl : Flock) {n m : Nat} (l k : Nat) (x : W32) (hn : n < 4096) (hm : m < 4096) :
    vreg (setVreg fl n l x) m k = if m = n ∧ k = l then x else vreg fl m k := by
  have h := tgetD_tset fl.vregs (vkey n l) (vkey m k) x 0
  simp only [vkey_inj hm hn] at h
  exact h

@[simp] theorem setSreg_vregs (fl : Flock) (n : Nat) (x : W64) : (setSreg fl n x).vregs = fl.vregs := rfl
@[simp] theorem setSreg_threads (fl : Flock) (n : Nat) (x : W64) : (setSreg fl n x).threads = fl.threads := rfl
@[simp] theorem setSreg_flags (fl : Flock) (n : Nat) (x : W64) : (setSreg fl n x).flags = fl.flags := rfl
@[simp] theorem setSreg_group (fl : Flock) (n : Nat) (x : W64) : (setSreg fl n x).group = fl.group := rfl
@[simp] theorem setVreg_sregs (fl : Flock) (n l : Nat) (x : W32) : (setVreg fl n l x).sregs = fl.sregs := rfl
@[simp] theorem setVreg_threads (fl : Flock) (n l : Nat) (x : W32) : (setVreg fl n l x).threads = fl.threads := rfl
@[simp] theorem setVreg_flags (fl : Flock) (n l : Nat) (x : W32) : (setVreg fl n l x).flags = fl.flags := rfl
@[simp] theorem setVreg_group (fl : Flock) (n l : Nat) (x : W32) : (setVreg fl n l x).group = fl.group := rfl

/-! ## Predicates of a thread -/

/-- P0 reads true (R18). -/
@[simp] theorem readP_zero (t : Thread) : readP t 0 = true := rfl

theorem readP_setPred (t : Thread) (n m : Fin 8) (v : Bool) (hn : n ≠ 0) :
    readP (setPred t n v) m = if m = n then v else readP t m := by
  unfold readP setPred bitOf
  rw [if_neg hn]
  revert hn
  cases v <;> fin_cases n <;> fin_cases m <;> simp

@[simp] theorem setPred_zero (t : Thread) (v : Bool) : setPred t 0 v = t := rfl

end Sys2Proof.Machine
end

