-- ==== Sys2Proof/Laws/Calm.lean ====
section
/-! SUPPORT. Steps of control: what moves groups, takes traps, stops folds and aborts regions leaves every register, flag,
byte of memory and system register alone. -/

namespace Sys2Proof.Machine

open Sys2Proof

/-- What two flocks must share. -/
structure FlockCalm (a b : Flock) : Prop where
  vregs : b.vregs = a.vregs
  sregs : b.sregs = a.sregs
  flags : b.flags = a.flags
  preds : ∀ l, (tget? b.threads l).map (·.preds) = (tget? a.threads l).map (·.preds)

/-- What two folds must share. -/
structure FoldCalm (a b : Fold) : Prop where
  scratch : b.scratch = a.scratch
  gone : ∀ k, tget? a.flocks k = none → tget? b.flocks k = none
  kept : ∀ k x, tget? a.flocks k = some x → ∃ y, tget? b.flocks k = some y ∧ FlockCalm x y

/-- A context with other positions pending and other counts of numerical events. -/
def ctxWith (k : Ctx) (p : List (Nat × Nat)) (n w : Tab Nat) : Ctx :=
  { k with od := { k.od with pendO := p }, fpev := { k.fpev with count := n, win := w } }

/-- What two states must share. -/
structure Calm (s t : State) : Prop where
  mem : t.mem = s.mem
  owners : t.ms.owners = s.ms.owners
  lines : t.ms.lines = s.ms.lines
  rsps : t.ms.rsps = s.ms.rsps
  l2 : t.ms.l2 = s.ms.l2
  grids : t.grids = s.grids
  plat : t.plat = s.plat
  view : ∀ c, (coreAt t c).view = (coreAt s c).view
  grant : ∀ c, (coreAt t c).grant = (coreAt s c).grant
  evs : ∀ rid, regEvs t rid = regEvs s rid ∨ regEvs t rid = none
  ctx : ∀ c, ∃ p n w, ctx t c = ctxWith (ctx s c) p n w ∧
      (¬ Ended s t c → n = (ctx s c).fpev.count ∧ w = (ctx s c).fpev.win)
  gone : ∀ f, fold? s f = none → fold? t f = none
  kept : ∀ f x, fold? s f = some x → ∃ y, fold? t f = some y ∧ FoldCalm x y

theorem FlockCalm.refl (a : Flock) : FlockCalm a a := ⟨rfl, rfl, rfl, fun _ => rfl⟩

theorem FlockCalm.trans {a b c : Flock} (h : FlockCalm a b) (k : FlockCalm b c) : FlockCalm a c :=
  ⟨k.vregs.trans h.vregs, k.sregs.trans h.sregs, k.flags.trans h.flags, fun l => (k.preds l).trans (h.preds l)⟩

theorem FoldCalm.refl (a : Fold) : FoldCalm a a := ⟨rfl, fun _ h => h, fun _ x h => ⟨x, h, .refl x⟩⟩

theorem FoldCalm.trans {a b c : Fold} (h : FoldCalm a b) (k : FoldCalm b c) : FoldCalm a c :=
  ⟨k.scratch.trans h.scratch, fun i e => k.gone i (h.gone i e), fun i x e => by
    obtain ⟨y, e1, f1⟩ := h.kept i x e
    obtain ⟨z, e2, f2⟩ := k.kept i y e1
    exact ⟨z, e2, f1.trans f2⟩⟩

theorem Ended.left {s t u : State} {c : Nat} (h : Ended s t c) (k : ∀ rid, regEvs u rid = regEvs t rid ∨ regEvs u rid = none) :
    Ended s u c := by
  obtain ⟨r, e, h1, h2⟩ := h
  exact ⟨r, e, h1, (k r).elim (fun x => x.trans h2) id⟩

theorem Ended.right {s t u : State} {c : Nat} (h : Ended t u c) (k : ∀ rid, regEvs t rid = regEvs s rid ∨ regEvs t rid = none) :
    Ended s u c := by
  obtain ⟨r, e, h1, h2⟩ := h
  refine ⟨r, e, (k r).elim (fun x => x.symm.trans h1) (fun x => ?_), h2⟩
  rw [x] at h1; cases h1

/-- A context of which nothing that calm speaks of has changed. -/
theorem sameCtx {s t : State} {c : Nat} (h : ctx t c = ctx s c) : ∃ p n w, ctx t c = ctxWith (ctx s c) p n w ∧
      (¬ Ended s t c → n = (ctx s c).fpev.count ∧ w = (ctx s c).fpev.win) :=
  ⟨(ctx s c).od.pendO, (ctx s c).fpev.count, (ctx s c).fpev.win, h, fun _ => ⟨rfl, rfl⟩⟩

theorem Calm.refl (s : State) : Calm s s :=
  ⟨rfl, rfl, rfl, rfl, rfl, rfl, rfl, fun _ => rfl, fun _ => rfl, fun _ => .inl rfl, fun _ => sameCtx rfl, fun _ h => h,
    fun _ x h => ⟨x, h, .refl x⟩⟩

theorem Calm.trans {s t u : State} (h : Calm s t) (k : Calm t u) : Calm s u where
  mem := k.mem.trans h.mem
  owners := k.owners.trans h.owners
  lines := k.lines.trans h.lines
  rsps := k.rsps.trans h.rsps
  l2 := k.l2.trans h.l2
  grids := k.grids.trans h.grids
  plat := k.plat.trans h.plat
  view c := (k.view c).trans (h.view c)
  grant c := (k.grant c).trans (h.grant c)
  evs r := (k.evs r).elim (fun e => (h.evs r).elim (fun f => .inl (e.trans f)) (fun f => .inr (e.trans f))) .inr
  ctx c := by
    obtain ⟨p, n, w, e, e'⟩ := h.ctx c
    obtain ⟨q, m, v, f, f'⟩ := k.ctx c
    refine ⟨q, m, v, by rw [f, e]; rfl, fun x => ?_⟩
    obtain ⟨a1, a2⟩ := e' (fun y => x (y.left k.evs))
    obtain ⟨b1, b2⟩ := f' (fun y => x (y.right h.evs))
    exact ⟨b1.trans (by rw [e]; exact a1), b2.trans (by rw [e]; exact a2)⟩
  gone i e := k.gone i (h.gone i e)
  kept i x e := by
    obtain ⟨y, e1, f1⟩ := h.kept i x e
    obtain ⟨z, e2, f2⟩ := k.kept i y e1
    exact ⟨z, e2, f1.trans f2⟩

theorem calm_foldl {β : Type} {g : State → β → State} (hg : ∀ s b, Calm s (g s b)) (l : List β) (s : State) :
    Calm s (l.foldl g s) := by
  induction l generalizing s with
  | nil => exact .refl s
  | cons b r ih => exact (hg s b).trans (ih (g s b))

/-! ## Calm updates -/

theorem calm_modFold (s : State) (f : Nat) (g : Fold → Fold) (hg : ∀ x, fold? s f = some x → FoldCalm x (g x)) :
    Calm s (modFold s f g) where
  mem := rfl
  owners := rfl
  lines := rfl
  rsps := rfl
  l2 := rfl
  grids := rfl
  plat := rfl
  view _ := rfl
  grant _ := rfl
  evs _ := .inl rfl
  ctx _ := sameCtx rfl
  gone i e := by rw [fold?_modFold]; split <;> simp [e]
  kept i x e := by
    rw [fold?_modFold]
    split
    · next h => subst h; exact ⟨g x, by simp [e], hg x e⟩
    · exact ⟨x, e, .refl x⟩

theorem foldCalm_flocks (fo : Fold) (k : Nat) (g : Flock → Flock)
    (hg : ∀ x, tget? fo.flocks k = some x → FlockCalm x (g x)) : FoldCalm fo { fo with flocks := tmod fo.flocks k g } where
  scratch := rfl
  gone i e := by simp only [tget?_tmod]; split <;> simp [e]
  kept i x e := by
    simp only [tget?_tmod]
    split
    · next h => subst h; exact ⟨g x, by simp [e], hg x e⟩
    · exact ⟨x, e, .refl x⟩

theorem calm_modFlock (s : State) (f k : Nat) (g : Flock → Flock) (hg : ∀ x, flock? s f k = some x → FlockCalm x (g x)) :
    Calm s (modFlock s f k g) :=
  calm_modFold s f _ (fun fo h => foldCalm_flocks fo k g (fun x e => hg x (by unfold flock?; rw [h]; exact e)))

theorem flockCalm_threads (fl : Flock) (l : Nat) (g : Thread → Thread) (hg : ∀ t, (g t).preds = t.preds) :
    FlockCalm fl { fl with threads := tmod fl.threads l g } := by
  refine ⟨rfl, rfl, rfl, fun i => ?_⟩
  simp only [tget?_tmod]
  split
  · cases tget? fl.threads i <;> simp [hg]
  · rfl

theorem flockCalm_map (fl : Flock) (g : Nat × Thread → Nat × Thread) (h1 : ∀ e, (g e).1 = e.1)
    (h2 : ∀ e, (g e).2.preds = e.2.preds) : FlockCalm fl { fl with threads := fl.threads.map g } := by
  refine ⟨rfl, rfl, rfl, fun i => ?_⟩
  simp only [tget?_map _ _ h1]
  cases tget? fl.threads i <;> simp [h2]

theorem calm_modThread (s : State) (f k l : Nat) (g : Thread → Thread) (hg : ∀ t, (g t).preds = t.preds) :
    Calm s (modThread s f k l g) := calm_modFlock s f k _ (fun x _ => flockCalm_threads x l g hg)

theorem calm_modCore (s : State) (c : Nat) (g : Core → Core) (hv : ∀ x, (g x).view = x.view)
    (hg : ∀ x, (g x).grant = x.grant) : Calm s (modCore s c g) where
  mem := rfl
  owners := rfl
  lines := rfl
  rsps := rfl
  l2 := rfl
  grids := rfl
  plat := rfl
  view i := by rw [core_modCore]; split <;> simp [hv]
  grant i := by rw [core_modCore]; split <;> simp [hg]
  evs _ := .inl rfl
  ctx _ := sameCtx rfl
  gone _ e := e
  kept _ x e := ⟨x, e, .refl x⟩

theorem calm_modMs (s : State) (g : MemSys → MemSys) (ho : (g s.ms).owners = s.ms.owners)
    (hl : (g s.ms).lines = s.ms.lines) (hs : (g s.ms).rsps = s.ms.rsps) (h2 : (g s.ms).l2 = s.ms.l2) (hr : (g s.ms).regions = s.ms.regions) :
    Calm s (modMs s g) where
  mem := rfl
  owners := ho
  lines := hl
  rsps := hs
  l2 := h2
  grids := rfl
  plat := rfl
  view _ := rfl
  grant _ := rfl
  evs r := .inl (by simp only [regEvs, modMs_ms, hr])
  ctx _ := sameCtx rfl
  gone _ e := e
  kept _ x e := ⟨x, e, .refl x⟩

theorem calm_modPend (s : State) (c : Nat) (g : OrderDom → List (Nat × Nat)) :
    Calm s (modCtx s c (fun k => { k with od := { k.od with pendO := g k.od } })) where
  mem := rfl
  owners := rfl
  lines := rfl
  rsps := rfl
  l2 := rfl
  grids := rfl
  plat := rfl
  view _ := rfl
  grant _ := rfl
  evs _ := .inl rfl
  ctx i := by
    rw [ctx_modCtx]
    split
    · exact ⟨_, (Machine.ctx s i).fpev.count, (Machine.ctx s i).fpev.win, rfl, fun _ => ⟨rfl, rfl⟩⟩
    · exact ⟨(Machine.ctx s i).od.pendO, (Machine.ctx s i).fpev.count, (Machine.ctx s i).fpev.win, rfl, fun _ => ⟨rfl, rfl⟩⟩
  gone _ e := e
  kept _ x e := ⟨x, e, .refl x⟩

/-- A region ends without a commit: its versions go, and the events counted in it are taken back. -/
theorem calm_endRegion (s : State) (r : Nat) (x : Region) (h : tget? s.ms.regions r = some x) (g : MemSys → List Ver) :
    Calm s (takeBack (modMs s (fun m => { m with regions := tdel m.regions r, vers := g m })) x) := by
  have hd : ∀ q, tget? (tdel s.ms.regions r) q = tget? s.ms.regions q ∨ tget? (tdel s.ms.regions r) q = none := fun q => by
    rw [tget?_tdel]; split
    · exact .inr rfl
    · exact .inl rfl
  have he : ∀ u : State, u.ms.regions = tdel s.ms.regions r → ∀ q, regEvs u q = regEvs s q ∨ regEvs u q = none := fun u e q => by
    unfold regEvs
    rw [e]
    rcases hd q with hq | hq
    · rw [hq]; exact .inl rfl
    · rw [hq]; exact .inr rfl
  unfold takeBack
  by_cases h0 : x.evs = []
  · rw [if_pos h0]
    exact ⟨rfl, rfl, rfl, rfl, rfl, rfl, rfl, fun _ => rfl, fun _ => rfl, he _ rfl, fun _ => sameCtx rfl, fun _ e => e,
      fun _ y e => ⟨y, e, .refl y⟩⟩
  · rw [if_neg h0]
    refine ⟨rfl, rfl, rfl, rfl, rfl, rfl, rfl, fun _ => rfl, fun _ => rfl, he _ rfl, fun c => ?_, fun f e => ?_, fun f y e => ?_⟩
    · have hx : ∀ (u : State) (q : Nat) (k : Fold → Fold), Machine.ctx (modFold u q k) c = Machine.ctx u c := fun _ _ _ => rfl
      rw [hx, ctx_modCtx]
      by_cases hc : c = x.ctx
      · rw [if_pos hc]
        subst hc
        refine ⟨_, _, _, rfl, fun z => absurd ⟨r, x.evs, ?_, ?_⟩ z⟩
        · unfold regEvs; rw [h]; simp [h0]
        · unfold regEvs
          show (tget? (tdel s.ms.regions r) r).bind _ = none
          rw [tget?_tdel, if_pos rfl]; rfl
      · rw [if_neg hc]; exact sameCtx rfl
    · rw [fold?_modFold]
      have : fold? (modCtx (modMs s (fun m => { m with regions := tdel m.regions r, vers := g m })) x.ctx (fun k =>
        { k with fpev := k.fpev.takeBack x.evs })) f = fold? s f := rfl
      rw [this, e]; split <;> rfl
    · rw [fold?_modFold]
      have : fold? (modCtx (modMs s (fun m => { m with regions := tdel m.regions r, vers := g m })) x.ctx (fun k =>
        { k with fpev := k.fpev.takeBack x.evs })) f = fold? s f := rfl
      rw [this, e]
      split
      · exact ⟨_, rfl, rfl, fun _ h => h, fun _ z h => ⟨z, h, .refl z⟩⟩
      · exact ⟨y, rfl, .refl y⟩

/-! ## Groups -/

theorem calm_returnTokens (s : State) (c : Nat) (g : Group) : Calm s (returnTokens s c g) :=
  calm_modCore s c _ (fun _ => rfl) (fun _ => rfl)

theorem calm_dropGroup (s : State) (f k c : Nat) : Calm s (dropGroup s f k c) := by
  unfold dropGroup
  split
  · exact .refl s
  · refine Calm.trans ?_ (calm_returnTokens _ c _)
    exact calm_modFlock s f k _ (fun _ _ => ⟨rfl, rfl, rfl, fun _ => rfl⟩)

theorem deliverThread_preds (t : Thread) : (deliverThread t).preds = t.preds := rfl

theorem calm_endClause (s : State) (c : Cx) (y : Bool) : Calm s (endClause s c y) := by
  unfold endClause
  refine Calm.trans ?_ (calm_dropGroup _ c.f c.k c.c)
  refine calm_modFlock s c.f c.k _ (fun x _ => ?_)
  cases h : x.group with
  | none => exact ⟨rfl, rfl, rfl, fun _ => rfl⟩
  | some g =>
    exact (flockCalm_map x (fun e => if g.lanes.contains e.1 && e.2.reg.doom && !e.2.trap.mode then (e.1, deliverThread e.2) else e)
      (fun e => by split <;> rfl) (fun e => by split <;> rfl)).trans ⟨rfl, rfl, rfl, fun _ => rfl⟩

theorem calm_setPcs (s : State) (f k : Nat) (p : Nat → VA × VA) : Calm s (setPcs s f k p) := by
  refine calm_modFlock s f k _ (fun x _ => ?_)
  cases h : x.group with
  | none => exact .refl x
  | some g =>
    exact (flockCalm_map x
      (fun e => if g.lanes.contains e.1 then (e.1, { e.2 with pc := (p e.1).1, hdr := (p e.1).2, via := none }) else e)
      (fun e => by split <;> rfl) (fun e => by split <;> rfl)).trans ⟨rfl, rfl, rfl, fun _ => rfl⟩

theorem calm_advance (s : State) (c : Cx) (h : Hd) : Calm s (advance s c h) := by
  unfold advance
  refine (calm_setPcs s c.f c.k (fun _ => nextWord c)).trans ?_
  by_cases hl : isLast c
  · rw [if_pos hl]; exact calm_endClause _ c _
  · rw [if_neg hl]; exact calm_modFlock _ c.f c.k _ (fun x _ => ⟨rfl, rfl, rfl, fun _ => rfl⟩)

theorem calm_transfer (s : State) (c : Cx) (h : Hd) (p : Nat → VA) : Calm s (transfer s c h p) :=
  (calm_setPcs s c.f c.k _).trans (calm_endClause _ c _)

theorem calm_transferTo (s : State) (c : Cx) (h : Hd) (tk : List Nat) (p : Nat → VA) : Calm s (transferTo s c h tk p) :=
  ((calm_setPcs s c.f c.k _).trans (calm_modFlock _ c.f c.k _ (fun x _ => flockCalm_map x _
    (fun e => by split <;> split <;> rfl) (fun e => by split <;> split <;> rfl)))).trans (calm_endClause _ c _)

theorem calm_holdWord (s : State) (c : Cx) (b : Bool) (ws : List Wait) : Calm s (holdWord s c b ws) :=
  calm_modFlock s c.f c.k _ (fun x _ => by cases b <;> split <;> exact ⟨rfl, rfl, rfl, fun _ => rfl⟩)

theorem calm_keepExec (s : State) (c : Cx) (ex : List Nat) : Calm s (keepExec s c ex) :=
  calm_modFlock s c.f c.k _ (fun _ _ => ⟨rfl, rfl, rfl, fun _ => rfl⟩)

theorem calm_waitHere (s : State) (c : Cx) (ex : List Nat) (ws : List Wait) : Calm s (waitHere s c ex ws) :=
  (calm_holdWord s c true ws).trans (calm_keepExec _ c ex)

theorem calm_waitRoom (s : State) (c : Cx) (ws : List Wait) : Calm s (waitRoom s c ws) := calm_holdWord s c false ws

theorem calm_waitFlags (s : State) (c : Cx) (m : BitVec 12) : Calm s (waitFlags s c m) :=
  calm_modFlock s c.f c.k _ (fun _ _ => ⟨rfl, rfl, rfl, fun _ => rfl⟩)

/-! ## Aborts, faults and traps -/

theorem abortThread_preds (w : Bool) (n : Nat) (t : Thread) : (abortThread w n t).preds = t.preds := by
  simp only [abortThread]; split <;> rfl

theorem calm_dropReq (s : State) (c f k : Nat) : Calm s (dropReq s c f k) := calm_modCore s c _ (fun _ => rfl) (fun _ => rfl)

theorem calm_leaveWaiting (s : State) (f k l : Nat) : Calm s (leaveWaiting s f k l) := by
  unfold leaveWaiting
  refine Calm.trans (calm_modFlock s f k (laneLeaves l) (fun x _ => ?_)) ?_
  · unfold laneLeaves
    split
    · exact .refl x
    · split
      · exact .refl x
      · split <;> exact ⟨rfl, rfl, rfl, fun _ => rfl⟩
  · dsimp only
    split
    · exact calm_dropReq _ _ _ _
    · exact .refl _

theorem calm_stopTask (s : State) (f : Nat) : Calm s (stopTask s f) :=
  calm_modFold s f _ (fun _ _ => ⟨rfl, fun _ h => h, fun _ y h => ⟨y, h, .refl y⟩⟩)

theorem calm_abortOne (s : State) (r n : Nat) : Calm s (abortOne s r n) := by
  unfold abortOne
  cases h : tget? s.ms.regions r with
  | none => exact .refl s
  | some x =>
    dsimp only
    by_cases hp : x.phase = .pending
    · rw [if_pos hp]; exact calm_stopTask s _
    · rw [if_neg hp]
      refine Calm.trans (calm_endRegion s r x h (fun m => m.vers.filter (fun v => v.owner != .region r)))
        (Calm.trans (calm_modPend _ x.ctx (fun o => o.pendO.filter (fun p => p.2 != r))) ?_)
      · split
        · exact .refl _
        · split
          · exact .refl _
          · split
            · exact calm_modThread _ _ _ _ _ (abortThread_preds _ _)
            · exact (calm_modThread _ _ _ _ _ (abortThread_preds _ _)).trans (calm_leaveWaiting _ _ _ _)

theorem calm_abortDeep (n : Nat) (s : State) (r code : Nat) : Calm s (abortDeep n s r code) := by
  induction n generalizing s r code with
  | zero => exact .refl s
  | succ n ih =>
    simp only [abortDeep]
    exact (calm_abortOne s r code).trans (calm_foldl (fun s q => ih s q 1) _ _)

theorem calm_abortRegion (s : State) (r n : Nat) : Calm s (abortRegion s r n) := calm_abortDeep _ s r n

theorem calm_abortRegions (s : State) (f n : Nat) : Calm s (abortRegions s f n) :=
  calm_foldl (g := fun s (e : Nat × Region) => abortRegion s e.1 n) (fun s e => calm_abortRegion s e.1 n) _ s

theorem calm_regionBar (s : State) (c : Cx) (ex : List Nat) : Calm s (regionBar s c ex) :=
  calm_foldl (fun s l => by
    split
    · split
      · exact calm_abortRegion s _ _
      · exact .refl s
    · exact .refl s) ex s

theorem foldCalm_skidsAt (x : Fold) (cyc : Nat) : FoldCalm x { x with flocks := skidsAt x cyc } := by
  unfold skidsAt
  split
  · have e : ∀ i, tget? (x.flocks.map (fun e => (e.1, firstSkid cyc e.2))) i = (tget? x.flocks i).map (firstSkid cyc) := fun i => by
      induction x.flocks with
      | nil => rfl
      | cons a r ih =>
        simp only [List.map_cons, tget?]
        split
        · rfl
        · exact ih
    refine ⟨rfl, fun i h => ?_, fun i y h => ?_⟩
    · show tget? (x.flocks.map _) i = none
      rw [e, h]; rfl
    · exact ⟨firstSkid cyc y, by show tget? (x.flocks.map _) i = _; rw [e, h]; rfl, rfl, rfl, rfl, fun _ => rfl⟩
  · exact .refl x

theorem calm_foldFault (s : State) (f k cause : Nat) (d : BitVec 16) (tid : Option Nat) (n : Bool) (hpc : VA) (fa : W64)
    (wd : Bool) : Calm s (foldFault s f k cause d tid n hpc fa wd) := by
  refine Calm.trans ?_ (calm_abortRegions _ f 7)
  refine calm_modFold s f _ (fun x _ => ?_)
  have h0 : FoldCalm x { x with flocks := skidsAt x (cycleNow s) } := foldCalm_skidsAt x _
  have hk := foldCalm_flocks { x with flocks := skidsAt x (cycleNow s) } k (fun fl =>
      match fl.fault with
      | some _ => fl
      | none =>
        { fl with
          skid := if wd then fl.skid - 1 else fl.skid
          fault := some { cause := BitVec.ofNat 8 cause, detail := d, tid := tid, nest := n, hpc := hpc } })
    (fun y _ => by
      split
      · exact .refl y
      · exact ⟨rfl, rfl, rfl, fun _ => rfl⟩)
  have hh := h0.trans hk
  exact ⟨hh.scratch, hh.gone, hh.kept⟩

theorem calm_faultHere (s : State) (c : Cx) (cause : Nat) (l : Option Nat) (fa : W64) : Calm s (faultHere s c cause l fa) :=
  calm_foldFault s _ _ _ _ _ _ _ _ _

theorem calm_illop (s : State) (c : Cx) (ex : List Nat) : Calm s (illop s c ex) := calm_faultHere s _ _ _ _

theorem calm_leaveBufs (s : State) (f k : Nat) : Calm s (leaveBufs s f k) :=
  calm_modFold s f _ (fun _ _ => ⟨rfl, fun _ h => h, fun _ y h => ⟨y, h, .refl y⟩⟩)

theorem calm_leaveGroup (s : State) (f k l c : Nat) : Calm s (leaveGroup s f k l c) := by
  unfold leaveGroup
  refine Calm.trans (calm_modFlock s f k (fun fl =>
    { fl with group := fl.group.map (fun g => { g with lanes := g.lanes.filter (· != l) }) })
      (fun x _ => ⟨rfl, rfl, rfl, fun _ => rfl⟩)) ?_
  dsimp only
  split
  · split
    · exact (calm_leaveBufs _ f k).trans (calm_dropGroup _ _ _ _)
    · exact .refl _
  · exact .refl _

/-- Only an absent feature's entry is read from memory (R293). -/
theorem trapEntry_vec (s : State) (k cx cause detail : Nat) (h : cause ≠ cFEAT) :
    trapEntry s k cx cause detail = (s, (ctx s cx).trapvec.setWidth 57) := by simp [trapEntry, h]

theorem calm_takeTrapAt (s : State) (f k l cause detail : Nat) (pc rpc rhdr npc nhdr epc ehdr : VA) (late : Bool)
    (hc : cause ≠ cFEAT) : Calm s (takeTrapAt s f k l cause detail pc rpc rhdr npc nhdr epc ehdr late) := by
  unfold takeTrapAt
  cases fold? s f with
  | none => exact .refl s
  | some fo =>
    cases thread? s f k l with
    | none => exact .refl s
    | some t =>
      dsimp only
      rw [trapEntry_vec _ _ _ _ _ hc]
      dsimp only
      generalize (ctx s fo.ctx).trapvec.setWidth 57 = e
      by_cases h : (t.trap.mode || e == 0) = true
      · rw [if_pos h]
        refine Calm.trans (calm_foldFault s f k cause 0 (some t.tid) t.trap.mode pc 0 (!late)) ?_
        generalize foldFault s f k cause 0 (some t.tid) t.trap.mode pc 0 (!late) = u
        refine Calm.trans ?_ (calm_leaveGroup _ f k l _)
        exact calm_modThread u f k l (fun t => { t with pc := epc, hdr := ehdr }) (fun _ => rfl)
      · rw [if_neg h]
        refine Calm.trans ?_ (calm_leaveGroup _ f k l _)
        refine Calm.trans (t := if t.reg.live then abortRegion s t.reg.rid 7 else s) ?_ ?_
        · split
          · exact calm_abortRegion s _ _
          · exact .refl s
        · generalize (if t.reg.live then abortRegion s t.reg.rid 7 else s) = u
          exact calm_modThread u f k l _ (fun x => by split <;> (split <;> rfl))

theorem calm_takeTrap (s : State) (c : Cx) (l cause detail : Nat) (hc : cause ≠ cFEAT) : Calm s (takeTrap s c l cause detail) :=
  calm_takeTrapAt s _ _ _ _ _ _ _ _ _ _ _ _ _ hc

theorem calm_takeTraps (s : State) (c : Cx) (cause detail : Nat) (ls : List Nat) (hc : cause ≠ cFEAT) :
    Calm s (takeTraps s c cause detail ls) :=
  calm_foldl (fun s l => calm_takeTrap s c l cause detail hc) ls s

/-! ## What calm says of reads -/

theorem Calm.flock {s t : State} (h : Calm s t) (f k : Nat) :
    (flock? s f k = none ∧ flock? t f k = none) ∨
      ∃ x y, flock? s f k = some x ∧ flock? t f k = some y ∧ FlockCalm x y := by
  unfold flock?
  cases e : fold? s f with
  | none => left; simp [h.gone f e]
  | some fo =>
    obtain ⟨fo', e', hc⟩ := h.kept f fo e
    rw [e']
    cases e2 : tget? fo.flocks k with
    | none => left; exact ⟨e2, hc.gone k e2⟩
    | some x =>
      obtain ⟨y, e3, h3⟩ := hc.kept k x e2
      right; exact ⟨x, y, e2, e3, h3⟩

theorem Calm.sameV {s t : State} (h : Calm s t) : SameV s t noV := fun f k l n _ _ => by
  unfold vregAt
  rcases h.flock f k with ⟨e, e'⟩ | ⟨x, y, e, e', c⟩
  · rw [e, e']
  · rw [e, e']; simp [vreg, c.vregs]

theorem Calm.sameS {s t : State} (h : Calm s t) : SameS s t noS := fun f k n _ => by
  unfold sregAt
  rcases h.flock f k with ⟨e, e'⟩ | ⟨x, y, e, e', c⟩
  · rw [e, e']
  · rw [e, e']; simp [sreg, c.sregs]

theorem Calm.sameFlags {s t : State} (h : Calm s t) : SameFlags s t := fun f k n => by
  unfold flagAt
  rcases h.flock f k with ⟨e, e'⟩ | ⟨x, y, e, e', c⟩
  · rw [e, e']
  · rw [e, e']; simp [flagVal, c.flags]

theorem Calm.sameP {s t : State} (h : Calm s t) : SameP s t noP := fun f k l n _ => by
  unfold predAt thread?
  rcases h.flock f k with ⟨e, e'⟩ | ⟨x, y, e, e', c⟩
  · rw [e, e']
  · rw [e, e']
    have hp := c.preds l
    simp only [Option.bind_some]
    cases h1 : tget? x.threads l <;> cases h2 : tget? y.threads l <;> simp [h1, h2] at hp ⊢
    simp [readP, hp]

theorem homeByte_congr {s t : State} (hm : t.mem = s.mem) (ho : t.ms.owners = s.ms.owners) (hl : t.ms.lines = s.ms.lines)
    (hs : t.ms.rsps = s.ms.rsps) (hv : ∀ c, (coreAt t c).view = (coreAt s c).view) (a : Nat) : homeByte t a = homeByte s a := by
  unfold homeByte homeVal ownerOf granted lineSt viewWord memWord
  simp only [hm, ho, hl, hs, hv]

theorem Calm.sameMem {s t : State} (h : Calm s t) : SameMem s t :=
  ⟨homeByte_congr h.mem h.owners h.lines h.rsps h.view, fun f a => by
    unfold scrAt
    cases e : fold? s f with
    | none => rw [h.gone f e]
    | some fo =>
      obtain ⟨fo', e', c⟩ := h.kept f fo e
      rw [e']; simp [scrByte, c.scratch]⟩

theorem Calm.sameSpecial {s t : State} (h : Calm s t) : SameSpecial s t := by
  refine ⟨fun cx n hn => ?_, h.evs, fun c => ?_, h.plat⟩
  · obtain ⟨p, a, b, e, e'⟩ := h.ctx cx
    rcases hn with hn | hn
    · unfold ctxRegRead odHold occCount fpoolFree framesOf grid?
      simp only [show ¬ n ≤ 0x007 by omega, show ¬ n ≤ 0x00F by omega, if_false, e, h.l2, h.grids, odwRead, fpevLim, ctxWith]
    · obtain ⟨rfl, rfl⟩ := e' hn
      unfold ctxRegRead odHold occCount fpoolFree framesOf grid?
      simp only [e, h.l2, h.grids, odwRead, ctxWith]
  · simp [coreRegRead, h.grant]

end Sys2Proof.Machine
end

