-- ==== Sys2Proof/Laws/Memory.lean ====
section
/-! SUPPORT. Physical memory: a read after a write, and the canonical form, which every operation on bytes keeps and memory
at reset has. -/

namespace Sys2Proof.Machine

open Sys2Proof

/-! ## Reads after writes -/

theorem memByte_memSet (m : List Host.Cell) (a b : Nat) (x : Byte) :
    memByte (memSet m a x) b = if b = a then x else memByte m b := tgetD_tset m a b x memDefault

theorem memByte_memPut (m : List Host.Cell) (a b : Nat) (bs : List Byte) :
    memByte (memPut m a bs) b = if a ≤ b ∧ b < a + bs.length then bs.getD (b - a) 0 else memByte m b := by
  induction bs generalizing m a with
  | nil => simp [memPut]
  | cons x r ih =>
    rw [memPut, ih, memByte_memSet]
    by_cases h1 : b = a
    · subst h1; simp
    · rw [if_neg h1]
      by_cases h2 : a + 1 ≤ b ∧ b < a + 1 + r.length
      · have h3 : a ≤ b ∧ b < a + (x :: r).length := by simp; omega
        have h4 : b - a = (b - (a + 1)) + 1 := by omega
        rw [if_pos h2, if_pos h3, h4, List.getD_cons_succ]
      · have h3 : ¬ (a ≤ b ∧ b < a + (x :: r).length) := by simp; omega
        rw [if_neg h2, if_neg h3]

/-! ## The canonical form -/

theorem Memory.wf_nil : Memory.wf [] = true := rfl

theorem Memory.wf_memSet {m : List Host.Cell} (h : Memory.wf m = true) (a : Nat) (x : Byte) :
    Memory.wf (memSet m a x) = true := by
  simp only [Memory.wf, Bool.and_eq_true, List.all_eq_true] at h ⊢
  unfold memSet tset
  split
  · next e => exact ⟨tsortedFrom_tdel h.1, fun c hc => h.2 c (List.mem_of_mem_filter hc)⟩
  · next e =>
    refine ⟨tsortedFrom_tput (Nat.zero_le _) x h.1, fun c hc => ?_⟩
    rcases mem_tput hc with hc | hc
    · subst hc; simpa using e
    · exact h.2 c hc

theorem Memory.wf_memPut {m : List Host.Cell} (h : Memory.wf m = true) (a : Nat) (bs : List Byte) :
    Memory.wf (memPut m a bs) = true := by
  induction bs generalizing m a with
  | nil => exact h
  | cons x r ih => exact ih (Memory.wf_memSet h a x) (a + 1)

theorem Memory.wf_reset : Memory.wf State.reset.mem = true := rfl

/-- A state whose memory is in its canonical form. -/
def MemOk (s : State) : Prop := Memory.wf s.mem = true

theorem memOk_of_mem {s t : State} (h : MemOk s) (e : t.mem = s.mem) : MemOk t := by unfold MemOk; rw [e]; exact h

theorem memOk_put {s : State} (h : MemOk s) (a : Nat) (bs : List Byte) : MemOk { s with mem := memPut s.mem a bs } :=
  Memory.wf_memPut h a bs

/-- A fold of steps that keep the form keeps it. -/
theorem memOk_foldl {β : Type} {g : State → β → State} (hg : ∀ s b, MemOk s → MemOk (g s b)) (l : List β) {s : State}
    (h : MemOk s) : MemOk (l.foldl g s) := by
  induction l generalizing s with
  | nil => exact h
  | cons b r ih => exact ih (hg s b h)

end Sys2Proof.Machine
end

