-- ==== Sys2Proof/Laws/Words.lean ====
section
/-! SUPPORT. How an issuing word runs: what the issuing flock is, the shapes that words share, the advance to the next word, and
the writes of their results. -/

namespace Sys2Proof.Machine

open Sys2Proof

/-! ## The issuing flock -/

theorem issuing?_spec {s : State} {c : Cx} (h : issuing? s = some c) :
    s.cur = some (c.f, c.k) ∧ fold? s c.f = some c.fo ∧ tget? c.fo.flocks c.k = some c.fl ∧
      grid? s c.fo.grid = some c.gr ∧ coreOf c.fo = some c.c ∧ c.fl.group = some c.g ∧ c.g.lanes ≠ [] := by
  unfold issuing? at h
  split at h
  · cases h
  · next f k hc =>
    split at h
    · cases h
    · next fo hf =>
      split at h
      · next fl gr co h1 h2 h3 =>
        split at h
        · cases h
        · next g hg =>
          split at h
          · cases h
          · next l r hl =>
            split at h
            · cases h
            · next t ht =>
              cases h
              exact ⟨hc, hf, h1, h2, h3, hg, by simp [hl]⟩
      · cases h

theorem issuing?_flock {s : State} {c : Cx} (h : issuing? s = some c) : flock? s c.f c.k = some c.fl := by
  obtain ⟨-, h1, h2, -⟩ := issuing?_spec h
  simp [flock?, h1, h2]

theorem issuing?_thread {s : State} {c : Cx} (h : issuing? s = some c) (l : Nat) :
    thread? s c.f c.k l = tget? c.fl.threads l := by simp [thread?, issuing?_flock h]

/-! ## Shapes -/

theorem word_run {s : State} {c : Cx} {h : Hd} {ex : List Nat} (hi : Issues s c h ex) (go : Cx → List Nat → State) :
    word h s go = .next (go c ex) := by
  obtain ⟨h1, h2, h3, -⟩ := hi
  unfold word onIssue
  rw [h1]; dsimp only; rw [h2]
  cases ex with
  | nil => exact absurd rfl h3
  | cons a r => rfl

theorem word_off {s : State} {c : Cx} {h : Hd} (h1 : issuing? s = some c) (h2 : execLanes c h = [])
    (go : Cx → List Nat → State) : word h s go = .next (advance s c h) := by
  unfold word onIssue
  rw [h1]; dsimp only; rw [h2]; rfl

theorem uword_run {s : State} {c : Cx} {h : Hd} {ex : List Nat} (hi : Issues s c h ex) (go : Cx → List Nat → State) :
    uword h s go = .next (advance (go c ex) c h) := word_run hi _

theorem vword_run {s : State} {c : Cx} {h : Hd} {ex : List Nat} (hi : Issues s c h ex) {regs : List (Nat × Nat)}
    (hw : windowLock s c regs = none) (go : Cx → List Nat → State) :
    vword h s regs go = .next (advance (go c ex) c h) := by
  unfold vword; rw [word_run hi, hw]

theorem vword_lock {s : State} {c : Cx} {h : Hd} {ex : List Nat} (hi : Issues s c h ex) {regs : List (Nat × Nat)} {i : Nat}
    (hw : windowLock s c regs = some i) (go : Cx → List Nat → State) :
    vword h s regs go = .next (advance (takeTraps s c cRLOCK i ex) c h) := by
  unfold vword; rw [word_run hi, hw]

/-- A flock that no lock of its core names meets none. -/
theorem windowLock_none {s : State} {c : Cx} (h : (coreAt s c.c).locks = []) (regs : List (Nat × Nat)) :
    windowLock s c regs = none := by
  unfold windowLock
  induction regs with
  | nil => rfl
  | cons r rs ih => simp [lockedBy, h]

/-! ## Sameness composes -/

theorem SameV.trans {s t u : State} {p : Nat → Nat → Nat → Nat → Prop} (h : SameV s t p) (k : SameV t u p) : SameV s u p :=
  fun f j l n hn hp => (k f j l n hn hp).trans (h f j l n hn hp)

theorem SameV.mono {s t : State} {p q : Nat → Nat → Nat → Nat → Prop} (h : SameV s t p) (k : ∀ f j l n, p f j l n → q f j l n) :
    SameV s t q := fun f j l n hn hq => h f j l n hn (fun e => hq (k f j l n e))

theorem SameV.ofNone {s t : State} (h : SameV s t noV) (p : Nat → Nat → Nat → Nat → Prop) : SameV s t p :=
  h.mono (fun _ _ _ _ e => e.elim)

theorem SameS.trans {s t u : State} {p : Nat → Nat → Nat → Prop} (h : SameS s t p) (k : SameS t u p) : SameS s u p :=
  fun f j n hp => (k f j n hp).trans (h f j n hp)

theorem SameS.ofNone {s t : State} (h : SameS s t noS) (p : Nat → Nat → Nat → Prop) : SameS s t p :=
  fun f j n _ => h f j n (fun e => e)

theorem SameP.trans {s t u : State} {p : Nat → Nat → Nat → Fin 8 → Prop} (h : SameP s t p) (k : SameP t u p) : SameP s u p :=
  fun f j l n hp => (k f j l n hp).trans (h f j l n hp)

theorem SameP.ofNone {s t : State} (h : SameP s t noP) (p : Nat → Nat → Nat → Fin 8 → Prop) : SameP s t p :=
  fun f j l n _ => h f j l n (fun e => e)

theorem SameFlags.trans {s t u : State} (h : SameFlags s t) (k : SameFlags t u) : SameFlags s u :=
  fun f j n => (k f j n).trans (h f j n)

theorem SameMem.trans {s t u : State} (h : SameMem s t) (k : SameMem t u) : SameMem s u :=
  ⟨fun a => (k.1 a).trans (h.1 a), fun f a => (k.2 f a).trans (h.2 f a)⟩

theorem SameSpecial.trans {s t u : State} (h : SameSpecial s t) (k : SameSpecial t u) : SameSpecial s u :=
  ⟨fun c n e => (k.1 c n (e.imp id (fun x y => x (y.right h.2.1)))).trans (h.1 c n (e.imp id (fun x y => x (y.left k.2.1)))),
    fun r => (k.2.1 r).elim (fun e => (h.2.1 r).elim (fun f => .inl (e.trans f)) (fun f => .inr (e.trans f))) .inr,
    fun c => (k.2.2.1 c).trans (h.2.2.1 c), k.2.2.2.trans h.2.2.2⟩

theorem SameTrap.trans {s t u : State} (h : SameTrap s t) (k : SameTrap t u) : SameTrap s u :=
  fun f j l => (k f j l).trans (h f j l)

theorem SameSpecial.ofModFlock (s : State) (f k : Nat) (g : Flock → Flock) : SameSpecial s (modFlock s f k g) := by
  refine ⟨fun _ _ _ => rfl, fun _ => .inl rfl, fun _ => rfl, rfl⟩

/-! ## The advance leaves every trap register alone -/

theorem trapAt_modFlock (s : State) (f k : Nat) (g : Flock → Flock)
    (h : ∀ fl l, (tget? (g fl).threads l).map (·.trap) = (tget? fl.threads l).map (·.trap)) :
    SameTrap s (modFlock s f k g) := by
  intro f' k' l
  unfold trapAt thread? flock? modFlock
  rw [fold?_modFold]
  by_cases hf : f' = f
  · rw [if_pos hf]
    cases fold? s f' with
    | none => rfl
    | some fo =>
      simp only [Option.map_some, Option.bind_some, tget?_tmod]
      by_cases hk : k' = k
      · rw [if_pos hk]
        cases tget? fo.flocks k' with
        | none => rfl
        | some fl => exact h fl l
      · rw [if_neg hk]
  · rw [if_neg hf]

theorem trap_map (ts : Tab Thread) (g : Nat × Thread → Nat × Thread) (h1 : ∀ e, (g e).1 = e.1)
    (h2 : ∀ e, (g e).2.trap = e.2.trap) (l : Nat) :
    (tget? (ts.map g) l).map (·.trap) = (tget? ts l).map (·.trap) := by
  rw [tget?_map _ _ h1]
  cases tget? ts l <;> simp [h2]

theorem sameTrap_setPcs (s : State) (f k : Nat) (p : Nat → VA × VA) : SameTrap s (setPcs s f k p) := by
  refine trapAt_modFlock s f k _ (fun fl l => ?_)
  cases fl.group with
  | none => rfl
  | some g =>
    exact trap_map _ (fun e => if g.lanes.contains e.1 then (e.1, { e.2 with pc := (p e.1).1, hdr := (p e.1).2, via := none }) else e)
      (fun e => by split <;> rfl) (fun e => by split <;> rfl) l

theorem sameTrap_dropGroup (s : State) (f k c : Nat) : SameTrap s (dropGroup s f k c) := by
  unfold dropGroup
  split
  · exact fun _ _ _ => rfl
  · exact (trapAt_modFlock s f k (fun fl => unhold { fl with group := none }) (fun _ _ => rfl))

theorem sameTrap_endClause (s : State) (c : Cx) (y : Bool) : SameTrap s (endClause s c y) := by
  unfold endClause
  refine SameTrap.trans ?_ (sameTrap_dropGroup _ c.f c.k c.c)
  refine trapAt_modFlock s c.f c.k _ (fun fl l => ?_)
  cases fl.group with
  | none => rfl
  | some g =>
    exact trap_map _ (fun e => if g.lanes.contains e.1 && e.2.reg.doom && !e.2.trap.mode then (e.1, deliverThread e.2) else e)
      (fun e => by split <;> rfl) (fun e => by split <;> rfl) l

theorem sameTrap_advance (s : State) (c : Cx) (h : Hd) : SameTrap s (advance s c h) := by
  unfold advance
  refine (sameTrap_setPcs s c.f c.k (fun _ => nextWord c)).trans ?_
  by_cases hl : isLast c
  · rw [if_pos hl]; exact sameTrap_endClause _ c _
  · rw [if_neg hl]; exact trapAt_modFlock _ c.f c.k (fun fl => { fl with yielded := h.yieldAfter || c.g.yield == 2 }) (fun _ _ => rfl)

theorem sameTrap_transfer (s : State) (c : Cx) (h : Hd) (p : Nat → VA) : SameTrap s (transfer s c h p) :=
  (sameTrap_setPcs s c.f c.k _).trans (sameTrap_endClause _ c _)

end Sys2Proof.Machine
end

