-- ==== Sys2Proof/Laws/Results.lean ====
section
/-! SUPPORT. The results of words: what the writes of S and V registers and of predicates do and leave alone, and how the group
then stands at its next word. -/

namespace Sys2Proof.Machine

open Sys2Proof

theorem OnlyRegs.trans {s t u : State} {v : Nat → Nat → Nat → Nat → Prop} {r : Nat → Nat → Nat → Prop}
    {p : Nat → Nat → Nat → Fin 8 → Prop} (h : OnlyRegs s t v r p) (k : OnlyRegs t u v r p) : OnlyRegs s u v r p :=
  ⟨h.1.trans k.1, h.2.1.trans k.2.1, h.2.2.1.trans k.2.2.1, h.2.2.2.1.trans k.2.2.2.1, h.2.2.2.2.1.trans k.2.2.2.2.1,
    h.2.2.2.2.2.1.trans k.2.2.2.2.2.1, h.2.2.2.2.2.2.trans k.2.2.2.2.2.2⟩

theorem OnlyRegs.mono {s t : State} {v v' : Nat → Nat → Nat → Nat → Prop} {r r' : Nat → Nat → Nat → Prop}
    {p p' : Nat → Nat → Nat → Fin 8 → Prop} (h : OnlyRegs s t v r p) (hv : ∀ f k l n, v f k l n → v' f k l n)
    (hr : ∀ f k n, r f k n → r' f k n) (hp : ∀ f k l n, p f k l n → p' f k l n) : OnlyRegs s t v' r' p' :=
  ⟨h.1.mono hv, fun f k n e => h.2.1 f k n (fun x => e (hr f k n x)),
    fun f k l n e => h.2.2.1 f k l n (fun x => e (hp f k l n x)), h.2.2.2⟩

theorem Calm.onlyRegs {s t : State} (h : Calm s t) (k : SameTrap s t) (v : Nat → Nat → Nat → Nat → Prop)
    (r : Nat → Nat → Nat → Prop) (p : Nat → Nat → Nat → Fin 8 → Prop) : OnlyRegs s t v r p :=
  ⟨h.sameV.ofNone v, h.sameS.ofNone r, h.sameP.ofNone p, h.sameFlags, h.sameMem, h.sameSpecial, k⟩

theorem onlyRegs_advance (s : State) (c : Cx) (h : Hd) (v : Nat → Nat → Nat → Nat → Prop) (r : Nat → Nat → Nat → Prop)
    (p : Nat → Nat → Nat → Fin 8 → Prop) : OnlyRegs s (advance s c h) v r p :=
  (calm_advance s c h).onlyRegs (sameTrap_advance s c h) v r p

/-! ## Reads through an update of one flock -/

theorem flock?_here {s : State} {f k : Nat} {fl : Flock} (h : flock? s f k = some fl) (g : Flock → Flock) :
    flock? (modFlock s f k g) f k = some (g fl) := by simp [flock?_modFlock, h]

theorem vregAt_modFlock (s : State) (f k : Nat) (g : Flock → Flock) (f' k' l n : Nat)
    (h : ∀ fl, f' = f → k' = k → flock? s f k = some fl → vreg (g fl) n l = vreg fl n l) :
    vregAt (modFlock s f k g) f' k' l n = vregAt s f' k' l n := by
  unfold vregAt
  rw [flock?_modFlock]
  by_cases e : f' = f ∧ k' = k
  · obtain ⟨rfl, rfl⟩ := e
    rw [if_pos ⟨rfl, rfl⟩]
    cases hh : flock? s f' k' with
    | none => rfl
    | some fl => exact h fl rfl rfl hh
  · rw [if_neg e]

theorem sregAt_modFlock (s : State) (f k : Nat) (g : Flock → Flock) (f' k' n : Nat)
    (h : ∀ fl, f' = f → k' = k → flock? s f k = some fl → sreg (g fl) n = sreg fl n) :
    sregAt (modFlock s f k g) f' k' n = sregAt s f' k' n := by
  unfold sregAt
  rw [flock?_modFlock]
  by_cases e : f' = f ∧ k' = k
  · obtain ⟨rfl, rfl⟩ := e
    rw [if_pos ⟨rfl, rfl⟩]
    cases hh : flock? s f' k' with
    | none => rfl
    | some fl => exact h fl rfl rfl hh
  · rw [if_neg e]

theorem flagAt_modFlock (s : State) (f k : Nat) (g : Flock → Flock) (f' k' n : Nat)
    (h : ∀ fl, flagVal (g fl) n = flagVal fl n) : flagAt (modFlock s f k g) f' k' n = flagAt s f' k' n := by
  unfold flagAt
  rw [flock?_modFlock]
  by_cases e : f' = f ∧ k' = k
  · rw [if_pos e]
    cases flock? s f' k' with
    | none => rfl
    | some fl => exact h fl
  · rw [if_neg e]

theorem predAt_modFlock (s : State) (f k : Nat) (g : Flock → Flock) (f' k' l : Nat) (n : Fin 8)
    (h : ∀ fl, f' = f → k' = k → flock? s f k = some fl →
      (tget? (g fl).threads l).map (fun t => readP t n) = (tget? fl.threads l).map (fun t => readP t n)) :
    predAt (modFlock s f k g) f' k' l n = predAt s f' k' l n := by
  unfold predAt thread?
  rw [flock?_modFlock]
  by_cases e : f' = f ∧ k' = k
  · obtain ⟨rfl, rfl⟩ := e
    rw [if_pos ⟨rfl, rfl⟩]
    cases hh : flock? s f' k' with
    | none => rfl
    | some fl =>
      have := h fl rfl rfl hh
      simp only [Option.map_some, Option.bind_some]
      cases h1 : tget? (g fl).threads l <;> cases h2 : tget? fl.threads l <;> simp_all
  · rw [if_neg e]

theorem scrAt_modFlock (s : State) (f k : Nat) (g : Flock → Flock) (f' a : Nat) :
    scrAt (modFlock s f k g) f' a = scrAt s f' a := by
  unfold scrAt modFlock
  rw [fold?_modFold]
  by_cases e : f' = f
  · rw [if_pos e]; cases fold? s f' <;> rfl
  · rw [if_neg e]

theorem sameMem_modFlock (s : State) (f k : Nat) (g : Flock → Flock) : SameMem s (modFlock s f k g) :=
  ⟨fun _ => rfl, scrAt_modFlock s f k g⟩

/-! ## Writes of an S register -/

theorem onlyRegs_writeS (s : State) (c : Cx) (d : Opd) (v : W64) : OnlyRegs s (writeS s c d v) noV (destS c d) noP := by
  cases d with
  | s n =>
    refine ⟨fun f k l r _ _ => vregAt_modFlock _ _ _ _ _ _ _ _ (fun _ _ _ _ => rfl), fun f k r h => ?_,
      fun f k l r _ => predAt_modFlock _ _ _ _ _ _ _ _ (fun _ _ _ _ => rfl), fun f k r => flagAt_modFlock _ _ _ _ _ _ _ (fun _ => rfl),
      sameMem_modFlock _ _ _ _, SameSpecial.ofModFlock _ _ _ _, trapAt_modFlock _ _ _ _ (fun _ _ => rfl)⟩
    refine sregAt_modFlock _ _ _ _ _ _ _ (fun fl e1 e2 _ => ?_)
    rw [sreg_setSreg, if_neg (fun e => h ⟨e1, e2, e⟩)]
  | _ => exact ⟨fun _ _ _ _ _ _ => rfl, fun _ _ _ _ => rfl, fun _ _ _ _ _ => rfl, fun _ _ _ => rfl,
      ⟨fun _ => rfl, fun _ _ => rfl⟩, ⟨fun _ _ _ => rfl, fun _ => .inl rfl, fun _ => rfl, rfl⟩, fun _ _ _ => rfl⟩

theorem hasS_writeS {s : State} {c : Cx} (h : issuing? s = some c) (d : Opd) (v : W64) : HasS (writeS s c d v) c d v := by
  rintro n rfl
  unfold sregAt
  simp only [writeS, flock?_here (issuing?_flock h), sreg_setSreg, if_pos]

/-! ## Writes of V registers -/

@[simp] theorem wrV_sregs (fl : Flock) (l n : Nat) (d : Opd) (v : W64) : (wrV fl l n d v).sregs = fl.sregs := by
  cases d <;> simp only [wrV]; split <;> rfl
@[simp] theorem wrV_threads (fl : Flock) (l n : Nat) (d : Opd) (v : W64) : (wrV fl l n d v).threads = fl.threads := by
  cases d <;> simp only [wrV]; split <;> rfl
@[simp] theorem wrV_flags (fl : Flock) (l n : Nat) (d : Opd) (v : W64) : (wrV fl l n d v).flags = fl.flags := by
  cases d <;> simp only [wrV]; split <;> rfl
@[simp] theorem wrV_group (fl : Flock) (l n : Nat) (d : Opd) (v : W64) : (wrV fl l n d v).group = fl.group := by
  cases d <;> simp only [wrV]; split <;> rfl

theorem vreg_wrV (fl : Flock) (l n : Nat) (r : Fin 1536) (v : W64) (m j : Nat) (hm : m < 4096) :
    vreg (wrV fl l n (.v r) v) m j =
      if j = l ∧ m = r.val + 1 ∧ n = 2 then v.extractLsb' 32 32
      else if j = l ∧ m = r.val then v.setWidth 32 else vreg fl m j := by
  have hr := r.isLt
  unfold wrV
  dsimp only
  by_cases hn : n = 2
  · rw [if_pos hn, vreg_setVreg _ _ _ _ (by omega) hm, vreg_setVreg _ _ _ _ (by omega) hm]
    by_cases hj : j = l <;> by_cases h1 : m = r.val + 1 <;> by_cases h2 : m = r.val <;> simp_all
  · rw [if_neg hn, vreg_setVreg _ _ _ _ (by omega) hm]
    by_cases hj : j = l <;> by_cases h2 : m = r.val <;> simp_all

theorem wrV_other (fl : Flock) (l n : Nat) (d : Opd) (v : W64) (h : ∀ r, d ≠ .v r) : wrV fl l n d v = fl := by
  cases d with
  | v r => exact absurd rfl (h r)
  | _ => rfl

/-- The fold over the lanes that writeLanes runs. -/
def laneFold (fl : Flock) (ex : List Nat) (n : Nat) (d : Opd) (g : Nat → W64) : Flock := ex.foldl (fun fl l => wrV fl l n d (g l)) fl

theorem writeLanes_eq (s : State) (c : Cx) (ex : List Nat) (t : Ty) (d : Opd) (g : Nat → W64) :
    writeLanes s c ex t d g = modFlock s c.f c.k (fun fl => laneFold fl ex (width t) d g) := rfl

theorem laneFold_fields (fl : Flock) (ex : List Nat) (n : Nat) (d : Opd) (g : Nat → W64) :
    (laneFold fl ex n d g).sregs = fl.sregs ∧ (laneFold fl ex n d g).threads = fl.threads ∧
      (laneFold fl ex n d g).flags = fl.flags ∧ (laneFold fl ex n d g).group = fl.group := by
  induction ex generalizing fl with
  | nil => exact ⟨rfl, rfl, rfl, rfl⟩
  | cons a r ih =>
    obtain ⟨h1, h2, h3, h4⟩ := ih (wrV fl a n d (g a))
    exact ⟨h1.trans (wrV_sregs ..), h2.trans (wrV_threads ..), h3.trans (wrV_flags ..), h4.trans (wrV_group ..)⟩

theorem vreg_laneFold (fl : Flock) (ex : List Nat) (n : Nat) (r : Fin 1536) (g : Nat → W64) (m j : Nat) (hm : m < 4096) :
    vreg (laneFold fl ex n (.v r) g) m j =
      if j ∈ ex then
        if m = r.val + 1 ∧ n = 2 then (g j).extractLsb' 32 32 else if m = r.val then (g j).setWidth 32 else vreg fl m j
      else vreg fl m j := by
  induction ex generalizing fl with
  | nil => simp [laneFold]
  | cons a t ih =>
    have e : laneFold fl (a :: t) n (.v r) g = laneFold (wrV fl a n (.v r) (g a)) t n (.v r) g := rfl
    rw [e, ih, vreg_wrV _ _ _ _ _ _ _ hm]
    by_cases h1 : j ∈ t
    · have : j ∈ a :: t := List.mem_cons_of_mem _ h1
      rw [if_pos h1, if_pos this]
      by_cases h2 : m = r.val + 1 ∧ n = 2
      · rw [if_pos h2, if_pos h2]
      · rw [if_neg h2, if_neg h2]
        by_cases h3 : m = r.val
        · rw [if_pos h3, if_pos h3]
        · rw [if_neg h3, if_neg h3, if_neg (fun x => h2 x.2), if_neg (fun x => h3 x.2)]
    · rw [if_neg h1]
      by_cases h0 : j = a
      · subst h0; simp
      · have : j ∉ a :: t := by simp [h0, h1]
        rw [if_neg this, if_neg (fun x => h0 x.1), if_neg (fun x => h0 x.1)]

theorem laneFold_other (fl : Flock) (ex : List Nat) (n : Nat) (d : Opd) (g : Nat → W64) (h : ∀ r, d ≠ .v r) :
    laneFold fl ex n d g = fl := by
  unfold laneFold
  induction ex with
  | nil => rfl
  | cons a r ih => rw [List.foldl_cons, wrV_other _ _ _ _ _ h]; exact ih

theorem onlyRegs_writeLanes (s : State) (c : Cx) (ex : List Nat) (t : Ty) (d : Opd) (g : Nat → W64) :
    OnlyRegs s (writeLanes s c ex t d g) (destV c ex (width t) d) noS noP := by
  rw [writeLanes_eq]
  refine ⟨fun f k l r hr h => vregAt_modFlock _ _ _ _ _ _ _ _ (fun fl e1 e2 _ => ?_),
    fun f k r _ => sregAt_modFlock _ _ _ _ _ _ _ (fun fl _ _ _ => by simp only [sreg, (laneFold_fields fl ex _ d g).1]),
    fun f k l r _ => predAt_modFlock _ _ _ _ _ _ _ _ (fun fl _ _ _ => by rw [(laneFold_fields fl ex _ d g).2.1]),
    fun f k r => flagAt_modFlock _ _ _ _ _ _ _ (fun fl => by simp only [flagVal, (laneFold_fields fl ex _ d g).2.2.1]),
    sameMem_modFlock _ _ _ _, SameSpecial.ofModFlock _ _ _ _,
    trapAt_modFlock _ _ _ _ (fun fl l => by rw [(laneFold_fields fl ex _ d g).2.1])⟩
  cases d with
  | v i =>
    rw [vreg_laneFold _ _ _ _ _ _ _ (by omega)]
    by_cases hl : l ∈ ex
    · rw [if_pos hl]
      have hw : width t = 1 ∨ width t = 2 := by unfold width; split <;> simp
      have hn : ¬ (i.val ≤ r ∧ r < i.val + width t) := fun e => h ⟨e1, e2, hl, e⟩
      rw [if_neg (by omega), if_neg (by omega)]
    · rw [if_neg hl]
  | _ => rw [laneFold_other _ _ _ _ _ (by intro r; simp)]

theorem hasV_writeLanes {s : State} {c : Cx} (h : issuing? s = some c) (ex : List Nat) (t : Ty) (d : Opd) (g : Nat → W64) :
    ∀ l ∈ ex, HasV (writeLanes s c ex t d g) c l (width t) d (g l) := by
  rintro l hl r rfl
  have hr := r.isLt
  unfold vregAt
  rw [writeLanes_eq, flock?_here (issuing?_flock h)]
  dsimp only
  rw [vreg_laneFold _ _ _ _ _ _ _ (by omega), vreg_laneFold _ _ _ _ _ _ _ (by omega), if_pos hl, if_pos hl]
  refine ⟨by rw [if_neg (by omega), if_pos rfl], fun hn => by rw [if_pos ⟨rfl, hn⟩]⟩

/-! ## Writes of predicates -/

/-- The fold over the lanes that writePreds runs. -/
def predFold (ts : Tab Thread) (ex : List Nat) (n : Fin 8) (g : Nat → Bool) : Tab Thread :=
  ex.foldl (fun ts l => tmod ts l (fun t => setPred t n (g l))) ts

theorem setPred_fields (t : Thread) (n : Fin 8) (v : Bool) : (setPred t n v).trap = t.trap ∧ (setPred t n v).reg = t.reg := by
  unfold setPred; split <;> exact ⟨rfl, rfl⟩

theorem setPred_twice (t : Thread) (n : Fin 8) (v w : Bool) : setPred (setPred t n v) n w = setPred t n w := by
  unfold setPred
  by_cases h : n = 0
  · simp [h]
  · have e : ∀ x : BitVec 8, (if w then (if v then x ||| 1#8 <<< n.val else x &&& ~~~(1#8 <<< n.val)) ||| 1#8 <<< n.val
        else (if v then x ||| 1#8 <<< n.val else x &&& ~~~(1#8 <<< n.val)) &&& ~~~(1#8 <<< n.val)) =
        (if w then x ||| 1#8 <<< n.val else x &&& ~~~(1#8 <<< n.val)) := by
      intro x
      generalize 1#8 <<< n.val = y
      cases v <;> cases w <;> simp <;> ext i hi <;> simp <;> cases x[i] <;> cases y[i] <;> rfl
    simp only [if_neg h, e]

theorem tget?_predFold (ts : Tab Thread) (ex : List Nat) (n : Fin 8) (g : Nat → Bool) (l : Nat) :
    tget? (predFold ts ex n g) l = (tget? ts l).map (fun t => if l ∈ ex then setPred t n (g l) else t) := by
  induction ex generalizing ts with
  | nil => cases h : tget? ts l <;> simp [predFold, h]
  | cons a r ih =>
    have e : predFold ts (a :: r) n g = predFold (tmod ts a (fun t => setPred t n (g a))) r n g := rfl
    rw [e, ih, tget?_tmod]
    by_cases h : l = a
    · subst h
      cases tget? ts l with
      | none => simp
      | some t => by_cases hr : l ∈ r <;> simp [hr, setPred_twice]
    · cases tget? ts l with
      | none => simp [h]
      | some t => simp [h]

theorem onlyRegs_writePreds (s : State) (c : Cx) (ex : List Nat) (d : Opd) (g : Nat → Bool) :
    OnlyRegs s (writePreds s c ex d g) noV noS (destP c ex d) := by
  cases d with
  | p n =>
    have e : writePreds s c ex (.p n) g = modFlock s c.f c.k (fun fl => { fl with threads := predFold fl.threads ex n g }) := rfl
    rw [e]
    refine ⟨fun f k l r _ _ => vregAt_modFlock _ _ _ _ _ _ _ _ (fun _ _ _ _ => rfl),
      fun f k r _ => sregAt_modFlock _ _ _ _ _ _ _ (fun _ _ _ _ => rfl),
      fun f k l r h => predAt_modFlock _ _ _ _ _ _ _ _ (fun fl e1 e2 _ => ?_), fun f k r => flagAt_modFlock _ _ _ _ _ _ _ (fun _ => rfl),
      sameMem_modFlock _ _ _ _, SameSpecial.ofModFlock _ _ _ _, trapAt_modFlock _ _ _ _ (fun fl l => ?_)⟩
    · rw [tget?_predFold]
      cases tget? fl.threads l with
      | none => rfl
      | some t =>
        simp only [Option.map_some]
        by_cases hl : l ∈ ex
        · rw [if_pos hl]
          by_cases h0 : n = 0
          · subst h0; rw [setPred_zero]
          · rw [readP_setPred _ _ _ _ h0, if_neg (fun x => h ⟨e1, e2, hl, x, fun y => h0 (x ▸ y)⟩)]
        · rw [if_neg hl]
    · dsimp only
      rw [tget?_predFold]
      cases tget? fl.threads l with
      | none => rfl
      | some t => simp only [Option.map_some]; split <;> simp [setPred_fields]
  | _ => exact ⟨fun _ _ _ _ _ _ => rfl, fun _ _ _ _ => rfl, fun _ _ _ _ _ => rfl, fun _ _ _ => rfl,
      ⟨fun _ => rfl, fun _ _ => rfl⟩, ⟨fun _ _ _ => rfl, fun _ => .inl rfl, fun _ => rfl, rfl⟩, fun _ _ _ => rfl⟩

/-! ## Where the group stands -/

/-- A flock with the group and the threads of the issuing flock, but for fields that neither the PC nor a doomed delivery
reads. -/
structure SameGroup (u : State) (c : Cx) (fl : Flock) : Prop where
  here : flock? u c.f c.k = some fl
  group : fl.group = some c.g
  threads : ∀ l th, tget? c.fl.threads l = some th →
    ∃ th', tget? fl.threads l = some th' ∧ th'.reg.doom = th.reg.doom ∧ th'.trap.mode = th.trap.mode

theorem sameGroup_self {s : State} {c : Cx} (h : issuing? s = some c) : SameGroup s c c.fl :=
  ⟨issuing?_flock h, (issuing?_spec h).2.2.2.2.2.1, fun _ th e => ⟨th, e, rfl, rfl⟩⟩

theorem SameGroup.mod {u : State} {c : Cx} {fl : Flock} (h : SameGroup u c fl) (g : Flock → Flock)
    (hg : (g fl).group = fl.group) (ht : (g fl).threads = fl.threads) : SameGroup (modFlock u c.f c.k g) c (g fl) :=
  ⟨flock?_here h.here g, hg.trans h.group, fun l th e => by rw [ht]; exact h.threads l th e⟩

theorem SameGroup.writeS {u : State} {c : Cx} {fl : Flock} (h : SameGroup u c fl) (d : Opd) (v : W64) :
    ∃ fl', SameGroup (writeS u c d v) c fl' := by
  cases d with
  | s n => exact ⟨_, h.mod (fun fl => setSreg fl n.val v) rfl rfl⟩
  | _ => exact ⟨fl, h⟩

theorem SameGroup.writeLanes {u : State} {c : Cx} {fl : Flock} (h : SameGroup u c fl) (ex : List Nat) (t : Ty) (d : Opd)
    (g : Nat → W64) : ∃ fl', SameGroup (writeLanes u c ex t d g) c fl' :=
  ⟨_, h.mod (fun fl => laneFold fl ex (width t) d g) (laneFold_fields fl ex (width t) d g).2.2.2
    (laneFold_fields fl ex (width t) d g).2.1⟩

theorem SameGroup.writePreds {u : State} {c : Cx} {fl : Flock} (h : SameGroup u c fl) (ex : List Nat) (d : Opd)
    (g : Nat → Bool) : ∃ fl', SameGroup (writePreds u c ex d g) c fl' := by
  cases d with
  | p n =>
    refine ⟨{ fl with threads := predFold fl.threads ex n g },
      flock?_here h.here (fun fl => { fl with threads := predFold fl.threads ex n g }), h.group, fun l th e => ?_⟩
    obtain ⟨th', e1, e2, e3⟩ := h.threads l th e
    refine ⟨if l ∈ ex then setPred th' n (g l) else th', by dsimp only; rw [tget?_predFold, e1]; rfl, ?_, ?_⟩
    · split
      · rw [(setPred_fields _ _ _).2, e2]
      · exact e2
    · split
      · rw [(setPred_fields _ _ _).1, e3]
      · exact e3
  | _ => exact ⟨fl, h⟩

theorem pcAt_dropGroup (s : State) (f k c f' k' l : Nat) : pcAt (dropGroup s f k c) f' k' l = pcAt s f' k' l := by
  unfold dropGroup
  split
  · rfl
  · unfold pcAt thread? returnTokens
    have : ∀ (u : State) g, flock? (modCore u c g) f' k' = flock? u f' k' := fun _ _ => rfl
    rw [this, flock?_modFlock]
    by_cases e : f' = f ∧ k' = k
    · rw [if_pos e]; cases flock? s f' k' <;> rfl
    · rw [if_neg e]

theorem atNext_advance {s u : State} {c : Cx} {fl : Flock} (hi : issuing? s = some c) (hg : SameGroup u c fl) (h : Hd) :
    AtNext s (advance u c h) c := by
  intro l hl th hth hd
  rw [issuing?_thread hi] at hth
  obtain ⟨th', e1, e2, e3⟩ := hg.threads l th hth
  have hl' : c.g.lanes.contains l = true := by simpa using hl
  have key : flock? (setPcs u c.f c.k (fun _ => nextWord c)) c.f c.k =
      some (unhold { fl with threads := fl.threads.map (fun e =>
        if c.g.lanes.contains e.1 then (e.1, { e.2 with pc := (nextWord c).1, hdr := (nextWord c).2, via := none }) else e) }) := by
    unfold setPcs
    rw [flock?_here hg.here, hg.group]
  have kt : tget? (fl.threads.map (fun e =>
        if c.g.lanes.contains e.1 then (e.1, { e.2 with pc := (nextWord c).1, hdr := (nextWord c).2, via := none }) else e)) l =
      some { th' with pc := (nextWord c).1, hdr := (nextWord c).2, via := none } := by
    rw [tget?_map _ _ (fun e => by split <;> rfl), e1]
    simp only [Option.map_some, hl', if_true]
  unfold advance
  by_cases hlast : isLast c = true
  · dsimp only
    rw [if_pos hlast]
    unfold endClause
    dsimp only
    rw [pcAt_dropGroup]
    unfold pcAt thread?
    rw [flock?_here key]
    simp only [unhold_group, unhold_threads, hg.group, Option.bind_some]
    rw [tget?_map _ _ (fun e => by split <;> rfl), kt]
    have : ¬ (c.g.lanes.contains l && th'.reg.doom && !th'.trap.mode) = true := by
      rw [e2, e3]
      rcases hd hlast with x | x <;> simp [x]
    simp only [Option.map_some, this]
    rfl
  · dsimp only
    rw [if_neg hlast]
    unfold pcAt thread?
    rw [flock?_here key]
    simp only [unhold_threads, Option.bind_some]
    rw [kt]
    rfl

/-! ## Whole words -/

theorem yieldsS_of {i : Instr} {s : State} {c : Cx} {h : Hd} (hi : issuing? s = some c) {d : Opd} {v : W64}
    (e : exec i s = .next (advance (writeS s c d v) c h)) : YieldsS i s c d v := by
  obtain ⟨fl, hf⟩ := (sameGroup_self hi).writeS d v
  refine ⟨_, e, fun n hd => ?_, (onlyRegs_writeS s c d v).trans (onlyRegs_advance _ c h _ _ _), atNext_advance hi hf h⟩
  rw [(calm_advance _ c h).sameS c.f c.k n.val (fun x => x)]
  exact hasS_writeS hi d v n hd

theorem hasV_calm {t u : State} (h : Calm t u) {c : Cx} {l n : Nat} {d : Opd} {v : W64} (k : HasV t c l n d v) :
    HasV u c l n d v := by
  intro r hr
  have hlt := r.isLt
  obtain ⟨k1, k2⟩ := k r hr
  refine ⟨(h.sameV _ _ _ _ hlt (fun x => x)).trans k1, fun hn => ?_⟩
  rw [← k2 hn]
  obtain ⟨e, e'⟩ | ⟨x, y, e, e', hc⟩ := h.flock c.f c.k
  · simp [vregAt, e, e']
  · simp [vregAt, e, e', vreg, hc.vregs]

theorem hasP_calm {t u : State} (h : Calm t u) {c : Cx} {l : Nat} {d : Opd} {b : Bool} (k : HasP t c l d b) : HasP u c l d b :=
  fun n hn h0 => (h.sameP _ _ _ _ (fun x => x)).trans (k n hn h0)

theorem yieldsV_of {i : Instr} {s : State} {c : Cx} {h : Hd} {ex : List Nat} (hi : issuing? s = some c) {t : Ty} {d : Opd}
    {v : Nat → W64} (e : exec i s = .next (advance (writeLanes s c ex t d v) c h)) : YieldsV i s c ex (width t) d v := by
  obtain ⟨fl, hf⟩ := (sameGroup_self hi).writeLanes ex t d v
  exact ⟨_, e, fun l hl => hasV_calm (calm_advance _ c h) (hasV_writeLanes hi ex t d v l hl),
    (onlyRegs_writeLanes s c ex t d v).trans (onlyRegs_advance _ c h _ _ _), atNext_advance hi hf h⟩

theorem hasP_writePreds {u : State} {c : Cx} {fl : Flock} (hf : SameGroup u c fl) {h : Hd}
    {ex : List Nat} (he : execLanes c h = ex) (d : Opd) (g : Nat → Bool) :
    ∀ l ∈ ex, HasP (writePreds u c ex d g) c l d (g l) := by
  rintro l hl n rfl h0
  have : ∃ th, tget? c.fl.threads l = some th := by
    rw [← he] at hl
    have := (List.mem_filter.1 hl).2
    cases e : tget? c.fl.threads l with
    | none => rw [e] at this; cases this
    | some th => exact ⟨th, rfl⟩
  obtain ⟨th, e⟩ := this
  obtain ⟨th', e1, -, -⟩ := hf.threads l th e
  have ew : writePreds u c ex (.p n) g = modFlock u c.f c.k (fun fl => { fl with threads := predFold fl.threads ex n g }) := rfl
  unfold predAt thread?
  rw [ew, flock?_here hf.here]
  dsimp only [Option.bind_some]
  rw [tget?_predFold, e1]
  simp only [Option.map_some, if_pos hl, readP_setPred _ _ _ _ h0, if_true]

theorem yieldsP_of {i : Instr} {s : State} {c : Cx} {h : Hd} {ex : List Nat} (hi : Issues s c h ex) {d : Opd}
    {b : Nat → Bool} (e : exec i s = .next (advance (writePreds s c ex d b) c h)) : YieldsP i s c ex d b := by
  obtain ⟨fl, hf⟩ := (sameGroup_self hi.1).writePreds ex d b
  exact ⟨_, e, fun l hl => hasP_calm (calm_advance _ c h) (hasP_writePreds (sameGroup_self hi.1) hi.2.1 d b l hl),
    (onlyRegs_writePreds s c ex d b).trans (onlyRegs_advance _ c h _ _ _), atNext_advance hi.1 hf h⟩

theorem hasV_writePreds (t : State) (c : Cx) (ex : List Nat) (q : Opd) (b : Nat → Bool) {l n : Nat} {d : Opd} {v : W64}
    (k : HasV t c l n d v) : HasV (writePreds t c ex q b) c l n d v := by
  intro r hr
  have e : ∀ m, vregAt (writePreds t c ex q b) c.f c.k l m = vregAt t c.f c.k l m := fun m => by
    cases q with
    | p i => exact vregAt_modFlock _ _ _ _ _ _ _ _ (fun _ _ _ _ => rfl)
    | _ => rfl
  rw [e, e]
  exact k r hr

theorem yieldsVP_of {i : Instr} {s : State} {c : Cx} {h : Hd} {ex : List Nat} (hi : Issues s c h ex) {t : Ty} {d : Opd}
    {v : Nat → W64} {p : Fin 8} {b : Nat → Bool}
    (e : exec i s = .next (advance (writePreds (writeLanes s c ex t d v) c ex (.p p) b) c h)) :
    YieldsVP i s c ex (width t) d v p b := by
  obtain ⟨fl, hf⟩ := (sameGroup_self hi.1).writeLanes ex t d v
  obtain ⟨fl', hf'⟩ := hf.writePreds ex (.p p) b
  refine ⟨_, e, fun l hl => ⟨hasV_calm (calm_advance _ c h) (hasV_writePreds _ c ex _ b (hasV_writeLanes hi.1 ex t d v l hl)),
      hasP_calm (calm_advance _ c h) (hasP_writePreds hf hi.2.1 _ b l hl)⟩, ?_, atNext_advance hi.1 hf' h⟩
  refine ((OnlyRegs.mono (onlyRegs_writeLanes s c ex t d v) (fun _ _ _ _ x => x) (fun _ _ _ x => x)
    (fun _ _ _ _ x => x.elim)).trans (OnlyRegs.mono (onlyRegs_writePreds _ c ex (.p p) b) (fun _ _ _ _ x => x.elim)
    (fun _ _ _ x => x) (fun _ _ _ _ x => x))).trans (onlyRegs_advance _ c h _ _ _)

end Sys2Proof.Machine
end

