-- ==== Sys2Proof/Safety.lean ====
section
/-! DEFINITION. What a safe step and a safe run are: the machine goes on. A trap or a fault of the manual is a next state
(R291); only the model's own stops are not. -/

namespace Sys2Proof.Machine

/-- A step from a state answers a next state. -/
def SafeStep (s : State) : Prop := ∃ t, step s = .next t

/-- n steps from a state answer next states. -/
def SafeRun : Nat → State → Prop
  | 0, _ => True
  | n + 1, s => ∃ t, step s = .next t ∧ SafeRun n t

end Sys2Proof.Machine
end

