-- ==== Sys2Proof/Tests/Slice0.lean ====
section
/-! SUPPORT. Tests: ill-formed terms that the checks refuse, words that the spec writes out, single steps with results that the
spec gives, and states that meet the premises of the statements. -/

namespace Sys2Proof.Tests

open Sys2Proof Sys2Proof.Machine

set_option maxRecDepth 100000
set_option Elab.async false

abbrev H : Hd := noHints

/-! ## Ill-formed terms, one for each check of WellFormed (R30 to R38, R42, R45, and the instructions' own tables) -/

def refusedAll (l : List Instr) : Bool := l.all (fun i => !WellFormed.wf i)

/-- An access of the plain form. -/
def am : Am := { scope := .die, strm := false, order := .plain, size := .b32, off := 0 }
def al : Al := { level := 0, scale := 0, size := .b32, order := .plain, off := 0 }
def ax : Ax := { scope := .die, sat := false, order := .plain, rm := .rne, off := 0 }
def aT : At := { scope := .die, aop := .add, order := .plain, off := 0 }
def hd1 : ClauseHdr := { len := 1, wait := 0, slotA := 15, slotB := 15, heavy := 0, yield := 0, tag := 0 }

theorem test_ill_formed_control : refusedAll [
    .bra H (.nz (.v 1)) 0, .bra H (.z (.p 1)) 0, .brx H (.v 3), .brx H (.p 1), .ret H (.v 3), .call H (.s 2) (.label 0),
    .call H (.v 3) (.label 0), .call H (.v 2) (.reg (.v 3)), .cvg H (.v 1), .cvgset H (.v 1), .elect H (.s 1) (.s 2),
    .elect H (.p 1) (.v 2), .vote H .any (.s 1) (.p 1) false, .vote H .count (.p 1) (.p 1) false, .vote H .any (.p 1) (.v 1) false,
    .reorder H (.p 1) (.v 0) 16, .reorder H (.v 1) (.s 0) 16, .reorder H (.v 1) (.v 0) 1537,
    .clauseStart { hd1 with len := 0 }, .clauseStart { hd1 with slotA := 12 }, .clauseStart { hd1 with slotB := 14 },
    .clauseStart { hd1 with heavy := 9 }, .clauseStart { hd1 with yield := 3 }] = true := by decide +kernel

theorem test_ill_formed_scalar : refusedAll [
    .smov H .i32 (.s 1) (.imm 0), .smov H .u64 (.v 1) (.imm 0), .smov H .u64 (.s 1) (.reg (.v 1)), .sadd H .f32 (.s 1) (.s 2) (.imm 0),
    .sadd H .u64 (.p 1) (.s 2) (.imm 0), .sadd H .u64 (.s 1) (.v 2) (.imm 0), .sadd H .u64 (.s 1) (.s 2) (.reg (.p 2)),
    .scmp H .u8x4 .eq (.s 1) (.s 2) (.imm 0), .ssel H .u64 (.s 1) (.v 2) (.imm 0) 3 false, .slea H .u64 (.v 1) (.s 2) (.imm 0) 3,
    .snot H .u64 (.disp 1) (.s 2), .sclz H .i32 (.s 1) (.s 2), .spopc H .u64 (.s 1) (.v 2)] = true := by decide +kernel

theorem test_ill_formed_vector : refusedAll [
    .vmov H .b8 (.v 1) (.imm 0), .vmov H .u64 (.v 1) (.imm 0), .vmov H .u32 (.s 1) (.imm 0), .vadd H .f32 (.v 1) (.v 2) (.imm 0) false,
    .vadd H .u64 (.v 2) (.v 3) (.imm 0) false, .vadd H .u32 (.v 2) (.p 3) (.imm 0) false, .vadd H .u64 (.v 2) (.v 4) (.reg (.v 1)) false,
    .vmul H .f64 (.v 2) (.v 4) (.imm 0), .vmulh H .i16x2 (.v 2) (.v 4) (.imm 0), .vshl H .u8x4 (.v 2) (.v 4) (.imm 0),
    .vmad H .f32 (.v 2) (.v 4) (.v 6) (.v 8), .vmad H .u64 (.v 2) (.v 4) (.v 6) (.v 7), .vmadw H .u64 (.v 2) (.v 4) (.v 6) (.v 8),
    .vmadw H .u32 (.v 3) (.v 4) (.v 6) (.v 8), .vmadw H .u32 (.v 2) (.v 4) (.v 6) (.v 9), .vnot H .f32 (.v 2) (.v 4),
    .vabs H .u32 (.v 2) (.v 4) false, .vneg H .u64 (.v 2) (.v 4) false, .vaddc H .i32 (.v 2) (.v 4) (.imm 0) false 0 0,
    .vsubb H .i64 (.v 2) (.v 4) (.imm 0) false 0 0, .vcmp H .u32 .eq (.v 2) (.v 4) (.imm 0), .vcmp H .f32 .eq (.p 2) (.v 4) (.imm 0),
    .vsel H .u8x4 (.v 2) (.v 4) (.imm 0) 0 false, .vclz H .f32 (.v 2) (.v 4), .vclz H .u64 (.v 2) (.v 5), .vpopc H .u32 (.p 2) (.v 4),
    .vprmb H (.s 2) (.v 4) (.v 5) 0, .vprmb H (.v 2) (.v 4) (.p 5) 0, .vlea H .u64 (.v 2) (.v 4) (.imm 0) 0,
    .vlea H .u32 (.v 3) (.v 4) (.imm 0) 0, .vlea H .u32 (.v 2) (.v 5) (.imm 0) 0, .vext H .u32 (.v 2) (.v 4) .w32,
    .vext H .f32 (.v 2) (.v 4) .w8, .vdp4 H .u64 (.v 2) (.v 4) (.imm 0) false] = true := by decide +kernel

theorem test_ill_formed_predicate : refusedAll [
    .pand H (.v 1) (.p 2) (.p 3) false false, .por H (.p 1) (.s 2) (.p 3) false false, .pxor H (.p 1) (.p 2) (.zero) false false,
    .pnot H (.s 1) (.p 2), .pnot H (.p 1) (.v 2), .pmov H .toS (.p 1) (.p 2), .pmov H .toP (.p 1) (.v 2),
    .shfl H .i16x2 .idx (.v 1) (.v 2) (.imm 0) 0, .shfl H .u64 .idx (.v 2) (.v 4) (.reg (.v 5)) 0, .vtos H .f32 (.s 1) (.v 2) (.imm 0),
    .vtos H .u64 (.s 1) (.v 3) (.imm 0), .vtos H .u32 (.v 1) (.v 3) (.imm 0), .stov H .u8x4 (.v 1) (.s 1) false,
    .stov H .u64 (.v 2) (.s 1) true, .stov H .u32 (.v 2) (.v 1) false, .vspec H (.v 2) (.spec 32), .vspec H (.v 2) (.v 3),
    .vspec H (.v 3) (.spec 13), .sspec H (.s 3) (.spec 17), .sspec H (.v 3) (.spec 4)] = true := by decide +kernel

theorem test_ill_formed_float : refusedAll [
    .vfadd H .i32 (.v 1) (.v 2) (.imm 0) .rne false, .vfadd H .f64 (.v 1) (.v 2) (.imm 0) .rne false,
    .vfsub H .f32 (.v 1) (.v 2) (.imm 0) .rtz false, .vfmul H .f32 (.v 1) (.v 2) (.imm 0) .rne true,
    .vfadd H .f16 (.v 1) (.v 2) (.imm 0x10000) .rne false, .vfma H .b8 (.v 1) (.v 2) (.v 3) (.v 4) .rne false,
    .vfma H .f64 (.v 2) (.v 4) (.v 6) (.v 7) .rne false, .vfmin H .u32 (.v 1) (.v 2) (.imm 0), .vfcmp H .f16x2 .eq (.p 1) (.v 2) (.imm 0),
    .vfcmp H .f32 .eq (.v 1) (.v 2) (.imm 0), .vfabs H .none (.v 1) (.v 2), .vfneg H .f32 (.s 1) (.v 2), .vfclass H .f32 0x21 (.v 1) (.v 2),
    .vfclass H .b8 0x20 (.v 1) (.v 2), .vfclass H .f16x2 0 (.v 1) (.v 2), .vfdot H .f32 0 (.v 1) (.v 2) (.v 3) .rne false,
    .vfdot H .b8 0x04 (.v 1) (.v 2) (.v 3) .rne false, .vfred H .f16 (.s 1) (.v 2) .rne, .vfred H .f32 (.s 1) (.v 2) .srh,
    .vfred H .f32 (.v 1) (.v 2) .rne, .vfscale H .f16x2 (.v 1) (.v 2) (.imm 0) .rne false,
    .vfscale H .f32 (.v 1) (.v 2) (.reg (.p 1)) .rne false, .vfscale H .f32 (.v 1) (.v 2) (.imm 0) .rtz false,
    .vfdiv H .f16 (.v 1) (.v 2) (.v 3) .rne false, .vfsqrt H .f64 (.v 1) (.v 2) .rne false, .vftanh H .bf16 (.v 1) (.v 2) .rne false,
    .vcvt H .b8 .b8 0x21 (.v 1) (.v 2) .rne false, .vcvt H .i32 .u32 0 (.v 1) (.v 2) .rne false, .vcvt H .f32 .f16 0x21 (.v 1) (.v 2) .rne false,
    .vcvt H .f16x2 .f32 0 (.v 1) (.v 2) .rne false, .vcvt H .f64 .f32 0 (.v 1) (.v 2) .rne false,
    .vpack8 H 0x21 .f32 (.v 1) (.v 2) (.v 3) .rne false, .vpack8 H 0x01 .f16x2 (.v 1) (.v 2) (.v 3) .rne false,
    .vunpk8 H .f16x2 0x21 (.v 1) (.v 2) .rne false, .vfrnd H .b8 (.v 1) (.v 2) .rne, .vqscale H 0 (.v 1) (.v 2) (.s 1) .rne false,
    .vqscale H 0x21 (.v 1) (.v 2) (.v 3) .rne false] = true := by decide +kernel

theorem test_ill_formed_memory : refusedAll [
    .ld H true (.v 1) (.v 2) am, .ld H false (.s 1) (.v 2) am, .ld H false (.v 1) (.v 3) am, .ld H false (.v 1) (.v 2) { am with order := .rel },
    .ld H false (.v 1) (.v 2) { am with size := .b64 }, .ld H false (.v 2) (.v 2) { am with size := .b128 },
    .st H (.v 2) (.s 1) { am with size := .b128 }, .st H (.v 2) (.p 1) am, .st H (.v 2) (.v 1) { am with order := .acq },
    .ldl H true (.v 1) (.v 2) al, .ldl H false (.v 1) (.p 2) al, .stl H (.v 1) (.v 2) { al with order := .acqrel },
    .lds H false (.v 1) (.v 2) { am with strm := true }, .sts H (.v 1) (.v 2) { am with strm := true },
    .ldc H false (.v 1) (.v 2) { am with order := .acq }, .ldc H false (.v 1) (.v 2) { am with scope := .die },
    .ldx H .u32 (.v 1) (.v 2) { am with size := .b8 }, .ldx H .f32 (.v 1) (.v 2) { am with size := .b16 },
    .stx H .f16 (.v 2) (.v 1) ax, .stx H .f64 (.v 2) (.v 1) ax, .stx H .f32 (.v 2) (.v 1) { ax with order := .acq },
    .pref H (.v 3) false 0, .bpf H (.v 1) (.s 1) 0 none, .bpf H (.s 1) (.s 1) 0 (some 4), .cflush H (.s 1) (.p 1) .wb,
    .xlat H (.v 3) (.v 2) 0, .xlat H (.v 2) (.v 3) 0, .cbinit H (.s 1) (.s 2) 0 257, .cbinit H (.v 1) (.s 2) 0 2, .cbwait H (.v 1) 0,
    .cbacq H (.p 1) 0] = true := by decide +kernel

theorem test_ill_formed_launch : refusedAll [
    .launch H (.v 1) (.v 2) (.s 3) 0, .launch H (.v 2) (.p 2) (.s 3) 0, .launch H (.v 2) (.v 2) (.v 3) 0, .lwait H (.v 1) (.imm 0),
    .dchk H (.s 1) 0, .tdom H (.s 125), .tdom H (.v 1), .rgrow H (.p 1) 0, .rgrow H (.p 1) 25, .salloc H (.v 1) (.imm 512),
    .sfree H (.reg (.v 1)), .tsplit H (.v 1), .take H (.v 1) 0] = true := by decide +kernel

theorem test_ill_formed_queue : refusedAll [
    .qpush H (.q 1) (.s 1), .qpush H (.q 12) (.s 1), .qpush H (.q 0) (.v 1), .qpush H (.q 11) (.s 127), .qpush H (.q 2) (.s 125),
    .qpop H (.s 1) (.q 0), .qpop H (.v 1) (.q 1), .mxcmd H (.zero), .mxcommit H (.v 1) false, .mxwait H (.reg (.v 1)), .mxtab H (.disp 1) 0,
    .cpy H .d1 (.s 125) 0, .cpy H .d1 (.v 1) 0] = true := by decide +kernel

theorem test_ill_formed_order : refusedAll [
    .fence H .plain .die, .atom H .f32 (.v 1) (.v 2) (.v 3) { aT with aop := .and }, .atom H .i32 (.v 1) (.v 2) (.v 3) { aT with aop := .inc },
    .atom H .f16 (.v 1) (.v 2) (.v 3) aT, .atom H .u64 (.v 1) (.v 2) (.v 4) aT, .atom H .u32 (.v 1) (.v 3) (.v 4) aT,
    .acas H .i16x2 (.v 1) (.v 2) (.v 3) .die 0 .plain 0, .red H .u32 (.v 2) (.v 3) { aT with aop := .exch }, .hinit H (.v 1) (.imm 1) 0,
    .harrive H (.v 1) (.s 2) .none 0, .harrive H (.s 1) (.s 2) (.tx (.reg (.v 1))) 0, .hdrop H (.v 1) 0, .hwait H (.s 1) (.imm 256) 0,
    .hwait H (.s 1) (.reg (.v 2)) 0, .bar H (.reg (.v 1)) 0, .monitor H (.v 2) am, .monitor H (.s 2) { am with order := .acq },
    .monitor H (.s 2) { am with size := .b16 }, .monitor H (.s 2) { am with strm := true }, .mwait H (.v 1) (.s 2), .mwait H (.s 1) (.v 2),
    .tstamp H (.p 1)] = true := by decide +kernel

theorem test_ill_formed_regions : refusedAll [
    .tbegin H (.o (.v 3)) 0, .tbegin H (.o (.p 3)) 0, .tstat H (.s 1) false, .tnarrow H (.v 1) (.v 2), .tnarrow H (.v 2) (.v 1),
    .tposG H (.v 1), .tposF H (.v 1), .tposB H (.p 1), .tposVac H (.reg (.v 1))] = true := by decide +kernel

theorem test_ill_formed_system : refusedAll [
    .tretTo H (.v 1), .sysr H (.v 1) 0x022 .own, .sysr H (.s 1) 0x022 (.other (.v 1)), .sysw H 0x022 (.v 1) .own,
    .sysw H 0x022 (.s 1) (.other (.v 1)), .beacon H (.reg (.v 1)), .bflipDev H (.v 1), .bflipHost H (.p 1), .evmark H (.v 1) 0] = true := by
  decide +kernel

theorem test_ill_formed_pair : refusedAll [
    .pair H 1 (.g2 1) 2 2 (.imm 1) (.p 1) (.v 2) (.v 3) .u32, .pair H 1 (.g2 1) 2 2 (.imm 1) (.v 1) (.v 2) (.v 3) .f32,
    .pair H 1 (.g4 11) 2 2 (.imm 1) (.v 1) (.v 2) (.v 3) .f32, .pair H 1 (.g2 0x1C) 2 2 (.imm 1) (.v 1) (.v 2) (.v 3) .i32,
    .pair H 1 (.g2 0) 2 2 (.imm 1) (.v 1) (.v 2) (.v 3) .u32, .pair H 1 (.g2 0x0C) 2 2 (.imm 1) (.v 1) (.v 2) (.v 3) .u32,
    .pair H 0 (.g2 1) 2 2 (.imm 1) (.v 1) (.v 2) (.v 3) .u32, .pair H 0x0A (.g2 1) 2 2 (.imm 1) (.v 1) (.v 2) (.v 3) .u32] = true := by
  decide +kernel

/-! ## Words written out bit by bit from the spec's encodings -/

def reads (w : W96) (i : Instr) : Bool :=
  (match decode w with
   | .ok j => j == i
   | .error _ => false) && (encode i == some w)

def par (p : Fin 8) : Hd := guardedBy false p

/-- The words of the spec's worked encodings, one or more of each family. -/
theorem test_words_control :
    reads 0x000400BFC000000900000000 (.clauseStart { hd1 with wait := 2, tag := 9 }) = true ∧
    reads 0x00840000000000000000000E (.bra (par 1) .always 14) = true ∧
    reads 0x01C000006010000000000000 (.cvg H (.s 1)) = true ∧
    reads 0x02C080000070000000800000 (.reorder H (.v 7) (.v 0) 16) = true ∧
    reads 0x00A400000000000000000020 (.bra (guardedBy true 1) .always 32) = true ∧
    reads 0x028003036820000300000000 (.vote H .count (.s 6) (.p 2) false) = true ∧
    reads 0x00800000607001000000000A (.bra H (.z (.s 7)) 10) = true ∧
    reads 0x008000006080008000000000 (.bra H (.nz (.s 8)) 0) = true ∧
    reads 0x0080000000000000FFFFFFE7 (.bra H .always 0xFFFFFFE7) = true := by decide +kernel

theorem test_words_integer :
    reads 0x206C40020050010000000010 (.vadd (guardedBy true 3) .i32 (.v 4) (.v 5) (.imm 16) false) = true ∧
    reads 0x1140C301E0400100FFFFFFF9 (.sdiv H .i64 (.s 3) (.s 4) (.imm 0xFFFFFFF9)) = true ∧
    reads 0x314080010010010600000001 (.shfl H .u32 .down (.v 2) (.v 1) (.imm 1) 1) = true ∧
    reads 0x200080040000800000000000 (.vmov H .u32 (.v 8) (.reg (.v 64))) = true ∧
    reads 0x32400300EC40000000000000 (.sspec H (.s 1) (.spec 20)) = true ∧
    reads 0x1040030C61800100000000FF (.sadd H .none (.s 24) (.s 24) (.imm 255)) = true ∧
    reads 0x1300030C6180010000000008 (.sshr H .none (.s 24) (.s 24) (.imm 8)) = true ∧
    reads 0x15400300E180010000001000 (.sbfi H .none (.s 1) (.s 24) (.imm 0x1000)) = true := by decide +kernel

theorem test_words_float :
    reads 0x40C1C00500B0180350000000 (.vfma H .f32 (.v 10) (.v 11) (.v 12) (.v 13) .rup false) = true ∧
    reads 0x5243400A015000E006400000 (.vcvt H .b8 .f32 0x24 (.v 20) (.v 21) .rne true) = true ∧
    reads 0x4001C0098120120000000000 (.vfadd H .f32 (.v 19) (.v 18) (.reg (.v 9)) .rne false) = true ∧
    reads 0xF0030C1028101402C0638000 (.pair H 1 (.g4 3) 2 2 (.imm 1) (.v 10) (.v 11) (.v 12) .f32) = true := by decide +kernel

theorem test_words_memory :
    reads 0x600000036020008200000040 (.ld H false (.v 6) (.s 2) { am with off := 0x40 }) = true ∧
    reads 0x604C000060300D1200000000 (.st (par 3) (.s 3) (.v 6) { am with scope := .system, order := .rel }) = true ∧
    reads 0x600C0003E020008200000280 (.ld (par 3) false (.v 7) (.s 2) { am with off := 0x280 }) = true ∧
    reads 0x60800001802000A400000040 (.ldl H false (.v 3) (.v 2) { al with level := 2, scale := 2, off := 0x40 }) = true ∧
    reads 0x608800027FF000C400000040 (.ldl (par 2) false (.v 4) .zero { al with level := 3, off := 0x40 }) = true ∧
    reads 0x818000006080000000000000 (.cpy H .d1 (.s 8) 0) = true := by decide +kernel

theorem test_words_launch :
    reads 0x70000004002C060100000000 (.launch H (.v 8) (.v 2) (.s 3) 1) = true ∧
    reads 0x700000027FFFFE0100000000 (.launch H (.v 4) .zero .zero 1) = true ∧
    reads 0x704003028000010000000000 (.lwait H (.s 5) (.imm 0)) = true ∧
    reads 0x720000006040000000000100 (.take H (.s 4) 0x100) = true ∧
    reads 0x720000007FF0000000000000 (.take H .zero 0) = true ∧
    reads 0x71400304000C0E0000000000 (.salloc H (.s 8) (.reg (.s 7))) = true := by decide +kernel

theorem test_words_queue_and_order :
    reads 0x808000006060000000000000 (.mxcmd H (.s 6)) = true ∧
    reads 0x80C003038000000000000001 (.mxcommit H (.s 7) true) = true ∧
    reads 0x80C0030F8000000000000001 (.mxcommit H (.s 31) true) = true ∧
    reads 0x9040800260200A8000000010 (.atom H .u32 (.v 4) (.s 2) (.v 5) { aT with off := 0x10 }) = true ∧
    reads 0x900000000000009000000000 (.fence H .rel .die) = true ∧
    reads 0x91400301E040011000800200 (.harrive H (.s 3) (.s 4) (.tx (.imm 4096)) 0x200) = true ∧
    reads 0x91C000007FF0010001004E08 (.hwait H .zero (.imm 1) 0x4E08) = true := by decide +kernel

theorem test_words_regions_and_system :
    reads 0xA00100000000050000000000 (.tbegin H (.o (.v 2)) 0) = true ∧
    reads 0xA00100000000090000000000 (.tbegin H (.o (.v 4)) 0) = true ∧
    reads 0xA04000000000000000000000 (.tend H) = true ∧
    reads 0xB00000000000000000000005 (.trap H 5) = true ∧
    reads 0xB04000000000000100000000 (.tretSkip H) = true ∧
    reads 0xB1000000000C120000000000 (.beacon H (.reg (.s 9))) = true ∧
    reads 0xB1000000000C160000000000 (.beacon H (.reg (.s 11))) = true ∧
    reads 0xB08003020000000000000022 (.sysr H (.s 4) 0x022 .own) = true ∧
    reads 0xB14000006020000100000000 (.bflipHost H (.s 2)) = true ∧
    reads 0xB14000006020000000000000 (.bflipDev H (.s 2)) = true := by decide +kernel

/-- The prologue of R327's example. -/
theorem test_words_prologue :
    (decodePrologue 0 0x6000030C6100000200000000 ==
      some (.ld H false (.s 24) (.s 16) { scope := .flock, strm := false, order := .plain, size := .b32, off := 0 })) = true ∧
    (decodePrologue 0 0x0080000061800100_00000005 == some (.bra H (.z (.s 24)) 5)) = true ∧
    (decodePrologue 2 0x018000000000000000000000 == some (.prologueGo 2)) = true ∧
    (decodePrologue 1 0x018000000000000000000001 == some (.prologueCancel 1)) = true ∧
    (decodePrologue 2 0x018004000000000000000000 == some (.prologueGo 2)) = true ∧
    (match decode 0x6000030C6100000200000000 with | .ok _ => false | .error _ => true) = true := by decide +kernel

/-! ## Single steps, with the results that the spec's examples give -/

/-- A machine whose one thread stands at the one word of a started clause. -/
def w0 : State := { setup State.reset (1#10 ++ 0#86) with cur := some (0, 0) }

def withFl (s : State) (g : Flock → Flock) : State := modFlock s 0 0 g
def withV (s : State) (n : Nat) (x : W32) : State := withFl s (fun fl => setVreg fl n 0 x)
def withS (s : State) (n : Nat) (x : W64) : State := withFl s (fun fl => setSreg fl n x)
def withFo (s : State) (g : Fold → Fold) : State := modFold s 0 g

/-- A machine of four threads in lanes 0 to 3. -/
def w4 : State := withFl w0 (fun fl =>
  { fl with threads := (List.range 4).map (fun l => (l, { newThread l setupHdr with pc := setupHdr + 12 }))
            group := some { setupGroup with lanes := [0, 1, 2, 3] } })

def setLane (s : State) (n l : Nat) (x : W32) : State := withFl s (fun fl => setVreg fl n l x)

def vAfter (i : Instr) (s : State) (n : Nat) : Option W32 :=
  match exec i s with | .next t => some (vregAt t 0 0 0 n) | _ => none
def sAfter (i : Instr) (s : State) (n : Nat) : Option W64 :=
  match exec i s with | .next t => some (sregAt t 0 0 n) | _ => none
def pAfter (i : Instr) (s : State) (n : Fin 8) : Option Bool :=
  match exec i s with | .next t => some (predAt t 0 0 0 n) | _ => none
def after {α : Type} (i : Instr) (s : State) (g : State → α) : Option α :=
  match exec i s with | .next t => some (g t) | _ => none

/-- R75: 100 / −7 = −14, and the quotients of the table. -/
theorem test_sdiv : sAfter (.sdiv H .i64 (.s 3) (.s 4) (.imm 0xFFFFFFF9)) (withS w0 4 100) 3 = some 0xFFFFFFFFFFFFFFF2 ∧
    sAfter (.sdiv H .u64 (.s 3) (.s 4) (.imm 0)) (withS w0 4 100) 3 = some 0xFFFFFFFFFFFFFFFF := by decide +kernel
theorem test_srem : sAfter (.srem H .i64 (.s 3) (.s 4) (.imm 0xFFFFFFF9)) (withS w0 4 100) 3 = some 2 ∧
    sAfter (.srem H .u64 (.s 3) (.s 4) (.imm 0)) (withS w0 4 100) 3 = some 100 := by decide +kernel

/-- R74: a shift by 64 or more. -/
theorem test_sshr_64 : sAfter (.sshr H .none (.s 3) (.s 4) (.imm 64)) (withS w0 4 5) 3 = some 0 ∧
    sAfter (.ssar H .none (.s 3) (.s 4) (.imm 255)) (withS w0 4 0x8000000000000000) 3 = some 0xFFFFFFFFFFFFFFFF := by decide +kernel

/-- R76: a field at position 4 of width 8; an insert of width 0. -/
theorem test_sbfx : sAfter (.sbfx H .i64 (.s 3) (.s 4) (.imm 0x0804)) (withS w0 4 0xFF5) 3 = some 0xFFFFFFFFFFFFFFFF ∧
    sAfter (.sbfi H .none (.s 3) (.s 4) (.imm 0)) (withS (withS w0 4 0xFF5) 3 7) 3 = some 7 := by decide +kernel

/-- The pair of R41's example: S2 becomes 8 and V10 becomes 7.0. -/
theorem test_pair : let i := Instr.pair H 1 (.g4 3) 2 2 (.imm 1) (.v 10) (.v 11) (.v 12) .f32
    let s := withS (withV (withV (withV w0 10 0x3F800000) 11 0x40000000) 12 0x40400000) 2 7
    sAfter i s 2 = some 8 ∧ vAfter i s 10 = some 0x40E00000 := by decide +kernel

/-- R78 and the lines after R82. -/
theorem test_vadd_sat : vAfter (.vadd H .i16x2 (.v 4) (.v 5) (.reg (.v 6)) true) (withV (withV w0 5 0x7FF00005) 6 0x0020FFFD) 4 =
    some 0x7FFF0002 := by decide +kernel
theorem test_vprmb : vAfter (.vprmb H (.v 4) (.v 5) (.v 6) 0x0123) (withV w0 5 0x11223344) 4 = some 0x44332211 := by decide +kernel
theorem test_vdp4 : vAfter (.vdp4 H .i32 (.v 4) (.v 5) (.reg (.v 6)) false)
    (withV (withV (withV w0 4 10) 5 0x02FF0301) 6 0x04040404) 4 = some 30 := by decide +kernel
theorem test_vcmp : pAfter (.vcmp H .i32 .lt (.p 2) (.v 5) (.imm 0)) (withV w0 5 0xFFFFFFFF) 2 = some true := by decide +kernel
theorem test_vaddc : let s := withV (withV (withV w0 4 0xFFFFFFFF) 5 1) 6 1
    vAfter (.vaddc H .u32 (.v 8) (.v 4) (.reg (.v 6)) false 0 2) s 8 = some 0 ∧
    pAfter (.vaddc H .u32 (.v 8) (.v 4) (.reg (.v 6)) false 0 2) s 2 = some true ∧
    vAfter (.vaddc H .u32 (.v 9) (.v 5) (.reg (.v 7)) true 2 0)
      (modThread s 0 0 0 (fun t => setPred t 2 true)) 9 = some 2 := by decide +kernel

/-- R28, R78: the guard's example: a thread whose guard is false keeps its register. -/
theorem test_vadd_guard : vAfter (.vadd (guardedBy true 3) .i32 (.v 4) (.v 5) (.imm 16) false) (withV w0 5 0x20) 4 = some 0x30 ∧
    vAfter (.vadd (guardedBy true 3) .i32 (.v 4) (.v 5) (.imm 16) false)
      (modThread (withV w0 5 0x20) 0 0 0 (fun t => setPred t 3 true)) 4 = some 0 := by decide +kernel

/-- R85: SHFL.DOWN by one in lanes 0 to 3: lane 0 takes lane 1's value, lane 3 keeps its own with P1 false. -/
theorem test_shfl : let s := setLane (setLane (setLane (setLane w4 1 0 10) 1 1 20) 1 2 30) 1 3 40
    after (.shfl H .u32 .down (.v 2) (.v 1) (.imm 1) 1) s (fun t => (vregAt t 0 0 0 2, vregAt t 0 0 3 2, predAt t 0 0 0 1, predAt t 0 0 3 1))
      = some (20, 40, true, false) := by decide +kernel

/-- R84: PMOV gathers, and VTOS reads lane 2. -/
theorem test_pmov : after (.pmov H .toS (.s 1) (.p 2)) (modThread w4 0 0 2 (fun t => setPred t 2 true)) (fun t => sregAt t 0 0 1) = some 4 := by
  decide +kernel
theorem test_vtos : after (.vtos H .i32 (.s 1) (.v 1) (.imm 2)) (setLane w4 1 2 0xFFFFFFFE) (fun t => sregAt t 0 0 1)
    = some 0xFFFFFFFFFFFFFFFE := by decide +kernel

/-- R105, R109, R110: the examples after R110. -/
theorem test_vfma_rup : let s := withV (withV w0 11 0x3F800001) 12 0x3F800001
    vAfter (.vfma H .f32 (.v 10) (.v 11) (.v 12) (.v 13) .rup false) s 10 = some 0x3F800003 ∧
    vAfter (.vfma H .f32 (.v 10) (.v 11) (.v 12) (.v 13) .rne false) s 10 = some 0x3F800002 := by decide +kernel
theorem test_vfdot : vAfter (.vfdot H .f16x2 0 (.v 4) (.v 5) (.v 6) .rne false)
    (withV (withV (withV w0 4 0x3F800000) 5 0x6C006C00) 6 0xEC006C00) 4 = some 0x3F800000 := by decide +kernel
theorem test_vfred : let s := setLane (setLane (setLane (setLane w4 2 0 0x4B800000) 2 1 0x3F800000) 2 2 0x3F800000) 2 3 0xCB800000
    sAfter (.vfred H .f32 (.s 5) (.v 2) .rne) s 5 = some 0x3F800000 := by decide +kernel

/-- R113: the conversions into P4 with SAT. -/
theorem test_vcvt_p4 : let i := Instr.vcvt H .b8 .f32 0x24 (.v 20) (.v 21) .rne true
    vAfter i (withV w0 21 0x3FA66666) 20 = some 0x42 ∧ vAfter i (withV w0 21 0x43960000) 20 = some 0x7F ∧
    vAfter i (withV w0 21 0x80000000) 20 = some 0 ∧ vAfter i (withV w0 21 0x3A000000) 20 = some 0 := by decide +kernel
theorem test_vcvt_p4_unsaturated : vAfter (.vcvt H .b8 .f32 0x24 (.v 20) (.v 21) .rne false) (withV w0 21 0x43960000) 20 = some 0x80 := by
  decide +kernel

/-- R101: an inexact result counts one event of class INEX. -/
theorem test_event_count : after (.vcvt H .b8 .f32 0x24 (.v 20) (.v 21) .rne true) (withV w0 21 0x3FA66666)
    (fun t => (ctxRegRead t 0 4, ctxRegRead t 0 12, ctxRegRead t 0 0)) = some (1, 1, 0) := by decide +kernel

/-- R140: CALL leaves the address of the next clause; BRA goes fourteen words on. -/
theorem test_call : after (.call H (.v 2) (.label 14)) w0 (fun t => (vregAt t 0 0 0 2, pcAt t 0 0 0)) = some (0x1018, some 0x10A8) := by decide +kernel
theorem test_bra : after (.bra H .always 0xFFFFFFF7) w0 (fun t => pcAt t 0 0 0) = some (some 0xF94) := by decide +kernel

/-- R293: TRAP #5 with a handler, R312's example of SYSR, and R316's HALTF. -/
def wTrap : State := modCtx w0 0 (fun k => { k with trapvec := 0x2000 })
theorem test_trap : after (.trap H 5) wTrap (fun t => (pcAt t 0 0 0, (trapAt t 0 0 0).map (fun x => (x.mode, x.tcause, x.tpc, x.rpc))))
    = some (some 0x2000, some (true, 0x50001, 0x100C, 0x1018)) := by decide +kernel
theorem test_sysr : sAfter (.sysr H (.s 4) 0x022 .own) w0 4 = some 0x3B9ACA00 := by decide +kernel
theorem test_sysw_user : after (.sysw H 0x020 (.s 4) .own) w0 (fun t => haltAt t 0 |>.map (·.cause)) = some (some 0x12) := by decide +kernel
theorem test_haltf : after (.haltf H 9) w0 (fun t => haltAt t 0 |>.map (fun h => (h.cause, h.pflock))) = some (some (0x19, some 0)) := by
  decide +kernel

/-- R165: the buffer of the worked program: base 0, slots of 256 bytes, two of them. -/
theorem test_cbinit : after (.cbinit H (.s 5) (.s 4) 0 2) (withFo (withS w0 4 0x10000000) (fun fo => { fo with scrSize := 512 }))
    (fun t => (sregAt t 0 0 5, (bufAt t 0 0).map (fun z => (z.base, z.slot, z.free, z.filled)))) = some (1, some (0, 256, 2, 0)) := by decide +kernel

/-- R167, R245: a load issues, and the bytes arrive with LOAD_PERFORM; R256: ATOM.ADD of 1 at a word that holds 100. -/
def wMem : State := withV { w0 with mem := memPut w0.mem 0x8000 [100, 0, 0, 0] } 2 0x8000
theorem test_ld : (match exec (.ld H false (.v 6) (.v 2) am) wMem with
    | .next s => after (.loadPerform 0 0 0) s (fun t => (vregAt s 0 0 0 6, flagAt s 0 0 0, vregAt t 0 0 0 6, flagAt t 0 0 0))
    | _ => none) = some (0, 1, 100, 0) := by decide +kernel
theorem test_atom : (match exec (.atom H .u32 (.v 4) (.v 2) (.v 5) aT) (withV wMem 5 1) with
    | .next s => after (.atomicPerform 0 0) s (fun t => (vregAt t 0 0 0 4, homeNat t 0x8000 4))
    | _ => none) = some (100, 101) := by decide +kernel
theorem test_st : (match exec (.st H (.v 2) (.v 5) am) (withV wMem 5 0x01020304) with
    | .next s => after (.storeDrain 0 0 false) s (fun t => (homeNat s 0x8000 4, ownerOf t 0x2000))
    | _ => none) = some (100, none) := by decide +kernel
theorem test_ld_misaligned : after (.ld H false (.v 6) (.v 2) { am with off := 2 }) wMem (fun t => haltAt t 0 |>.map (fun h => (h.cause, h.faddr)))
    = some (some (0x16, 0x8002)) := by decide +kernel

/-- R258: HINIT with a quota of one, and HARRIVE's generation with its update. -/
def wScr : State := withFo w0 (fun fo => { fo with scrSize := 1024 })
theorem test_hinit : after (.hinit H .zero (.imm 1) 0x200) wScr (fun t => (List.range 8).map (fun i => scrAt t 0 (0x200 + i)))
    = some [0, 0, 0, 1, 0, 1, 0, 0] := by decide +kernel
theorem test_harrive : after (.harrive H (.s 3) .zero (.tx (.imm 4096)) 0x200) wScr
    (fun t => (sregAt t 0 0 3, (updsAt t 0).map (fun u => (u.arr, u.delta)))) = some (0, [(1, 4096)]) := by decide +kernel

/-- R262, R305: TSTAMP, BEACON and SSPEC of what the set-up holds. -/
theorem test_tstamp : sAfter (.tstamp H (.s 1)) (modPlat w0 (fun p => { p with ts := 77 })) 1 = some 77 := by decide +kernel
theorem test_beacon : after (.beacon H (.imm 5)) w0 (fun t => (fold? t 0).map (·.beacon)) = some (some 5) := by decide +kernel
theorem test_sspec : sAfter (.sspec H (.s 1) (.spec 21)) w0 1 = some 1 := by decide +kernel

/-- R121, R48: from reset, a step with a word where the flock fetches runs that word; a reserved word raises ILLOP. -/
theorem test_step : (match step (State.reset.withFetchWord 96 0x1140C301E0400100FFFFFFF9) with
    | .next t => some (sregAt t 0 0 3) | _ => none) = some 0 := by decide +kernel
theorem test_step_illop : (match step (State.reset.withFetchWord 96 0xC00000000000000000000000) with
    | .next t => (haltAt t 0).map (·.cause) | _ => none) = some 0x10 := by decide +kernel
theorem test_step_header : (match step (State.reset.withFetchWord 96 0x000400BFC000000900000000) with
    | .next t => (groupAt t 0 0).map (fun g => (g.started, g.len)) | _ => none) = some (true, 1) := by decide +kernel

/-- R319: a context is created once. -/
theorem test_context_create : after (.contextCreate 3 0) State.reset (fun t => ((ctx t 3).live, ctxStat t)) = some (true, 0) ∧
    after (.contextCreate 0 0) w0 ctxStat = some 0x102 := by decide +kernel
/-- R370: PWR_CAP takes the nearer bound. -/
theorem test_pwr_cap : after (.registerWrite .pwrCap 100) State.reset (fun t => t.plat.pwrCap) = some 600 ∧
    after (.registerWrite .pwrCap 4000) State.reset (fun t => t.plat.pwrCap) = some 1800 := by decide +kernel

/-! ## States that meet the premises of the statements -/

/-- A flock issues, its guard is true in some lane, and a condition holds of the two. -/
def onCx (s : State) (h : Hd) (p : Cx → List Nat → Bool) : Bool :=
  match issuing? s with
  | some c => !(execLanes c h).isEmpty && p c (execLanes c h)
  | none => false

/-- No register that an operand names is in a locked window. -/
def freeFor (s : State) (l : List Opd) : Bool :=
  onCx s H (fun c _ => l.all (fun o => (windowLock s c (vregsOf 4 o)).isNone))

/-- A word that is not the last of its clause. -/
def wN : State := withFl w0 (fun fl => { fl with group := some { setupGroup with len := 3 } })

def wFlag : State := withFl wN (fun fl => { fl with flags := [(11, 1)] })
theorem test_wit_NopYieldWaitf : onCx wN H (fun c _ => decide (∀ n ∈ List.range 12, flagAt wN c.f c.k n = 0)) = true ∧
    onCx wFlag H (fun c _ => decide (flagAt wFlag c.f c.k 11 ≠ 0)) = true := by decide +kernel

theorem test_wit_BranchesTransfer :
    onCx wMem H (fun c ex => decide (∀ l ∈ ex, ((rdV c l .u64 (.v 2)).setWidth 57 : VA).toNat % 4 = 0)) = true ∧
    freeFor wMem [.v 2, .v 4] = true ∧
    onCx (withV w0 2 2) H (fun c ex => decide (∃ l ∈ ex, ((rdV c l .u64 (.v 2)).setWidth 57 : VA).toNat % 4 ≠ 0)
      && c.fl.fault.isNone && c.fo.halt.isNone) = true := by decide +kernel

theorem test_wit_ParkingAndExit : onCx w4 H (fun c ex => decide (∀ l ∈ ex, doomed c l = false ∧ liveRegion c l = false
    ∧ inTrap c l = false)) = true ∧ freeFor w4 [.v 0, .v 4, .v 12] = true := by decide +kernel

theorem test_wit_VotingYields : onCx w4 H (fun c ex => decide (ex.Nodup ∧ (∀ l ∈ ex, l < 32) ∧ c.k < 256)) = true := by decide +kernel

/-- A group that has selected but has not started its clause, whose header stands at its PC. -/
def wHead : State := withFl w0 (fun fl =>
  { fl with threads := [(0, newThread 0 setupHdr)], group := some (freshGroup [0]) })
theorem test_wit_ClauseStartTakesHeader :
    (match issuing? wHead with
     | some c => decide (c.g.started = false ∧ (∀ n ∈ List.range 12, flagAt wHead c.f c.k n = 0) ∧ c.pc = c.hdr) &&
         grantOk wHead c (tokenRequest wHead c { hd1 with heavy := 8 }).1 && grantOk wHead c (tokenRequest wHead c hd1).1 &&
         (groupAt (fetchClause wHead c.c c.fo.ctx c.hdr 1).1 c.f c.k).isSome
     | none => false) = true := by decide +kernel

theorem test_wit_TrapEntersHandler : onCx wTrap H (fun c ex => decide (c.g.lanes.Nodup ∧ (∀ l ∈ ex, inTrap c l = false) ∧
    ((ctx wTrap c.fo.ctx).trapvec.setWidth 57 : VA) ≠ 0)) = true := by decide +kernel

/-- V64 to V127 of the flock are a window that a matrix command holds. -/
def wLock : State := modCore wTrap 1 (fun co => { co with locks := [(5, { space := .window 0 0, lo := 64, hi := 128, write := true, op := 9 })] })
theorem test_wit_LockedWindowTraps : onCx wLock H (fun c ex => decide (c.g.lanes.Nodup ∧ (∀ l ∈ ex, inTrap c l = false) ∧
    ((ctx wLock c.fo.ctx).trapvec.setWidth 57 : VA) ≠ 0 ∧ windowLock wLock c (binRegs .u32 (.v 127) (.v 2) (.imm 1)) = some 5 ∧
    windowLock wLock c (binRegs .u32 (.v 128) (.v 63) (.imm 1)) = none)) = true := by decide +kernel

def inHandler (s : State) : State := modThread s 0 0 0 (fun t =>
  { t with trap := { t.trap with mode := true, tpc := 0x100C, rpc := 0x1018, rhdr := 0x1018, npc := 0x1018, nhdr := 0x1018 } })
theorem test_wit_FoldsStopForFaults :
    onCx w0 H (fun c ex => decide (ex = [0] ∧ c.fl.fault = none ∧ c.fo.halt = none ∧ ((ctx w0 c.fo.ctx).trapvec.setWidth 57 : VA) = 0 ∧
      ∀ l ∈ ex, liveRegion c l = false)) = true ∧
    onCx (inHandler wTrap) H (fun c ex => decide (ex = [0] ∧ c.fl.fault = none ∧ c.fo.halt = none ∧ inTrap c 0 = true)) = true := by decide +kernel

theorem test_wit_TrapReturns : onCx (inHandler wTrap) H (fun c ex => decide (c.g.lanes.Nodup ∧ (∀ l ∈ ex, inTrap c l = true) ∧
    ∀ l ∈ ex, ((rdV c l .u64 (.v 2)).setWidth 57 : VA).toNat % 4 = 0)) = true ∧ freeFor (inHandler wTrap) [.v 2] = true := by decide +kernel

/-- The integer statements ask for a flock that issues with no named register locked: ScalarYields, DivisionYields,
BitFieldYields, VectorSumYields, VectorProductYields, VectorLogicYields, VectorSelectYields, CarryYields,
PredicatesAndExchangeYield and SpecialsYield; VectorSelectYields and VectorProductYields name types. -/
theorem test_wit_integer_words : freeFor w4 [.v 2, .v 4, .v 6, .v 8, .s 2, .p 1, .zero] = true ∧
    onCx w4 H (fun c ex => decide (ex = [0, 1, 2, 3]) && (windowLock w4 c (regsT .u64 (.v 2) ++ regsT .u64 (.v 4) ++ regsSrc .u64 (.imm 1))).isNone
      && (tget? c.fl.threads 3).isSome) = true := by decide +kernel

/-- FpArithmeticYields, FpSelectYields, ConversionYields and SfuIssues: REPRO is off, no register is locked, the flag is not
full, and no trap can end a region: no class has an action, or no region is under way. -/
theorem test_wit_float_words : freeFor w4 [.v 2, .v 4, .v 6, .v 8] = true ∧
    onCx w4 H (fun c ex => decide (reproLanes w4 c ex = [] ∧ flagFull c.fl c.g H = false ∧
      (∀ x ∈ List.range 8, fpevAction (ctx w4 c.fo.ctx).fpev x = 0) ∧ (∀ l ∈ ex, liveRegion c l = false) ∧ w4.ms.regions = [] ∧
      counted w4 c ex = [0, 1, 2, 3])) = true := by decide +kernel
theorem test_wit_RoundKeepsRepresentable : 0x3F800000 < 2 ^ (fmtOf .f32 0).width ∧ isNan (fvOf (fmtOf .f32 0) 0x3F800000) = false ∧
    0x7BFF < 2 ^ (fmtOf .f16 0).width ∧ isNan (fvOf (fmtOf .f16 0) 0x7BFF) = false := by decide +kernel


/-- Pass 1 finds an address for each lane, and a condition holds of what it finds. -/
def passes (s : State) (c : Cx) (ex : List Nat) (chk : State → Nat → State × Checked)
    (p : State → List (Nat × Found) → Bool) : Bool :=
  match pass1 s ex chk with
  | (s1, .ok fs) => ex.all (fun l => !doomed c l && match thread? s1 c.f c.k l with
      | some th => !th.reg.doom && !th.reg.live
      | none => true) && p s1 fs
  | _ => false

/-- A machine with a word of memory, a scratchpad, a constant section and a frame at 0x10000; four threads, whose V2 hold
0x8000, 0x8004, 0x8008 and 0x800C, and whose V1 hold 0, 4, 8 and 12. -/
def wLs : State :=
  let s := (List.range 4).foldl (fun s l => setLane (setLane s 2 l (BitVec.ofNat 32 (0x8000 + 4 * l))) 1 l (BitVec.ofNat 32 (4 * l))) w4
  let s := withFo s (fun fo => { fo with scrSize := 64, scratch := [(4, 7), (8, 9)] })
  let s := { s with mem := memPut s.mem 0x8000 [100, 0, 0, 0, 101, 0, 0x80, 0xFF] }
  { s with grids := tput s.grids 0 { setupGrid with
      record := { setupRecord with body := 1 }
      kd := { setupKDesc with constAddr := 0x9000, constLen := 6 }, display := 0x10000 :: List.replicate 7 0
      frame := some { addr := 0x10000, size := 4096, pages := [(16, 16)] } } }

/-- The same with an F32 page (R152, R155). -/
def wEl : State := { wLs with mem := memPut wLs.mem (setupTable + 0) (leBytes 8 (0x1F + 2 * 2 ^ 52)) }

theorem test_wit_LoadsIssue : freeFor wLs [.v 6, .v 2, .v 1] = true ∧
    onCx wLs H (fun c ex => decide (flagFull c.fl c.g H = false) &&
      passes wLs c ex (fun s l => checkGlobal s c (rdAddr c l (.v 2) + 0) 4 .load false)
        (fun s fs => fs.length == 4 && fs.all (fun e => (accessLock s c e.2 4 false).isNone)) &&
      passes wLs c ex (fun s l => checkLex s c l (.v 1) { al with off := 64 } false) (fun _ fs => fs.length == 4) &&
      passes wLs c ex (fun s l => checkScr s c l (.v 1) 48 4) (fun _ fs => fs.length == 4) &&
      passes wLs c ex (fun s l => checkConst s c l (.v 1) 0 4) (fun _ fs => fs.length == 4)) = true ∧
    onCx wEl H (fun c ex => passes wEl c ex (fun s l => checkElem s c (rdAddr c l (.v 2) + 0) .load) (fun s fs =>
      fs.all (fun e => (accessLock s c e.2 (elemBytes (foundFmt e.2)) false).isNone && foundFmt e.2 == 2))) = true := by decide +kernel

theorem test_wit_StoresIssue : freeFor wLs [.v 6, .v 2, .v 1] = true ∧
    onCx wLs H (fun c ex => decide (flagFull c.fl c.g H = false ∧ c.fl.fifo.length + ex.length ≤ 64 ∧
        bitOf (ctx wLs c.fo.ctx).fpev.numctl 0 = false) &&
      passes wLs c ex (fun s l => checkGlobal s c (rdAddr c l (.v 2) + 0) 4 .store true)
        (fun s fs => fs.length == 4 && fs.all (fun e => (accessLock s c e.2 4 true).isNone)) &&
      passes wLs c ex (fun s l => checkGlobal s c (rdAddr c l (.v 2) + 0) 4 .atomic true) (fun _ fs => fs.length == 4) &&
      passes wLs c ex (fun s l => checkLex s c l (.v 1) { al with off := 64 } true) (fun _ fs => fs.length == 4) &&
      passes wLs c ex (fun s l => checkScr s c l (.v 1) 48 4) (fun _ fs => fs.length == 4)) = true ∧
    onCx wEl H (fun c ex => passes wEl c ex (fun s l => checkElem s c (rdAddr c l (.v 2) + 0) .store) (fun s fs =>
      fs.all (fun e => (accessLock s c e.2 (elemBytes (foundFmt e.2)) true).isNone && (foundScale e.2).isNone))) = true := by decide +kernel

theorem test_wit_MisalignedAccessFaults : onCx wMem H (fun c ex => decide (ex = [0] ∧ doomed c 0 = false ∧ flagFull c.fl c.g H = false ∧
    c.fl.fault = none ∧ c.fo.halt = none ∧ c.fl.fifo.length + 1 ≤ 64 ∧
    (rdAddr c 0 (.v 2) + (2 : W32).signExtend 64).toNat % sizeBytes .b32 ≠ 0 ∧
    (rdAddr c 0 (.v 2) + (15 : W32).signExtend 64).toNat % sizeBytes .b128 ≠ 0)) = true ∧
    onCx wLs H (fun c ex => decide (ex = [0] ++ 1 :: [2, 3] ∧ dispReg c 0 ≠ 0 ∧ c.fl.fifo.length + 4 ≤ 64 ∧
        (rdAddr c 1 (.v 2) + (2 : W32).signExtend 64).toNat % sizeBytes .b64 ≠ 0 ∧ flagFull c.fl c.g H = false) &&
      [true, false].all (fun ld => match pass1 wLs [0] (fun s l => checkGlobal s c (rdAddr c l (.v 2) + 0) 8 (if ld then .load else .store) !ld) with
        | (s1, .ok fs) => fs.length == 1 && ((flock? s1 c.f c.k).bind (·.fault)).isNone && (haltAt s1 c.f).isNone
        | _ => false)) = true := by decide +kernel

/-- The state after a word. -/
def aft (i : Instr) (s : State) : State := match exec i s with | .next t => t | _ => s

/-- The first load of flock 0, the first entry of its FIFO, and its first scratchpad store. -/
def onLoad (s : State) (p : Fold → Flock → Nat → LEntry → Bool) : Bool :=
  match fold? s 0, flock? s 0 0 with
  | some fo, some fl => match coreOf fo, fl.loads[0]? with | some c, some e => p fo fl c e | _, _ => false
  | _, _ => false
def onFifo (s : State) (p : Fold → Flock → Nat → FEntry → Bool) : Bool :=
  match fold? s 0, flock? s 0 0 with
  | some fo, some fl => match coreOf fo, fl.fifo.head? with | some c, some e => p fo fl c e | _, _ => false
  | _, _ => false
def plainOp (s : State) (n : Nat) : Bool := (opsAt s 0 0).all (fun o => o.id != n || (o.acq.isNone && o.evs.isEmpty))

def wLd1 : State := aft (.ld H true (.v 6) (.v 2) { am with size := .b16, off := 2 }) wLs
def wLs1 : State := aft (.lds H false (.v 6) (.v 1) { am with off := 4 }) wLs
def wLc1 : State := aft (.ldc H false (.v 6) (.v 1) am) wLs
/-- The same load, but of a word of host memory, with no host link. -/
def wLdH : State := withFl wLd1 (fun fl => { fl with loads := fl.loads.map (fun e => { e with place := .host hostBase }) })
/-- The lines of a load's bytes. -/
def loadLines (e : LEntry) : List Nat := (loadPas e).flatMap (fun x => (splitWords x.1 (List.replicate x.2 0)).map (fun w => w.1 / 32))
theorem test_wit_LoadPerformWrites : [wLd1, wLs1, wLc1].all (fun s => onLoad s (fun _ fl _ e =>
      decide (e.sent = false ∧ e.rid = none ∧ e.task = false ∧ loadOrder fl e = true ∧ forward fl.fifo e.op e.place e.n = .none) &&
      plainOp s e.op)) = true ∧
    onLoad wLd1 (fun _ _ _ e => match e.place with
      | .dev pa _ _ => !isHostPa pa && !sideAhead wLd1 0 0 e.op pa e.n && biasReady wLd1 pa false &&
          decide (wLd1.ms.rsps = [] ∧ Roomy wLd1 1 (loadLines e))
      | _ => false) = true ∧
    onLoad wLdH (fun fo _ _ e => noHost wLdH && (loadPas e).any (fun x => isHostPa x.1) && fo.halt.isNone) = true ∧
    onLoad wLs1 (fun _ _ _ e => match e.place with | .scratch _ => true | _ => false) = true ∧
    onLoad wLc1 (fun _ fl _ e => match e.kind, e.place with
      | .const _ _ _ q m, .dev pa _ _ => biasReady wLc1 pa false && !sideAhead wLc1 0 0 e.op pa e.n && forward fl.fifo e.op q m == .none
      | _, _ => false) = true := by decide +kernel

/-- A scratchpad store; a store to a word that nobody owns; a store to words that the core owns. -/
def wSs1 : State := aft (.sts H (.v 1) (.v 2) { am with off := 4 }) wLs
def wSt1 : State := aft (.st H (.v 2) (.v 1) am) wLs
def wOwned : State := { wLs with
  ms := { wLs.ms with owners := [(0x2000, 1), (0x2001, 1)] }
  cores := tput wLs.cores 1 { coreAt wLs 1 with view :=
    [(0x2000, { st := .owned, val := 100, known := 15, dirty := 0 }), (0x2001, { st := .owned, val := 0xFF800065, known := 15, dirty := 0 })] } }
def wSt2 : State := aft (.st H (.v 2) (.v 1) am) wOwned
theorem test_wit_StoresDrain :
    (match flock? wSs1 0 0 with
     | some fl => match fl.scr with
       | e :: _ => (match e.place with | .scratch _ => true | _ => false) && decide (e.order = .plain) && plainOp wSs1 e.op && fl.loads.isEmpty
       | _ => false
     | none => false) = true ∧
    [wSt1, wSt2].all (fun s => onFifo s (fun _ fl c e => match e.place with
      | .dev pa cm _ => !isHostPa pa && decide (e.act = .store ∧ e.task = false ∧ headReady s 0 0 fl e = true ∧ collapseReady s pa cm = true ∧
          canDrain s c pa e.data.length (effCmode s pa cm) = true ∧ ownFlipping s c pa e.data.length = false ∧ effCmode s pa cm = 0 ∧
          l1Fits s c (entryLines e) = true ∧ Roomy s c (entryLines e)) && plainOp s e.op
      | _ => false)) = true ∧
    onFifo wSt2 (fun _ _ c e => match e.place with
      | .dev pa _ _ => (List.range 4).all (fun i => ownerOf wSt2 ((pa + i) / 4) == some c) | _ => false) = true := by decide +kernel

def wAt1 : State := aft (.atom H .u32 (.v 4) (.v 2) (.v 1) aT) wLs
def wAt2 : State := aft (.acas H .u32 (.v 4) (.v 2) (.v 1) .die 2 .plain 0) wOwned
def wAt3 : State := aft (.red H .u32 (.v 2) (.v 1) { aT with aop := .max }) wLs
theorem test_wit_AtomicPerforms : [wAt1, wAt2, wAt3].all (fun s => onFifo s (fun _ fl c e => match e.place with
      | .dev pa cm _ => !isHostPa pa && decide (isStore e = false ∧ e.sent = false ∧ e.task = false ∧ e.rid = none ∧ atomReady s c 0 0 fl e = true ∧
          collapseReady s pa cm = true ∧ effCmode s pa cm = 0 ∧ flipping s pa = false ∧ biasReady s pa true = true ∧
          0 < e.data.length ∧ e.data.length ≤ 8 ∧ (atomEffect e.act e.data (nat64 (homeNat s pa e.data.length))).2 = 0) && plainOp s e.op &&
          ((List.range 4).all (fun i => ownerOf s ((pa + i) / 4) == some c) || ((List.range 4).all (fun i => decide (NoOwner s ((pa + i) / 4))) &&
            !earlierAtHome s (homeOf s pa cm) e.ts (coreSrc c) (fun g j => g == 0 && j == 0)))
      | _ => false)) = true := by decide +kernel

/-- A registration, a memory-side store and an ownership request at their homes. -/
def wReg : State := aft (.storeDrain 0 0 false) wSt1
def msgOf (s : State) (k : MsgKind) : State :=
  { s with ms := { s.ms with msgs := [{ home := homeOf s 0x8000 0, src := 1, ts := 0, fold := 0, flock := 0, op := 0, kind := k }] } }
def wSide : State := { wLs with
  ms := { wLs.ms with msgs := [{ home := .base 0, src := 1, ts := 0, fold := 0, flock := 0, op := 0, kind := .side 0x9000 [1, 2, 3] }] } }
theorem test_wit_HomesApplyStores :
    (match nextMsg wReg (homeOf wReg 0x8000 0) with
     | some (_, m) => match m.kind with
       | .reg _ w _ _ => (lineSt wReg (w / 32)).m.isNone && biasReady wReg (4 * w) true && plainOp wReg m.op && m.fold == 0 && m.flock == 0
       | _ => false
     | none => false) = true ∧
    (match nextMsg wSide (.base 0) with
     | some (_, m) => match m.kind with
       | .side pa bs => plainOp wSide m.op && (List.range bs.length).all (fun i => decide (NoOwner wSide ((pa + i) / 4)))
       | _ => false
     | none => false) = true := by decide +kernel

/-- A store of another die's core to a line, a line that a core owns in M, and an INV under way. -/
def wFar : State := withFo { wSt1 with cores := tput wSt1.cores 65 { coreAt wSt1 1 with pad := some 0 } }
  (fun fo => { fo with place := .resident 65 0 })
def wOwn : State := msgOf wLs (.own 1 0x100)
def wGr : State := aft (.ownershipApply (homeOf wOwn 0x8000 0)) wOwn
def wM : State := takeRsp wGr (invSrc wGr 0x100) 0
def wInv : State := { wLs with
  ms := { wLs.ms with invs := [{ src := 0, dst := 1, line := 0x100 }] }
  cores := tput wLs.cores 65 { coreAt wLs 65 with view := [(0x2000, { st := .copy, val := 9, known := 15, dirty := 0 })] } }
theorem test_wit_LineOwnershipMoves :
    ((lineSt wFar 0x100).m ≠ some 65 ∧ wFar.ms.msgs.any (fun m => m.kind == .own 65 0x100) = false ∧ (lineWanted wFar 65 0x100).isSome = true) ∧
    (match nextMsg wOwn (homeOf wOwn 0x8000 0) with
     | some (_, m) => m.kind == .own 1 0x100
     | none => false) = true ∧
    (isHostPa (128 * 0x100) = false ∧ biasReady wOwn (128 * 0x100) true = true ∧ (lineSt wOwn 0x100).m = none) ∧
    (wGr.ms.need = [] ∧ (wGr.ms.rsps.find? (fun g => g.src == invSrc wGr 0x100 && g.dst == 0)).isSome = true ∧ Roomy wGr 1 [0x100]) ∧
    ownsLine wM 1 0x100 = true ∧
    (wInv.ms.invs.zipIdx.find? (fun e => e.1.src == 0 && e.1.dst == 1)).isSome = true := by decide +kernel

/-- R242: the core owns no word of the line before the grant reaches it, and then every one. -/
theorem test_grant_moves : ownerOf wGr 0x2000 = none ∧ granted wGr 0x100 = true ∧
    (match step { wGr with sched := [.rsp (invSrc wGr 0x100) 0] } with
     | .next t => ownerOf t 0x2000 == some 1 && t.ms.rsps.isEmpty
     | _ => false) = true := by decide +kernel

/-- Buffers 0 to 4: filled and taken, empty, full, one slot free of one, taken next. -/
def buf (fr fi : Nat) (tk : List (Nat × Option Nat)) : CBuf :=
  { base := 256, slot := 256, count := 2, free := fr, filled := fi, prod := 0, cons := 1, taken := tk, done := [] }
def wCb : State := withFo (withS (withS wLs 4 0x10000100) 5 0x8000) (fun fo =>
  { fo with scrSize := 2048, cbufs := [(1, buf 1 1 []), (2, buf 2 0 []), (3, buf 0 1 [(0, none)])] })
def wCb16 : State := withFo wCb (fun fo => { fo with cbufs := (List.range 16).map (fun i => (i + 16, buf 2 0 [])) })
/-- Flock 1 waits at buffer 1, whose one slot is its turn's. -/
def wCbW : State := withFo wCb (fun fo => { fo with cbufs := [(1, { buf 1 1 [] with waits := [⟨0, 1, .wait⟩, ⟨0, 2, .take⟩] })] })
/-- R165: of operations that wait the earliest comes first, so flock 0's, which arrives in cycle 1, waits behind that of cycle
0. -/
theorem test_cbwait_order : after (.cbwait H (.s 9) 1) { wCbW with plat := { wCbW.plat with cycles := 20 } } (fun t =>
    (holdAt t 0 0, (cbuf? t 0 1).map (fun b => b.waits.map (·.flock)))) = some (.waits true [.filled 1], some [1, 2, 0]) := by decide +kernel
def wXl : State := modCore wCb 1 (fun co => { co with tlb := [⟨0, 0, 30, setupLeaf, setupTable⟩] })
theorem test_wit_Group6CommandsRun : freeFor wCb [.v 2, .v 6] = true ∧
    onCx wCb H (fun c ex => ex.all (fun l => !liveRegion c l) && decide (isLast c = true ∧ wCb.ms.regions = [] ∧
      nodeOf (rdS c (.s 5)) = 0 ∧ flagFull c.fl c.g H = false ∧ (rdS c .zero).toNat ≤ 2 ^ 30 ∧ storesPerformed wCb c.f c.k = true ∧
      2040 + 8 ≤ c.fo.scrSize ∧ c.fo.scrSize < bits (rdS c (.s 4)) 19 0 + 8 * bits (rdS c (.s 4)) 39 20 ∧
      cbDescOk (rdS c .zero) = false ∧ bits (rdS c .zero) 19 0 + 8 * bits (rdS c .zero) 39 20 ≤ c.fo.scrSize ∧ cbDescOk (rdS c (.s 4)) = true ∧ bits (rdS c (.s 4)) 19 0 + 7 * bits (rdS c (.s 4)) 39 20 ≤ c.fo.scrSize ∧
      bufAt wCb c.f 0 = none ∧ buffersHeld wCb c.c < 16 ∧
      cbuf? wCb c.f 1 = some (buf 1 1 []) ∧ cbuf? wCb c.f 2 = some (buf 2 0 []) ∧ cbuf? wCb c.f 3 = some (buf 0 1 [(0, none)]) ∧
      bufBefore (buf 1 1 []) (cycleNow wCb) c.k = [] ∧ 0 = ((buf 0 1 [(0, none)]).cons + 1) % 2)) = true ∧
    onCx { wCbW with plat := { wCbW.plat with cycles := 20 } } H (fun c _ => match cbuf? wCbW c.f 1 with
      | some w => (bufBefore w 1 c.k).any (fun x => bufAble w x.op) && w.free != 0 && w.filled != 0
      | none => false) = true ∧
    onCx wCb16 H (fun c _ => decide (bufAt wCb16 c.f 0 = none ∧ 16 ≤ buffersHeld wCb16 c.c)) = true ∧
    onCx wXl H (fun c ex => ex.all (fun l => decide (nodeOf (rdAddr c l (.v 2)) = 0) &&
      match tlbFind wXl (.core c.c) c.fo.ctx (rdAddr c l (.v 2)).toNat with
      | some e => mappedPa wXl (leafAddr e.leaf / 2 ^ e.size * 2 ^ e.size + (rdAddr c l (.v 2)).toNat % 2 ^ e.size)
      | none => false)) = true ∧
    onCx wMem H (fun c ex => decide (ex = [0] ∧ nodeOf (rdAddr c 0 (.v 2)) = 0) &&
      (match lookup wMem (.core c.c) c.fo.ctx (rdAddr c 0 (.v 2)).toNat with | (_, .ok _) => true | _ => false) &&
      (match lookup wMem (.core c.c) c.fo.ctx (rdAddr c 0 (.v 2) + 0x7000000000).toNat with | (_, .error _) => true | _ => false)) = true := by
  decide +kernel

/-- A launch record in the scratchpad (R186), and a queue of the context. -/
def recBytes : List Byte := leBytes 8 64 ++ leBytes 2 2 ++ leBytes 2 1 ++ leBytes 2 1 ++ [1, 0] ++ leBytes 2 32 ++ leBytes 2 1 ++ leBytes 2 1
def wLau : State :=
  let s := withFo (withS (withS w0 4 0x1003) 5 0x5000000000000000) (fun fo => scrPut { fo with scrSize := 512 } 128 recBytes)
  let s := setLane s 1 0 128
  let s := { s with queues := [(0, { queue s 0 with ctl := 1 }), (3, { queue s 3 with ctl := 1 })] }
  { s with
    grids := tput s.grids 0 { setupGrid with frame := some { addr := 0x10000, size := 8192, pages := [(16, 16), (17, 17)] } }
    ctxs := tput s.ctxs 0 { ctx s 0 with gridNext := 5, saveBase := 0x100000, saveSize := 0x100000 } }
def wLauFull : State := { wLau with queues := [(0, { queue wLau 0 with ctl := 1 }), (3, { queue wLau 3 with ctl := 1, device := (List.range 64).map (· + 5) })]
                                    grids := wLau.grids ++ (List.range 64).map (fun i => (i + 5, { setupGrid with parent := some 0 })) }
def wLauPen : State := hdrPut wLau 0 hPENCOUNT 2 16
def wLauCtx : State := { wLau with queues := [(3, { queue wLau 3 with ctl := 0x10001 })] }
theorem test_wit_LaunchFamilyRuns_launch : freeFor wLau [.v 6, .v 1, .v 3] = true ∧
    onCx wLau H (fun c ex => decide (ex = [0] ∧ c.fo.isTask = false ∧ flagFull c.fl c.g H = false ∧ storesPerformed wLau c.f c.k = true ∧
      doomed c 0 = false ∧ liveRegion c 0 = false ∧ (rd32 c 0 (.v 1)).toNat = 128 ∧ 128 + 128 ≤ c.fo.scrSize ∧
      lockedBy (coreAt wLau c.c) (.scratch c.f) 128 256 false = none ∧ recordOk (scrBytes c.fo 128 128) = true ∧
      recordOk (scrBytes c.fo 0 128) = false ∧ targetQueue wLau c (rdS c (.s 4)) = 3 ∧ targetQueue wLau c (rdS c .zero) = 0 ∧
      queueCtx (queue wLau 3) = c.fo.ctx ∧ hdrGet wLau c.fo.grid hPENCOUNT 2 = 0 ∧ deviceSlots wLau 3 < 64 ∧ grid? wLau (wLau.seq + 1) = none)) = true ∧
    onCx wLauCtx H (fun c _ => decide (queueCtx (queue wLauCtx (targetQueue wLauCtx c (rdS c (.s 4)))) ≠ c.fo.ctx)) = true := by decide +kernel
theorem test_wit_LaunchFamilyRuns_penned :
    onCx wLauFull H (fun c _ => decide (¬ (hdrGet wLauFull c.fo.grid hPENCOUNT 2 = 0 ∧ deviceSlots wLauFull 3 < 64)) &&
      decide (hdrGet wLauFull c.fo.grid hPENCOUNT 2 < c.gr.record.pencap ∧ grid? wLauFull (wLauFull.seq + 1) = none)) = true ∧
    onCx wLauPen H (fun c _ => decide (hdrGet wLauPen c.fo.grid hPENCOUNT 2 ≠ 0 ∧ c.gr.record.pencap ≤ hdrGet wLauPen c.fo.grid hPENCOUNT 2)) = true := by
  decide +kernel

/-- A task over 0 to 100 of a divisible grid of grain 8, and room to grow. -/
def wTask : State := { withFo wLau (fun fo => { fo with isTask := true, lo := 0, hi := 100, scrAdded := 512 }) with
  grids := tput wLau.grids 0 { setupGrid with record := { setupRecord with mode := 8, grain := 8, dhi := 100, fan := 2, wbuf := 1, tallow := 50 } } }
def wTaskEnd : State := withFo wTask (fun fo => { fo with hi := 8 })
def wSmall : State := withFl (withFo wLau (fun fo => { fo with scrAdded := 512, scrSize := 1024 })) (fun fl => { fl with valloc := 64 })
def wPool0 : State := modCtx wSmall 0 (fun k => { k with saveSize := 0 })
theorem test_wit_LaunchFamilyRuns_rest :
    onCx wSmall H (fun c ex => ex.all (fun l => !liveRegion c l) && decide (c.fo.isTask = false ∧ hdrGet wSmall c.fo.grid hLIVE 4 ≤ 0 ∧
      c.fl.valloc = 64 ∧ flagFull c.fl c.g H = false ∧ 1020 + 4 ≤ c.fo.scrSize ∧ 512 ≤ c.fo.scrAdded ∧ scrHeld wSmall c 512 1024 = false) &&
      (growFold wSmall c { Need.zero with blocks := 1 }).isSome && (growFold wSmall c { Need.zero with scr := 512 }).isSome &&
      (growFold wSmall c { Need.zero with scr := 786432 }).isNone) = true ∧
    onCx wPool0 H (fun c _ => (growFold wPool0 c { Need.zero with blocks := 1 }).isNone) = true ∧
    onCx (hdrPut wSmall 0 hLIVE 4 1) H (fun c _ => decide (0 < hdrGet (hdrPut wSmall 0 hLIVE 4 1) c.fo.grid hLIVE 4)) = true ∧
    onCx wTask H (fun c _ => decide (c.fo.isTask = true ∧ c.gr.record.grain < (c.fo.hi - c.fo.lo).toNat ∧ fold? wTask wTask.seq = none ∧
      wTask.ms.regions = [])) = true ∧
    onCx wTaskEnd H (fun c _ => decide (c.fo.isTask = true ∧ (c.fo.hi - c.fo.lo).toNat ≤ c.gr.record.grain)) = true := by decide +kernel

/-- A 16 × 16 × 16 step of F32 at offset 0 of the scratchpad, with its window at V8 (R224), and a copy of 16 bytes to offset 64.
-/
def mxBlock : List Byte := leBytes 2 16 ++ leBytes 2 16 ++ leBytes 2 16 ++ [7, 1, 0, 0, 0, 0] ++ leBytes 2 8 ++ leBytes 2 0
  ++ leBytes 4 1024 ++ leBytes 4 64 ++ leBytes 4 2048 ++ leBytes 4 64
def wMx : State :=
  let s := withFo w0 (fun fo => scrPut { fo with scrSize := 4096 } 0 mxBlock)
  let s := withS (withS (withS (withS (withS s 5 384) 4 0x8000) 8 0x8000) 9 0x8000000000000040) 10 16
  withS s 11 0x1000
/-- A copy of no bytes to circular buffer 2, which has two free slots. -/
def wMx0 : State := withFo (withS wMx 9 0x9000000000000002) (fun fo => { fo with cbufs := [(2, buf 2 0 [])] })
def wMxF : State := withFo wMx0 (fun fo => { fo with cbufs := [(2, buf 0 2 [])] })
theorem test_wit_QueueAndMatrixCommandsRun_matrix :
    onCx wMx H (fun c ex => ex.all (fun l => !liveRegion c l) && decide (c.fl.role ≠ 1 ∧ c.fl.role ≠ 3 ∧ mxWordCheck c.fo (rdS c .zero) = none ∧
      mxRoom H wMx c = true ∧ lockRoom (coreAt wMx c.c) 16 = true) && (match c.fl.hold with | .mx _ _ => false | _ => true) &&
      decide (mxCheck c.fo c.fl.valloc (mxParse (scrBytes c.fo 0 64)) = none ∧ pendingRegs c.fl = []) &&
      lockRoom (coreAt wMx c.c) (mxLocks c.f c.k 0 { mxParse (scrBytes c.fo 0 64) with rows := mxRows c.fo (mxParse (scrBytes c.fo 0 64)) }).length &&
      decide ((rdS c (.s 5)).toNat % 8 = 0 ∧ (rdS c (.s 5)).toNat + 384 ≤ c.fo.scrSize)) = true := by decide +kernel
def wBatch : State := withFl wMx (fun fl => { fl with batch := { fl.batch with ctr := 3, seq := 3, closed := [⟨2, 2, 1, 1, 0, false⟩] } })
def wMxs : State := modCore wMx 1 (fun co => { co with mxs := [⟨9, 0, 7⟩, ⟨0, 0, 8⟩, ⟨0, 0, 9⟩], wdq := [⟨0, 0, 5⟩] })
theorem test_wit_QueueAndMatrixCommandsRun_queues :
    onCx wMx H (fun c _ => decide (bits (rdS c (.s 1)) 63 1 = 0 ∧ bitOf c.gr.record.mode 3 = false ∧ wdqUse wMx c.c < 8 ∧
      (coreAt wMx c.c).evq.length < 64 ∧ (coreAt wMx c.c).mxs = [])) = true ∧
    onCx wBatch H (fun c _ => decide ((c.fl.batch.ctr - 1).toNat = 2 ∧ (c.fl.batch.ctr - 2).toNat = 1 ∧
      (∀ z ∈ c.fl.batch.closed, c.fl.batch.seq < z.seq + 2) ∧ ¬ ∀ z ∈ c.fl.batch.closed, c.fl.batch.seq < z.seq + 1)) = true ∧
    (coreAt wMxs 1).mxs = [⟨9, 0, 7⟩] ++ ⟨0, 0, 8⟩ :: [⟨0, 0, 9⟩] ∧ (coreAt wMxs 1).wdq = [] ++ ⟨0, 0, 5⟩ :: [] ∧
    onCx wMx H (fun c _ => match copyDesc (sregAt wMx 0 0 8) (sregAt wMx 0 0 9) (sregAt wMx 0 0 10) (sregAt wMx 0 0 11) with
      | some z => decide (c.fl.role ≠ 2 ∧ c.fl.role ≠ 3 ∧ copyCheck wMx c z = none ∧ flagFull c.fl c.g H = false ∧ copyReady wMx c 0 z = true ∧ slotTurn wMx c z = true ∧
          z.bytes = 16 ∧ locksMeet (copyRead c.f 0 z) (copyWrite c.f 0 z (copyBase c.fo z (copySlot c.fo z))) = false)
      | none => false) = true ∧
    onCx (withS wMx 10 0) H (fun _ _ => match copyDesc (sregAt wMx 0 0 8) (sregAt wMx 0 0 9) 0 (sregAt wMx 0 0 11) with
      | some z => decide (z.bytes = 0 ∧ z.dst ≠ .buf)
      | none => false) = true ∧
    onCx wMx0 H (fun c _ => match copyDesc (sregAt wMx0 0 0 8) (sregAt wMx0 0 0 9) 0 (sregAt wMx0 0 0 11) with
      | some z => decide (z.bytes = 0 ∧ z.dst = .buf ∧ copyCheck wMx0 c z = none ∧ copyReady wMx0 c 0 z = true ∧ slotTurn wMx0 c z = true) && (bufAt wMx0 c.f z.dbase).isSome
      | none => false) = true ∧
    onCx wMxF H (fun c _ => match copyDesc (sregAt wMxF 0 0 8) (sregAt wMxF 0 0 9) 0 (sregAt wMxF 0 0 11) with
      | some z => decide (copyCheck wMxF c z = none ∧ copyReady wMxF c 0 z = true ∧ slotTurn wMxF c z = false)
      | none => false) = true := by decide +kernel

/-- Four threads with the word 0x8000 in S2's reach: a fence's core with a copy of a word; a monitor that is set. -/
def w3 (s : State) : State := withFl s (fun fl => { fl with group := fl.group.map (fun g => { g with len := 3 }) })
def wFen : State := { w3 (withS (withS wLs 4 0x8000) 6 100) with
  cores := tput wLs.cores 1 { coreAt wLs 1 with view := [(0x2001, { st := .copy, val := 77, known := 15, dirty := 0 })] } }
def wFenOut : State := withFl wFen (fun fl => { fl with fifo := [⟨0, 0, .dev 0x8000 0 12, [1, 2, 3, 4], .store, .plain, .die, false, none, 0x8000, 0x100C, false, 0, false⟩] })
def wMon : State := aft (.monitor H (.s 4) am) wFen
def wMwait : State := aft (.mwait H (.s 5) (.s 6)) wMon
/-- A monitor of a word of node 3. -/
def wMonP : State := withFl wFen (fun fl => { fl with mon := { valid := true, addr := 0x0600000000008000, place := .peer 3 0x8000, n := 4, scope := .system, got := none } })
/-- A monitor of a word of host memory, with no host link. -/
def wMonH : State := withFl wFen (fun fl => { fl with mon := { valid := true, addr := 0x8000, place := .host hostBase, n := 4, scope := .system, got := none } })
theorem test_wit_FencesAndMonitorsWork :
    onCx wFen H (fun c ex => ex.all (fun l => !liveRegion c l) && [Scope.flock, .fold, .die, .package, .system].all (releaseNow wFen c) &&
      decide (homeDie (4 * 0x2001) = dieOf c.c ∧ nodeOf (rdS c (.s 4)) = 0) &&
      (match checkGlobal wFen c (rdS c (.s 4)) 4 .load false with | (_, .ok _) => true | _ => false)) = true ∧
    onCx wFenOut H (fun c _ => !releaseNow wFenOut c .die) = true ∧
    onCx wMon H (fun c _ => c.fl.mon.valid && (match (monRead wMon c c.fl.mon).2 with | some v => v == 100 | _ => false)
      && decide (c.fl.hold = .none ∧ (rdS c (.s 6)).setWidth 32 = (100 : W32) ∧ (rdS c .zero).setWidth 32 ≠ (100 : W32))) = true ∧
    onCx wMonP H (fun c _ => c.fl.mon.valid && c.fl.mon.got.isNone && c.fl.loads.isEmpty && decide (c.fl.hold = .none)) = true ∧
    onCx wMonH H (fun c _ => c.fl.mon.valid && decide (c.fl.mon.place = .host hostBase ∧ isHostPa hostBase = true ∧
      wMonH.plat.linksUp = 0 ∧ c.fo.halt = none ∧ c.fl.hold = .none)) = true ∧
    (flock? wMwait 0 0).map (·.hold) = some (.mwait 100 false) ∧
    onCx (aft (.monitorWake 0 0) wMwait) H (fun c _ => (monRead (aft (.monitorWake 0 0) wMwait) c c.fl.mon).2.isSome) = true ∧
    (flock? (aft (.monitorWake 0 0) wMwait) 0 0).map (·.hold) = some (.mwait 100 true) := by decide +kernel

/-- An object with generation 5, quota 3, two arrivals owed and no debt, at offset 8; an update of its last two arrivals; a
barrier that holds flock 1. -/
def wBar : State := withFo (withS wLs 4 8) (fun fo =>
  { scrPut { fo with scrSize := 64 } 8 (leBytes 8 (5 * 2 ^ 56 + 3 * 2 ^ 40 + 2 * 2 ^ 24)) with
    upds := [⟨none, 8, 2, 0, 0⟩, ⟨none, 16, 1, 0, 0⟩]
    bars := [(1, { n := 8, operand := 8, arrived := 4, held := [1] }), (2, { n := 16, operand := 16, arrived := 4, held := [1] })]
    flocks := fo.flocks ++ [(1, setupFlock true)] })
theorem test_wit_BarriersWork :
    onCx wBar H (fun c ex => ex.all (fun l => !liveRegion c l) && releaseNow wBar c .fold && decide (((rdS c (.s 4)).toNat + 0) % 2 ^ 32 = 8 ∧
      8 + 8 ≤ c.fo.scrSize ∧ bits (BitVec.ofNat 64 (ofLe (scrBytes c.fo 8 8))) 63 56 = 5 ∧ c.fl.hold = .none ∧
      (barAt wBar c.f 1).operand = 8 ∧ (barAt wBar c.f 1).arrived + ex.length = 8 ∧ (barAt wBar c.f 2).operand = 16 ∧
      (barAt wBar c.f 2).arrived + ex.length < 16 ∧ (barAt wBar c.f 0).arrived = 0 ∧ c.fl.bar = none)) = true ∧
    [true, false].all (fun r => onCx (withFl wBar (fun fl => { fl with bar := some (1, r) })) H (fun c _ => decide (c.fl.bar = some (1, r)))) = true ∧
    onCx wFenOut H (fun c ex => !releaseNow wFenOut c .fold && decide (c.fl.bar = none ∧ (barAt wFenOut c.f 0).arrived = 0 ∧ ex.length ≤ 1024)) = true ∧
    updsAt wBar 0 = [⟨none, 8, 2, 0, 0⟩, ⟨none, 16, 1, 0, 0⟩] := by decide +kernel

/-- A machine on which regions can begin: the V class anywhere, the O class with a window of 8 positions at base 100. -/
def withOd (s : State) (g : OrderDom → OrderDom) : State := modCtx s 0 (fun k => { k with od := g k.od })
def wOd : State := withOd wN (fun o => { o with f := 100, base := 100, window := some 8 })
def wTsk : State := { withFo wOd (fun fo => { fo with isTask := true, lo := 0, hi := 8 }) with
  grids := tput wOd.grids 0 { setupGrid with record := { setupRecord with mode := 0x18, grain := 1, dhi := 8, fan := 2 } } }
def wV : State := aft (.tbegin H .v 0) wOd
def wE : State := aft (.tbegin H .e 0) wOd
def wO : State := aft (.tbegin H (.o (.v 2)) 0) wOd
def wTo : State := aft (.tbegin H (.o (.v 2)) 0) wTsk
def laneRegion (s : State) (p : Thread → Region → Bool) : Bool :=
  match thread? s 0 0 0 with
  | some th => match region? s th.reg.rid with
    | some r => decide (regionThread s r = some (0, 0, th) ∧ r.fold = 0) && p th r
    | none => false
  | none => false
theorem test_wit_RegionsBeginAndEnd :
    onCx wOd H (fun c _ => releaseNow wOd c .die && !liveRegion c 0 && !inTrap c 0 && !doomed c 0 && !c.fo.isTask &&
      keyValid wOd c (rdV c 0 .u64 (.v 2)).toNat) = true ∧
    onCx wTsk H (fun c _ => releaseNow wTsk c .die && c.fo.isTask && bitOf c.gr.record.mode 4 && keyValid wTsk c (rdV c 0 .u64 (.v 2)).toNat) = true ∧
    [wV, wE, wO, wTo].all (fun s => onCx s H (fun c _ => !doomed c 0 && decide (c.fl.hold = .none)) &&
      laneRegion s (fun th _ => th.reg.live && regionQuiet s th.reg.rid)) = true ∧
    laneRegion wV (fun _ r => r.cls == 0) = true ∧
    (laneRegion wO (fun _ r => decide (r.cls = 2 ∧ (ctx wO r.ctx).od.f ≤ r.pos ∧ (ctx wO r.ctx).od.pendO = [] ∧ (ctx wO r.ctx).od.vacated = [] ∧
      (ctx wO r.ctx).od.window ≠ none)) && onCx wO H (fun c _ => !inOrderTask c)) = true ∧
    (laneRegion wTo (fun _ r => r.cls == 2) && onCx wTo H (fun c _ => inOrderTask c)) = true ∧
    onCx (withFl wN (fun fl => { fl with hold := .tend [7] })) H (fun _ _ => (region? wN 7).isNone) = true := by decide +kernel

theorem test_wit_RegionWordsRun :
    onCx wOd H (fun c ex => ex.all (fun l => !doomed c l && !liveRegion c l) && decide (ex = [0] ∧ c.fo.isTask = false)) = true ∧
    onCx wV H (fun c ex => decide (ex = [0]) && !doomed c 0 && !isLast c && c.g.started) = true ∧
    laneRegion wV (fun th r => th.reg.live && !th.trap.mode && decide (r.phase = .live)) = true ∧
    laneRegion wE (fun th r => decide (r.cls = 1 ∧ r.phase = .live ∧ max th.reg.blo.toNat 3 ≤ th.reg.bhi.toNat)) = true ∧
    freeFor wE [.v 2, .v 4] = true ∧
    (ctx wN 0).od.window = none ∧
    (ctx wOd 0).od.window = some 8 ∧ (ctx wOd 0).od.pendO = [] ∧ (ctx wOd 0).od.vacated = [] ∧ (ctx wOd 0).od.base + 0 = (ctx wOd 0).od.f := by decide +kernel

/-- Regions that may commit: their TEND has been executed; the V region has written a word. -/
def wVs : State :=
  let s := aft (.tend H) wV
  match thread? s 0 0 0 with
  | some th => { s with ms := { s.ms with vers := [⟨.region th.reg.rid, 0, 5, 0x2000, 0x0000AA00, 2, 0, 12⟩] } }
  | none => s
def wEs : State := withOd (aft (.tend H) wE) (fun o => { o with window := none })
def wOs : State := aft (.tend H) wO
def wNar (lo : Bool) (b : Nat) : State := match thread? wE 0 0 0 with
  | some th => { wE with ms := { wE.ms with narrow := [⟨th.reg.rid, lo, b, none⟩] } }
  | none => wE
/-- The same message, for which a tentative entry of instruction 99 waits; `n` parts of it are left. -/
def wNarP (n : Nat) : State := withFl { wNar true 5 with ms := { (wNar true 5).ms with
    narrow := (wNar true 5).ms.narrow.map (fun x => { x with part := some (0, 0, 99) }) } }
  (fun fl => { fl with ops := [{ id := 99, flag := none, pc := 0x100C, hdr := 0x1000, left := n, kind := .store, acq := none, evs := [] }] })
def wTent : State := match thread? wV 0 0 0 with
  | some th => withFl wV (fun fl => { fl with
      tent := [⟨99, 0, .dev 0x8002 0 12, [1, 2, 3, 4], .store, .plain, .die, false, some th.reg.rid, 0x8002, 0x100C, false, 0, false⟩] })
  | none => wV
/-- The frontier has moved to 3, and the message to core 1 is under way. -/
def wFront : State := { wOd with ms := { wOd.ms with fronts := [⟨0, 1, 3, 0⟩] } }
theorem test_wit_RegionEventsAct :
    laneRegion wVs (fun th r => th.reg.live && decide (r.cls = 0 ∧ r.phase = .sealed) && regionQuiet wVs th.reg.rid &&
      biasReady wVs (4 * 0x2000) true && decide (NoOwner wVs 0x2000) && collapseReady wVs (4 * 0x2000) 0 && !commitsOver wVs 0 &&
      !earlierCommit wVs r.ts r.src && !wordLost wVs 0x2000) = true ∧
    laneRegion wEs (fun th r => th.reg.live && decide (r.cls = 1 ∧ r.phase = .sealed ∧ (ctx wEs r.ctx).od.holder = none ∧
      (ctx wEs r.ctx).od.window = none ∧ max th.reg.blo.toNat (ctx wEs r.ctx).od.f ≤ th.reg.bhi.toNat ∧
      max th.reg.blo.toNat (ctx wEs r.ctx).od.f ≠ 2 ^ 48 - 1 ∧ wEs.ms.narrow = [] ∧ wEs.ms.vers = []) && regionQuiet wEs th.reg.rid &&
      !commitsOver wEs 0 && !earlierCommit wEs r.ts r.src) = true ∧
    laneRegion wOs (fun th r => th.reg.live && !commitsOver wOs 0 && !earlierCommit wOs r.ts r.src && wOs.ms.vers.isEmpty &&
      decide (r.phase = .waitO ∧ r.cls = 2 ∧ (ctx wOs r.ctx).od.window ≠ none ∧ (ctx wOs r.ctx).od.vacated = [] ∧
      (ctx wOs r.ctx).od.pendO.find? (fun p => p.1 == (ctx wOs r.ctx).od.f) = some ((ctx wOs r.ctx).od.f, th.reg.rid))) = true ∧
    [wNar true 5, wNar false 9].all (fun s => laneRegion s (fun th r => decide (r.phase = .live ∧
      (s.ms.narrow[0]?).map (·.rid) = some th.reg.rid ∧ max th.reg.blo.toNat 5 ≤ 9 ∧ 9 ≤ th.reg.bhi.toNat))) = true ∧
    [wNarP 1, wNarP 2].all (fun s => plainOp s 99 && (opAt s 0 0 99).isSome && laneRegion s (fun th r => decide (r.phase = .live ∧
      (s.ms.narrow[0]?).map (fun x => (x.rid, x.part)) = some (th.reg.rid, some (0, 0, 99))))) = true ∧
    laneRegion (wNar false 0) (fun _ r => decide (r.phase = .live)) = true ∧
    (wFront.ms.fronts.find? (fun m => m.ctx == 0 && m.core == 1 && m.f == 3)).isSome = true ∧
    laneRegion wTent (fun th r => decide (isHostPa 0x8002 = false ∧ r.cls = 0 ∧ flipping wTent 0x8002 = false ∧ plainOp wTent 99 = true ∧
      earlierLoad wTent 0 0 99 = false ∧ (fold? wTent 0).map (·.isTask) = some false ∧
      ((flock? wTent 0 0).bind (firstTent · 0)).bind (·.rid) = some th.reg.rid)) = true := by decide +kernel

/-- A flock on a system core, and one with a full EVQ; a machine whose device memory the host sees from 0x8000. -/
def wPriv : State := withFo { w0 with cores := tput w0.cores 0 { coreAt w0 1 with pad := some 0 } } (fun fo => { fo with place := .resident 0 0 })
def wDead : State := withS wPriv 4 1
def wFramed : State := withFo { wLs with cores := tput wLs.cores 0 { coreAt wLs 1 with pad := some 0 } } (fun fo => { fo with place := .resident 0 0 })
def wEvq : State := modCore w0 1 (fun co => { co with evq := List.replicate 64 ⟨0, 0, 0, 0, 0⟩ })
def wExp : State := { withS w0 4 0x8000 with plat := { w0.plat with hdmEn := true, hdmBase := 0, hdmSize := 0x100000 } }
def wExpH : State := { wExp with ms := { wExp.ms with biasHost := [8] } }
theorem test_wit_SystemGroupRuns :
    onCx w0 H (fun c _ => !liveRegion c 0 && !privileged c && isListed 0x022 && isListed 0x040 && isListed 0x007 && !isListed 0x01B
      && (ctx w0 c.fo.ctx).live && c.fo.halt.isNone && decide ((coreAt w0 c.c).evq.length < 64)) = true ∧
    onCx wPriv H (fun c _ => !liveRegion c 0 && privileged c && (ctx wPriv c.fo.ctx).live && decide (bits (rdS c .zero) 3 0 ≤ 8) &&
      decide (framesOf wPriv c.fo.ctx = [] ∧ (ctx wPriv c.fo.ctx).od.holder = none ∧ (ctx wPriv c.fo.ctx).od.window = none ∧
        bits (rdS c .zero) 47 0 = 0 ∧ (ctx wPriv c.fo.ctx).od.f + bits (8 : W64) 47 0 ≤ 2 ^ 48 - 1)) = true ∧
    onCx wDead H (fun c _ => privileged c && !(ctx wDead (bits (rdS c (.s 4)) 11 0)).live) = true ∧
    onCx wFramed H (fun c _ => privileged c && decide (framesOf wFramed c.fo.ctx ≠ [])) = true ∧
    onCx wEvq H (fun c _ => decide ((coreAt wEvq c.c).evq.length = 64)) = true ∧
    [(wExp, false), (wExpH, true)].all (fun e => onCx e.1 H (fun c _ => decide (c.fo.isTask = false ∧ bits (rdS c (.s 4)) 63 57 = 0 ∧
      flagFull c.fl c.g H = false ∧ opsAt e.1 c.f c.k = []) && match translate e.1 (.core c.c) c.fo.ctx (bits (rdS c (.s 4)) 56 0) .store with
        | (s1, .ok tr) => exposed s1 tr.pa && s1.ms.flips.isEmpty && decide (hostBias s1 (tr.pa / 4096) = e.2)
        | _ => false)) = true := by decide +kernel

theorem test_wit_PairRunsBothHalves : (match WellFormed.pairVector H (.g2 0) (.v 10) (.v 11) (.v 12) .u32 with
    | some i => match intHalf i with
      | some (regs, _) => onCx wN H (fun c _ => (windowLock wN c regs).isNone)
      | none => false
    | none => false) = true ∧
    onCx wN (guardedBy true 3) (fun _ ex => ex == [0]) = true := by decide +kernel

theorem test_wit_GuardedOffPasses : (match issuing? wN with
    | some c => decide (execLanes c (guardedBy false 3) = [] ∧ hintsOf (.exit (guardedBy false 3)) = some (guardedBy false 3))
    | none => false) = true := by decide +kernel

/-- Long-latency instructions under way: their states, and the first of them. -/
def wSfu : State := aft (.vfdiv H .f32 (.v 6) (.v 2) (.v 1) .rne false) wLs
def wLauD : State := aft (.launch H (.v 6) (.v 1) (.s 4) 2) wLau
def wXlD : State := aft (.xlat H (.v 6) (.v 2) 0) wCb
def wCfl : State := aft (.cflush H (.s 5) (.s 4) .inv) (withS wFen 5 0x8000)
def wBpf : State := aft (.bpf H (.s 5) .zero 1 (some 2040)) (withS wCb 5 0x8123)
def wFlH : State := aft (.bflipHost H (.s 4)) wExp
def wFlD : State :=
  let s := aft (.bflipDev H (.s 4)) wExpH
  { s with ms := { s.ms with flips := s.ms.flips.map (fun x => { x with done := blockLines 8 }) } }
def op0 (s : State) (p : LOp → Bool) : Bool := match opsAt s 0 0 with | o :: _ => p o | _ => false
theorem test_wit_EnginesComplete_words :
    op0 wSfu (fun o => match o.kind with | .sfu _ _ res => decide (res.map (·.lane) = [0, 1, 2, 3]) | _ => false) = true ∧
    op0 wLauD (fun o => match o.kind with | .launch _ p res => decide (res.map (·.lane) = [0] ∧ p ≠ 0) | _ => false) = true ∧
    op0 wXlD (fun o => match o.kind with | .xlat _ res => decide (res.map (·.lane) = [0, 1, 2, 3]) | _ => false) = true ∧
    op0 wCfl (fun o => match o.kind with | .cflush .. => decide (o.evs = [] ∧ o.acq = none) | _ => false) = true ∧
    (wCfl.ms.lines.isEmpty && wCfl.ms.owners.isEmpty && wCfl.ms.rsps.isEmpty) = true ∧ op0 wBpf (fun o => match o.kind with | .bpf _ _ _ bar => bar.isSome | _ => false) = true ∧
    [(wFlH, true), (wFlD, false)].all (fun e => match flipOf e.1 8 with
      | some x => decide (x.toHost = e.2 ∧ e.1.ms.flips = [x] ∧ x.fold = 0 ∧ x.flock = 0) && (match opAt e.1 0 0 x.op with | some o => o.left == 1 | none => false)
      | none => false) = true := by decide +kernel

/-- A step and a table load at the head of the matrix queue. -/
def wMxq : State := aft (.mxcmd H .zero) wMx
def wMxr : State := aft (.matrixEntryStart 1) wMxq
def wTab : State := aft (.matrixEntryStart 1) (aft (.mxtab H (.s 5) 2) wMx)
theorem test_wit_EnginesComplete_matrix : (coreAt wMxq 1).mxRun = false ∧ (coreAt wMxq 1).mxq ≠ [] ∧
    [wMxr, wTab].all (fun s => (coreAt s 1).mxRun && match (coreAt s 1).mxq with
      | e :: _ => (fold? s e.fold).isSome && (match flock? s e.fold e.flock with | some fl => (op? fl e.op).isSome | none => false)
          && (match e.work with | .step b rows _ _ => decide ((mxParse b).wbase + (mxParse b).win ≤ 1536) && ({ mxParse b with rows := rows } : MxP).inside 15 15 | .table _ slot => slot == 2)
      | _ => false) = true := by decide +kernel

/-- Copies of 16 bytes: from memory to the scratchpad, from the scratchpad to memory, a pattern, and one that meets no page. -/
def cpy (s : State) (m : CpyMode) (c0 c1 : W64) : State := aft (.cpy H m (.s 8) 0) (withS (withS s 8 c0) 9 c1)
def wCp1 : State := cpy wMx .d1 0x8000 0x8000000000000040
def wCp2 : State := cpy wMx .d1 0x8000000000000000 0x8000
def wCp3 : State := cpy wMx .fill 0x0123456789ABCDEF 0x8000000000000040
def wCpBad : State := cpy wMx .d1 0x7000000000 0x8000000000000040
def runs (s : State) : State := aft (.copyStart 0 0) s
def onCopy (s : State) (p : CopyCmd → Fold → CopyD → Bool) : Bool := match (engineQ s 0 0)[0]? with
  | some x => match fold? s x.fold, cmdDesc x with
    | some fo, some d => (opAt s x.fold x.flock x.op).isSome && p x fo d
    | _, _ => false
  | none => false
theorem test_wit_CopyEngineWorks_start :
    onCopy wCp1 (fun x fo d => x.data.isNone && (match readRows wCp1 x fo d with | (_, some rows) => rows.length == 1 | _ => false)) = true ∧
    onCopy wCp2 (fun x _ d => x.data.isNone && d.src == some .scratch) = true ∧
    onCopy wCp3 (fun x _ d => x.data.isNone && d.src.isNone) = true := by decide +kernel
theorem test_wit_CopyEngineWorks_error : onCopy wCpBad (fun x fo _ => (copyError wCpBad x).isSome && fo.halt.isNone) = true := by decide +kernel
theorem test_wit_CopyEngineWorks_scratch : onCopy (runs wCp1) (fun x _ d =>
    (match x.data with | some [(a, bs)] => a == 64 && bs.length == 16 | _ => false) && d.dst == .scratch) = true := by decide +kernel
theorem test_wit_CopyEngineWorks_memory : onCopy (runs wCp2) (fun x fo d => d.dst == .global && !fo.isTask && match x.data with
    | some [(a, bs)] => (writeRows (runs wCp2) x fo d [(a, bs)]).2 && (match rowRuns (runs wCp2) (cmdAgent x) fo.ctx [(a, bs.length)] .store with
      | (s2, .ok [[(pa, n, _, _)]]) => n == 16 && s2.ms.owners.isEmpty && s2.ms.lines.isEmpty && s2.ms.rsps.isEmpty && pa == 0x8000
      | _ => false)
    | _ => false) = true := by decide +kernel

/-- Folds that stop: a watchdog that has run out; a fold of priority 0 that waits for one of priority 2; two folds of a swap
group. -/
def wWdog : State := withFo (modCtx w0 0 (fun k => { k with wdogWindow := 100 })) (fun fo => { fo with wdogTime := 100 })
def wPrio : State := { w0 with
  plat := { w0.plat with ts := 20000 }
  queues := [(1, { queue w0 1 with ctl := 1 }), (2, { queue w0 2 with ctl := 1 + 2 * 2 })]
  grids := [(0, { setupGrid with queue := 2 }), (1, { setupGrid with queue := 1 })]
  folds := w0.folds ++ [(1, { setupFold false with grid := 1, place := .waiting, active := false })] }
def wSwap : State := { withFo w0 (fun fo => { fo with q := 2 }) with
  folds := (withFo w0 (fun fo => { fo with q := 2 })).folds ++ [(1, { setupFold false with place := .resident 1 8, active := false, age := 1 })] }
def wLate : State := withFl wTrap (fun fl => { fl with threads := tmod fl.threads 0 (fun t => { t with lates := [⟨4, 0x100C⟩] }) })
def wLateR : State := modThread wV 0 0 0 (fun t => { t with lates := [⟨4, 0x100C⟩] })
def wLateO : State := withFl wLateR (fun fl => { fl with group := none })
def wFpev : State := modCtx w0 0 (fun k => { k with fpev := { k.fpev with window := 1000, win := [(4, 7)] } })
def parkedAt (key : W32) (l : Nat) : Thread := { newThread l 0x2000 with park := .reorder key 0 2 }
def wReo : State := withFl w0 (fun fl => { fl with
  group := none, threads := [(0, parkedAt 9 0), (1, parkedAt 3 1), (2, parkedAt 9 2)], vregs := [(0, 10), (4097, 11), (8192, 12)] })
theorem test_wit_FoldsStopAndMove :
    (match fold? wWdog 0 with
     | some fo => decide (fo.halt = none ∧ (coreOf fo).isSome = true ∧ (grid? wWdog fo.grid).isSome = true ∧ fo.taskFin = false ∧
         (ctx wWdog fo.ctx).wdogWindow ≠ 0 ∧ (ctx wWdog fo.ctx).wdogWindow.toNat ≤ fo.wdogTime ∧ fo.isTask = false)
     | none => false) = true ∧
    (tsortedFrom 0 wPrio.folds = true ∧ (match fold? wPrio 1 with
     | some fo => decide (fo.place = .waiting ∧ foldPrio wPrio fo ≤ 1 ∧ 10000 ≤ (wPrio.plat.ts - fo.since).toNat ∧
         preemptVictim wPrio (ctx wPrio fo.ctx).pad (foldPrio wPrio fo) = some 0)
     | none => false) = true) ∧
    (tsortedFrom 0 wSwap.folds = true ∧ wSwap.plat.cycles / 20 % 32 = 0 ∧ ((groupFolds wSwap 1 0).find? (fun e => e.2.active)).map (·.1) = some 0 ∧
      oldest ((groupFolds wSwap 1 0).filter (fun e => !e.2.active && foldReady wSwap e.1 e.2)) = some 1 ∧
      (fold? wSwap 0).map (·.q) = some 2) ∧
    ((ctx wFpev 0).live = true ∧ (ctx wFpev 0).fpev.window ≠ 0 ∧ wFpev.plat.ts.toNat % (ctx wFpev 0).fpev.window.toNat = 0) ∧
    (match fold? wLate 0, flock? wLate 0 0, thread? wLate 0 0 0 with
     | some fo, some fl, some t => decide (fo.halt = none ∧ (coreOf fo).isSome = true ∧ atBoundary fl = true ∧ (lateDue t).isSome = true ∧
         ((ctx wLate fo.ctx).trapvec.setWidth 57 : VA) ≠ 0 ∧ t.reg.live = false)
     | _, _, _ => false) = true ∧
    [(wLateR, true), (wLateO, false)].all (fun e => laneRegion e.1 (fun t r => (lateDue t).isSome && t.reg.live && decide (r.phase = .live)) &&
      (match flock? e.1 0 0 with | some fl => inClause fl 0 == e.2 && atBoundary fl | none => false)) = true ∧
    (match fold? wReo 0 with
     | some fo => decide (fo.halt = none ∧ tsortedFrom 0 fo.flocks = true ∧ regroupReady (roleFlocks fo 0) = true ∧
         (parkedThreads (roleFlocks fo 0)).map (·.lane) = [1, 0, 2]) && (parkedThreads (roleFlocks fo 0)).all (fun p =>
           decide (p.base + p.count ≤ 1536) && (roleFlocks fo 0).all (fun e => decide (p.base + p.count ≤ e.2.valloc)))
     | none => false) = true := by decide +kernel

/-- A save pool; a waiting fold; folds that have ended, with a next stage and as a task; a stopped fold, saved folds. -/
def pooled (s : State) : State := modCtx s 0 (fun k => { k with saveBase := 0x100000, saveSize := 0x100000, fpoolBase := 0x20000, fpoolSize := 0x10000 })
def wPlace : State := { pooled w0 with folds := [(0, { setupFold false with place := .waiting, active := false, flocks := [] })] }
def ended (s : State) : State := withFl s (fun fl => { fl with group := none, threads := [(0, { newThread 0 0x2000 with exited := true })] })
def withGrid (s : State) (g : Grid → Grid) : State := { s with grids := tput s.grids 0 (g ((grid? s 0).getD setupGrid)) }
def wEnd : State := withGrid (ended w0) (fun g => { g with record := { g.record with stages := 2 } })
def wEndT : State := withFo (ended w0) (fun fo => { fo with isTask := true })
def halted (r : Reason) (cause : BitVec 8) : Halt := ⟨r, false, true, cause, some 0, 0, 0, 0⟩
def wHalt : State := withFo w0 (fun fo => { fo with halt := some (halted .preempt 0) })
def wSaved : State := withFo (pooled w0) (fun fo => { fo with place := .saved, image := 0x100000, imgSize := 4096, wdogTime := 9 })
def wSavedW : State := withFo wSaved (fun fo => { fo with halt := some (halted .wdog 0x18) })
def wSavedT : State := withFo wSaved (fun fo => { fo with halt := some (halted .fault 0x20), isTask := true, lo := 0, hi := 8 })
theorem test_wit_FoldsLive :
    (match fold? wPlace 0 with
     | some fo => (grid? wPlace fo.grid).isSome && pickSlot wPlace 1 == some 0 && placeable wPlace 0 1 && wPlace.folds.length == 1
     | none => false) = true ∧
    [wEnd, wEndT].all (fun s => match fold? s 0 with
     | some fo => decide ((coreOf fo).isSome = true ∧ fo.halt = none ∧ fo.exhausted = false ∧ fo.taskFin = false ∧ drained s 0 fo = true)
         && fo.flocks.all (fun e => (liveLanes e.2).isEmpty)
     | none => false) = true ∧
    (match fold? wEnd 0, grid? wEnd 0 with
     | some fo, some gr => decide (fo.released = false ∧ fo.stage + 1 < gr.record.stages ∧ fold? wEnd wEnd.seq = none)
     | _, _ => false) = true ∧
    (match fold? wHalt 0 with
     | some fo => (coreOf fo).isSome && drained wHalt 0 fo && (fo.halt.map (·.reason)) == some .preempt
     | none => false) = true ∧
    (match fold? wSaved 0 with
     | some fo => pickSlot wSaved 1 == some 0 && restorable fo && restoreRoom wSaved 1 fo
     | none => false) = true ∧
    [(wSavedW, true), (wSavedT, false)].all (fun e => match imageFold e.1 0 0x100000 with
     | (s1, some (f, fo)) => f == 0 && fold? s1 0 == some fo && (match fo.halt with | some h => (h.reason != .preempt && mayResume h.cause.toNat) == e.2 | none => false)
         && decide (fold? s1 s1.seq = none)
     | _ => false) = true ∧
    (match imageFold (withFo wSaved (fun fo => { fo with halt := some (halted .preempt 0) })) 0 0x100000 with
     | (_, some (_, fo)) => fo.halt.map (·.reason) == some .preempt
     | _ => false) = true := by decide +kernel

/-- A pending release; tasks that run out of time, split, raise DEADLINE and commit; a query; a grid that has ended; a grid that
may start, and two that are refused; a pen with one entry. -/
def wRelP : State := withGrid (withFo w0 (fun fo => { fo with relPend := some (0, 5) })) (fun g => { g with record := { g.record with stages := 2 } })
def taskRec : Record := { setupRecord with mode := 8, grain := 4, dhi := 100, fan := 2, tallow := 50 }
def wTk (g : Fold → Fold) : State := withGrid (withFo w0 (fun fo => g { fo with isTask := true, lo := 0, hi := 100 }))
  (fun g => { g with record := taskRec })
def wTkTime : State := wTk (fun fo => { fo with taskTime := 51 })
def wTkSplit : State := wTk (fun fo => { fo with exhausted := true, halt := some (halted .exhaust 0) })
def wTkEnd : State := wTk (fun fo => { fo with hi := 4, exhausted := true, halt := some (halted .exhaust 0) })
def wTkCom : State :=
  let s := wTk (fun fo => { fo with taskFin := true, place := .gone })
  { s with ms := { s.ms with vers := [⟨.task 0, 0, 0, 0x2000, 0xAA00, 2, 0, 12⟩] }
           folds := s.folds ++ [(9, { setupFold false with place := .waiting, isTask := true })] }
def wQry : State := withGrid (withFo (aft (.take H .zero 8) (withFo (withS w0 4 0) (fun fo => { fo with scrSize := 64 }))) (fun fo => fo))
  (fun g => { g with record := { g.record with dlo := 3, dhi := 2 }, wdNext := 4 })
def wQryW : State := withGrid (aft (.qpush H (.q 10) .zero) w0) (fun g => { g with record := { g.record with dlo := 3, dhi := 2 }, wdNext := 4 })
def wRep : State := withGrid w0 (fun g => { g with allDone := true })
theorem test_wit_TasksAndGridsMove_tasks :
    (match fold? wRelP 0, flock? wRelP 0 0, grid? wRelP 0 with
     | some fo, some fl, some gr => decide (fo.relPend = some (0, 5) ∧ fl.fifo ++ fl.scr ++ fl.tent = [] ∧ msgsBefore wRelP 0 0 5 = false ∧
         fo.released = false ∧ fo.isTask = false ∧ fo.stage + 1 < gr.record.stages ∧ fold? wRelP wRelP.seq = none)
     | _, _, _ => false) = true ∧
    [wTkTime, wTkSplit, wTkEnd, wTkCom].all (fun s => match fold? s 0, grid? s 0 with
     | some fo, some gr => fo.isTask && decide (gr.status = 0 ∧ fold? s s.seq = none ∧ fold? s (s.seq + 1) = none) && drained s 0 fo
     | _, _ => false) = true ∧
    (match fold? wTkTime 0 with
     | some fo => decide (fo.taskFin = false ∧ (coreOf fo).isSome = true ∧ taskRec.tallow < fo.taskTime ∧ fo.halt = none)
     | none => false) = true ∧
    (match fold? wTkCom 0, grid? wTkCom 0 with
     | some fo, some gr => fo.taskFin && !fo.lost && !earlierCommit wTkCom fo.since fo.endSrc && (commitPeers wTkCom 0).isEmpty && commitTurn wTkCom fo gr && wTkCom.ms.msgs.isEmpty && !commitHeld wTkCom (commitWords wTkCom 0) &&
         (commitReds wTkCom 0).isEmpty && (commitVers wTkCom 0).length == 1 && decide (NoOwner wTkCom 0x2000) && !wordLost wTkCom 0x2000
     | _, _ => false) = true ∧
    [wQry, wQryW].all (fun s => match grid? s 0 with
     | some gr => match gr.queries with
       | [q] => ((fold? s q.fold).bind coreOf).isSome && (opAt s q.fold q.flock q.op).isSome
       | _ => false
     | none => false) = true ∧
    (match grid? wRep 0 with
     | some gr => decide (gr.phase = .started ∧ gr.allDone = true ∧ hdrGet wRep 0 hLIVE 4 = 0)
     | none => false) = true := by decide +kernel

/-- A kernel descriptor at 64 (R346): entry 0x1000, 1 role of 4 flocks with 64 registers; the same with 40 tokens. -/
def kdBytes (tok : Byte) : List Byte := leBytes 8 0x1000 ++ leBytes 8 0 ++ leBytes 4 0 ++ [tok, 1, 0, 0, 0, 4, 64, 0]
def wStart : State :=
  let s := pooled { w0 with mem := memPut w0.mem 64 (kdBytes 8) }
  { s with queues := [(0, { queue s 0 with ctl := 1, device := [0] })], pads := [(0, { pad s 0 with tokens := 32 })]
           folds := [], grids := [(0, { setupGrid with phase := .queued, record := { setupRecord with kdesc := 64, nx := 2, ny := 3, pencap := 1 } })] }
def wStartTok : State := { wStart with mem := memPut wStart.mem 64 (kdBytes 40) }
def wStartBad : State := { wStart with mem := memPut wStart.mem 64 (leBytes 8 0x1001) }
def wPen : State :=
  let s := { wLauFull with queues := [(3, { queue wLauFull 3 with ctl := 1, device := (List.range 64).map (· + 5) })] }
  let s := aft (.launch H (.v 6) (.v 1) (.s 4) 2) s
  { s with queues := [(3, { queue s 3 with device := [] })], grids := s.grids.filter (fun e => decide (e.1 < 5 ∨ 68 < e.1)) }
theorem test_wit_TasksAndGridsMove_grids :
    nextStart wStart 0 = some 0 ∧ frameFree wStart 0 0x20000 (frameBytes { setupRecord with pencap := 1 }) = true ∧
    [(wStart, false), (wStartTok, true)].all (fun e => match grid? e.1 0 with
     | some gr => match readKDesc (modQueue e.1 0 (fun q => { q with device := [] })) 0 0 64 with
       | (s2, some kd) => refused (modGrid s2 0 (fun x => { x with kd := kd })) { gr with kd := kd } == e.2
       | _ => false
     | none => false) = true ∧
    (readKDesc (modQueue wStartBad 0 (fun q => { q with device := [] })) 0 0 64).2 = none ∧
    (match readKDesc (modQueue wStart 0 (fun q => { q with device := [] })) 0 0 64 with
     | (s2, some _) => (framePages s2 0 0 0x20000 512).2.isSome
     | _ => false) = true ∧
    (match penNext wPen 3 with
     | some (_, g) => match g.parent with
       | some p => ((grid? wPen p).bind (·.frame)).isSome && decide (deviceSlots wPen 3 < 64)
       | none => false
     | none => false) = true := by decide +kernel

/-- A packet of a type with a body, a word of flags, a prologue length and a prologue address (R322). -/
def pkt (ty : Nat) (body : List Byte) (flags pro proaddr : Nat) : List Byte :=
  let b := body ++ List.replicate (0x90 - body.length) 0 ++ leBytes 4 flags ++ leBytes 2 pro ++ [0, 0] ++ leBytes 8 proaddr
  b ++ List.replicate (252 - b.length) 0 ++ [BitVec.ofNat 8 ty, 0, 0, 1]
def wPk (ty : Nat) (body : List Byte) (pro proaddr : Nat) : State :=
  { w0 with queues := [(0, { queue w0 0 with ctl := 1, size := 1, base := 0x40000, packets := [newPacket 9 0 (pkt ty body 1 pro proaddr)] })] }
def wPkN : State := wPk 6 [] 0 0
def wPkS : State := wPk 2 [] 0 0
def wPkW : State := wPk 3 (leBytes 8 0x8000 ++ leBytes 8 100 ++ [1]) 0 0
def wPkT : State := modDie (wPk 4 (leBytes 8 0x200000 ++ leBytes 8 0x1000) 0 0) 0 (fun x => { x with tlb := [⟨0, 0, 30, setupLeaf, setupTable⟩] })
def wPkSig (a : Nat) : State := wPk 2 (List.replicate 0x80 0 ++ leBytes 8 a ++ leBytes 8 7) 0 0
def objBytes (magic : Nat) : List Byte := leBytes 4 magic ++ leBytes 4 0x50 ++ leBytes 64 0 ++ leBytes 4 1 ++ leBytes 4 0
def wPkL (magic : Nat) : State :=
  let s := wPk 5 (leBytes 8 0x9000 ++ leBytes 8 0x50 ++ leBytes 8 0xA000) 0 0
  { s with mem := memPut s.mem 0x9000 (objBytes magic) }
def wPkR : State := wPk 1 (recBytes ++ List.replicate (128 - recBytes.length) 0) 0 0
def wPkP : State := let s := wPk 1 (recBytes ++ List.replicate (128 - recBytes.length) 0) 1 0xB000
  { s with mem := memPut s.mem 0xB000 (wordBytes (encodeEnd 0 0)) }
def wPol : State := modPacket wPkW 0 9 (fun p => { p with started := true })
def mayStart (s : State) (ty : Nat) : Bool := match packetAt s 0 0 ty with
  | some p => packet? s 0 p.id == some p && packetReady s 0 p && decide (pkNat p 0x80 8 = 0)
  | none => false
theorem test_wit_PacketsRun_start : mayStart wPkN 6 && mayStart wPkS 2 && mayStart wPkW 3 && mayStart wPkT 4 && mayStart (wPkL 5) 5 &&
    mayStart wPkR 1 && mayStart wPkP 1 = true := by decide +kernel
theorem test_wit_PacketsRun_signal : [(0x8000, true), (0x7000000000, false), (2 ^ 57, false)].all (fun e => match packetAt (wPkSig e.1) 0 0 2 with
    | some p => packet? (wPkSig e.1) 0 p.id == some p && packetReady (wPkSig e.1) 0 p && pkNat p 0x80 8 == e.1 &&
        (match writeVirt (startPacket (wPkSig e.1) 0 p) (.die 0) 0 (e.1 + 8) (leBytes 8 (packetStatus p + 8 * min p.launches 65535)) with
         | (s1, .ok ()) => !e.2 || (match (writeVirt s1 (.die 0) 0 e.1 (leBytes 8 (pkNat p 0x88 8))).2 with | .ok () => true | _ => false)
         | (_, .error _) => !e.2)
    | none => false) = true := by decide +kernel
theorem test_wit_PacketsRun_wait : [wPkW, wPol].all (fun s => match packetAt s 0 0 3 with
    | some p => (feRead (startPacket s 0 p) 0 0 (pkNat p 0 8) 8).2.isSome && decide (pkNat p 0x80 8 = 0)
    | none => false) = true ∧ ((packetAt wPol 0 0 3).map (fun p => (p.started, p.dead))) = some (true, false) := by decide +kernel
def loads (magic : Nat) : Option LoadEnd := match packetAt (wPkL magic) 0 0 5 with
  | some p => match feRead (startPacket (wPkL magic) 0 p) 0 0 (pkNat p 0 8) (pkNat p 8 8) with
    | (s1, some obj) =>
      if pkNat p 0x10 8 < 2 ^ 57 && (writeVirt s1 (.die 0) 0 (pkNat p 0x10 8) (leBytes 40 0)).2 matches .ok ()
      then some (checkObject s1 0 obj (nat64 (pkNat p 0x18 8))) else none
    | _ => none
  | none => none
theorem test_wit_PacketsRun_load : (match loads 0x314F5957 with | some (.good b) => b.isEmpty | _ => false) &&
    (match loads 5 with | some (.bad c b) => decide (c = 0x31 ∧ b = 0) | _ => false) = true := by decide +kernel
theorem test_wit_PacketsRun_launch :
    (match packetAt wPkR 0 0 1, packetAt wPkP 0 0 1 with
     | some a, some p => decide (pkProlen a = 0 ∧ pkProlen p ≠ 0 ∧ (die wPkP 0).prologue = none) &&
         (match runPrologue 0 p 256 (startPacket wPkP 0 p) (prologueRegs p) 0 0 with | (_, .at _ pc n _) => decide (pc = 0 ∧ n = 1) | _ => false)
     | _, _ => false) = true := by decide +kernel
def proOf (w : W96) : Prologue :=
  { queue := 0, packet := 9, pc := 0, executed := 1, word := w
    sregs := (List.range 16).foldl (fun t i => tset t i (BitVec.ofNat 64 (bytesAt recBytes (8 * i) 8)) 0) [] }
def wPro (w : W96) : State := modDie wPkP 0 (fun x => { x with prologue := some (proOf w) })
theorem test_wit_PacketsRun_prologue :
    (match prologueEnd (wPro (encodeEnd 0 0)) 0, prologueEnd (wPro (encodeEnd 1 0)) 0, prologueEnd (wPro (encodeEnd 2 3)) 0 with
     | some (x, p, .prologueGo _), some (_, q, .prologueCancel _), some (_, _, .prologueRepeat _ m) =>
       recordOk ((List.range 16).flatMap (fun j => leBytes 8 (tgetD x.sregs j 0).toNat)) && decide (p.dead = false ∧ pkNat q 0x80 8 = 0 ∧ m = 3)
     | _, _, _ => false) = true := by decide +kernel

/-- A queue whose next slot holds a packet, one that is malformed, and none; a queue in error; a queue that is off. -/
def wQ (b : List Byte) : State :=
  { w0 with mem := memPut w0.mem 0x40100 b, queues := [(0, { queue w0 0 with ctl := 1, size := 1, base := 0x40000, head := 1, tag := 1, door := true })] }
def wQgood : State := wQ (pkt 6 [] 1 0 0)
def wQbad : State := wQ (pkt 6 [1] 1 0 0)
def wQnone : State := wQ []
def wQerr : State := modQueue wQgood 0 (fun x => { x with stat := 0x3001 })
def wQoff : State := modQueue wQgood 0 (fun x => { x with ctl := 0 })
theorem test_wit_QueuesWork :
    [(wQgood, 1, 0), (wQbad, 1, 0x31), (wQnone, 0, 0x30)].all (fun e => queueEn (queue e.1 0) && (queue e.1 0).door &&
      !bitOf (queue e.1 0).stat 0 && !e.1.plat.moving && match feRead e.1 0 0 (bits (queue e.1 0).base 56 8 * 256 + 256) 256 with
        | (_, some b) => decide (bytesAt b 255 1 = e.2.1 ∧ packetCode (newPacket 0 1 b) = e.2.2 ∧ (queue e.1 0).tag = 1)
        | _ => false) = true ∧
    bitOf (queue wQerr 0).stat 0 = true ∧ queueEn (queue wQoff 0) = false ∧ (ctx wQoff (bits (1 : W32) 27 16)).live = true ∧
    (queue wQoff 0).packets = [] ∧ (writeVirt wQoff (.die 0) 0 0x8000 (List.replicate 64 0)).2 matches .ok () ∧ (feRead wQoff 0 0 0x8000 64).2.isSome = true := by
  decide +kernel

/-- Contexts: none but 0; one that nothing uses; a core whose EVQ holds an entry for a ring of four, and for a full one. -/
def wCtx : State := modCtx w0 5 (fun _ => { Ctx.reset with live := true })
def wEvj (tail : W32) : State := modCtx (modCore w0 1 (fun co => { co with evq := [⟨0, 1, 0x10007, 5, 9⟩] })) 0 (fun k =>
  { k with evj := { k.evj with base := 0x8000, size := 4, tail := tail } })
theorem test_wit_RegistersWork :
    ((ctx w0 5).live = false ∧ 0 ≤ w0.plat.vfs ∧ w0.plat.vfs < 9) ∧ ((ctx wCtx 5).live = true ∧ ctxInUse wCtx 5 = false) ∧
    ((ctx w0 0).live = true ∧ ctxInUse w0 0 = true) ∧
    ((ctx w0 0).od.holder = none ∧ (ctx w0 0).od.window = none ∧ (ctx w0 0).od.f + bits (8 : W64) 47 0 ≤ 2 ^ 48 - 1 ∧
      (ctx w0 0).dirty.en = false ∧ (ctx w0 0).fpev.window = 0) ∧
    (w0.plat.fw.recovery = false ∧ fnReg w0 1 .pwrCap = false ∧ fnReg (modCtx wCtx 5 (fun k => { k with owner := 1 })) 1 (.evjBase 5) = true) ∧
    (w0.plat.svc = 2 ∧ w0.plat.hdmEn = false) ∧ (queueEn (queue wQgood 0) = true ∧ queueEn (queue wQoff 0) = false) ∧
    ((coreAt (wEvj 4) 1).evq ≠ [] ∧ (coreAt (wEvj 4) 1).evq.all (fun e => !evqBefore (wEvj 4) 1 e && !evqBefore (wEvj 3) 1 e) = true ∧
      evqNext (wEvj 4) 0 = some 1 ∧ evqNext (wEvj 3) 0 = some 1 ∧ (ctx (wEvj 4) 0).evj.size.toNat ≤ ((ctx (wEvj 4) 0).evj.tail - (ctx (wEvj 4) 0).evj.head).toNat) ∧
    ((ctx (wEvj 3) 0).dirty.en = false ∧ ((ctx (wEvj 3) 0).evj.tail - (ctx (wEvj 3) 0).evj.head).toNat < (ctx (wEvj 3) 0).evj.size.toNat ∧
      (writeVirt (evjNote (modDie (modCore (wEvj 3) 1 (fun co => { co with evq := [] })) 0 (fun d => { d with evTurn := 1 })) 0 9 1) front 0 0x8060 (List.replicate 32 0)).2 matches .ok ()) := by decide +kernel

/-- The log engine holds an event that has waited a millisecond; a core that no paddock has; a die that is throttled; limited
service. -/
def wCej : State := { w0 with plat := { w0.plat with ts := 1000000, cej := { w0.plat.cej with held := [⟨7, 5, 9, 4, 0, 0, 0⟩] } } }
def wReb : State := { w0 with cores := tput w0.cores 2 Core.reset, pads := [(0, { pad w0 0 with max := 256 })] }
def wReb2 : State := modCore w0 1 (fun co => { co with pad := some 5 })
def wHot : State := modDie w0 2 (fun x => { x with throttled := true })
def wLtd : State := { w0 with plat := { w0.plat with svc := 1 } }
theorem test_wit_PlatformActs :
    (w0.plat.cej.held = [] ∧ w0.plat.cej.counters = [] ∧ w0.plat.cej.since < 4096 ∧ w0.plat.cej.akey = []) ∧
    (wCej.plat.cej.held[0]? = some ⟨7, 5, 9, 4, 0, 0, 0⟩ ∧ 1000000 ≤ (wCej.plat.ts - 0).toNat ∧ cejFull wCej = false ∧ wCej.plat.cej.since + 1 < 4096 ∧
      wCej.plat.cej.held.all (fun x => x.ts.toNat ≥ 0 && x.src == 7) = true) ∧
    (userCore wReb 2 = true ∧ (coreAt wReb 2).pad = none ∧ (coreAt wReb 2).marked = none ∧ residents wReb 2 = [] ∧ padMove wReb 2 0 = true) ∧
    (userCore wReb2 1 = true ∧ (coreAt wReb2 1).pad = some 5 ∧ (coreAt wReb2 1).marked = none ∧ residents wReb2 1 ≠ [] ∧ padMove wReb2 1 0 = true) ∧
    (padInUse w0 0 = true ∧ userCore w0 1 = true ∧ w0.plat.pwrCap = 1800 ∧ wLtd.ms.regions = []) ∧
    (tsortedFrom 0 w0.cores = true ∧ (tget? w0.cores 1).map (·.pad) = some (some 0)) ∧ (die wHot 2).throttled = true ∧
    (wLtd.plat.svc = 1 ∧ wLtd.plat.hbmErr = false ∧ ((fold? wLtd 0).bind coreOf).isSome = true ∧ (State.reset).folds = []) := by decide +kernel

/-- Requests to node 3, through ports 0 and 1: a load, a store and an atomic. -/
def wNode : State :=
  let s := withV wMem 3 0x06000000
  { s with plat := { s.plat with portsUp := 3, linksUp := 1, nodeRoute := [(3, 3)] } }
def wPld : State := aft (.loadPerform 0 0 0) (aft (.ld H true (.v 6) (.v 2) { am with size := .b16 }) wNode)
def wPst : State := aft (.storeDrain 0 0 false) (aft (.st H (.v 2) (.v 2) am) wNode)
def wPat : State := aft (.atomicPerform 0 0) (aft (.atom H .u32 (.v 6) (.v 2) (.v 2) aT) wNode)
def wOld (s : State) : State := { s with plat := { s.plat with ts := s.plat.ts + 100000000 } }
def wSrv : State := { wNode with ms := { wNode.ms with served := [⟨3, 9, .load 0x8000 4, [0], true⟩] } }
theorem test_wit_LinksWork_links : (bitOf wNode.plat.linksUp 0 = true ∧ bitOf wNode.plat.linksUp 1 = false ∧ bitOf wNode.plat.portsUp 1 = true ∧
    bitOf wNode.plat.portsUp 17 = false ∧ wNode.plat.svc = 2 ∧ wNode.ms.peerReqs = []) ∧
    (match wPld.ms.peerReqs with | [r] => r.port == 0 && (wPld.plat.portsUp == 3) | _ => false) = true := by decide +kernel
theorem test_wit_LinksWork_requests :
    (match wPld.ms.peerReqs with
     | [r] => r.isLoad && (match reqLoad wPld r with | some e => e.n == 2 | none => false) && (haltAt wPld 0).isNone &&
         decide ((wPld.plat.ts - r.ts).toNat < 100000000) && decide (100000000 ≤ ((wOld wPld).plat.ts - r.ts).toNat)
     | _ => false) = true ∧
    (match wPst.ms.peerReqs with
     | [r] => !r.isLoad && (reqAtomic wPst r).isNone && (match opAt wPst 0 0 r.op with | some o => o.left == 1 | none => false)
     | _ => false) = true ∧
    (match wPat.ms.peerReqs with
     | [r] => (reqLoad wPat r).isNone && (match reqAtomic wPat r with | some e => (e.act matches .atom ..) && e.data.length == 4 | none => false)
     | _ => false) = true := by decide +kernel
theorem test_wit_LinksWork_served : (bitOf wNode.plat.portsUp 0 = true ∧ (ctx wNode 0).live = true ∧ wNode.ms.served = [] ∧
    wSrv.ms.served.any (fun x => x.node == 3 && x.tag == 9 && x.op == .load 0x8000 4) = true ∧ inFpool wNode 0 0x8000 4 = false) ∧
    [Acc.load, .store].all (fun a => match translate wNode (.die (portDie 0)) 0 0x8000 a with
      | (s1, .ok t) => !(isHostPa t.pa && noHost s1) && !earlierAtHome s1 (homeOf s1 t.pa (effCmode s1 t.pa (leafCmode t.leaf))) s1.plat.ts (portSrc 0) (fun _ _ => false) &&
          biasReady s1 t.pa true && (lineSt s1 (t.pa / 128)).m.isNone && decide (effCmode s1 t.pa (leafCmode t.leaf) ≠ 3) &&
          s1.ms.owners.isEmpty && s1.ms.lines.isEmpty && s1.ms.rsps.isEmpty
      | _ => false) = true := by decide +kernel

/-- The host's view: block 8 is exposed, in device bias and in host bias; the host owns line 0x100; a snoop is out; a page
collapses. -/
def wHo (b : Bool) : State := { wExp with plat := { wExp.plat with linksUp := 1 }, ms := { wExp.ms with biasHost := if b then [8] else [] } }
def wHoM : State := { wHo true with ms := { (wHo true).ms with hostLines := [(0x100, 2)], snoops := [(0x100, true), (0x101, false)] } }
def wColl : State := { wHo true with ms := { (wHo true).ms with collapsing := [(8, 12)] } }
theorem test_wit_HostWorks : [wHo true, wHo false].all (fun s => decide (s.plat.linksUp ≠ 0 ∧ exposed s (128 * 0x100) = true ∧
      exposedRange s (128 * 0x100) 128 = true ∧ (lineSt s 0x100).m = none ∧ s.ms.owners = [] ∧ s.ms.lines = [] ∧ s.ms.rsps = [])) = true ∧
    (hostView (wHo true) 0x100 = .host ∧ hostView (wHo false) 0x100 = .device) ∧
    (hostState wHoM 0x100 = 2 ∧ wHoM.ms.snoops.find? (fun e => e.1 == 0x100) = some (0x100, true) ∧ flipOf wHoM 8 = none ∧
      hostState wHoM 0x101 < 2 ∧ wHoM.ms.snoops.find? (fun e => e.1 == 0x101) = some (0x101, false)) ∧
    (isHostPa hostBase = true ∧ isHostPa (hostBase + 127) = true ∧ hostOnly (wHo true) (hostBase / 128) = true ∧ isHostPa (128 * (hostBase / 128)) = true ∧
      (lineSt (wHo true) (hostBase / 128)).m = none ∧ (wHo true).ms.hostOwn = []) ∧
    (wColl.ms.collapsing.find? (fun e => e.1 == 8) = some (8, 12) ∧ wColl.ms.collapse.length < 4096) := by decide +kernel

/-- R100, R1: a count that has saturated shows its limit, and an event that is taken back leaves what the others added. -/
theorem test_fpev_saturates :
    let p : Fpev := { (ctx w0 0).fpev with count := [(4, 2 ^ 32 - 2)], win := [(4, 7)] }
    let q := (fpevAdd (fpevAdd (fpevAdd p 4).1 4).1 4).1
    fpevCount q 4 = 0xFFFFFFFF ∧ fpevCount (q.takeBack [(4, 2), (12, 2)]) 4 = 0xFFFFFFFF ∧
      fpevCount (q.takeBack [(4, 3), (12, 3)]) 4 = 0xFFFFFFFE ∧ fpevWin (q.takeBack [(4, 3), (12, 3)]) 4 = 7 := by decide +kernel
/-- R374: the largest t whose prediction stays within the limit. -/
theorem test_token_floor : tokenFloor 1000 #v[100, 200, 300, 400, 500, 1000, 1001, 1100, 1200] = 5 ∧
    tokenFloor 1800 (Vector.replicate 9 1800) = 8 ∧ tokenFloor 600 (Vector.replicate 9 601) = 0 := by decide +kernel
/-- R28: a word that has issued and is held keeps the threads that its guard chose. -/
theorem test_held_keeps_threads :
    [(withFl wN (fun fl => { fl with ex := some [0] }), [0]), (wN, [])].all (fun e => match issuing? e.1 with
      | some c => execLanes c (guardedBy false 3) == e.2
      | none => false) = true := by decide +kernel

theorem test_wit_StepKeepsMemoryCanonical : Memory.wf (setup State.reset (1#10 ++ 0#86)).mem = true ∧
    (match step (setup State.reset (1#10 ++ 0#86)) with | .next _ => true | _ => false) = true := by decide +kernel

theorem test_wit_DecodeEncode : [Instr.nop H, .vadd (guardedBy true 3) .i32 (.v 4) (.v 5) (.imm 16) false, .clauseStart hd1].all (fun i =>
    isWord i && WellFormed.wf i && match encode i with
      | some w => match decode w with | .ok j => i == j | _ => false
      | none => false) = true := by decide +kernel

/-- What StepRunsDecoded asks of a state before its step; whether its clause has started, and what its word decodes to. -/
def stepAt (s : State) : Option (Bool × Option Instr) :=
  match fold? s 0, flock? s 0 0 with
  | some fo, some fl =>
    let s1 := selectGroup { s with freeIx := s.freeIx + 1, sched := s.sched.tail, cur := some (0, 0) } 0 0
    let s2 := countSkid (modFlock s1 0 0 (fun fl => { fl with yielded := false })) 0 0
    if !mayDispatch s fo fl then none
    else match issuing? s1 with
      | none => none
      | some c =>
        if (lateLane c).isSome then none
        else match (if c.g.started then clauseWord s2 c.c c.fo.ctx c.g c.hdr c.pc else fetchWord s1 c.c c.fo.ctx c.hdr) with
          | (s3, .ok w) => if (targetBad c w).isSome then none else match decode w with
            | .ok i => if wordBad s3 c i || (missingFeature s3 i).isSome then none else some (c.g.started, some i)
            | .error _ => some (c.g.started, none)
          | _ => none
  | _, _ => none
def illWord : W96 := 0xC00000000000000000000000
def illHead : State := { setup State.reset illWord with folds := [(0, setupFold true)] }
theorem test_wit_StepRunsDecoded : stepAt (setup State.reset (1#10 ++ 0#86)) = some (true, some (.nop H)) ∧
    stepAt (setup State.reset illWord) = some (true, none) ∧
    (match encode (.clauseStart hd1) with
     | some w => stepAt (setup State.reset w) == some (false, some (.clauseStart hd1))
     | none => false) = true ∧
    (match stepAt illHead with | some (false, i) => i.isNone | _ => false) = true ∧
    (windowAllows 1 (.registerWrite .pwrCap 0) w0 = false ∧ windowAllows 0 (.registerWrite .pwrCap 0) w0 = true ∧
      isWord (.registerWrite .pwrCap 0) = false) ∧
    (State.reset.sched = [] ∧ State.reset.cur = none ∧ windowAllows 0 (.preempt 0) w0 = true ∧ isWord (.preempt 0) = false) := by decide +kernel

end Sys2Proof.Tests
end

namespace Sys2Proof.Machine

/-! SUPPORT. The integer words of groups 0x1 and 0x2 (R70 to R82): what a word completes with, read off the effect that the
model gives it, and the arithmetic of R78 and R79 on exact numbers. -/

open Sys2Proof

/-! ## Words that write one result -/

section

variable {i : Instr} {s : State} {c : Cx} {h : Hd} {ex : List Nat}

/-- A uniform word that writes one S register completes with the value that it forms from what it sees. -/
theorem yieldsS_uword (hi : Issues s c h ex) {d : Opd} {v : Cx → W64}
    (e : exec i s = uword h s (fun c _ => writeS s c d (v c))) : YieldsS i s c d (v c) :=
  yieldsS_of hi.1 (e.trans (uword_run hi _))

theorem yieldsS_scalar2 (hi : Issues s c h ex) {t : Ty} {d a : Opd} {b : Src} {g : W64 → W64 → W64}
    (e : exec i s = scalar2 h t d a b g s) : YieldsS i s c d (g (rdS c a) (rdSrcS c t b)) :=
  yieldsS_uword hi (v := fun c => g (rdS c a) (rdSrcS c t b)) e

/-- A vector word that meets no lock and writes a value of a type to its lanes completes with that value. -/
theorem yieldsV_vexec (hi : Issues s c h ex) {regs : List (Nat × Nat)} (hw : Free s c regs) {t : Ty} {d : Opd}
    {v : Cx → Nat → W64} (e : exec i s = vexec h regs (fun c ex s => writeLanes s c ex t d (v c)) s) :
    YieldsV i s c ex (width t) d (v c) :=
  yieldsV_of hi.1 (e.trans (vword_run hi hw _))

theorem yieldsE_zipElems (hi : Issues s c h ex) {regs : List (Nat × Nat)} (hw : Free s c regs) {t : Ty} {d : Opd}
    {g : Cx → Nat → BitVec (elemWidth t) → BitVec (elemWidth t) → BitVec (elemWidth t)} {x y : Cx → Nat → W64}
    (e : exec i s = vexec h regs (fun c ex s => writeLanes s c ex t d (fun l => zipElems t (g c l) (x c l) (y c l))) s) :
    YieldsE i s c ex t d (fun l k => g c l (elemOf _ (x c l) k) (elemOf _ (y c l) k)) :=
  yieldsV_vexec hi hw (v := fun c l => zipElems t (g c l) (x c l) (y c l)) e

/-- A word of two vector operands that works element by element (R71). -/
theorem yieldsE_bin (hi : Issues s c h ex) {t : Ty} {d a : Opd} {b : Src}
    {g : BitVec (elemWidth t) → BitVec (elemWidth t) → BitVec (elemWidth t)} (hw : Free s c (binRegs t d a b))
    (e : exec i s = vexec h (binRegs t d a b) (bin t d a b (zipElems t g)) s) :
    YieldsE i s c ex t d (fun l k => g (elemOf _ (rdV c l t a) k) (elemOf _ (rdSrc c l t b) k)) :=
  yieldsE_zipElems hi hw (g := fun _ _ => g) (x := fun c l => rdV c l t a) (y := fun c l => rdSrc c l t b) e

/-- A vector word that meets no lock and writes a value and a predicate to its lanes completes with both. -/
theorem yieldsVP_vexec (hi : Issues s c h ex) {regs : List (Nat × Nat)} (hw : Free s c regs) {t : Ty} {d : Opd} {p : Fin 8}
    {v : Cx → Nat → W64} {q : Cx → Nat → Bool}
    (e : exec i s = vexec h regs (fun c ex s => writePreds (writeLanes s c ex t d (v c)) c ex (.p p) (q c)) s) :
    YieldsVP i s c ex (width t) d (v c) p (q c) :=
  yieldsVP_of hi (e.trans (vword_run hi hw _))

end

/-! ## Exact results brought into n bits (R78) -/

theorem narrowInt_eq (n : Nat) (sg sat : Bool) (v : Int) :
    narrowInt n sg sat v = BitVec.ofInt n (clampTo n sg sat v) := by
  cases sat with
  | false => rfl
  | true => cases sg <;> rfl

section

variable {i : Instr} {s : State} {c : Cx} {h : Hd} {ex : List Nat} {t : Ty} {d a : Opd} {sat : Bool}

/-- A word of two vector operands that clamps an exact result of each element with SAT. -/
theorem yieldsE_exact2 (hi : Issues s c h ex) {b : Src} {g : Int → Int → Int} (hw : Free s c (binRegs t d a b))
    (e : exec i s = vexec h (binRegs t d a b) (bin t d a b (exact2 t sat g)) s) :
    YieldsE i s c ex t d (fun l k => BitVec.ofInt (elemWidth t) (clampTo (elemWidth t) (signedTy t) sat
      (g (num (signedTy t) (elemOf (elemWidth t) (rdV c l t a) k))
        (num (signedTy t) (elemOf (elemWidth t) (rdSrc c l t b) k))))) := by
  simp only [← narrowInt_eq]
  exact yieldsE_bin hi hw (g := fun x y => narrowInt _ (signedTy t) sat (g (intVal (signedTy t) x) (intVal (signedTy t) y))) e

/-- A word of one vector operand that clamps an exact result of each element with SAT. -/
theorem yieldsE_exact1 (hi : Issues s c h ex) {g : Int → Int} (hw : Free s c (regsT t d ++ regsT t a))
    (e : exec i s = vexec h (regsT t d ++ regsT t a) (una t d a (fun x => exact2 t sat (fun v _ => g v) x 0)) s) :
    YieldsE i s c ex t d (fun l k => BitVec.ofInt (elemWidth t) (clampTo (elemWidth t) (signedTy t) sat
      (g (num (signedTy t) (elemOf (elemWidth t) (rdV c l t a) k))))) := by
  simp only [← narrowInt_eq]
  exact yieldsE_zipElems hi hw (g := fun _ _ x _ => narrowInt _ (signedTy t) sat (g (intVal (signedTy t) x)))
    (x := fun c l => rdV c l t a) (y := fun _ _ => 0) e

end

/-! ## Sums and differences with a carry (R79) -/

theorem rdPred_eq_predAt {s : State} {c : Cx} (hi : issuing? s = some c) (l : Nat) (n : Fin 8) :
    rdPred c l (.p n) = predAt s c.f c.k l n := by
  unfold rdPred predAt
  rw [issuing?_thread hi]
  cases tget? c.fl.threads l <;> rfl

theorem carryIn_eq {s : State} {c : Cx} (hi : issuing? s = some c) (l : Nat) (en : Bool) (ci : Fin 8) :
    carryIn c l en ci = if en ∧ predAt s c.f c.k l ci then 1 else 0 := by
  simp only [carryIn, rdPred_eq_predAt hi, Bool.and_eq_true]

theorem setWidth_ofNat_eq_mod (m n x : Nat) : (BitVec.ofNat n x).setWidth m = BitVec.ofNat m (x % 2 ^ n) :=
  BitVec.eq_of_toNat_eq (by simp only [BitVec.toNat_setWidth, BitVec.toNat_ofNat])

theorem setWidth_ofInt_eq_mod (m n : Nat) (x : Int) :
    (BitVec.ofInt n x).setWidth m = BitVec.ofInt m (x % (2 ^ n : Nat)) := by
  have hnn : 0 ≤ x % (2 ^ n : Nat) := Int.emod_nonneg _ (by exact_mod_cast (Nat.two_pow_pos n).ne')
  rw [← Int.toNat_of_nonneg hnn, BitVec.ofInt_natCast]
  exact BitVec.eq_of_toNat_eq (by simp only [BitVec.toNat_setWidth, BitVec.toNat_ofInt, BitVec.toNat_ofNat])

/-! ## The statements -/

/-- Settles O11: the model's division of words is the quotient and the remainder of R75, a zero divisor included. -/
theorem divisionYields : Obligations.DivisionYields := by
  unfold Obligations.DivisionYields
  intro s c h ex hi t d a b sg
  simp only [← intDiv_eq, ← intRem_eq]
  exact ⟨yieldsS_scalar2 hi rfl, yieldsS_scalar2 hi rfl, fun hw => ⟨yieldsE_bin hi hw rfl, yieldsE_bin hi hw rfl⟩⟩

/-- Settles O12: the model's extract and insert by shifts and masks are those of R76; SBFI and VBFI also read d. -/
theorem bitFieldYields : Obligations.BitFieldYields := by
  unfold Obligations.BitFieldYields
  intro s c h ex hi t d a b sg
  simp only [← bitExtract_eq, ← bitInsert_eq]
  refine ⟨yieldsS_scalar2 hi rfl, ?sbfi, fun hw => ⟨?vbfx, ?vbfi⟩⟩
  case sbfi => exact yieldsS_uword hi (v := fun c => bitInsert (rdS c d) (rdS c a) (rdSrcS c t b)) rfl
  case vbfx =>
    exact yieldsE_zipElems hi hw (g := fun c l x _ => bitExtract sg x (rdSrc c l t b)) (x := fun c l => rdV c l t a)
      (y := fun _ _ => 0) rfl
  case vbfi =>
    exact yieldsE_zipElems hi hw (g := fun c l x y => bitInsert x y (rdSrc c l t b)) (x := fun c l => rdV c l t d)
      (y := fun c l => rdV c l t a) rfl

/-- Settles O13: each element is the exact result, clamped with SAT. -/
theorem vectorSumYields : Obligations.VectorSumYields := by
  unfold Obligations.VectorSumYields
  intro s c h ex hi t d a b sat sg n x y
  refine ⟨fun hw => ⟨yieldsE_exact2 hi hw rfl, yieldsE_exact2 hi hw rfl⟩, fun hw => ⟨?vabs, yieldsE_exact1 hi hw rfl⟩⟩
  case vabs =>
    simp only [Int.abs_eq_natAbs]
    exact yieldsE_exact1 hi hw (g := fun v => (v.natAbs : Int)) rfl

/-- Settles O17: the carry-in is the predicate of the lane, the sum or the difference is taken modulo the width of the type, and
the carry-out says whether it left the width's range. -/
theorem carryYields : Obligations.CarryYields := by
  unfold Obligations.CarryYields
  intro s c h ex hi t d a b en ci co hw n cin sum dif
  have hcin : ∀ l, cin l = carryIn c l en ci := fun l => (carryIn_eq hi.1 l en ci).symm
  simp only [sum, dif, hcin, ← setWidth_ofNat_eq_mod, ← setWidth_ofInt_eq_mod]
  refine ⟨?vaddc, ?vsubb⟩
  case vaddc =>
    exact yieldsVP_vexec hi hw
      (v := fun c l => (BitVec.ofNat (elemWidth t)
        ((rdV c l t a).toNat + (rdSrc c l t b).toNat + carryIn c l en ci)).setWidth 64)
      (q := fun c l => decide (2 ^ elemWidth t ≤ (rdV c l t a).toNat + (rdSrc c l t b).toNat + carryIn c l en ci)) rfl
  case vsubb =>
    exact yieldsVP_vexec hi hw
      (v := fun c l => (BitVec.ofInt (elemWidth t)
        (((rdV c l t a).toNat : Int) - (rdSrc c l t b).toNat - carryIn c l en ci)).setWidth 64)
      (q := fun c l => decide (((rdV c l t a).toNat : Int) - (rdSrc c l t b).toNat - carryIn c l en ci < 0)) rfl

end Sys2Proof.Machine

namespace Sys2Proof.Machine

/-! SUPPORT. Words of group 0x0 that keep the group in its clause (R124, R143, R144, R146, R147): the waits, the votes over the
executing lanes, the election of the bellwether, and the tokens of CVGSET. -/

open Sys2Proof

/-! ## What an update of one flock leaves of it -/

theorem flock?_modFlock_map {α : Type} (p : Flock → α) (s : State) (f k : Nat) (g : Flock → Flock) (hg : ∀ fl, p (g fl) = p fl)
    (f' k' : Nat) : (flock? (modFlock s f k g) f' k').map p = (flock? s f' k').map p := by
  rw [flock?_modFlock]
  split
  · cases flock? s f' k' with
    | none => rfl
    | some fl => exact congrArg some (hg fl)
  · rfl

theorem pcAt_eq_bind (s : State) (f k l : Nat) :
    pcAt s f k l = ((flock? s f k).map (·.threads)).bind (fun ts => (tget? ts l).map (·.pc)) := by
  unfold pcAt thread?
  cases flock? s f k <;> rfl

theorem pcAt_modFlock (s : State) (f k : Nat) (g : Flock → Flock) (hg : ∀ fl, (g fl).threads = fl.threads) (f' k' l : Nat) :
    pcAt (modFlock s f k g) f' k' l = pcAt s f' k' l := by
  rw [pcAt_eq_bind, pcAt_eq_bind, flock?_modFlock_map (·.threads) s f k g hg]

theorem groupAt_eq_join (s : State) (f k : Nat) : groupAt s f k = ((flock? s f k).map (·.group)).join := by
  unfold groupAt
  cases flock? s f k <;> rfl

theorem groupAt_modFlock (s : State) (f k : Nat) (g : Flock → Flock) (hg : ∀ fl, (g fl).group = fl.group) (f' k' : Nat) :
    groupAt (modFlock s f k g) f' k' = groupAt s f' k' := by
  rw [groupAt_eq_join, groupAt_eq_join, flock?_modFlock_map (·.group) s f k g hg]

theorem issuing?_groupAt {s : State} {c : Cx} (hi : issuing? s = some c) : groupAt s c.f c.k = some c.g := by
  obtain ⟨-, -, -, -, -, hg, -⟩ := issuing?_spec hi
  simp only [groupAt, issuing?_flock hi, Option.bind_some, hg]

theorem issuing?_flagAt {s : State} {c : Cx} (hi : issuing? s = some c) (n : Nat) : flagAt s c.f c.k n = flagVal c.fl n := by
  simp only [flagAt, issuing?_flock hi]

/-! ## The serial number of the next token through the advance (R124) -/

theorem serial_dropGroup (s : State) (f k c f' k' : Nat) :
    (flock? (dropGroup s f k c) f' k').map (·.serial) = (flock? s f' k').map (·.serial) := by
  unfold dropGroup
  split
  · rfl
  · exact flock?_modFlock_map (·.serial) s f k (fun fl => unhold { fl with group := none }) (fun _ => rfl) f' k'

theorem serial_setPcs (s : State) (f k : Nat) (p : Nat → VA × VA) (f' k' : Nat) :
    (flock? (setPcs s f k p) f' k').map (·.serial) = (flock? s f' k').map (·.serial) :=
  flock?_modFlock_map (·.serial) s f k _ (fun fl => by split <;> rfl) f' k'

theorem serial_endClause (s : State) (c : Cx) (y : Bool) (f' k' : Nat) :
    (flock? (endClause s c y) f' k').map (·.serial) = (flock? s f' k').map (·.serial) :=
  (serial_dropGroup _ c.f c.k c.c f' k').trans (flock?_modFlock_map (·.serial) s c.f c.k _ (fun _ => by rfl) f' k')

theorem serial_advance (s : State) (c : Cx) (h : Hd) (f' k' : Nat) :
    (flock? (advance s c h) f' k').map (·.serial) = (flock? s f' k').map (·.serial) := by
  unfold advance
  refine Eq.trans ?_ (serial_setPcs s c.f c.k (fun _ => nextWord c) f' k')
  by_cases hl : isLast c
  · rw [if_pos hl]; exact serial_endClause _ c _ f' k'
  · rw [if_neg hl]; exact flock?_modFlock_map (·.serial) _ c.f c.k _ (fun _ => by rfl) f' k'

/-! ## Words that move on, and words that wait -/

theorem onlyPlace_of_calm {s t : State} (h : Calm s t) (k : SameTrap s t) : OnlyPlace s t := h.onlyRegs k noV noS noP

theorem passes_of_advance {i : Instr} {s : State} {c : Cx} {h : Hd} (hi : issuing? s = some c)
    (e : exec i s = .next (advance s c h)) : Passes i s c :=
  ⟨_, e, onlyPlace_of_calm (calm_advance s c h) (sameTrap_advance s c h), atNext_advance hi (sameGroup_self hi) h⟩

/-- A mark that neither the registers nor the threads of a flock read keeps everything in place. -/
theorem onlyPlace_modFlock (s : State) (f k : Nat) (g : Flock → Flock) (hc : ∀ fl, FlockCalm fl (g fl))
    (ht : ∀ fl, (g fl).threads = fl.threads) : OnlyPlace s (modFlock s f k g) :=
  onlyPlace_of_calm (calm_modFlock s f k g (fun fl _ => hc fl)) (trapAt_modFlock s f k g (fun fl _ => by rw [ht fl]))

theorem OnlyPlace.trans {s t u : State} (h : OnlyPlace s t) (k : OnlyPlace t u) : OnlyPlace s u := OnlyRegs.trans h k

theorem AtNext.modFlock {s t : State} {c : Cx} (h : AtNext s t c) (g : Flock → Flock) (hg : ∀ fl, (g fl).threads = fl.threads) :
    AtNext s (modFlock t c.f c.k g) c := fun l hl th e hd => by
  rw [pcAt_modFlock t c.f c.k g hg]
  exact h l hl th e hd

/-- A group that keeps its lanes and waits for flags keeps its place (R28, R147). -/
theorem waits_of_waitFlags {i : Instr} {s : State} {c : Cx} (hi : issuing? s = some c) {m : BitVec 12} {ex : List Nat}
    (e : exec i s = .next (keepExec (waitFlags s c m) c ex)) : Waits i s c := by
  have hflags : OnlyPlace s (waitFlags s c m) := onlyPlace_modFlock s c.f c.k (fun fl => { fl with hold := .flags m })
    (fun _ => ⟨rfl, rfl, rfl, fun _ => rfl⟩) (fun _ => rfl)
  have hlanes : OnlyPlace (waitFlags s c m) (keepExec (waitFlags s c m) c ex) :=
    onlyPlace_modFlock _ c.f c.k (fun fl => { fl with ex := some ex }) (fun _ => ⟨rfl, rfl, rfl, fun _ => rfl⟩) (fun _ => rfl)
  refine ⟨_, e, hflags.trans hlanes, ?_, fun l => ?_⟩
  · calc groupAt (keepExec (waitFlags s c m) c ex) c.f c.k
      _ = groupAt (waitFlags s c m) c.f c.k := groupAt_modFlock _ c.f c.k _ (fun _ => by rfl) c.f c.k
      _ = groupAt s c.f c.k := groupAt_modFlock s c.f c.k _ (fun _ => by rfl) c.f c.k
      _ = some c.g := issuing?_groupAt hi
  · calc pcAt (keepExec (waitFlags s c m) c ex) c.f c.k l
      _ = pcAt (waitFlags s c m) c.f c.k l := pcAt_modFlock _ c.f c.k _ (fun _ => by rfl) c.f c.k l
      _ = pcAt s c.f c.k l := pcAt_modFlock s c.f c.k _ (fun _ => by rfl) c.f c.k l

theorem flagsZero_iff (fl : Flock) (m : BitVec 12) :
    flagsZero fl m = true ↔ ∀ n < 12, m.getLsbD n = true → flagVal fl n = 0 := by
  simp only [flagsZero, bitOf, List.all_eq_true, List.mem_range, Bool.or_eq_true, Bool.not_eq_true', beq_iff_eq]
  exact forall₂_congr fun n _ => by cases m.getLsbD n <;> simp

theorem exec_waitf {s : State} {c : Cx} {h : Hd} {ex : List Nat} (hi : Issues s c h ex) (m : BitVec 12) :
    exec (.waitf h m) s = .next (if flagsZero c.fl m then advance s c h else keepExec (waitFlags s c m) c ex) :=
  word_run hi (fun c ex => if flagsZero c.fl m then advance s c h else keepExec (waitFlags s c m) c ex)

/-- YIELD moves on, and then marks the flock as yielded (R146). -/
theorem exec_yield {s : State} {c : Cx} {h : Hd} {ex : List Nat} (hi : Issues s c h ex) :
    exec (.yield h) s = .next (modFlock (advance s c h) c.f c.k (fun fl => { fl with yielded := true })) :=
  word_run hi (fun c _ => modFlock (advance s c h) c.f c.k (fun fl => { fl with yielded := true }))

theorem Calm.flock_kept {s t : State} (h : Calm s t) {f k : Nat} {fl : Flock} (e : flock? s f k = some fl) :
    ∃ fl', flock? t f k = some fl' := by
  rcases h.flock f k with ⟨e', -⟩ | ⟨-, y, -, ey, -⟩
  · rw [e] at e'; cases e'
  · exact ⟨y, ey⟩

/-! ## Results that a word gathers from its executing lanes -/

section

variable {i : Instr} {s : State} {c : Cx} {h : Hd} {ex : List Nat}

theorem yieldsS_uword_lanes (hi : Issues s c h ex) {d : Opd} {v : Cx → List Nat → W64}
    (e : exec i s = uword h s (fun c ex => writeS s c d (v c ex))) : YieldsS i s c d (v c ex) :=
  yieldsS_of hi.1 (e.trans (uword_run hi _))

theorem yieldsP_uword_lanes (hi : Issues s c h ex) {d : Opd} {b : Cx → List Nat → Nat → Bool}
    (e : exec i s = uword h s (fun c ex => writePreds s c ex d (b c ex))) : YieldsP i s c ex d (b c ex) :=
  yieldsP_of hi (e.trans (uword_run hi _))

end

theorem hasS_calm {t u : State} (h : Calm t u) {c : Cx} {d : Opd} {v : W64} (k : HasS t c d v) : HasS u c d v :=
  fun n hn => (h.sameS _ _ _ (fun x => x)).trans (k n hn)

theorem SameGroup.hasS_writeS {u : State} {c : Cx} {fl : Flock} (hf : SameGroup u c fl) (d : Opd) (v : W64) :
    HasS (Machine.writeS u c d v) c d v := by
  rintro n rfl
  simp only [sregAt, Machine.writeS, flock?_here hf.here, sreg_setSreg, if_pos]

theorem hasP_writeS {u : State} {c : Cx} {l : Nat} {d : Opd} {b : Bool} (k : HasP u c l d b) (a : Opd) (v : W64) :
    HasP (writeS u c a v) c l d b := fun n hn h0 => by
  rw [← k n hn h0]
  cases a with
  | s r => exact predAt_modFlock _ _ _ _ _ _ _ _ (fun _ _ _ _ => rfl)
  | _ => rfl

theorem serial_writeS (s : State) (c : Cx) (d : Opd) (v : W64) (f k : Nat) :
    (flock? (writeS s c d v) f k).map (·.serial) = (flock? s f k).map (·.serial) := by
  cases d with
  | s n => exact flock?_modFlock_map (·.serial) s c.f c.k _ (fun _ => by rfl) f k
  | _ => rfl

/-- The ballot of R144: bit l is lane l's vote. -/
theorem getLsbD_laneMask (ex : List Nat) (g : Nat → Bool) {i : Nat} (hi : i < 64) :
    (laneMask ex g).getLsbD i = (decide (i ∈ ex) && g i) := by
  suffices ∀ m : W64, (ex.foldl (fun m l => if g l then m ||| (1#64 <<< l) else m) m).getLsbD i =
      (m.getLsbD i || (decide (i ∈ ex) && g i)) from (this 0).trans (by simp)
  induction ex with
  | nil => intro m; simp
  | cons a r ih =>
    intro m
    rw [List.foldl_cons, ih]
    by_cases h : i = a
    · subst h; cases hg : g i <;> simp [hi]
    · have clear : (1#64 <<< a).getLsbD i = false := by
        rw [← BitVec.twoPow_eq, BitVec.getLsbD_twoPow, decide_eq_false (Ne.symm h), Bool.and_false]
      cases hg : g a <;> simp [clear, h]

/-! ## The bellwether (R143) -/

/-- The choice that `bellwether` runs from a first lane ends at that lane or at one of the list, and no other has a lower TID. -/
theorem lowestTid_spec (c : Cx) (ls : List Nat) (b : Nat) :
    let r := ls.foldl (fun b l => if tidOf c l < tidOf c b then l else b) b
    r ∈ b :: ls ∧ ∀ l ∈ b :: ls, tidOf c r ≤ tidOf c l := by
  induction ls generalizing b with
  | nil => simp
  | cons a r ih =>
    obtain ⟨hmem, hmin⟩ := ih (if tidOf c a < tidOf c b then a else b)
    simp only [List.foldl_cons]
    by_cases h : tidOf c a < tidOf c b
    · simp only [if_pos h, List.mem_cons] at hmem hmin ⊢
      exact ⟨.inr hmem, by rintro l (rfl | hl); exacts [(hmin a (.inl rfl)).trans h.le, hmin l hl]⟩
    · simp only [if_neg h, List.mem_cons] at hmem hmin ⊢
      refine ⟨hmem.imp id .inr, ?_⟩
      rintro l (rfl | rfl | hl)
      exacts [hmin _ (.inl rfl), (hmin b (.inl rfl)).trans (not_lt.1 h), hmin l (.inr hl)]

theorem bellwether_spec (c : Cx) {ex : List Nat} (h : ex ≠ []) :
    bellwether c ex ∈ ex ∧ ∀ l ∈ ex, tidOf c (bellwether c ex) ≤ tidOf c l := by
  cases ex with
  | nil => exact absurd rfl h
  | cons a r =>
    obtain ⟨hmem, hmin⟩ := lowestTid_spec c (a :: r) a
    exact ⟨(List.mem_cons.1 hmem).elim (fun e => List.mem_cons.2 (.inl e)) id, fun l hl => hmin l (.tail a hl)⟩

/-! ## Tokens (R124) -/

/-- The lanes of a token are a sum of distinct powers of two. -/
theorem foldl_two_pow_eq_sum {members : List Nat} (hn : members.Nodup) :
    members.foldl (fun a l => a + 2 ^ l) 0 = ∑ l ∈ members.toFinset, 2 ^ l := by
  rw [List.sum_toFinset _ hn, List.sum_eq_foldl, List.foldl_map]

theorem testBit_sum_two_pow (t : Finset Nat) (i : Nat) : (∑ l ∈ t, 2 ^ l).testBit i = decide (i ∈ t) := by
  rw [Bool.eq_iff_iff, ← Nat.mem_bitIndices, ← List.mem_toFinset, Finset.toFinset_bitIndices_sum_two_pow, decide_eq_true_iff]

/-- A field of a number that is put together from what stands above it, the field, and what stands below it. -/
theorem bits_of_toNat_eq {w hi lo : Nat} {x : BitVec w} {above field below : Nat}
    (hx : x.toNat = (above * 2 ^ (hi + 1 - lo) + field) * 2 ^ lo + below) (hf : field < 2 ^ (hi + 1 - lo))
    (hb : below < 2 ^ lo) : bits x hi lo = field := by
  unfold bits
  rw [hx, Nat.shiftRight_eq_div_pow, Nat.add_div_of_dvd_right (Nat.dvd_mul_left _ _), Nat.mul_div_cancel _ (Nat.two_pow_pos lo),
    Nat.div_eq_of_lt hb, Nat.add_zero, Nat.mul_add_mod_self_right, Nat.mod_eq_of_lt hf]

theorem tokenOf_toNat {k : Nat} (hk : k < 256) (epoch : BitVec 8) (serial : BitVec 16) {members : List Nat}
    (hn : members.Nodup) (hm : ∀ l ∈ members, l < 32) :
    (tokenOf k epoch serial members).toNat =
      2 ^ 32 * (k * 2 ^ 24 + epoch.toNat * 2 ^ 16 + serial.toNat) + ∑ l ∈ members.toFinset, 2 ^ l := by
  have hsum : ∑ l ∈ members.toFinset, 2 ^ l < 2 ^ 32 := Nat.geomSum_lt le_rfl (fun l hl => hm l (List.mem_toFinset.1 hl))
  have he := epoch.isLt
  have hs := serial.isLt
  unfold tokenOf
  rw [foldl_two_pow_eq_sum hn, BitVec.toNat_ofNat]
  omega

/-- The fields of a token: the flock, its epoch, the serial number, and a bit for each member. -/
theorem tokenOf_fields {k : Nat} (hk : k < 256) (epoch : BitVec 8) (serial : BitVec 16) {members : List Nat}
    (hn : members.Nodup) (hm : ∀ l ∈ members, l < 32) :
    bits (tokenOf k epoch serial members) 63 56 = k ∧ bits (tokenOf k epoch serial members) 55 48 = epoch.toNat ∧
      bits (tokenOf k epoch serial members) 47 32 = serial.toNat ∧
      ∀ i < 32, (tokenOf k epoch serial members).getLsbD i = decide (i ∈ members) := by
  have hsum : ∑ l ∈ members.toFinset, 2 ^ l < 2 ^ 32 := Nat.geomSum_lt le_rfl (fun l hl => hm l (List.mem_toFinset.1 hl))
  have he := epoch.isLt
  have hs := serial.isLt
  have htok := tokenOf_toNat hk epoch serial hn hm
  refine ⟨?_, ?_, ?_, fun i hi => ?_⟩
  · exact bits_of_toNat_eq (above := 0)
      (below := epoch.toNat * 2 ^ 48 + serial.toNat * 2 ^ 32 + ∑ l ∈ members.toFinset, 2 ^ l) (by omega) hk (by omega)
  · exact bits_of_toNat_eq (above := k) (below := serial.toNat * 2 ^ 32 + ∑ l ∈ members.toFinset, 2 ^ l) (by omega) he (by omega)
  · exact bits_of_toNat_eq (above := k * 2 ^ 8 + epoch.toNat) (by omega) hs hsum
  · rw [BitVec.getLsbD, htok, Nat.testBit_two_pow_mul_add _ hsum, if_pos hi, testBit_sum_two_pow]
    simp only [List.mem_toFinset]

/-! ## CVGSET and ELECT as whole words -/

/-- A flock that has given out one more token (R124). -/
def countToken (fl : Flock) : Flock := { fl with serial := fl.serial + 1 }

theorem flockCalm_countToken (fl : Flock) : FlockCalm fl (countToken fl) := ⟨rfl, rfl, rfl, fun _ => rfl⟩

section

variable {s : State} {c : Cx} {h : Hd} {ex : List Nat}

theorem exec_cvgset (hi : Issues s c h ex) (d : Opd) : exec (.cvgset h d) s =
    .next (advance (modFlock (writeS s c d (tokenOf c.k c.fo.epoch c.fl.serial ex)) c.f c.k countToken) c h) :=
  uword_run hi (fun c ex => modFlock (writeS s c d (tokenOf c.k c.fo.epoch c.fl.serial ex)) c.f c.k countToken)

theorem exec_elect (hi : Issues s c h ex) (d a : Opd) : exec (.elect h d a) s =
    .next (advance (writeS (writePreds s c ex d (fun l => decide (l = bellwether c ex))) c a
      (BitVec.ofNat 64 (bellwether c ex))) c h) :=
  uword_run hi (fun c ex => writeS (writePreds s c ex d (fun l => decide (l = bellwether c ex))) c a
    (BitVec.ofNat 64 (bellwether c ex)))

/-- CVGSET writes the token of its executing lanes and counts the flock's tokens (R124). -/
theorem cvgset_yields (hi : Issues s c h ex) (d : Opd) :
    ∃ t, exec (.cvgset h d) s = .next t ∧ OnlyRegs s t noV (destS c d) noP ∧ AtNext s t c ∧
      HasS t c d (tokenOf c.k c.fo.epoch c.fl.serial ex) ∧
      (flock? t c.f c.k).map (·.serial) = some (c.fl.serial + 1) := by
  obtain ⟨fl, hf⟩ := (sameGroup_self hi.1).writeS d (tokenOf c.k c.fo.epoch c.fl.serial ex)
  have hcalm := calm_modFlock (writeS s c d (tokenOf c.k c.fo.epoch c.fl.serial ex)) c.f c.k countToken
    (fun fl _ => flockCalm_countToken fl)
  have htrap := trapAt_modFlock (writeS s c d (tokenOf c.k c.fo.epoch c.fl.serial ex)) c.f c.k countToken (fun _ _ => rfl)
  have hser : some fl.serial = some c.fl.serial := by
    simpa only [hf.here, issuing?_flock hi.1, Option.map_some] using
      serial_writeS s c d (tokenOf c.k c.fo.epoch c.fl.serial ex) c.f c.k
  refine ⟨_, exec_cvgset hi d, ?_, atNext_advance hi.1 (hf.mod countToken rfl rfl) h, ?_, ?_⟩
  · exact ((onlyRegs_writeS s c d _).trans (hcalm.onlyRegs htrap _ _ _)).trans (onlyRegs_advance _ c h _ _ _)
  · exact hasS_calm (hcalm.trans (calm_advance _ c h)) (hasS_writeS hi.1 d _)
  · rw [serial_advance, flock?_here hf.here, Option.map_some, countToken, Option.some.inj hser]

/-- ELECT writes the bellwether's lane, and says in each executing lane whether it is the bellwether (R143). -/
theorem elect_yields (hi : Issues s c h ex) (d a : Opd) :
    ∃ t, exec (.elect h d a) s = .next t ∧ OnlyRegs s t noV (destS c a) (destP c ex d) ∧ AtNext s t c ∧
      HasS t c a (BitVec.ofNat 64 (bellwether c ex)) ∧ ∀ l ∈ ex, HasP t c l d (decide (l = bellwether c ex)) := by
  obtain ⟨fl, hf⟩ := (sameGroup_self hi.1).writePreds ex d (fun l => decide (l = bellwether c ex))
  obtain ⟨fl', hf'⟩ := hf.writeS a (BitVec.ofNat 64 (bellwether c ex))
  have hpreds := (onlyRegs_writePreds s c ex d (fun l => decide (l = bellwether c ex))).mono (r' := destS c a)
    (fun _ _ _ _ x => x) (fun _ _ _ x => x.elim) (fun _ _ _ _ x => x)
  refine ⟨_, exec_elect hi d a, ?_, atNext_advance hi.1 hf' h, ?_, fun l hl => ?_⟩
  · exact (hpreds.trans ((onlyRegs_writeS _ c a _).mono (fun _ _ _ _ x => x) (fun _ _ _ x => x)
      (fun _ _ _ _ x => x.elim))).trans (onlyRegs_advance _ c h _ _ _)
  · exact hasS_calm (calm_advance _ c h) (hf.hasS_writeS a _)
  · exact hasP_calm (calm_advance _ c h)
      (hasP_writeS (hasP_writePreds (sameGroup_self hi.1) hi.2.1 d (fun l => decide (l = bellwether c ex)) l hl) a _)

end

/-! ## The statements -/

/-- Settles O1: NOP and YIELD move on, YIELD with its mark, and WAITF splits on whether the flags of its mask are zero. -/
theorem nopYieldWaitf : Obligations.NopYieldWaitf := by
  unfold Obligations.NopYieldWaitf
  intro s c h ex hi m
  simp only [issuing?_flagAt hi.1]
  refine ⟨?nop, ?yield, fun hz => ?moves, fun ⟨n, hn, hm, hne⟩ => ?waits⟩
  case nop => exact passes_of_advance hi.1 (uword_run hi (fun _ _ => s))
  case yield =>
    obtain ⟨fl, hfl⟩ := (calm_advance s c h).flock_kept (issuing?_flock hi.1)
    refine ⟨_, exec_yield hi, OnlyPlace.trans (onlyPlace_of_calm (calm_advance s c h) (sameTrap_advance s c h))
      (onlyPlace_modFlock _ c.f c.k _ (fun _ => ⟨rfl, rfl, rfl, fun _ => rfl⟩) (fun _ => rfl)),
      (atNext_advance hi.1 (sameGroup_self hi.1) h).modFlock _ (fun _ => rfl), ?_⟩
    rw [flock?_here hfl]
    rfl
  case moves => exact passes_of_advance hi.1 ((exec_waitf hi m).trans (by rw [if_pos ((flagsZero_iff c.fl m).2 hz)]))
  case waits =>
    have hf : ¬ flagsZero c.fl m = true := fun hz => hne ((flagsZero_iff c.fl m).1 hz n hn hm)
    exact waits_of_waitFlags hi.1 ((exec_waitf hi m).trans (by rw [if_neg hf]))

/-- Settles O4: each vote gathers the predicate over the executing lanes, CVGSET's token has the fields of R124, and the lane
that ELECT names is the bellwether. -/
theorem votingYields : Obligations.VotingYields := by
  unfold Obligations.VotingYields
  intro s c h ex hi d a neg p
  obtain ⟨tc, hcexec, hcregs, hcnext, hcS, hcser⟩ := cvgset_yields hi d
  obtain ⟨te, hexec, hregs, hnext, hS, hP⟩ := elect_yields hi d a
  have ⟨_, _, hne, _⟩ := hi
  obtain ⟨hbell, hlow⟩ := bellwether_spec c hne
  refine ⟨?any, ?all, ⟨laneMask ex p, fun i => getLsbD_laneMask ex p, ?ballot⟩, ?count,
    ⟨tc, _, hcexec, hcregs, hcnext, hcS, hcser, fun hn hlt hk => tokenOf_fields hk _ _ hn hlt⟩,
    te, bellwether c ex, hbell, hlow, hexec, hregs, hnext, hS, hP⟩
  case any =>
    simp only [← List.any_eq]
    exact yieldsP_uword_lanes hi (b := fun c ex _ => ex.any (fun l => xor (rdPred c l a) neg)) rfl
  case all =>
    simp only [← List.all_eq]
    exact yieldsP_uword_lanes hi (b := fun c ex _ => ex.all (fun l => xor (rdPred c l a) neg)) rfl
  case ballot => exact yieldsS_uword_lanes hi (v := fun c ex => laneMask ex (fun l => xor (rdPred c l a) neg)) rfl
  case count => exact yieldsS_uword_lanes hi (v := fun c ex => nat64 (ex.filter (fun l => xor (rdPred c l a) neg)).length) rfl

end Sys2Proof.Machine
